-- ==== Sys2Proof/Word.lean ====
section
/-! DEFINITION. The words of the block (R7): unsigned, bit 0 least significant. -/

namespace Sys2Proof

/-- One byte: payload bytes, protected identifiers, checksums (R61, R100). -/
abbrev Byte := BitVec 8

/-- One 32-bit register or command word (R38, R90). -/
abbrev Word := BitVec 32

/-- A CSR address (R40). -/
abbrev CsrAddr := BitVec 16

end Sys2Proof
end

