-- ==== Sys2Proof/Syntax.lean ====
section
/-! DEFINITION. The commands of the block: one constructor of `Instr` per row of R94 (spec/opcode_table.json). Operands that
do not fit the command word (R92) are in the port's operand registers, which are state. -/

namespace Sys2Proof

/-- The three directions (R23), in the order of their codes 0, 1, 2 (R104). Code 3 is illegal and names none. -/
inductive Dir
  /-- CAN-receive. -/
  | rx
  /-- CAN-transmit. -/
  | tx
  /-- USB-mirror-transmit. -/
  | usb
deriving DecidableEq, Repr, Inhabited

/-- The checksum kinds of R192; 0 Classic, 1 Enhanced (R105). -/
inductive CksKind
  | classic
  | enhanced
deriving DecidableEq, Repr, Inhabited

/-- The break strategies of R203; 0 `BRK_A`, 1 `BRK_B` (R105). -/
inductive BrkKind
  | brkA
  | brkB
deriving DecidableEq, Repr, Inhabited

/-- The sixteen commands of R94, with the fields that their formats carry in the command word (R91). -/
inductive Instr
  /-- MB.POST (R130): post the frame of A0 .. A3 to a direction. -/
  | mbPost (d : Dir)
  /-- MB.FETCH (R136): take the oldest frame of a direction. -/
  | mbFetch (d : Dir)
  /-- MB.EMPTY (R138): does a direction have nothing to fetch. -/
  | mbEmpty (d : Dir)
  /-- FLT.CLEAR (R161): mark every filter entry unused. -/
  | fltClear
  /-- FLT.SET (R162): store one filter entry, its identifier in A0. -/
  | fltSet (slot : BitVec 8) (ext : Bool)
  /-- FLT.EN (R163): set the enabled flag. -/
  | fltEn (n : Bool)
  /-- FLT.APPLY (R164): derive the bank table. -/
  | fltApply
  /-- LIN.PID (R194): the protected identifier of `id`. -/
  | linPid (id : BitVec 6)
  /-- LIN.CKS (R196): a checksum of the first `len` data bytes of A2, A3. -/
  | linCks (k : CksKind) (len : BitVec 4) (seed : Byte)
  /-- LIN.SEND (R198): one master-sent frame; `c` asks for a checksum byte. -/
  | linSend (id : BitVec 6) (len : BitVec 4) (c : Bool) (k : CksKind) (r : BrkKind)
  /-- LIN.XCHG (R200): a request and a response of `n` data bytes. -/
  | linXchg (id : BitVec 6) (len n : BitVec 4) (c : Bool) (k : CksKind) (r : BrkKind)
  /-- LIN.DIAG (R208): the diagnostic exchange of Cfg. -/
  | linDiag
  /-- LIN.CYCLE (R210): the status frame, then the diagnostic exchange. -/
  | linCycle
  /-- ACT.MARK (R252): a CAN frame was just received. -/
  | actMark
  /-- CSR.RD (R250). -/
  | csrRd (addr : CsrAddr)
  /-- CSR.WR (R251): write A0. -/
  | csrWr (addr : CsrAddr)
deriving DecidableEq, Repr

end Sys2Proof
end

