-- ==== Sys2Proof/Config.lean ====
section
/-! DEFINITION. The configuration record `Cfg` of R6 as plain data, the environment's inputs (R42) as plain data, and the
free values: opaque constants without a body, of which nothing can be proved. -/

namespace Sys2Proof

/-- How the data bytes of the status frame follow from the counter and the mode flags (R207): a function of the two, as plain
data. Every function is one (`StatusData.ofFun`). DESIGN CHOICE, log entry 3. -/
inductive StatusData
  /-- The reference layout of R209. -/
  | reference
  /-- A function given by its values: row `counter + 16 * mode` is the data of that counter and mode. -/
  | table (rows : List (List Byte))
deriving DecidableEq, Repr, Inhabited

/-- The table of a function of the counter and the mode. -/
def StatusData.ofFun (f : BitVec 4 → Byte → List Byte) : StatusData :=
  .table ((List.range 4096).map fun n => f (BitVec.ofNat 4 (n % 16)) (BitVec.ofNat 8 (n / 16)))

/-- R207 ("embedding"): the counter and each flag can be read back from the `len` data bytes. The reference layout has both in its
two bytes (R209); of a table, no two of its 4096 rows are equal. -/
def StatusData.embeds (len : Nat) : StatusData → Bool
  | .reference => decide (len = 2)
  | .table rows => decide (rows.length = 4096) && rows.all (fun r => decide (r.length = len)) && decide rows.Nodup

/-- The configuration record of R6. It is a field of State that no step writes (log entry 1). -/
@[ext] structure Cfg where
  /-- `NPORT`, the number of command ports. -/
  nport : Nat
  /-- `N[RX]`. -/
  nRx : Nat
  /-- `N[TX]`. -/
  nTx : Nat
  /-- `N[USB]`. -/
  nUsb : Nat
  /-- `B`, the number of hardware filter banks. -/
  banks : Nat
  /-- `IDE_BIT`, the position of the IDE marker in a bank register (R101). -/
  ideBit : Nat
  /-- `BASE_ID`; read by no rule of the block (D48). -/
  baseId : BitVec 11
  /-- `LIN_BAUD`; timing only (R324), read by no rule. -/
  linBaud : Nat
  /-- `BREAK_US`; timing only. -/
  breakUs : Nat
  /-- `BREAK_POLL_BOUND`; timing only. -/
  breakPollBound : Nat
  /-- `LIN_IO_TIMEOUT_MS`; timing only. -/
  linIoTimeoutMs : Nat
  /-- `LIN_PERIOD_MS`; timing only. -/
  linPeriodMs : Nat
  /-- `CAN_ACTIVE_TIMEOUT_MS`, the link-activity window (R253). -/
  canActiveTimeoutMs : Nat
  /-- The identifier of `StatusFrame`. -/
  statusId : BitVec 6
  /-- The length of `StatusFrame`. -/
  statusLen : Nat
  /-- The data bytes of `StatusFrame`. -/
  statusData : StatusData
  /-- `STATUS_CKS_EN`. -/
  statusCksEn : Bool
  /-- `STATUS_CKS_KIND`. -/
  statusCksKind : CksKind
  /-- `STATUS_BRK`. -/
  statusBrk : BrkKind
  /-- `DIAG_ID`. -/
  diagId : BitVec 6
  /-- `DIAG_REQ_DATA`; `DIAG_REQ_LEN` is its number of bytes. -/
  diagReqData : List Byte
  /-- `DIAG_REQ_CKS_EN`. -/
  diagReqCksEn : Bool
  /-- `DIAG_CKS_KIND`. -/
  diagCksKind : CksKind
  /-- `DIAG_BRK`. -/
  diagBrk : BrkKind
  /-- `DIAG_RESP_LEN`. -/
  diagRespLen : Nat
  /-- `MOV_BYTE`. -/
  movByte : Nat
  /-- `MOV_BIT`. -/
  movBit : Nat
  /-- `POS_BYTE`. -/
  posByte : Nat
deriving DecidableEq, Repr

/-- `N[d]`: slot count and FIFO capacity of a direction (R6, R24). -/
def Cfg.slots (c : Cfg) : Dir → Nat
  | .rx => c.nRx
  | .tx => c.nTx
  | .usb => c.nUsb

/-- `SETTINGS_REQ_ID = BASE_ID - 1` (R6). No rule of the block writes it anywhere (R167). -/
def Cfg.settingsReqId (c : Cfg) : BitVec 11 := c.baseId - 1

/-- The constraints of R6, R40 (`B <= 128`) and R207 ("embedding") on the configuration. -/
def Cfg.wf (c : Cfg) : Bool :=
  decide (1 ≤ c.nport) && decide (1 ≤ c.nRx) && decide (1 ≤ c.nTx) && decide (1 ≤ c.nUsb)
  && decide (1 ≤ c.banks) && decide (c.banks ≤ 128) && decide (c.ideBit ≤ 2) && decide (1 ≤ c.baseId.toNat)
  && decide (c.canActiveTimeoutMs < 2 ^ 31) && decide (c.statusLen ≤ 8) && decide (c.diagReqData.length ≤ 8)
  && decide (1 ≤ c.diagRespLen) && decide (c.diagRespLen ≤ 8) && decide (c.movByte < c.diagRespLen)
  && decide (c.movBit ≤ 7) && decide (c.posByte < c.diagRespLen) && c.statusData.embeds c.statusLen

/-- The reference configuration: the REF values of R6, R209 and of the test vectors. Fields for which no REF value exists
(`BASE_ID` and the timing fields, read by no rule) are 1. DESIGN CHOICE, log entry 2. -/
def Cfg.reference : Cfg where
  nport := 8
  nRx := 4
  nTx := 4
  nUsb := 4
  banks := 14
  ideBit := 2
  baseId := 1
  linBaud := 1
  breakUs := 1
  breakPollBound := 1
  linIoTimeoutMs := 1
  linPeriodMs := 1
  canActiveTimeoutMs := 1000
  statusId := 0x10
  statusLen := 2
  statusData := .reference
  statusCksEn := true
  statusCksKind := .enhanced
  statusBrk := .brkA
  diagId := 0x11
  diagReqData := []
  diagReqCksEn := false
  diagCksKind := .enhanced
  diagBrk := .brkA
  diagRespLen := 5
  movByte := 0
  movBit := 0
  posByte := 1

/-- What the environment does next (R5, R42): one event is one step of the model. -/
inductive Event
  /-- Port `p` is scheduled: it takes one micro-step (R63, R67). -/
  | port (p : Nat)
  /-- The user of port `p` writes operand register `A[p][i]` (R38). -/
  | write (p : Nat) (i : Fin 4) (v : Word)
  /-- The user of port `p` presents a command word (R90). -/
  | present (p : Nat) (w : Word)
  /-- The platform clock advances by `n` milliseconds (R45, R287). -/
  | clock (n : Nat)
  /-- The host asserts reset and releases it (R310). -/
  | reset
deriving DecidableEq, Repr, Inhabited

/-- One answer of the LIN transport (R195), in a form that fits every request: a break and a byte write look at `ack`
(`Done`/`Ok` or `NoConfirm`/`Timeout`); a read of `n` bytes looks at `bytes` (at least `n` bytes: `Ok` with the first `n`;
fewer: `Timeout` with those). Log entry 6. -/
@[ext] structure LinAnswer where
  ack : Bool
  bytes : List Byte
deriving DecidableEq, Repr, Inhabited

/-- FREE: the event of a step after the script's end (U1, U15; log entry 4). -/
opaque Config.freeEvent : Nat → Event

/-- FREE: the LIN transport's answer after the queue's end (U2, U3; log entry 6). -/
opaque Config.freeAnswer : Nat → LinAnswer

end Sys2Proof
end

