-- ==== Sys2Proof/WellFormed.lean ====
section
/-! DEFINITION. The constraints of R94 on the fields of a command. The direction's constraint (`dd != 3`) is in the type `Dir`. -/

namespace Sys2Proof

/-- R94's constraint `llll <= 8`, `nnnn <= 8`: a length field is 0 .. 8 (R95 (c), D45). -/
def lenOk (len : BitVec 4) : Bool := decide (len.toNat ≤ 8)

/-- The row constraints of R94: the lengths of LIN.CKS, LIN.SEND and LIN.XCHG are at most 8. -/
def Instr.wf : Instr → Bool
  | .linCks _ len _ => lenOk len
  | .linSend _ len _ _ _ => lenOk len
  | .linXchg _ len n _ _ _ => lenOk len && lenOk n
  | .mbPost _ => true
  | .mbFetch _ => true
  | .mbEmpty _ => true
  | .fltClear => true
  | .fltSet _ _ => true
  | .fltEn _ => true
  | .fltApply => true
  | .linPid _ => true
  | .linDiag => true
  | .linCycle => true
  | .actMark => true
  | .csrRd _ => true
  | .csrWr _ => true

end Sys2Proof
end

