-- ==== Sys2Proof/Decode.lean ====
section
/-! DEFINITION. The command word: its fields (R90, R91), the opcode map (R94), decoding (R106), and the encoder. -/

namespace Sys2Proof

/-- Why a word spells no command (R95). Every one of them ends the command with `IllegalCmd`. -/
inductive DecodeError
  /-- R95 (a): `op` is none of the sixteen. -/
  | unknownOp (op : BitVec 8)
  /-- R95 (b): a must-be-zero bit of the format is 1. -/
  | reservedBits
  /-- R95 (c): direction code 3 (R104). -/
  | badDirection
  /-- R95 (c): a length above 8. -/
  | badLength
deriving DecidableEq, Repr

/-- The field of width `n` at bit `lo` of a command word, `CW[lo+n-1 : lo]` (R7). -/
def cwField (w : Word) (lo n : Nat) : BitVec n := w.extractLsb' lo n

/-- One bit of a command word as a flag. -/
def cwBit (w : Word) (i : Nat) : Bool := w.getLsbD i

/-- R104: direction codes. -/
def dirOfCode (v : BitVec 2) : Option Dir :=
  if v = 0 then some .rx else if v = 1 then some .tx else if v = 2 then some .usb else none

/-- R104. -/
def dirCode : Dir → BitVec 2
  | .rx => 0
  | .tx => 1
  | .usb => 2

/-- R105: `k`. -/
def kindOfBit (b : Bool) : CksKind := if b then .enhanced else .classic

/-- R105: `k`. -/
def kindBit : CksKind → Bool
  | .classic => false
  | .enhanced => true

/-- R105: `r`. -/
def brkOfBit (b : Bool) : BrkKind := if b then .brkB else .brkA

/-- R105: `r`. -/
def brkBit : BrkKind → Bool
  | .brkA => false
  | .brkB => true

/-- A format's must-be-zero test (R91): the bits of `mask` are zero in `w`, else the word is illegal (R95 (b)). -/
def mustBeZero (w mask : Word) (k : Except DecodeError Instr) : Except DecodeError Instr :=
  if w &&& mask = 0 then k else .error .reservedBits

/-- A decoded command, or R95 (c) when the row's length constraint fails. -/
def lengthChecked (i : Instr) : Except DecodeError Instr :=
  if i.wf then .ok i else .error .badLength

/-- Format Z: no field. -/
def decodeZ (w : Word) (i : Instr) : Except DecodeError Instr :=
  mustBeZero w 0x00FFFFFF (.ok i)

/-- Format D: `dd = CW[17:16]`. -/
def decodeD (w : Word) (mk : Dir → Instr) : Except DecodeError Instr :=
  mustBeZero w 0x00FCFFFF
    (match dirOfCode (cwField w 16 2) with
     | some d => .ok (mk d)
     | none => .error .badDirection)

/-- Format S: slot `CW[23:16]`, extended flag `CW[8]`. -/
def decodeS (w : Word) : Except DecodeError Instr :=
  mustBeZero w 0x0000FEFF (.ok (.fltSet (cwField w 16 8) (cwBit w 8)))

/-- Format E: `n = CW[0]`. -/
def decodeE (w : Word) : Except DecodeError Instr :=
  mustBeZero w 0x00FFFFFE (.ok (.fltEn (cwBit w 0)))

/-- Format P: identifier `CW[5:0]`. -/
def decodeP (w : Word) : Except DecodeError Instr :=
  mustBeZero w 0x00FFFFC0 (.ok (.linPid (cwField w 0 6)))

/-- Format K: kind `CW[16]`, length `CW[11:8]`, seed `CW[7:0]`. -/
def decodeK (w : Word) : Except DecodeError Instr :=
  mustBeZero w 0x00FEF000
    (lengthChecked (.linCks (kindOfBit (cwBit w 16)) (cwField w 8 4) (cwField w 0 8)))

/-- Format T: `c = CW[16]`, `k = CW[17]`, `r = CW[18]`, length `CW[11:8]`, identifier `CW[5:0]`. -/
def decodeT (w : Word) : Except DecodeError Instr :=
  mustBeZero w 0x00F8F0C0
    (lengthChecked (.linSend (cwField w 0 6) (cwField w 8 4) (cwBit w 16)
      (kindOfBit (cwBit w 17)) (brkOfBit (cwBit w 18))))

/-- Format X: as T, with the response length `n = CW[15:12]`. -/
def decodeX (w : Word) : Except DecodeError Instr :=
  mustBeZero w 0x00F800C0
    (lengthChecked (.linXchg (cwField w 0 6) (cwField w 8 4) (cwField w 12 4) (cwBit w 16)
      (kindOfBit (cwBit w 17)) (brkOfBit (cwBit w 18))))

/-- Format C: CSR address `CW[15:0]`. -/
def decodeC (w : Word) (mk : CsrAddr → Instr) : Except DecodeError Instr :=
  mustBeZero w 0x00FF0000 (.ok (mk (cwField w 0 16)))

/-- R106: the decoding procedure. Total; it reads no state of the block. -/
def decode (w : Word) : Except DecodeError Instr :=
  match (cwField w 24 8).toNat with
  | 0x10 => decodeD w .mbPost
  | 0x11 => decodeD w .mbFetch
  | 0x12 => decodeD w .mbEmpty
  | 0x20 => decodeZ w .fltClear
  | 0x21 => decodeS w
  | 0x22 => decodeE w
  | 0x23 => decodeZ w .fltApply
  | 0x30 => decodeP w
  | 0x31 => decodeK w
  | 0x32 => decodeT w
  | 0x33 => decodeX w
  | 0x34 => decodeZ w .linDiag
  | 0x35 => decodeZ w .linCycle
  | 0x40 => decodeZ w .actMark
  | 0x50 => decodeC w .csrRd
  | 0x51 => decodeC w .csrWr
  | _ => .error (.unknownOp (cwField w 24 8))

/-- The command word from its four 8-bit fields, `{op, a, b, c}` (R90). -/
def cwOf (op a b c : BitVec 8) : Word := op ++ a ++ b ++ c

/-- A flag as a byte with the flag at bit 0. -/
def flagByte (b : Bool) : BitVec 8 := (BitVec.ofBool b).setWidth 8

/-- The flags field `00000rkc` of formats T and X (R105). -/
def flagsRkc (c : Bool) (k : CksKind) (r : BrkKind) : BitVec 8 :=
  (BitVec.ofBool (brkBit r) ++ BitVec.ofBool (kindBit k) ++ BitVec.ofBool c).setWidth 8

/-- The command word of a command, from the format table R91 and the opcode map R94. -/
def encode : Instr → Word
  | .mbPost d => cwOf 0x10 ((dirCode d).setWidth 8) 0 0
  | .mbFetch d => cwOf 0x11 ((dirCode d).setWidth 8) 0 0
  | .mbEmpty d => cwOf 0x12 ((dirCode d).setWidth 8) 0 0
  | .fltClear => cwOf 0x20 0 0 0
  | .fltSet slot ext => cwOf 0x21 slot (flagByte ext) 0
  | .fltEn n => cwOf 0x22 0 0 (flagByte n)
  | .fltApply => cwOf 0x23 0 0 0
  | .linPid id => cwOf 0x30 0 0 (id.setWidth 8)
  | .linCks k len seed => cwOf 0x31 (flagByte (kindBit k)) (len.setWidth 8) seed
  | .linSend id len c k r => cwOf 0x32 (flagsRkc c k r) (len.setWidth 8) (id.setWidth 8)
  | .linXchg id len n c k r => cwOf 0x33 (flagsRkc c k r) (n ++ len) (id.setWidth 8)
  | .linDiag => cwOf 0x34 0 0 0
  | .linCycle => cwOf 0x35 0 0 0
  | .actMark => cwOf 0x40 0 0 0
  | .csrRd addr => cwOf 0x50 0 (addr.extractLsb' 8 8) (addr.extractLsb' 0 8)
  | .csrWr addr => cwOf 0x51 0 (addr.extractLsb' 8 8) (addr.extractLsb' 0 8)

/-- One row of the opcode map R94. -/
structure OpRow where
  mnemonic : String
  pattern : Word
  mask : Word
deriving DecidableEq, Repr

/-- The opcode map R94, `match` and `mask` as the table has them. -/
def opcodeTable : List OpRow :=
  [⟨"MB.POST", 0x10000000, 0xFFFCFFFF⟩, ⟨"MB.FETCH", 0x11000000, 0xFFFCFFFF⟩,
   ⟨"MB.EMPTY", 0x12000000, 0xFFFCFFFF⟩, ⟨"FLT.CLEAR", 0x20000000, 0xFFFFFFFF⟩,
   ⟨"FLT.SET", 0x21000000, 0xFF00FEFF⟩, ⟨"FLT.EN", 0x22000000, 0xFFFFFFFE⟩,
   ⟨"FLT.APPLY", 0x23000000, 0xFFFFFFFF⟩, ⟨"LIN.PID", 0x30000000, 0xFFFFFFC0⟩] ++
  [⟨"LIN.CKS", 0x31000000, 0xFFFEF000⟩, ⟨"LIN.SEND", 0x32000000, 0xFFF8F0C0⟩,
   ⟨"LIN.XCHG", 0x33000000, 0xFFF800C0⟩, ⟨"LIN.DIAG", 0x34000000, 0xFFFFFFFF⟩,
   ⟨"LIN.CYCLE", 0x35000000, 0xFFFFFFFF⟩, ⟨"ACT.MARK", 0x40000000, 0xFFFFFFFF⟩,
   ⟨"CSR.RD", 0x50000000, 0xFFFF0000⟩, ⟨"CSR.WR", 0x51000000, 0xFFFF0000⟩]

/-- R94: a word spells the command of a row when `w & mask = match` (and the row's constraint holds). -/
def OpRow.spells (row : OpRow) (w : Word) : Bool := decide (w &&& row.mask = row.pattern)

/-- R94's column "constraint" of the row of a mnemonic: direction code 3 and lengths above 8 are excluded. -/
def OpRow.constraint (row : OpRow) (w : Word) : Bool :=
  if row.mnemonic ∈ ["MB.POST", "MB.FETCH", "MB.EMPTY"] then decide (cwField w 16 2 ≠ 3)
  else if row.mnemonic ∈ ["LIN.CKS", "LIN.SEND"] then decide ((cwField w 8 4).toNat ≤ 8)
  else if row.mnemonic = "LIN.XCHG" then decide ((cwField w 8 4).toNat ≤ 8) && decide ((cwField w 12 4).toNat ≤ 8)
  else true

/-- The row of R94 of a command. -/
def Instr.mnemonic : Instr → String
  | .mbPost _ => "MB.POST"
  | .mbFetch _ => "MB.FETCH"
  | .mbEmpty _ => "MB.EMPTY"
  | .fltClear => "FLT.CLEAR"
  | .fltSet _ _ => "FLT.SET"
  | .fltEn _ => "FLT.EN"
  | .fltApply => "FLT.APPLY"
  | .linPid _ => "LIN.PID"
  | .linCks _ _ _ => "LIN.CKS"
  | .linSend _ _ _ _ _ => "LIN.SEND"
  | .linXchg _ _ _ _ _ _ => "LIN.XCHG"
  | .linDiag => "LIN.DIAG"
  | .linCycle => "LIN.CYCLE"
  | .actMark => "ACT.MARK"
  | .csrRd _ => "CSR.RD"
  | .csrWr _ => "CSR.WR"

/-- The decoder on a word given as the opcode table numbers its bits: one 32-bit command word per command (R96). -/
def decodeTableWord (nbits w : Nat) : Option Instr :=
  match decode (BitVec.ofNat 32 (w % 2 ^ nbits)) with
  | .ok i => some i
  | .error _ => none

end Sys2Proof
end

