-- ==== Sys2Proof/Machine/State.lean ====
section
/-! DEFINITION. The state of the block (R20) as plain data, the reasons a step can stop, and the state after reset (R43). -/

namespace Sys2Proof.Machine

open Sys2Proof

/-- Why the machine stops with a fault. -/
inductive Fault
  /-- Raised by `step` and by every meaning when the port's micro-phase (R39) is no position of the command it presents (a
  one-step command found outside READY, MB.POST found in F_POPPED, ...). No run reaches such a state (`State.portsFit` in
  Safety.lean is kept by every step), so it stops no program. Safe: log entry 17. -/
  | phaseMismatch
deriving DecidableEq, Repr

/-- Why an instruction has no meaning. -/
inductive Refusal
  /-- Raised by an arm of `exec` whose instruction has no meaning yet; no arm is so now. Safe. -/
  | notModelled (mnemonic : String)
deriving DecidableEq, Repr

/-! ### Status codes and phases -/

/-- The status codes a command can end with (R103, R270). Code 7 (StartFailure) and 8 .. 15 are never written, so they
have no constructor. -/
inductive Status
  | ok
  | full
  | empty
  | timeout
  | checksumMismatch
  | configError
  | illegalCmd
deriving DecidableEq, Repr

/-- The values of `LIN_PHASE` (R31); `brk` is BREAK. -/
inductive LinPhase
  | idle
  | brk
  | sync
  | pid
  | data
  | cks
  | resp
  | validate
deriving DecidableEq, Repr

/-! ### Mailbox -/

/-- A frame (R21): identifier, extended flag and exactly `len` payload bytes; `len` is `data.length` (log entry 25). -/
structure Frame where
  id : BitVec 29
  ext : Bool
  data : List Byte
deriving DecidableEq, Repr

/-- R21: a frame's length. -/
def Frame.len (f : Frame) : Nat := f.data.length

/-- R21: at most 8 bytes, and a standard identifier fits 11 bits. -/
def Frame.wf (f : Frame) : Bool := decide (f.data.length ≤ 8) && (f.ext || decide (f.id.toNat < 2 ^ 11))

/-- R22: the mark of a slot. -/
inductive SlotMark
  | free
  | occupied
deriving DecidableEq, Repr

/-- A slot (R22). The frame of a Free slot has no meaning. -/
@[ext] structure Slot where
  occ : SlotMark
  frm : Frame
deriving DecidableEq, Repr

/-- One direction of the mailbox (R23): its slots, its FIFO of slot references (oldest first, R24), its drop counter (R26). -/
@[ext] structure DirStore where
  slots : List Slot
  fifo : List Nat
  drops : Word
deriving DecidableEq, Repr

/-- The three directions (R23). -/
@[ext] structure Mailbox where
  rx : DirStore
  tx : DirStore
  usb : DirStore
deriving DecidableEq, Repr

/-! ### Filter packer -/

/-- A filter entry (R27): the RAW identifier and the extended flag. -/
structure FilterEntry where
  id : Word
  ext : Bool
deriving DecidableEq, Repr

/-- A bank's mode (R29): `MASK` = 0, `LIST` = 1. -/
inductive BankMode
  | mask
  | list
deriving DecidableEq, Repr

/-- A bank's scale (R29): `S32` = 1; 0 never occurs in an active bank. -/
inductive BankScale
  | s0
  | s32
deriving DecidableEq, Repr

/-- A bank descriptor (R29). -/
@[ext] structure Bank where
  active : Bool
  index : BitVec 8
  fifo : BitVec 1
  mode : BankMode
  scale : BankScale
  reg1 : Word
  reg2 : Word
deriving DecidableEq, Repr

/-- The filter packer's state (R27 to R29). -/
@[ext] structure Filter where
  ents : List FilterEntry
  enabled : Bool
  banks : List Bank
  nActive : Nat
deriving DecidableEq, Repr

/-! ### LIN engine -/

/-- The working frame `LF` (R30). It has no meaning while the phase is IDLE. -/
@[ext] structure LinFrame where
  id : BitVec 6
  len : Nat
  data : List Byte
  pid : Byte
  cks : Byte
deriving DecidableEq, Repr

/-- One event of the wire history (R44). -/
inductive WireEvent
  /-- `Brk(k, confirmed)`. -/
  | brk (k : BrkKind) (confirmed : Bool)
  /-- `Tx(b)`. -/
  | tx (b : Byte)
  /-- `Rx(b)`. -/
  | rx (b : Byte)
deriving DecidableEq, Repr

/-- The model's own position inside a LIN command beside `LIN_PHASE` (log entry 14). -/
inductive LinStage
  /-- LIN.CYCLE owns the engine and has not yet advanced the counter (R206). -/
  | frame
  /-- A transaction is under way, or the engine is idle. -/
  | xfer
  /-- LIN.DIAG's telemetry is written and the transaction has not ended yet (R208, log entry 13). -/
  | telemDone
deriving DecidableEq, Repr

/-- The LIN engine's state (R30 to R36, R44, R46). -/
@[ext] structure Lin where
  /-- `LF` (R30). -/
  lf : LinFrame
  /-- `LIN_PHASE` (R31). -/
  phase : LinPhase
  /-- `LIN_COUNTER` (R32). -/
  counter : BitVec 4
  /-- `LIN_MODE` (R33): `[0]` slow, `[1]` fast, `[2]` interior, `[3]` swipe, `[7:4]` speed_level. -/
  mode : Byte
  /-- `LIN_TELEM.moving` (R34). -/
  moving : Bool
  /-- `LIN_TELEM.position` (R34). -/
  position : Byte
  /-- `LIN_STATUS.code` (R35). -/
  stCode : Status
  /-- `LIN_STATUS.phase` (R35). -/
  stPhase : LinPhase
  /-- `LIN_CTRL.WAKE` (R36). -/
  wake : Bool
  /-- `LinOwner` (R46). -/
  owner : Option Nat
  /-- The ghost history `Wire` (R44). -/
  wire : List WireEvent
  /-- The model's own: how many bytes of `W` (R197) the transport has accepted. -/
  idx : Nat
  /-- The model's own: the response bytes between the read and the validation (R199). -/
  rx : List Byte
  /-- The model's own position (log entry 14). -/
  stage : LinStage
  /-- The model's own: LIN.CYCLE's outcome `(c1, p1)` once the status frame has ended (R210). -/
  first : Option (Status × LinPhase)
deriving DecidableEq, Repr

/-! ### System and ports -/

/-- The link-activity state (R37). -/
@[ext] structure Activity where
  last : Word
  seen : Bool
deriving DecidableEq, Repr

/-- Four registers: `A[p][0..3]` or `R[p][0..3]` (R38). -/
@[ext] structure Quad where
  w0 : Word
  w1 : Word
  w2 : Word
  w3 : Word
deriving DecidableEq, Repr

/-- Which micro-step of MB.POST a port that holds a claimed slot takes next (R130). -/
inductive PostPos
  /-- P2, the copy-in. -/
  | copy
  /-- P3, the push. -/
  | publish
  /-- P4, the rollback after a failed push (R134). -/
  | rollback
deriving DecidableEq, Repr

/-- The hidden micro-phase of a port (R39). -/
inductive MicroPhase
  /-- `READY`. -/
  | ready
  /-- `P_MIRROR_CLAIMED`, holding `(USB, s)`; `copied` once step M2 is done. -/
  | pMirrorClaimed (s : Nat) (copied : Bool)
  /-- Between the end of the mirror offer and step P1 (log entry 11). -/
  | pPrimary
  /-- `P_CLAIMED`, holding `(d, s)`. -/
  | pClaimed (d : Dir) (s : Nat) (pos : PostPos)
  /-- `F_POPPED`, holding `(d, s)`; the frame once step F2 has copied it out. -/
  | fPopped (d : Dir) (s : Nat) (out : Option Frame)
  /-- `L_WAIT` (R204). -/
  | lWait
  /-- `L_RUN`. -/
  | lRun
deriving DecidableEq, Repr

/-- A command port (R38, R39). -/
@[ext] structure Port where
  /-- The operand registers `A0 .. A3`, written by the port's user only. -/
  a : Quad
  /-- The result registers `R0 .. R3`. -/
  r : Quad
  /-- The status register `ST` (R103). -/
  st : Word
  /-- The micro-phase (R39). -/
  phase : MicroPhase
  /-- The command word the port presents (R90). -/
  cw : Word
  /-- The model's own: a presented command has not ended yet (log entry 8). -/
  req : Bool
  /-- The model's own: `A0 .. A3` at the moment the command in progress was presented, which is the moment it started (R90, R92,
  D1; log entry 9). The command's operands are these. -/
  lat : Quad
deriving DecidableEq, Repr

/-! ### Environment and the whole state -/

/-- The inputs of the block (R42), none of them state of it: what happens next (log entry 4), the transport's answers (log
entry 6), `NOW_MS` (R45, log entry 7), and how many free values were drawn. -/
@[ext] structure Env where
  script : List Event
  answers : List LinAnswer
  now : Word
  drawn : Nat
deriving DecidableEq, Repr

/-- The whole state: the block's (R20), and the model's own `cfg`, `env` and `cur`. -/
@[ext]
structure State where
  /-- The configuration (R6); no step writes it (log entry 1). -/
  cfg : Cfg
  /-- The environment's inputs (R42). -/
  env : Env
  /-- The port whose micro-step `exec` takes; set by `step`. -/
  cur : Nat
  /-- The ports (R38, R283). -/
  ports : List Port
  /-- MB (R21 to R26). -/
  mb : Mailbox
  /-- FLT (R27 to R29). -/
  flt : Filter
  /-- LIN (R30 to R36, R44, R46). -/
  lin : Lin
  /-- The link-activity state (R37). -/
  act : Activity
deriving DecidableEq, Repr

/-! ### Reset values (R43) -/

/-- R43 leaves a Free slot's frame unspecified; it is never read. DESIGN CHOICE, log entry 15. -/
def Frame.reset : Frame := ⟨0, false, []⟩

/-- R43: Free. -/
def Slot.reset : Slot := ⟨.free, Frame.reset⟩

/-- R43: `n` Free slots, an empty FIFO, no drops. -/
def DirStore.reset (n : Nat) : DirStore := ⟨List.replicate n Slot.reset, [], 0⟩

/-- R43, for every direction. -/
def Mailbox.reset (c : Cfg) : Mailbox :=
  ⟨DirStore.reset c.nRx, DirStore.reset c.nTx, DirStore.reset c.nUsb⟩

/-- R43: unused. -/
def FilterEntry.unused : FilterEntry := ⟨0, false⟩

/-- R43, R168: an inactive bank, all fields zero. -/
def Bank.inactive : Bank := ⟨false, 0, 0, .mask, .s0, 0, 0⟩

/-- R43, R311: entries unused, filtering disabled, no bank programmed. -/
def Filter.reset (c : Cfg) : Filter :=
  ⟨List.replicate (2 * c.banks) FilterEntry.unused, false, List.replicate c.banks Bank.inactive, 0⟩

/-- R43 leaves `LF` unspecified; it is never read while IDLE. DESIGN CHOICE, log entry 15. -/
def LinFrame.reset : LinFrame := ⟨0, 0, [], 0, 0⟩

/-- R43. -/
def Lin.reset : Lin where
  lf := LinFrame.reset
  phase := .idle
  counter := 0
  mode := 0
  moving := false
  position := 0
  stCode := .ok
  stPhase := .idle
  wake := false
  owner := none
  wire := []
  idx := 0
  rx := []
  stage := .xfer
  first := none

/-- R43. -/
def Activity.reset : Activity := ⟨0, false⟩

/-- R43. -/
def Quad.zero : Quad := ⟨0, 0, 0, 0⟩

/-- R43: registers 0, `READY`; `CW` is 0 (log entry 8). -/
def Port.reset : Port := ⟨Quad.zero, Quad.zero, 0, .ready, 0, false, Quad.zero⟩

/-- The environment before anything is known of it: nothing scripted, so everything is free; `NOW_MS` is 0 (log entry 7). -/
def Env.reset : Env := ⟨[], [], 0, 0⟩

/-- The state after reset (R43) of a block with configuration `c` in environment `e`. -/
def State.resetWith (c : Cfg) (e : Env) : State where
  cfg := c
  env := e
  cur := 0
  ports := List.replicate c.nport Port.reset
  mb := Mailbox.reset c
  flt := Filter.reset c
  lin := Lin.reset
  act := Activity.reset

/-- The machine right after reset, in the reference configuration (log entry 2). -/
def State.reset : State := State.resetWith Cfg.reference Env.reset

end Sys2Proof.Machine
end

