-- ==== Sys2Proof/Machine/Flags.lean ====
section
/-! DEFINITION. The block has no condition codes (R41). What a command leaves instead is its status; here are the codes of the
status and of the phases, and the status words. -/

namespace Sys2Proof.Machine

open Sys2Proof

/-- The status codes' numbers (R103, R270). -/
def Status.code : Status → BitVec 4
  | .ok => 0
  | .full => 1
  | .empty => 2
  | .timeout => 3
  | .checksumMismatch => 4
  | .configError => 5
  | .illegalCmd => 6

/-- The numbers of the LIN phases (R31). -/
def LinPhase.code : LinPhase → BitVec 4
  | .idle => 0
  | .brk => 1
  | .sync => 2
  | .pid => 3
  | .data => 4
  | .cks => 5
  | .resp => 6
  | .validate => 7

/-- `code | phase << 4` in 32 bits: the layout of `ST` (R103) and of `LIN_STATUS` (R40). -/
def stWord (c : Status) (ph : LinPhase) : Word := (ph.code ++ c.code : BitVec 8).setWidth 32

/-- R0 of LIN.CYCLE: `c1 | p1 << 4 | c2 << 8 | p2 << 12` (R93, R210). -/
def cycleWord (c1 : Status) (p1 : LinPhase) (c2 : Status) (p2 : LinPhase) : Word :=
  (p2.code ++ c2.code ++ p1.code ++ c1.code : BitVec 16).setWidth 32

/-- `ST` of LIN.CYCLE: the first non-`OK` outcome of its two transactions, in issue order (R210, R275). -/
def cycleStatus (c1 : Status) (p1 : LinPhase) (c2 : Status) (p2 : LinPhase) : Status × LinPhase :=
  if c1 ≠ .ok then (c1, p1) else (c2, p2)

/-- A flag as a 32-bit register value with the flag at bit 0. -/
def flagWord (b : Bool) : Word := (BitVec.ofBool b).setWidth 32

/-- `sat32(x + 1)`: the saturating drop count (R26, R141). -/
def satSucc (x : Word) : Word := if x = 0xFFFFFFFF then x else x + 1

end Sys2Proof.Machine
end

