-- ==== Sys2Proof/Machine/Operands.lean ====
section
/-! DEFINITION. Operand and result assembly (R92, R93): how frames and data bytes lie in the four registers. -/

namespace Sys2Proof.Machine

open Sys2Proof

/-- Byte `k` of a register, `w[8k+7 : 8k]` (R61 (c)). -/
def wordByte (w : Word) (k : Nat) : Byte := w.extractLsb' (8 * k) 8

/-- The register whose bytes 0 .. 3 are given, little-endian (R61 (c)). -/
def wordOfBytes (b0 b1 b2 b3 : Byte) : Word := b3 ++ b2 ++ b1 ++ b0

/-- The eight data bytes of an operand quad: 0 .. 3 in register 2, 4 .. 7 in register 3 (R92). -/
def Quad.allBytes (q : Quad) : List Byte :=
  [wordByte q.w2 0, wordByte q.w2 1, wordByte q.w2 2, wordByte q.w2 3,
   wordByte q.w3 0, wordByte q.w3 1, wordByte q.w3 2, wordByte q.w3 3]

/-- The first `len` data bytes (R92: bytes at positions `>= len` are ignored). -/
def Quad.bytes (q : Quad) (len : Nat) : List Byte := q.allBytes.take len

/-- Result register 2: data bytes 0 .. 3, absent ones `0x00` (R93). -/
def packLow (bs : List Byte) : Word := wordOfBytes (bs.getD 0 0) (bs.getD 1 0) (bs.getD 2 0) (bs.getD 3 0)

/-- Result register 3: data bytes 4 .. 7, absent ones `0x00` (R93). -/
def packHigh (bs : List Byte) : Word := wordOfBytes (bs.getD 4 0) (bs.getD 5 0) (bs.getD 6 0) (bs.getD 7 0)

/-- `OperandsLegal(A0, A1)` of MB.POST (R142). -/
def operandsLegal (q : Quad) : Bool :=
  decide (q.w0.extractLsb' 29 2 = 0) && decide (q.w1.extractLsb' 4 28 = 0)
  && decide ((q.w1.extractLsb' 0 4).toNat ≤ 8)
  && (q.w0.getLsbD 31 || decide (q.w0.extractLsb' 11 18 = 0))

/-- The frame that MB.POST's operands spell (R92, R130): id `A0[28:0]`, ext `A0[31]`, len `A1[3:0]`, data from `{A3, A2}`. -/
def Quad.frame (q : Quad) : Frame :=
  ⟨q.w0.extractLsb' 0 29, q.w0.getLsbD 31, q.bytes (q.w1.extractLsb' 0 4).toNat⟩

/-- The results of MB.FETCH (R93, R136): `R0 = id | ext << 31`, `R1 = len`, data in `R2`, `R3`. -/
def Frame.results (f : Frame) : Quad :=
  ⟨BitVec.ofBool f.ext ++ (0 : BitVec 2) ++ f.id, BitVec.ofNat 32 f.len, packLow f.data, packHigh f.data⟩

/-- The results of LIN.XCHG and LIN.DIAG (R93): the received checksum byte, the response length, the response bytes. -/
def responseResults (cb : Byte) (n : Nat) (rx : List Byte) : Quad :=
  ⟨cb.setWidth 32, BitVec.ofNat 32 n, packLow rx, packHigh rx⟩

/-- Write register `i` of a quad. -/
def Quad.write (q : Quad) (i : Fin 4) (v : Word) : Quad :=
  match i with
  | 0 => { q with w0 := v }
  | 1 => { q with w1 := v }
  | 2 => { q with w2 := v }
  | 3 => { q with w3 := v }

end Sys2Proof.Machine
end

