-- ==== Sys2Proof/Machine/Ops.lean ====
section
/-! DEFINITION. The named operations over the state (R8): ports, the mailbox micro-steps (R63, R131 to R137), the LIN
transport's requests (R195), and the end of a command (`return <Status>`, this block's `raise`: R8, R272). -/

namespace Sys2Proof.Machine

open Sys2Proof Host

/-! ### Ports -/

/-- The port whose micro-step is being taken. -/
def State.me (s : State) : Port := (s.ports[s.cur]?).getD Port.reset

/-- Change the acting port. A port number that names no port changes nothing. -/
def State.updMe (s : State) (f : Port → Port) : State := { s with ports := s.ports.modify s.cur f }

/-- The acting port goes to another micro-phase (R39). -/
def State.goto (s : State) (ph : MicroPhase) : State := s.updMe fun P => { P with phase := ph }

/-- Write result register `R0` of the acting port (R93). -/
def State.setR0 (s : State) (v : Word) : State := s.updMe fun P => { P with r := { P.r with w0 := v } }

/-- Write all four result registers of the acting port (R93). -/
def State.setR (s : State) (q : Quad) : State := s.updMe fun P => { P with r := q }

/-- `return <Status>` (R8, R270, R272): `ST` is written, the port is READY again, its command has ended. Nothing else
happens: there is no trap, no saved state, no transfer of control. -/
def State.endCmd (s : State) (c : Status) (ph : LinPhase) : State :=
  s.updMe fun P => { P with st := stWord c ph, phase := .ready, req := false }

/-- A command of one micro-step (R63, R325), from READY: `k` is the whole of it. -/
def State.oneStep (s : State) (k : State → State) : Outcome State Fault Refusal :=
  match s.me.phase with
  | .ready => .next (k s)
  | .pMirrorClaimed _ _ => .fault .phaseMismatch
  | .pPrimary => .fault .phaseMismatch
  | .pClaimed _ _ _ => .fault .phaseMismatch
  | .fPopped _ _ _ => .fault .phaseMismatch
  | .lWait => .fault .phaseMismatch
  | .lRun => .fault .phaseMismatch

/-! ### The mailbox -/

/-- The store of a direction. -/
def Mailbox.get (m : Mailbox) : Dir → DirStore
  | .rx => m.rx
  | .tx => m.tx
  | .usb => m.usb

/-- Replace the store of a direction; the others are untouched ("Directions share nothing", R23). -/
def Mailbox.set (m : Mailbox) (d : Dir) (D : DirStore) : Mailbox :=
  match d with
  | .rx => { m with rx := D }
  | .tx => { m with tx := D }
  | .usb => { m with usb := D }

/-- The store of a direction. -/
def State.dir (s : State) (d : Dir) : DirStore := s.mb.get d

/-- Replace the store of a direction. -/
def State.setDir (s : State) (d : Dir) (D : DirStore) : State := { s with mb := s.mb.set d D }

/-- The Free slot of lowest index (R131, D7). -/
def DirStore.freeIdx (D : DirStore) : Option Nat := D.slots.findIdx? fun x => decide (x.occ = .free)

/-- Set the mark of a slot. -/
def DirStore.mark (D : DirStore) (k : Nat) (m : SlotMark) : DirStore :=
  { D with slots := D.slots.modify k fun x => { x with occ := m } }

/-- `SlotWrite` (R132): store a frame in a slot. -/
def DirStore.write (D : DirStore) (k : Nat) (f : Frame) : DirStore :=
  { D with slots := D.slots.modify k fun x => { x with frm := f } }

/-- `SlotRead` (R137): the frame stored in a slot. -/
def DirStore.read (D : DirStore) (k : Nat) : Frame := ((D.slots[k]?).getD Slot.reset).frm

/-- The number of Occupied slots (`MB_OCC`, R40). -/
def DirStore.occCount (D : DirStore) : Nat := D.slots.countP fun x => decide (x.occ = .occupied)

/-- `Claim(d)` (R131): one atomic step; `none` changes nothing. -/
def State.claim (s : State) (d : Dir) : Option (Nat × State) :=
  match (s.dir d).freeIdx with
  | none => none
  | some k => some (k, s.setDir d ((s.dir d).mark k .occupied))

/-- `SlotWrite(d, k, f)` (R132). -/
def State.slotWrite (s : State) (d : Dir) (k : Nat) (f : Frame) : State := s.setDir d ((s.dir d).write k f)

/-- `Release(d, k)` (R137): the slot is Free. -/
def State.release (s : State) (d : Dir) (k : Nat) : State := s.setDir d ((s.dir d).mark k .free)

/-- `Push(d, k)` (R24, R133): append when `count < N[d]`, else `none` (the answer `fail`, which changes nothing). -/
def State.push (s : State) (d : Dir) (k : Nat) : Option State :=
  if (s.dir d).fifo.length < s.cfg.slots d then
    some (s.setDir d { s.dir d with fifo := (s.dir d).fifo ++ [k] })
  else none

/-- `Pop(d)` (R24, R137): remove and return the head, or `none`, which changes nothing. -/
def State.pop (s : State) (d : Dir) : Option (Nat × State) :=
  match (s.dir d).fifo with
  | [] => none
  | k :: rest => some (k, s.setDir d { s.dir d with fifo := rest })

/-- `Drops[d] <- sat32(Drops[d] + 1)` (R141). -/
def State.countDrop (s : State) (d : Dir) : State :=
  s.setDir d { s.dir d with drops := satSucc (s.dir d).drops }

/-! ### The LIN engine and its transport -/

/-- Change the LIN engine's state. -/
def State.updLin (s : State) (f : Lin → Lin) : State := { s with lin := f s.lin }

/-- The transport's next answer (R195): the head of the queue, or a free one after its end (log entry 6). -/
def State.takeAnswer (s : State) : LinAnswer × State :=
  match s.env.answers with
  | a :: rest => (a, { s with env := { s.env with answers := rest } })
  | [] => (Config.freeAnswer s.env.drawn, { s with env := { s.env with drawn := s.env.drawn + 1 } })

/-- Append to the wire history (R44). -/
def State.record (s : State) (es : List WireEvent) : State :=
  s.updLin fun l => { l with wire := l.wire ++ es }

/-- `LinBreak(r)` (R195): `true` for `Done`, `false` for `NoConfirm`; the history records which. -/
def State.linBreak (s : State) (r : BrkKind) : Bool × State :=
  let (a, t) := s.takeAnswer
  (a.ack, t.record [.brk r a.ack])

/-- `LinWriteByte(b)` (R195): `true` for `Ok`, which appends `Tx(b)`; `false` for `Timeout`, which appends nothing. -/
def State.linWriteByte (s : State) (b : Byte) : Bool × State :=
  let (a, t) := s.takeAnswer
  (a.ack, if a.ack then t.record [.tx b] else t)

/-- `LinRead(n)` (R195): `some w` with `n` bytes for `Ok(w)`, `none` for `Timeout(w')`; every delivered byte is recorded. -/
def State.linRead (s : State) (n : Nat) : Option (List Byte) × State :=
  let (a, t) := s.takeAnswer
  let w := a.bytes.take n
  (if w.length = n then some w else none, t.record (w.map .rx))

/-- `Finish(code, ph)` (R201): `LIN_STATUS <- (code, ph)`, `phase <- IDLE`. -/
def State.finish (s : State) (c : Status) (ph : LinPhase) : State :=
  s.updLin fun l => { l with stCode := c, stPhase := ph, phase := .idle, idx := 0, rx := [], stage := .xfer }

/-- "release the engine": `LinOwner <- none` (R204). -/
def State.releaseEngine (s : State) : State := s.updLin fun l => { l with owner := none, first := none }

/-! ### Time -/

/-- `is_can_active()` (R253): seen, and at most `CAN_ACTIVE_TIMEOUT_MS` since the last mark, modulo 2^32. -/
def State.isCanActive (s : State) : Bool :=
  s.act.seen && decide ((s.env.now - s.act.last).toNat ≤ s.cfg.canActiveTimeoutMs)

/-! ### Reset -/

/-- R310: total reset. Every piece of the block's state takes its R43 value; the configuration stays (R287) and so do the
environment's inputs, which are not the block's. -/
def State.assertReset (s : State) : State := State.resetWith s.cfg s.env

end Sys2Proof.Machine
end

