-- ==== Sys2Proof/Machine/FilterCmds.lean ====
section
/-! DEFINITION. The filter packer commands (42_filter.md). Each is one atomic micro-step (R76). -/

namespace Sys2Proof.Machine

open Sys2Proof Host

/-- R160, R101: `Enc(id, ext)`. -/
def enc (ideBit : Nat) (id : Word) (ext : Bool) : Word :=
  if ext then (id <<< 3) ||| ((1 : Word) <<< ideBit) else id <<< 21

/-- R160, R170: `RegOf(e)`; an unused entry (raw identifier 0, R27) gives `0x00000000`. -/
def regOf (ideBit : Nat) (e : FilterEntry) : Word := if e.id = 0 then 0 else enc ideBit e.id e.ext

/-- The entry at an index. -/
def Filter.ent (f : Filter) (i : Nat) : FilterEntry := (f.ents[i]?).getD FilterEntry.unused

/-- R27: pair `i` is the entries `2i` and `2i + 1`. -/
def Filter.pair (f : Filter) (i : Nat) : FilterEntry × FilterEntry := (f.ent (2 * i), f.ent (2 * i + 1))

/-- R166: at least one identifier of the pair is non-zero. -/
def populated (p : FilterEntry × FilterEntry) : Bool := decide (p.1.id ≠ 0) || decide (p.2.id ≠ 0)

/-- R166: the list-mode descriptor of bank `k` for a pair. -/
def listBank (ideBit k : Nat) (p : FilterEntry × FilterEntry) : Bank :=
  ⟨true, BitVec.ofNat 8 k, 0, .list, .s32, regOf ideBit p.1, regOf ideBit p.2⟩

/-- R165: the pass-all descriptor. Its spelling is the spec's own (G2, log entry 19). -/
def passAllBank : Bank := ⟨true, 0, 0, .mask, .s32, 0, 0⟩

/-- R166: the populated pairs, in index order. -/
def Filter.populatedPairs (f : Filter) (b : Nat) : List (FilterEntry × FilterEntry) :=
  ((List.range b).map f.pair).filter populated

/-- R164: the active descriptors that FLT.APPLY derives: pass-all when disabled (R165); the populated pairs densely (R166);
or the fail-closed bank of pair 0 when there is none (R167). -/
def Filter.activeBanks (c : Cfg) (f : Filter) : List Bank :=
  if f.enabled then
    match f.populatedPairs c.banks with
    | [] => [listBank c.ideBit 0 (f.pair 0)]
    | p :: ps => (p :: ps).mapIdx (listBank c.ideBit)
  else [passAllBank]

/-- R164, R168: the whole new table; banks not allocated are inactive with all fields zero. -/
def Filter.applied (c : Cfg) (f : Filter) : Filter :=
  { f with
    banks := f.activeBanks c ++ List.replicate (c.banks - (f.activeBanks c).length) Bank.inactive
    nActive := (f.activeBanks c).length }

/-- Change the filter packer's state. -/
def State.updFlt (s : State) (g : Filter → Filter) : State := { s with flt := g s.flt }

/-- FLT.CLEAR (R161): every entry unused; the flag and the bank table stay. -/
def execFltClear (s : State) : Outcome State Fault Refusal :=
  s.oneStep fun t =>
    (t.updFlt fun f => { f with ents := List.replicate (2 * t.cfg.banks) FilterEntry.unused }).endCmd .ok .idle

/-- R162: the three tests of FLT.SET, in the order of R275. -/
def fltSetLegal (c : Cfg) (slot : Nat) (ext : Bool) (id : Word) : Bool :=
  if 2 * c.banks ≤ slot then false
  else if !ext && decide (0x7FF < id.toNat) then false
  else if ext && decide (0x1FFFFFFF < id.toNat) then false
  else true

/-- FLT.SET (R162): store one raw entry, or `ConfigError` with no change. -/
def execFltSet (slot : BitVec 8) (ext : Bool) (s : State) : Outcome State Fault Refusal :=
  s.oneStep fun t =>
    if fltSetLegal t.cfg slot.toNat ext t.me.lat.w0 then
      (t.updFlt fun f => { f with ents := f.ents.set slot.toNat ⟨t.me.lat.w0, ext⟩ }).endCmd .ok .idle
    else t.endCmd .configError .idle

/-- FLT.EN (R163): the flag only. -/
def execFltEn (n : Bool) (s : State) : Outcome State Fault Refusal :=
  s.oneStep fun t => (t.updFlt fun f => { f with enabled := n }).endCmd .ok .idle

/-- FLT.APPLY (R164): the whole bank table in one step. -/
def execFltApply (s : State) : Outcome State Fault Refusal :=
  s.oneStep fun t => (t.updFlt (Filter.applied t.cfg)).endCmd .ok .idle

end Sys2Proof.Machine
end

