-- ==== Sys2Proof/Machine/LinArith.lean ====
section
/-! DEFINITION. The arithmetic of the LIN engine (R190 to R193). -/

namespace Sys2Proof.Machine

open Sys2Proof

/-- R190: `p0 = id[0] ^ id[1] ^ id[2] ^ id[4]`. -/
def parity0 (id : BitVec 6) : Bool := id.getLsbD 0 ^^ id.getLsbD 1 ^^ id.getLsbD 2 ^^ id.getLsbD 4

/-- R190: `p1 = 1 ^ (id[1] ^ id[3] ^ id[4] ^ id[5])`. -/
def parity1 (id : BitVec 6) : Bool := !(id.getLsbD 1 ^^ id.getLsbD 3 ^^ id.getLsbD 4 ^^ id.getLsbD 5)

/-- R190, R100: `Pid(id) = {p1, p0, id[5:0]}`. -/
def pid (id : BitVec 6) : Byte := BitVec.ofBool (parity1 id) ++ BitVec.ofBool (parity0 id) ++ id

/-- R191: one pass of the fold, `(a & 0xFF) + (a >> 8)`. -/
def foldPass (a : BitVec 16) : BitVec 16 := (a &&& 0x00FF) + (a >>> 8)

/-- R191: the loop `while a > 0xFF`, with at most `n` passes. -/
def foldLoop : Nat → BitVec 16 → BitVec 16
  | 0, a => a
  | n + 1, a => if (0x00FF : BitVec 16) < a then foldLoop n (foldPass a) else a

/-- R191: `Fold(a)`. Two passes always suffice ("The loop runs at most twice for any 16-bit `a`"). -/
def fold (a : BitVec 16) : Byte := (foldLoop 2 a).setWidth 8

/-- R192: the accumulator before folding. -/
def cksAcc (k : CksKind) (p : Byte) (data : List Byte) : BitVec 16 :=
  data.foldl (fun acc b => acc + b.setWidth 16)
    (match k with
     | .enhanced => p.setWidth 16
     | .classic => 0)

/-- R192: `Cks(k, p, data) = ~_8(Fold(acc))`. -/
def cks (k : CksKind) (p : Byte) (data : List Byte) : Byte := ~~~(fold (cksAcc k p data))

end Sys2Proof.Machine
end

