-- ==== Sys2Proof/Machine/Engine.lean ====
section
/-! DEFINITION. The LIN master transaction (R195 to R204, R213), one micro-step at a time, shared by the four commands that
use the engine. -/

namespace Sys2Proof.Machine

open Sys2Proof Host

/-- What a transaction is beside its identifier and data: is a checksum byte sent, the checksum kind, the break strategy,
and the response length when a response is read. -/
structure Txn where
  cksEn : Bool
  kind : CksKind
  brk : BrkKind
  resp : Option Nat
deriving DecidableEq, Repr

/-- `PhaseOf(j)` (R197): SYNC, PID, then DATA for `len` bytes, then CKS. -/
def phaseOf (len j : Nat) : LinPhase :=
  if j = 0 then .sync else if j = 1 then .pid else if j < 2 + len then .data else .cks

/-- `W` (R197): sync `0x55`, protected identifier, data, and the checksum when asked for. -/
def wireBytes (t : Txn) (lf : LinFrame) : List Byte :=
  [0x55, lf.pid] ++ lf.data ++ (if t.cksEn then [lf.cks] else [])

/-- A transaction starts (R197): `LF` is loaded, `LF.pid` computed, `phase <- BREAK`. -/
def startTxn (id : BitVec 6) (data : List Byte) (s : State) : State :=
  s.updLin fun l =>
    { l with lf := { l.lf with id := id, len := data.length, data := data, pid := pid id },
             phase := .brk, idx := 0, rx := [], stage := .xfer }

/-- What one micro-step of a transaction does: it goes on, or it has ended with a code and a phase and `Finish` is due. -/
inductive TxnStep
  | going (s : State)
  | ended (s : State) (c : Status) (ph : LinPhase)
deriving Repr

/-- Where the engine is when byte `j` of `W` is next (R197, R213): at `PhaseOf(j)`, or after the last byte in RESP when the
command has a response part, else at the end with `OK`. -/
def afterByte (t : Txn) (j : Nat) (s : State) : TxnStep :=
  if j < (wireBytes t s.lin.lf).length then
    .going (s.updLin fun l => { l with idx := j, phase := phaseOf l.lf.data.length j })
  else
    match t.resp with
    | some _ => .going (s.updLin fun l => { l with idx := j, phase := .resp })
    | none => .ended s .ok .idle

/-- BREAK (R197 step 1, R213): after `Done` the checksum byte is computed and SYNC is next; after `NoConfirm` the
transaction has ended with `Timeout` at BREAK. -/
def breakStep (t : Txn) (s : State) : TxnStep :=
  match s.linBreak t.brk with
  | (true, u) =>
    afterByte t 0 (u.updLin fun l =>
      { l with lf := { l.lf with cks := if t.cksEn then cks t.kind l.lf.pid l.lf.data else l.lf.cks } })
  | (false, u) => .ended u .timeout .brk

/-- SYNC, PID, DATA, CKS (R197 steps 2 to 5, R213): write byte `idx` of `W`. -/
def writeStep (t : Txn) (s : State) : TxnStep :=
  match s.linWriteByte ((wireBytes t s.lin.lf).getD s.lin.idx 0) with
  | (true, u) => afterByte t (s.lin.idx + 1) u
  | (false, u) => .ended u .timeout (phaseOf s.lin.lf.data.length s.lin.idx)

/-- The response length of a transaction. -/
def Txn.respLen (t : Txn) : Nat := t.resp.getD 0

/-- RESP (R199): read `n + 1` bytes; fewer end the transaction with `Timeout` at RESP. -/
def respStep (t : Txn) (s : State) : TxnStep :=
  match s.linRead (t.respLen + 1) with
  | (some w, u) => .going (u.updLin fun l => { l with rx := w, phase := .validate })
  | (none, u) => .ended u .timeout .resp

/-- The received data bytes `w[0..n)` (R199). -/
def rxData (t : Txn) (s : State) : List Byte := s.lin.rx.take t.respLen

/-- The received checksum byte `w[n]` (R199). -/
def rxCks (t : Txn) (s : State) : Byte := s.lin.rx.getD t.respLen 0

/-- VALIDATE (R199): the received checksum byte against the one recomputed over the received data. -/
def validateStep (t : Txn) (s : State) : TxnStep :=
  if rxCks t s = cks t.kind s.lin.lf.pid (rxData t s) then .ended s .ok .idle
  else .ended s .checksumMismatch .validate

/-- One micro-step of the transaction in progress (R197, R199, R213). In IDLE no transaction is in progress and nothing happens. -/
def txnStep (t : Txn) (s : State) : TxnStep :=
  match s.lin.phase with
  | .idle => .going s
  | .brk => breakStep t s
  | .sync => writeStep t s
  | .pid => writeStep t s
  | .data => writeStep t s
  | .cks => writeStep t s
  | .resp => respStep t s
  | .validate => validateStep t s

/-- Taking the engine (R204, R213): in one step `LinOwner <- p`, micro-phase `L_RUN`, phase BREAK, and the command's load;
while another command owns it the port is held in `L_WAIT`. -/
def linEnter (load : State → State) (s : State) : State :=
  match s.lin.owner with
  | none => load ((s.updLin fun l => { l with owner := some s.cur, phase := .brk, first := none }).goto .lRun)
  | some _ => s.goto .lWait

/-- The end of a LIN command: release the engine, write `ST`, READY (R198, R204). -/
def linEnd (c : Status) (ph : LinPhase) (s : State) : State := s.releaseEngine.endCmd c ph

/-- A command that uses the engine: from READY it is validated and enters; held, it tries to enter again; owning the engine, it
takes one micro-step of `body`. -/
def linCommand (legal : Bool) (load body : State → State) (s : State) : Outcome State Fault Refusal :=
  match s.me.phase with
  | .ready => .next (if legal then linEnter load s else s.endCmd .illegalCmd .idle)
  | .lWait => .next (linEnter load s)
  | .lRun => .next (body s)
  | .pMirrorClaimed _ _ => .fault .phaseMismatch
  | .pPrimary => .fault .phaseMismatch
  | .pClaimed _ _ _ => .fault .phaseMismatch
  | .fPopped _ _ _ => .fault .phaseMismatch

/-! ### The diagnostic exchange and the status frame (R206 to R211) -/

/-- The diagnostic exchange's transaction, from Cfg (R208). -/
def diagTxn (c : Cfg) : Txn := ⟨c.diagReqCksEn, c.diagCksKind, c.diagBrk, some c.diagRespLen⟩

/-- The status frame's transaction, from Cfg (R207). -/
def statusTxn (c : Cfg) : Txn := ⟨c.statusCksEn, c.statusCksKind, c.statusBrk, none⟩

/-- `DiagBody` starts (R208). -/
def startDiag (s : State) : State := startTxn s.cfg.diagId s.cfg.diagReqData s

/-- The telemetry update (R208, R211): both fields in one micro-step. -/
def telemUpdate (s : State) : State :=
  s.updLin fun l =>
    { l with moving := ((rxData (diagTxn s.cfg) s).getD s.cfg.movByte 0).getLsbD s.cfg.movBit,
             position := (rxData (diagTxn s.cfg) s).getD s.cfg.posByte 0,
             stage := .telemDone }

/-- One micro-step of `DiagBody` (R208): a transaction whose valid response updates the telemetry before it ends. -/
def diagStep (s : State) : TxnStep :=
  match s.lin.stage with
  | .telemDone => .ended s .ok .idle
  | .frame | .xfer =>
    match txnStep (diagTxn s.cfg) s with
    | .ended t .ok _ => .going (telemUpdate t)
    | .ended t c ph => .ended t c ph
    | .going t => .going t

/-- Byte `j` of the reference status frame (R209). -/
def referenceStatusByte (cnt : BitVec 4) (mode : Byte) (j : Nat) : Byte :=
  if j = 0 then mode.extractLsb' 4 4 ++ cnt
  else if j = 1 then (mode.extractLsb' 0 4).setWidth 8
  else 0

/-- Byte `j` of the data of a status frame (R207). -/
def statusByte (x : StatusData) (cnt : BitVec 4) (mode : Byte) (j : Nat) : Byte :=
  match x with
  | .reference => referenceStatusByte cnt mode j
  | .table rows => (rows.getD (cnt.toNat + 16 * mode.toNat) []).getD j 0

/-- The data bytes of `Cfg.StatusFrame(counter, mode)` (R207, R209). -/
def statusBytes (c : Cfg) (cnt : BitVec 4) (mode : Byte) : List Byte :=
  (List.range c.statusLen).map fun j => statusByte c.statusData cnt mode j

/-- R206, R207, in one micro-step: the counter advances modulo 16, the mode is read, the status frame is built and its
transaction starts. -/
def startStatus (s : State) : State :=
  startTxn s.cfg.statusId (statusBytes s.cfg (s.lin.counter + 1) s.lin.mode)
    (s.updLin fun l => { l with counter := l.counter + 1 })

end Sys2Proof.Machine
end

