-- ==== Sys2Proof/Machine/Lin.lean ====
section
/-! DEFINITION. The six LIN commands (43_lin.md). LIN.PID and LIN.CKS are pure; the others use the engine (Engine.lean). -/

namespace Sys2Proof.Machine

open Sys2Proof Host

/-- LIN.PID `id` (R194): `R0 <- zext_32(Pid(id))`. -/
def execLinPid (id : BitVec 6) (s : State) : Outcome State Fault Refusal :=
  s.oneStep fun t => (t.setR0 ((pid id).setWidth 32)).endCmd .ok .idle

/-- LIN.CKS (R196): `R0 <- zext_32(Cks(k, seed, data[0..len)))`; a length above 8 is illegal. -/
def execLinCks (k : CksKind) (len : BitVec 4) (seed : Byte) (s : State) : Outcome State Fault Refusal :=
  s.oneStep fun t =>
    if lenOk len then (t.setR0 ((cks k seed (t.me.lat.bytes len.toNat)).setWidth 32)).endCmd .ok .idle
    else t.endCmd .illegalCmd .idle

/-- The transaction of a LIN.SEND. -/
def sendTxn (c : Bool) (k : CksKind) (r : BrkKind) : Txn := ⟨c, k, r, none⟩

/-- One micro-step of a LIN.SEND that owns the engine (R198). -/
def sendStep (t : Txn) (s : State) : State :=
  match txnStep t s with
  | .going u => u
  | .ended u c ph => linEnd c ph (u.finish c ph)

/-- The load of LIN.SEND and LIN.XCHG: the request frame from the operands (R92, R197). -/
def loadRequest (id : BitVec 6) (len : BitVec 4) (s : State) : State :=
  startTxn id (s.me.lat.bytes len.toNat) s

/-- LIN.SEND (R198). -/
def execLinSend (id : BitVec 6) (len : BitVec 4) (c : Bool) (k : CksKind) (r : BrkKind) (s : State) :
    Outcome State Fault Refusal :=
  linCommand (lenOk len) (loadRequest id len) (sendStep (sendTxn c k r)) s

/-- The transaction of a LIN.XCHG. -/
def xchgTxn (n : BitVec 4) (c : Bool) (k : CksKind) (r : BrkKind) : Txn := ⟨c, k, r, some n.toNat⟩

/-- One micro-step of a LIN.XCHG that owns the engine (R200): on `OK` the response goes to the result registers. -/
def xchgStep (t : Txn) (s : State) : State :=
  match txnStep t s with
  | .going u => u
  | .ended u .ok ph =>
    linEnd .ok ph ((u.setR (responseResults (rxCks t u) t.respLen (rxData t u))).finish .ok ph)
  | .ended u c ph => linEnd c ph (u.finish c ph)

/-- LIN.XCHG (R200). -/
def execLinXchg (id : BitVec 6) (len n : BitVec 4) (c : Bool) (k : CksKind) (r : BrkKind) (s : State) :
    Outcome State Fault Refusal :=
  linCommand (lenOk len && lenOk n) (loadRequest id len) (xchgStep (xchgTxn n c k r)) s

/-- One micro-step of a LIN.DIAG that owns the engine (R208): on `OK` the response goes to the result registers. -/
def diagCommandStep (s : State) : State :=
  match diagStep s with
  | .going u => u
  | .ended u .ok ph =>
    linEnd .ok ph
      ((u.setR (responseResults (rxCks (diagTxn u.cfg) u) u.cfg.diagRespLen (rxData (diagTxn u.cfg) u))).finish .ok ph)
  | .ended u c ph => linEnd c ph (u.finish c ph)

/-- LIN.DIAG (R208). -/
def execLinDiag (s : State) : Outcome State Fault Refusal := linCommand true startDiag diagCommandStep s

/-- The load of LIN.CYCLE: it owns the engine; the counter step (R206) is its next. -/
def armCycle (s : State) : State := s.updLin fun l => { l with stage := .frame }

/-- The status frame's transaction inside LIN.CYCLE (R210): at its end `Finish(c1, p1)`, and the engine stays owned. -/
def cycleStatusStep (s : State) : State :=
  match txnStep (statusTxn s.cfg) s with
  | .going u => u
  | .ended u c ph => (u.finish c ph).updLin fun l => { l with first := some (c, ph) }

/-- The diagnostic exchange inside LIN.CYCLE (R210), after the status frame ended with `(c1, p1)`: at its end
`Finish(c2, p2)`, `R0` and `ST` report both outcomes, whatever they are. -/
def cycleDiagStep (c1 : Status) (p1 : LinPhase) (s : State) : State :=
  match diagStep s with
  | .going u => u
  | .ended u c2 p2 =>
    linEnd (cycleStatus c1 p1 c2 p2).1 (cycleStatus c1 p1 c2 p2).2
      ((u.finish c2 p2).setR0 (cycleWord c1 p1 c2 p2))

/-- One micro-step of a LIN.CYCLE that owns the engine (R210): the counter step, then the status frame, then the exchange,
which is attempted whatever the status frame's outcome. -/
def cycleStep (s : State) : State :=
  match s.lin.stage with
  | .frame => startStatus s
  | .xfer | .telemDone =>
    match s.lin.first with
    | none => cycleStatusStep s
    | some (c1, p1) =>
      if s.lin.phase = .idle then startDiag s else cycleDiagStep c1 p1 s

/-- LIN.CYCLE (R210). -/
def execLinCycle (s : State) : Outcome State Fault Refusal := linCommand true armCycle cycleStep s

end Sys2Proof.Machine
end

