-- ==== Sys2Proof/Machine/Mailbox.lean ====
section
/-! DEFINITION. The mailbox commands MB.POST, MB.FETCH, MB.EMPTY (41_mailbox.md), one micro-step of the acting port at a time. -/

namespace Sys2Proof.Machine

open Sys2Proof Host

/-- Step M1 of the mirror offer (R135): claim a USB slot, or count the drop and go on to the primary post. -/
def postM1 (s : State) : State :=
  match s.claim .usb with
  | none => (s.countDrop .usb).goto .pPrimary
  | some (k, t) => t.goto (.pMirrorClaimed k false)

/-- Step M2 (R132, R135): copy the frame into the mirror slot. -/
def postM2 (k : Nat) (s : State) : State := (s.slotWrite .usb k s.me.lat.frame).goto (.pMirrorClaimed k true)

/-- Step M3 (R135): publish the mirror copy; a failed push releases the slot and counts the drop. -/
def postM3 (k : Nat) (s : State) : State :=
  match s.push .usb k with
  | some t => t.goto .pPrimary
  | none => ((s.release .usb k).countDrop .usb).goto .pPrimary

/-- Step P1 (R130, R131): claim a slot, or count the drop and return `Full`. -/
def postP1 (d : Dir) (s : State) : State :=
  match s.claim d with
  | none => (s.countDrop d).endCmd .full .idle
  | some (k, t) => t.goto (.pClaimed d k .copy)

/-- Step P2 (R132): copy the frame into the claimed slot. -/
def postP2 (d : Dir) (k : Nat) (s : State) : State :=
  (s.slotWrite d k s.me.lat.frame).goto (.pClaimed d k .publish)

/-- Step P3 (R133): publish; when the push fails, the rollback is the port's next step (R134). -/
def postP3 (d : Dir) (k : Nat) (s : State) : State :=
  match s.push d k with
  | some t => t.endCmd .ok .idle
  | none => s.goto (.pClaimed d k .rollback)

/-- Step P4 (R134): the rollback. -/
def postP4 (d : Dir) (k : Nat) (s : State) : State :=
  ((s.release d k).countDrop d).endCmd .full .idle

/-- MB.POST starts (R130): illegal operands end it before any state changes (R142); a post to TX first offers the frame to
the USB mirror (R135). -/
def postStart (d : Dir) (s : State) : State :=
  if operandsLegal s.me.lat then
    match d with
    | .tx => postM1 s
    | .rx => postP1 .rx s
    | .usb => postP1 .usb s
  else s.endCmd .illegalCmd .idle

/-- MB.POST `d` (R130). -/
def execMbPost (d : Dir) (s : State) : Outcome State Fault Refusal :=
  match s.me.phase with
  | .ready => .next (postStart d s)
  | .pMirrorClaimed k false => .next (postM2 k s)
  | .pMirrorClaimed k true => .next (postM3 k s)
  | .pPrimary => .next (postP1 d s)
  | .pClaimed d' k .copy => .next (postP2 d' k s)
  | .pClaimed d' k .publish => .next (postP3 d' k s)
  | .pClaimed d' k .rollback => .next (postP4 d' k s)
  | .fPopped _ _ _ => .fault .phaseMismatch
  | .lWait => .fault .phaseMismatch
  | .lRun => .fault .phaseMismatch

/-- Step F1 of MB.FETCH (R136, R137): pop, or return `Empty`, which changes nothing. -/
def fetchF1 (d : Dir) (s : State) : State :=
  match s.pop d with
  | none => s.endCmd .empty .idle
  | some (k, t) => t.goto (.fPopped d k none)

/-- Step F2 (R136): copy the frame out. -/
def fetchF2 (d : Dir) (k : Nat) (s : State) : State := s.goto (.fPopped d k (some ((s.dir d).read k)))

/-- Step F3 (R136): release the slot; the frame goes to the result registers and the command ends `OK`. -/
def fetchF3 (d : Dir) (k : Nat) (f : Frame) (s : State) : State :=
  ((s.release d k).setR f.results).endCmd .ok .idle

/-- MB.FETCH `d` (R136). -/
def execMbFetch (d : Dir) (s : State) : Outcome State Fault Refusal :=
  match s.me.phase with
  | .ready => .next (fetchF1 d s)
  | .fPopped d' k none => .next (fetchF2 d' k s)
  | .fPopped d' k (some f) => .next (fetchF3 d' k f s)
  | .pMirrorClaimed _ _ => .fault .phaseMismatch
  | .pPrimary => .fault .phaseMismatch
  | .pClaimed _ _ _ => .fault .phaseMismatch
  | .lWait => .fault .phaseMismatch
  | .lRun => .fault .phaseMismatch

/-- Step E1 of MB.EMPTY (R138): `R0` is 1 when the FIFO's count is zero. -/
def emptyE1 (d : Dir) (s : State) : State :=
  (s.setR0 (flagWord (s.dir d).fifo.isEmpty)).endCmd .ok .idle

/-- MB.EMPTY `d` (R138). -/
def execMbEmpty (d : Dir) (s : State) : Outcome State Fault Refusal := s.oneStep (emptyE1 d)

end Sys2Proof.Machine
end

