-- ==== Sys2Proof/Machine/System.lean ====
section
/-! DEFINITION. The CSR space (R40) and the system commands CSR.RD, CSR.WR, ACT.MARK (44_system.md). -/

namespace Sys2Proof.Machine

open Sys2Proof Host

/-! ### Named views of `LIN_MODE` (R33, R40); the engine attaches no meaning to them -/

/-- `LIN_MODE[0]`. -/
def Lin.slow (l : Lin) : Bool := l.mode.getLsbD 0

/-- `LIN_MODE[1]`. -/
def Lin.fast (l : Lin) : Bool := l.mode.getLsbD 1

/-- `LIN_MODE[2]`. -/
def Lin.interior (l : Lin) : Bool := l.mode.getLsbD 2

/-- `LIN_MODE[3]`. -/
def Lin.swipe (l : Lin) : Bool := l.mode.getLsbD 3

/-- `LIN_MODE[7:4]`. -/
def Lin.speedLevel (l : Lin) : BitVec 4 := l.mode.extractLsb' 4 4

/-! ### Reading -/

/-- `BANK_CFG` (R40): `[0]` active, `[1]` mode, `[2]` scale, `[3]` fifo, `[15:8]` index. -/
def Bank.cfgWord (b : Bank) : Word :=
  (b.index ++ (0 : BitVec 4) ++ b.fifo ++ BitVec.ofBool (decide (b.scale = .s32))
    ++ BitVec.ofBool (decide (b.mode = .list)) ++ BitVec.ofBool b.active : BitVec 16).setWidth 32

/-- `LIN_TELEM` (R40): `[0]` moving, `[15:8]` position. -/
def Lin.telemWord (l : Lin) : Word :=
  (l.position ++ (0 : BitVec 7) ++ BitVec.ofBool l.moving : BitVec 16).setWidth 32

/-- `ACT_ACTIVE` (R40): `[0]` ACTIVE, `[1]` SEEN. -/
def State.activeWord (s : State) : Word :=
  (BitVec.ofBool s.act.seen ++ BitVec.ofBool s.isCanActive : BitVec 2).setWidth 32

/-- The bank table's registers (R40): word `j` = 0 `BANK_CFG`, 1 `BANK_R1`, 2 `BANK_R2` of a bank; 3 is unmapped. -/
def Bank.csr (b : Bank) (j : Nat) : Option Word :=
  if j = 0 then some b.cfgWord else if j = 1 then some b.reg1 else if j = 2 then some b.reg2 else none

/-- The array registers of R40: `FLT_ID`, `FLT_EXT` and the bank table, mapped up to the configured sizes (R250 (b)). -/
def State.csrArray (s : State) (n : Nat) : Option Word :=
  if 0x0100 ≤ n ∧ n < 0x0100 + 2 * s.cfg.banks then some (s.flt.ent (n - 0x0100)).id
  else if 0x0200 ≤ n ∧ n < 0x0200 + 2 * s.cfg.banks then some (flagWord (s.flt.ent (n - 0x0200)).ext)
  else if 0x0300 ≤ n ∧ n < 0x0300 + 4 * s.cfg.banks then
    ((s.flt.banks[(n - 0x0300) / 4]?).getD Bank.inactive).csr ((n - 0x0300) % 4)
  else none

/-- The CSR map (R40): the value of the register at an address, `none` where no register is mapped. -/
def State.csrRead (s : State) (addr : CsrAddr) : Option Word :=
  match addr.toNat with
  | 0x0010 => some (flagWord s.flt.enabled)
  | 0x0011 => some ((BitVec.ofNat 8 s.flt.nActive).setWidth 32)
  | 0x0020 => some (s.lin.mode.setWidth 32)
  | 0x0021 => some (s.lin.counter.setWidth 32)
  | 0x0022 => some s.lin.telemWord
  | 0x0023 => some (stWord s.lin.stCode s.lin.stPhase)
  | 0x0024 => some (flagWord s.lin.wake)
  | 0x0025 => some (s.lin.phase.code.setWidth 32)
  | 0x0030 => some (s.dir .rx).drops
  | 0x0031 => some (s.dir .tx).drops
  | 0x0032 => some (s.dir .usb).drops
  | 0x0034 => some (BitVec.ofNat 32 (s.dir .rx).fifo.length)
  | 0x0035 => some (BitVec.ofNat 32 (s.dir .tx).fifo.length)
  | 0x0036 => some (BitVec.ofNat 32 (s.dir .usb).fifo.length)
  | 0x0038 => some (BitVec.ofNat 32 (s.dir .rx).occCount)
  | 0x0039 => some (BitVec.ofNat 32 (s.dir .tx).occCount)
  | 0x003A => some (BitVec.ofNat 32 (s.dir .usb).occCount)
  | 0x0040 => some s.act.last
  | 0x0041 => some s.activeWord
  | 0x0042 => some s.env.now
  | n => s.csrArray n

/-! ### Writing -/

/-- R251: the two writable registers, `LIN_MODE` and `LIN_CTRL`; `none` where the address is unmapped or read-only. -/
def State.csrWrite (s : State) (addr : CsrAddr) (v : Word) : Option State :=
  if addr = 0x0020 then some (s.updLin fun l => { l with mode := v.extractLsb' 0 8 })
  else if addr = 0x0024 then some (s.updLin fun l => { l with wake := v.getLsbD 0 })
  else none

/-! ### The commands -/

/-- CSR.RD (R250): one atomic read, no side effect; an unmapped address is illegal. -/
def execCsrRd (addr : CsrAddr) (s : State) : Outcome State Fault Refusal :=
  s.oneStep fun t =>
    match t.csrRead addr with
    | some v => (t.setR0 v).endCmd .ok .idle
    | none => t.endCmd .illegalCmd .idle

/-- CSR.WR (R251): one atomic write of `A0`; an unmapped or read-only address is illegal and changes nothing. -/
def execCsrWr (addr : CsrAddr) (s : State) : Outcome State Fault Refusal :=
  s.oneStep fun t =>
    match t.csrWrite addr t.me.lat.w0 with
    | some u => u.endCmd .ok .idle
    | none => t.endCmd .illegalCmd .idle

/-- ACT.MARK (R252): `ActLast <- NOW_MS`, `ActSeen <- 1`, together. -/
def execActMark (s : State) : Outcome State Fault Refusal :=
  s.oneStep fun t => { t with act := ⟨t.env.now, true⟩ }.endCmd .ok .idle

end Sys2Proof.Machine
end

