-- ==== Sys2Proof/Machine/Dispatch.lean ====
section
/-! DEFINITION. One arm per command of R94: the acting port (`s.cur`) takes one micro-step of the command. -/

namespace Sys2Proof.Machine

open Sys2Proof Host

def exec (i : Instr) (s : State) : Host.Outcome State Fault Refusal :=
  match i with
  | .mbPost d => Sys2Proof.Machine.execMbPost d s
  | .mbFetch d => Sys2Proof.Machine.execMbFetch d s
  | .mbEmpty d => Sys2Proof.Machine.execMbEmpty d s
  | .fltClear => Sys2Proof.Machine.execFltClear s
  | .fltSet slot ext => Sys2Proof.Machine.execFltSet slot ext s
  | .fltEn n => Sys2Proof.Machine.execFltEn n s
  | .fltApply => Sys2Proof.Machine.execFltApply s
  | .linPid id => Sys2Proof.Machine.execLinPid id s
  | .linCks k len seed => Sys2Proof.Machine.execLinCks k len seed s
  | .linSend id len c k r => Sys2Proof.Machine.execLinSend id len c k r s
  | .linXchg id len n c k r => Sys2Proof.Machine.execLinXchg id len n c k r s
  | .linDiag => Sys2Proof.Machine.execLinDiag s
  | .linCycle => Sys2Proof.Machine.execLinCycle s
  | .actMark => Sys2Proof.Machine.execActMark s
  | .csrRd addr => Sys2Proof.Machine.execCsrRd addr s
  | .csrWr addr => Sys2Proof.Machine.execCsrWr addr s

end Sys2Proof.Machine
end

