-- ==== Sys2Proof/Machine/Environ.lean ====
section
/-! DEFINITION. What the environment does to the block (R5, R42, R287): the operations behind the events of `step`. -/

namespace Sys2Proof.Machine

open Sys2Proof

/-- The event of this step and the state without it: the head of the script, or a free one after its end (R67, log entry 4). -/
def State.nextEvent (s : State) : Event × State :=
  match s.env.script with
  | e :: rest => (e, { s with env := { s.env with script := rest } })
  | [] => (Config.freeEvent s.env.drawn, { s with env := { s.env with drawn := s.env.drawn + 1 } })

/-- The user of port `p` writes `A[p][i]` (R38). A number that names no port changes nothing (log entry 24). -/
def State.userWrite (s : State) (p : Nat) (i : Fin 4) (v : Word) : State :=
  { s with ports := s.ports.modify p fun P => { P with a := P.a.write i v } }

/-- A port takes a presented command word when its last command has ended (R39); a busy port ignores it (log entry 8). Presenting
`CW` starts the command (D1): its operands are the values that `A0 .. A3` have now (R90, R92), and a write of an operand
register after this moment is for the next command. DEDUCED, log entry 9. -/
def Port.present (P : Port) (w : Word) : Port := if P.req then P else { P with cw := w, req := true, lat := P.a }

/-- The user of port `p` presents a command word together with the current values of its operand registers (R90). -/
def State.userPresent (s : State) (p : Nat) (w : Word) : State :=
  { s with ports := s.ports.modify p fun P => P.present w }

/-- The platform clock advances (R45, R281): modulo 2^32. -/
def State.advance (s : State) (n : Nat) : State :=
  { s with env := { s.env with now := s.env.now + BitVec.ofNat 32 n } }

/-- R95: an illegal command changes nothing but the issuing port's `ST`, which receives `IllegalCmd`, phase 0. -/
def State.illegalWord (s : State) : State := s.endCmd .illegalCmd .idle

/-- Port 0, READY, presents the command word `w` and is the port scheduled next: what the environment's events `present` and
`port` bring about (log entry 5). -/
def State.presentNow (s : State) (w : Word) : State :=
  { s with
    ports := s.ports.modify 0 fun P => { P with cw := w, req := true, lat := P.a, phase := .ready }
    env := { s.env with script := .port 0 :: s.env.script } }

end Sys2Proof.Machine
end

