-- ==== Sys2Proof/Machine/Sched.lean ====
section
/-! DEFINITION. What one event does: a scheduled port takes one micro-step of the command it presents, or the environment acts. -/

namespace Sys2Proof.Machine

open Sys2Proof Host

/-- Port `p` is scheduled (R39, R106): a port without a command in progress does nothing; else its command word is decoded
and the command takes its next micro-step; a word that spells no command ends `IllegalCmd` (R95). -/
def portStep (p : Nat) (s : State) : Outcome State Fault Refusal :=
  match s.ports[p]? with
  | none => .next s
  | some P =>
    if P.req then
      match decode P.cw with
      | .ok i => exec i { s with cur := p }
      | .error _ =>
        match P.phase with
        | .ready => .next { s with cur := p }.illegalWord
        | _ => .fault .phaseMismatch
    else .next s

/-- What an event does. -/
def eventStep (e : Event) (s : State) : Outcome State Fault Refusal :=
  match e with
  | .port p => portStep p s
  | .write p i v => .next (s.userWrite p i v)
  | .present p w => .next (s.userPresent p w)
  | .clock n => .next (s.advance n)
  | .reset => .next s.assertReset

end Sys2Proof.Machine
end

