-- ==== Sys2Proof/Machine/Step.lean ====
section
/-! DEFINITION. One step of the machine: one event of the environment, or one micro-step of the port it schedules (R63, R67). -/

namespace Sys2Proof.Machine

open Sys2Proof Host

/-- One step (R67): the next event happens. -/
def step (s : State) : Outcome State Fault Refusal := eventStep s.nextEvent.1 s.nextEvent.2

/-- The state in which the command word `w` (numbered as the opcode table numbers its bits) is what the next step runs:
`presentNow` of port 0 (log entry 5). -/
def State.withFetchWord (s : State) (nbits w : Nat) : State := s.presentNow (BitVec.ofNat 32 (w % 2 ^ nbits))

end Sys2Proof.Machine
end

