-- ==== Sys2Proof/Machine/Assemble.lean ====
section
/-! DEFINITION. The assembly lines of R97 and the pseudo-commands of R98, as abstract syntax: what `(CW, A0, A1, A2, A3)` a line
assembles to, and what a port's user does to issue it. No step of the machine uses this file (log entry 28). -/

namespace Sys2Proof.Machine

open Sys2Proof

/-- The `cks=` operand of `lin.send` (R97). -/
inductive CksOpt
  | none
  | classic
  | enhanced
deriving DecidableEq, Repr

/-- The lines of R97. -/
inductive AsmLine
  | mbPost (d : Dir) (id : BitVec 29) (x : Bool) (bytes : List Byte)
  | mbFetch (d : Dir)
  | mbEmpty (d : Dir)
  | fltClear
  | fltSet (slot : BitVec 8) (id : Word) (ext : Bool)
  | fltEn (on : Bool)
  | fltApply
  | linPid (id : BitVec 6)
  | linCks (k : CksKind) (seed : Byte) (bytes : List Byte)
  | linSend (id : BitVec 6) (bytes : List Byte) (cks : CksOpt) (brk : BrkKind)
  | linXchg (id : BitVec 6) (bytes : List Byte) (rx : BitVec 4) (txcks : Bool) (kind : CksKind) (brk : BrkKind)
  | linDiag
  | linCycle
  | actMark
  | csrRd (addr : CsrAddr)
  | csrWr (addr : CsrAddr) (value : Word)
deriving DecidableEq, Repr

/-- The tuple a line assembles to (R97); `none` is the `-` of an operand register the command does not read (R92). -/
structure Issue where
  cw : Word
  a0 : Option Word
  a1 : Option Word
  a2 : Option Word
  a3 : Option Word
deriving DecidableEq, Repr

/-- R97: `cks=none` gives `c=0,k=0`, `classic` `c=1,k=0`, `enhanced` `c=1,k=1`. -/
def CksOpt.bits : CksOpt → Bool × CksKind
  | .none => (false, .classic)
  | .classic => (true, .classic)
  | .enhanced => (true, .enhanced)

/-- The length field of a byte list. -/
def lenField (bs : List Byte) : BitVec 4 := BitVec.ofNat 4 bs.length

/-- A command without operand registers. -/
def Issue.plain (i : Instr) : Issue := ⟨encode i, none, none, none, none⟩

/-- A command whose data bytes are in A2, A3 (R92). -/
def Issue.withData (i : Instr) (bs : List Byte) : Issue :=
  ⟨encode i, none, none, some (packLow bs), some (packHigh bs)⟩

/-- R97: assembling a line. -/
def AsmLine.assemble : AsmLine → Issue
  | .mbPost d id x bs =>
    ⟨encode (.mbPost d), some (BitVec.ofBool x ++ (0 : BitVec 2) ++ id), some (BitVec.ofNat 32 bs.length),
     some (packLow bs), some (packHigh bs)⟩
  | .mbFetch d => .plain (.mbFetch d)
  | .mbEmpty d => .plain (.mbEmpty d)
  | .fltClear => .plain .fltClear
  | .fltSet slot id ext => { Issue.plain (.fltSet slot ext) with a0 := some id }
  | .fltEn on => .plain (.fltEn on)
  | .fltApply => .plain .fltApply
  | .linPid id => .plain (.linPid id)
  | .linCks k seed bs => .withData (.linCks k (lenField bs) seed) bs
  | .linSend id bs c r => .withData (.linSend id (lenField bs) c.bits.1 c.bits.2 r) bs
  | .linXchg id bs n tc k r => .withData (.linXchg id (lenField bs) n tc k r) bs
  | .linDiag => .plain .linDiag
  | .linCycle => .plain .linCycle
  | .actMark => .plain .actMark
  | .csrRd addr => .plain (.csrRd addr)
  | .csrWr addr v => { Issue.plain (.csrWr addr) with a0 := some v }

/-- The user of port `p` issues an assembled line: it writes the operand registers the line gives, then presents `CW`. -/
def Issue.events (p : Nat) (i : Issue) : List Event :=
  (match i.a0 with | some v => [.write p 0 v] | none => []) ++ (match i.a1 with | some v => [.write p 1 v] | none => [])
  ++ (match i.a2 with | some v => [.write p 2 v] | none => []) ++ (match i.a3 with | some v => [.write p 3 v] | none => [])
  ++ [.present p i.cw]

/-! ### Pseudo-commands (R98) -/

/-- `lin.hdr <id>, brk`: a header only. -/
def AsmLine.linHdr (id : BitVec 6) (r : BrkKind) : AsmLine := .linSend id [] .none r

/-- `flt.unset <slot>`. -/
def AsmLine.fltUnset (slot : BitVec 8) : AsmLine := .fltSet slot 0 false

/-- `mode.set <v>`: the "narrow setter API" (R255). -/
def AsmLine.modeSet (v : Word) : AsmLine := .csrWr 0x0020 v

/-- `telem.rd` (R254). -/
def AsmLine.telemRd : AsmLine := .csrRd 0x0022

/-- `can.active` (R254). -/
def AsmLine.canActive : AsmLine := .csrRd 0x0041

/-- `lin.wake` (R214). -/
def AsmLine.linWake : AsmLine := .csrWr 0x0024 1

/-- `lin.sleep` (R214). -/
def AsmLine.linSleep : AsmLine := .csrWr 0x0024 0

end Sys2Proof.Machine
end

