-- ==== Sys2Proof/Safety.lean ====
section
/-! DEFINITION. What a safe state is and how runs are spoken of: the invariants of R25, R39, R46 and their companions, the
queue of frames of a direction, quiescence (R289), and a port's run of one command. Claims are stated in these words. -/

namespace Sys2Proof.Machine

open Sys2Proof Host

/-! ### Sizes: the canonical form of the indexed stores (R22, R27, R29, R283) -/

/-- Every indexed store has the length the configuration gives it: `NPORT` ports, `N[d]` slots, `2B` entries, `B` banks. -/
def State.sized (s : State) : Prop :=
  s.ports.length = s.cfg.nport ∧ (∀ d, (s.dir d).slots.length = s.cfg.slots d)
  ∧ s.flt.ents.length = 2 * s.cfg.banks ∧ s.flt.banks.length = s.cfg.banks

/-! ### The pool (R25) -/

/-- The slot of direction `d` that a port in this micro-phase holds (R39). -/
def MicroPhase.held (d : Dir) : MicroPhase → Option Nat
  | .pMirrorClaimed k _ => if d = .usb then some k else none
  | .pClaimed d' k _ => if d = d' then some k else none
  | .fPopped d' k _ => if d = d' then some k else none
  | .ready => none
  | .pPrimary => none
  | .lWait => none
  | .lRun => none

/-- All references of a direction: those in its FIFO, then those the ports hold. -/
def State.refs (s : State) (d : Dir) : List Nat :=
  (s.dir d).fifo ++ s.ports.filterMap fun P => P.phase.held d

/-- Slot `k` exists and is Occupied. -/
def DirStore.occupied (D : DirStore) (k : Nat) : Prop := (D.slots[k]?).map Slot.occ = some .occupied

/-- The pool invariants (I1), (I2), (I4) of R25 in one: no slot is referred to twice, by the FIFO and the holding ports
together, and the slots referred to are exactly the Occupied ones. -/
def State.poolOk (s : State) : Prop :=
  ∀ d, (s.refs d).Nodup ∧ ∀ k, k ∈ s.refs d ↔ (s.dir d).occupied k

/-- The frames waiting in a direction, oldest first. -/
def State.queue (s : State) (d : Dir) : List Frame := (s.dir d).fifo.map (s.dir d).read

/-! ### Ports and commands (R39) -/

/-- The micro-phases a command passes through. -/
def fitsPhase : Instr → MicroPhase → Bool
  | .mbPost d, .pMirrorClaimed _ _ => decide (d = .tx)
  | .mbPost d, .pPrimary => decide (d = .tx)
  | .mbPost d, .pClaimed d' _ _ => decide (d' = d)
  | .mbFetch d, .fPopped d' _ _ => decide (d' = d)
  | .linSend _ _ _ _ _, .lWait => true
  | .linSend _ _ _ _ _, .lRun => true
  | .linXchg _ _ _ _ _ _, .lWait => true
  | .linXchg _ _ _ _ _ _, .lRun => true
  | .linDiag, .lWait => true
  | .linDiag, .lRun => true
  | .linCycle, .lWait => true
  | .linCycle, .lRun => true
  | _, _ => false

/-- A port outside READY presents a command that passes through its micro-phase. -/
def Port.fits (P : Port) : Prop :=
  P.phase = .ready ∨ (P.req = true ∧ ∃ i, decode P.cw = .ok i ∧ fitsPhase i P.phase = true)

/-- Every port fits. -/
def State.portsFit (s : State) : Prop := ∀ P ∈ s.ports, P.fits

/-! ### The engine (R46, R204) -/

/-- The port in `L_RUN` is the owner, and there is one when the engine is owned; without an owner the phase is IDLE; in IDLE
there is no owner, but for LIN.CYCLE between its two transactions (R213). -/
def State.engineOk (s : State) : Prop :=
  (∀ p P, s.ports[p]? = some P → (P.phase = .lRun ↔ s.lin.owner = some p))
  ∧ (∀ p, s.lin.owner = some p → p < s.ports.length)
  ∧ (s.lin.owner = none → s.lin.phase = .idle)
  ∧ (s.lin.phase = .idle → s.lin.owner = none ∨ s.lin.first.isSome = true)

/-! ### Contents -/

/-- A port that is posting has legal operands; a frame copied out is well-formed. -/
def Port.frameOk (P : Port) : Prop :=
  match P.phase with
  | .pMirrorClaimed _ _ => operandsLegal P.lat = true
  | .pPrimary => operandsLegal P.lat = true
  | .pClaimed _ _ _ => operandsLegal P.lat = true
  | .fPopped _ _ (some f) => f.wf = true
  | .fPopped _ _ none => True
  | .ready => True
  | .lWait => True
  | .lRun => True

/-- Every stored frame is well-formed (R21, D11), and so is every frame on its way. -/
def State.framesOk (s : State) : Prop :=
  (∀ d, ∀ x ∈ (s.dir d).slots, x.frm.wf = true) ∧ ∀ P ∈ s.ports, P.frameOk

/-- A port that has copied its frame into the slot it holds, and publishes next, finds that frame there (R68, R132). -/
def State.copiedOk (s : State) : Prop :=
  ∀ P ∈ s.ports,
    (∀ k, P.phase = .pMirrorClaimed k true → (s.dir .usb).read k = P.lat.frame)
    ∧ ∀ d k, P.phase = .pClaimed d k .publish → (s.dir d).read k = P.lat.frame

/-- The range of an entry's raw identifier (R162). -/
def FilterEntry.legal (e : FilterEntry) : Prop := if e.ext then e.id.toNat ≤ 0x1FFFFFFF else e.id.toNat ≤ 0x7FF

/-- Entries are in range; bank `n` is active exactly for `n < NActive`; an active bank has index `n`, FIFO 0 and scale S32
(R29); an inactive one is all zero (R168). -/
def State.filterOk (s : State) : Prop :=
  (∀ e ∈ s.flt.ents, e.legal) ∧ s.flt.nActive ≤ s.cfg.banks
  ∧ ∀ n b, s.flt.banks[n]? = some b →
      if n < s.flt.nActive then b.active = true ∧ b.index = BitVec.ofNat 8 n ∧ b.fifo = 0 ∧ b.scale = .s32
      else b = Bank.inactive

/-! ### The transaction in progress -/

/-- The transaction that a command runs on the engine, with LIN.CYCLE's first outcome if it has one; `none` for a command that
does not use the engine. -/
def commandTxn (c : Cfg) (first : Option (Status × LinPhase)) : Instr → Option Txn
  | .linSend _ _ ck k r => some (sendTxn ck k r)
  | .linXchg _ _ n ck k r => some (xchgTxn n ck k r)
  | .linDiag => some (diagTxn c)
  | .linCycle => some (if first.isSome then diagTxn c else statusTxn c)
  | .mbPost _ => none
  | .mbFetch _ => none
  | .mbEmpty _ => none
  | .fltClear => none
  | .fltSet _ _ => none
  | .fltEn _ => none
  | .fltApply => none
  | .linPid _ => none
  | .linCks _ _ _ => none
  | .actMark => none
  | .csrRd _ => none
  | .csrWr _ => none

/-- The working frame is one (R30): at most 8 data bytes, and the protected identifier is its identifier's. -/
def LinFrame.ok (f : LinFrame) : Prop := f.len = f.data.length ∧ f.data.length ≤ 8 ∧ f.pid = Sys2Proof.Machine.pid f.id

/-- Where an engine that runs the command `i` can be: R213's phases, each with the progress that belongs to it. -/
def Lin.at (c : Cfg) (i : Instr) (l : Lin) : Prop :=
  match l.stage, l.phase with
  | .frame, .brk => i = .linCycle ∧ l.first = none
  | .frame, _ => False
  | .telemDone, .validate =>
    (i = .linDiag ∨ (i = .linCycle ∧ l.first.isSome = true)) ∧ l.rx.length = c.diagRespLen + 1
  | .telemDone, _ => False
  | .xfer, .idle => i = .linCycle ∧ l.first.isSome = true
  | .xfer, .brk => l.lf.ok
  | .xfer, .resp => l.lf.ok ∧ ∃ t, commandTxn c l.first i = some t ∧ t.resp.isSome = true
  | .xfer, .validate =>
    l.lf.ok ∧ ∃ t, commandTxn c l.first i = some t ∧ t.resp.isSome = true ∧ l.rx.length = t.respLen + 1
  | .xfer, _ =>
    l.lf.ok ∧ ∃ t, commandTxn c l.first i = some t ∧ l.idx < (wireBytes t l.lf).length
      ∧ l.phase = phaseOf l.lf.data.length l.idx

/-- The outcomes that a transaction without a response part can have (R198, R271). -/
def sendOutcome (c : Status) (ph : LinPhase) : Prop :=
  (c = .ok ∧ ph = .idle) ∨ (c = .timeout ∧ (ph = .brk ∨ ph = .sync ∨ ph = .pid ∨ ph = .data ∨ ph = .cks))

/-- The command of the port that owns the engine is where the engine is; only LIN.CYCLE has a first outcome. -/
def State.progressOk (s : State) : Prop :=
  ∀ p P i, s.lin.owner = some p → s.ports[p]? = some P → decode P.cw = .ok i →
    s.lin.at s.cfg i ∧ (∀ c ph, s.lin.first = some (c, ph) → i = .linCycle ∧ sendOutcome c ph)

/-- The invariant of the machine. -/
structure State.Inv (s : State) : Prop where
  cfgOk : s.cfg.wf = true
  sizes : s.sized
  pool : s.poolOk
  ports : s.portsFit
  engine : s.engineOk
  frames : s.framesOk
  copied : s.copiedOk
  filter : s.filterOk
  progress : s.progressOk

/-! ### Status codes and termination (R271, R325) -/

/-- R271's table: the pairs of status code and phase with which a command can end. -/
def statusAllowed : Instr → Status → LinPhase → Prop
  | .mbPost _, c, ph => ph = .idle ∧ (c = .ok ∨ c = .full ∨ c = .illegalCmd)
  | .mbFetch _, c, ph => ph = .idle ∧ (c = .ok ∨ c = .empty)
  | .mbEmpty _, c, ph => ph = .idle ∧ c = .ok
  | .fltClear, c, ph => ph = .idle ∧ c = .ok
  | .fltSet _ _, c, ph => ph = .idle ∧ (c = .ok ∨ c = .configError)
  | .fltEn _, c, ph => ph = .idle ∧ c = .ok
  | .fltApply, c, ph => ph = .idle ∧ c = .ok
  | .linPid _, c, ph => ph = .idle ∧ c = .ok
  | .linCks _ _ _, c, ph => ph = .idle ∧ c = .ok
  | .linSend _ _ _ _ _, c, ph => sendOutcome c ph
  | .linXchg _ _ _ _ _ _, c, ph =>
    sendOutcome c ph ∨ (c = .timeout ∧ ph = .resp) ∨ (c = .checksumMismatch ∧ ph = .validate)
  | .linDiag, c, ph => sendOutcome c ph ∨ (c = .timeout ∧ ph = .resp) ∨ (c = .checksumMismatch ∧ ph = .validate)
  | .linCycle, c, ph => sendOutcome c ph ∨ (c = .timeout ∧ ph = .resp) ∨ (c = .checksumMismatch ∧ ph = .validate)
  | .actMark, c, ph => ph = .idle ∧ c = .ok
  | .csrRd _, c, ph => ph = .idle ∧ (c = .ok ∨ c = .illegalCmd)
  | .csrWr _, c, ph => ph = .idle ∧ (c = .ok ∨ c = .illegalCmd)

/-- How many micro-steps the transaction `t` in progress still takes at most, its last one included. -/
def txnRemaining (t : Txn) (l : Lin) : Nat :=
  match l.phase with
  | .idle => 0
  | .brk => (wireBytes t l.lf).length + 3
  | .resp => 2
  | .validate => 1
  | _ => (wireBytes t l.lf).length - l.idx + 2

/-- How many micro-steps a LIN command that owns the engine still takes at most. -/
def linRemaining (c : Cfg) (i : Instr) (l : Lin) : Nat :=
  match i with
  | .linDiag => if l.stage = .telemDone then 1 else txnRemaining (diagTxn c) l + 1
  | .linCycle =>
    match l.stage, l.first with
    | .frame, _ => 32
    | .telemDone, _ => 1
    | .xfer, none => txnRemaining (statusTxn c) l + 17
    | .xfer, some _ => if l.phase = .idle then 16 else txnRemaining (diagTxn c) l + 1
  | _ => ((commandTxn c l.first i).map fun t => txnRemaining t l).getD 1

/-- How many own micro-steps a port with the command `i` in progress still takes at most, if it never waits for the engine. -/
def Port.remaining (c : Cfg) (l : Lin) (i : Instr) (P : Port) : Nat :=
  match P.phase with
  | .ready =>
    match i with
    | .mbPost _ => 7
    | .mbFetch _ => 3
    | .linSend _ _ _ _ _ => 34
    | .linXchg _ _ _ _ _ _ => 34
    | .linDiag => 34
    | .linCycle => 34
    | _ => 1
  | .pMirrorClaimed _ false => 6
  | .pMirrorClaimed _ true => 5
  | .pPrimary => 4
  | .pClaimed _ _ .copy => 3
  | .pClaimed _ _ .publish => 2
  | .pClaimed _ _ .rollback => 1
  | .fPopped _ _ none => 2
  | .fPopped _ _ (some _) => 1
  | .lWait => 33
  | .lRun => linRemaining c i l

/-! ### FLT.APPLY as R164 writes it -/

/-- One turn of FLT.APPLY's loop over the pairs, as R164 writes it: the table `nb` and the count `k` so far. -/
def applyTurn (c : Cfg) (f : Filter) (acc : List Bank × Nat) (i : Nat) : List Bank × Nat :=
  if (f.ent (2 * i)).id ≠ 0 ∨ (f.ent (2 * i + 1)).id ≠ 0 then
    (acc.1.set acc.2 ⟨true, BitVec.ofNat 8 acc.2, 0, .list, .s32,
      regOf c.ideBit (f.ent (2 * i)), regOf c.ideBit (f.ent (2 * i + 1))⟩, acc.2 + 1)
  else acc

/-- R164's pseudocode, assignment by assignment: the clearing loop, the disabled case, the loop over the pairs, and the
fail-closed case; then `Bank <- nb ; NActive <- k`. -/
def applyPseudocode (c : Cfg) (f : Filter) : Filter :=
  let cleared := List.replicate c.banks (⟨false, 0, 0, .mask, .s0, 0, 0⟩ : Bank)
  let done : List Bank × Nat :=
    if f.enabled = false then (cleared.set 0 ⟨true, 0, 0, .mask, .s32, 0, 0⟩, 1)
    else
      let looped := (List.range c.banks).foldl (applyTurn c f) (cleared, 0)
      if looped.2 = 0 then
        (looped.1.set 0 ⟨true, 0, 0, .list, .s32, regOf c.ideBit (f.ent 0), regOf c.ideBit (f.ent 1)⟩, 1)
      else looped
  { f with banks := done.1, nActive := done.2 }

/-! ### Runs -/

/-- R289, as it words it: every port's micro-phase is READY and nobody owns the engine. A port that has presented a word (D1:
its command has started) but has taken no micro-step of it has no phase of its own in R39; the model keeps it READY with `req`
up, so a state with such ports is quiescent too. DESIGN CHOICE, log entry 29. -/
def State.quiescent (s : State) : Prop := (∀ P ∈ s.ports, P.phase = .ready) ∧ s.lin.owner = none

/-- Up to `n` micro-steps of the command `i` on the acting port, no other agent in between; it stops when the command has
ended (the port is READY), or at a fault or refusal. -/
def runCmd : Nat → Instr → State → Outcome State Fault Refusal
  | 0, _, s => .next s
  | n + 1, i, s =>
    match exec i s with
    | .next t => if t.me.phase = .ready then .next t else runCmd n i t
    | .fault r => .fault r
    | .refused r => .refused r

/-- The acting port is `P`. -/
def State.acting (s : State) (P : Port) : Prop := s.ports[s.cur]? = some P

/-- The acting port replaced, everything else as it is. -/
def State.withPort (s : State) (P : Port) : State := { s with ports := s.ports.set s.cur P }

/-- A port whose command has ended with a status and results `r`. -/
def Port.ended (P : Port) (c : Status) (ph : LinPhase) (r : Quad) : Port :=
  { P with r := r, st := stWord c ph, phase := .ready, req := false }

/-- Port `q` replaced, everything else as it is. -/
def State.setPort (s : State) (q : Nat) (Q : Port) : State := { s with ports := s.ports.set q Q }

/-- A frame was offered to direction `d` between `s` and `t`: appended to the queue when there was room, else dropped and
counted (R145). -/
def State.offered (s t : State) (d : Dir) (f : Frame) : Prop :=
  if (s.queue d).length < s.cfg.slots d then t.queue d = s.queue d ++ [f] ∧ (t.dir d).drops = (s.dir d).drops
  else t.queue d = s.queue d ∧ (t.dir d).drops = satSucc (s.dir d).drops

/-- Nothing but the mailbox and the ports changed between `s` and `t`. -/
def State.onlyMailbox (s t : State) : Prop :=
  t.cfg = s.cfg ∧ t.env = s.env ∧ t.cur = s.cur ∧ t.flt = s.flt ∧ t.lin = s.lin ∧ t.act = s.act

/-- The LIN registers that a transaction does not write, and the mailbox, filter, activity and configuration, are as before. -/
def State.outsideTxnKept (s t : State) : Prop :=
  t.cfg = s.cfg ∧ t.cur = s.cur ∧ t.mb = s.mb ∧ t.flt = s.flt ∧ t.act = s.act ∧ t.env.now = s.env.now
  ∧ t.env.script = s.env.script ∧ t.lin.counter = s.lin.counter ∧ t.lin.mode = s.lin.mode ∧ t.lin.moving = s.lin.moving
  ∧ t.lin.position = s.lin.position ∧ t.lin.wake = s.lin.wake
  ∧ ∀ q, q ≠ s.cur → t.ports[q]? = s.ports[q]?

/-- `W` of R197 for a request: sync, protected identifier, data, and the checksum when asked for. -/
def requestBytes (id : BitVec 6) (data : List Byte) (c : Bool) (k : CksKind) : List Byte :=
  [0x55, pid id] ++ data ++ (if c then [cks k (pid id) data] else [])

/-- A LIN command of the acting port, started from READY in `s` as `P`, has ended in `t` with a status and results `r`: the
wire history has gained `w`, the transport's answers up to `rest` are used, the engine is free, and nothing else changed. -/
def State.linEnded (s : State) (P : Port) (c : Status) (ph : LinPhase) (r : Quad) (w : List WireEvent)
    (rest : List LinAnswer) (t : State) : Prop :=
  t.lin.wire = s.lin.wire ++ w ∧ t.lin.stCode = c ∧ t.lin.stPhase = ph ∧ t.lin.owner = none ∧ t.lin.phase = .idle
  ∧ t.env.answers = rest ∧ t.ports = s.ports.set s.cur (P.ended c ph r) ∧ s.outsideTxnKept t

/-- The transport's answer to request number `i` from `s` on (R195): the queue's, after its end a free one (log entry 6). -/
def State.answerAt (s : State) (i : Nat) : LinAnswer :=
  (s.env.answers[i]?).getD (Config.freeAnswer (s.env.drawn + (i - s.env.answers.length)))

/-- `SendPhases` as R197 writes it, for the bytes `W` of a frame with `len` data bytes, on the answers from number `i` on: the break
not confirmed; byte `m` of `W` not accepted; or all of `W` accepted. It returns `(c, ph)`, the wire history gains `w`, and the
next request is number `u`. -/
def State.requestRun (s : State) (i : Nat) (r : BrkKind) (len : Nat) (W : List Byte) (c : Status) (ph : LinPhase)
    (w : List WireEvent) (u : Nat) : Prop :=
  ((s.answerAt i).ack = false ∧ c = .timeout ∧ ph = .brk ∧ w = [.brk r false] ∧ u = i + 1)
  ∨ ((s.answerAt i).ack = true ∧ ∃ m, m ≤ W.length ∧ (∀ j < m, (s.answerAt (i + 1 + j)).ack = true)
    ∧ w = .brk r true :: (W.take m).map WireEvent.tx
    ∧ if m < W.length then (s.answerAt (i + 1 + m)).ack = false ∧ c = .timeout ∧ ph = phaseOf len m ∧ u = i + m + 2
      else c = .ok ∧ ph = .idle ∧ u = i + m + 1)

/-- A request and, when it was accepted, `RecvPhases` of `n` bytes as R199 writes it, on the answers from number `i` on: a failed
request reads nothing; a short read is a Timeout at RESP; else the last of the `n + 1` bytes `rx` is the checksum byte of the
others, or not. -/
def State.exchangeRun (s : State) (i : Nat) (r : BrkKind) (len : Nat) (W : List Byte) (k : CksKind) (pid : Byte) (n : Nat)
    (c : Status) (ph : LinPhase) (w : List WireEvent) (rx : List Byte) (u : Nat) : Prop :=
  (c ≠ .ok ∧ rx = [] ∧ s.requestRun i r len W c ph w u)
  ∨ ∃ w' u', s.requestRun i r len W .ok .idle w' u' ∧ rx = (s.answerAt u').bytes.take (n + 1) ∧ u = u' + 1
    ∧ w = w' ++ rx.map WireEvent.rx
    ∧ if rx.length < n + 1 then c = .timeout ∧ ph = .resp
      else if rx.getD n 0 = cks k pid (rx.take n) then c = .ok ∧ ph = .idle
      else c = .checksumMismatch ∧ ph = .validate

/-- `DiagBody`'s exchange (R208): the operands are those of Cfg. -/
def State.diagRun (s : State) (i : Nat) (c : Status) (ph : LinPhase) (w : List WireEvent) (rx : List Byte) (u : Nat) : Prop :=
  s.exchangeRun i s.cfg.diagBrk s.cfg.diagReqData.length
    (requestBytes s.cfg.diagId s.cfg.diagReqData s.cfg.diagReqCksEn s.cfg.diagCksKind) s.cfg.diagCksKind (pid s.cfg.diagId)
    s.cfg.diagRespLen c ph w rx u

/-- The telemetry of `s` put back into `t`: what is left of `t` to compare when the telemetry was updated. -/
def State.withTelem (t s : State) : State :=
  { t with lin := { t.lin with moving := s.lin.moving, position := s.lin.position } }

end Sys2Proof.Machine
end

