-- ==== Sys2Proof/Certificates/Slice0/Obligations.lean ====
section
/-! DEFINITION. The statements for the provers, in the order of the spec's files: encoding, the step, the mailbox, the filter
packer, the LIN engine, the system commands, and the machine as a whole. A command's operands are `P.lat`, the values that
`A0 .. A3` had when its word was presented (OperandsTakenAtPresentation; R90, R92, log entry 9). -/

open Sys2Proof Sys2Proof.Machine

/-! ### Encoding (30_encoding.md) -/

/-- Decoding the word of a well-formed command gives the command back, with every operand (R91, R94, R106). -/
def Obligations.DecodeOfEncode : Prop := ∀ i : Instr, i.wf = true → decode (encode i) = .ok i

/-- A word that decodes is the word of a well-formed command: no bit of it is ignored (R91, R95, R96). -/
def Obligations.EncodeOfDecode : Prop :=
  ∀ (w : Word) (i : Instr), decode w = .ok i → i.wf = true ∧ encode i = w

/-- R94, R106: a word spells the command of a row exactly when `w & mask = match` and the row's constraint holds; at most one row
fits a word. -/
def Obligations.DecodeIsTheOpcodeMap : Prop :=
  ∀ (w : Word) (m : String),
    ((∃ i, decode w = .ok i ∧ i.mnemonic = m)
      ↔ ∃ row ∈ opcodeTable, row.mnemonic = m ∧ row.spells w = true ∧ row.constraint w = true)
    ∧ ∀ r ∈ opcodeTable, ∀ r' ∈ opcodeTable, r.spells w = true → r'.spells w = true → r = r'

/-- Words of the spec's vectors V-E, one of each format, decode to what they stand for. -/
def Obligations.SampleWordsDecode : Prop :=
  decode 0x23000000 = .ok .fltApply ∧ decode 0x10010000 = .ok (.mbPost .tx)
  ∧ decode 0x21060100 = .ok (.fltSet 6 true) ∧ decode 0x22000001 = .ok (.fltEn true)
  ∧ decode 0x3000003F = .ok (.linPid 0x3F) ∧ decode 0x310105C1 = .ok (.linCks .enhanced 5 0xC1)
  ∧ decode 0x32070800 = .ok (.linSend 0 8 true .enhanced .brkB)
  ∧ decode 0x33025011 = .ok (.linXchg 0x11 0 5 false .enhanced .brkA)
  ∧ decode 0x51000020 = .ok (.csrWr 0x0020)

/-- R97: what each of the eleven assembly lines with fields assembles to: the command word as a sum of shifted fields, and every
operand register, `none` for one the command does not read. -/
def Obligations.AssembledWords : Prop :=
  (∀ (d : Dir) (id : BitVec 29) (x : Bool) (bs : List Byte), bs.length ≤ 8 →
    (AsmLine.mbPost d id x bs).assemble =
      ⟨0x10000000 ||| ((dirCode d).setWidth 32 <<< 16), some (id.setWidth 32 ||| (if x then 1 <<< 31 else 0)),
        some (BitVec.ofNat 32 bs.length), some (packLow bs), some (packHigh bs)⟩)
  ∧ (∀ d : Dir,
    (AsmLine.mbFetch d).assemble = ⟨0x11000000 ||| ((dirCode d).setWidth 32 <<< 16), none, none, none, none⟩
    ∧ (AsmLine.mbEmpty d).assemble = ⟨0x12000000 ||| ((dirCode d).setWidth 32 <<< 16), none, none, none, none⟩)
  ∧ (∀ (slot : BitVec 8) (id : Word) (e : Bool),
    (AsmLine.fltSet slot id e).assemble =
      ⟨0x21000000 ||| (slot.setWidth 32 <<< 16) ||| (if e then 1 <<< 8 else 0), some id, none, none, none⟩)
  ∧ (∀ on : Bool, (AsmLine.fltEn on).assemble = ⟨0x22000000 ||| (if on then 1 else 0), none, none, none, none⟩)
  ∧ (∀ id : BitVec 6, (AsmLine.linPid id).assemble = ⟨0x30000000 ||| id.setWidth 32, none, none, none, none⟩)
  ∧ (∀ (k : CksKind) (seed : Byte) (bs : List Byte), bs.length ≤ 8 →
    (AsmLine.linCks k seed bs).assemble =
      ⟨0x31000000 ||| (flagWord (kindBit k) <<< 16) ||| (BitVec.ofNat 32 bs.length <<< 8) ||| seed.setWidth 32,
        none, none, some (packLow bs), some (packHigh bs)⟩)
  ∧ (∀ (id : BitVec 6) (bs : List Byte) (o : CksOpt) (r : BrkKind), bs.length ≤ 8 →
    (AsmLine.linSend id bs o r).assemble =
      ⟨0x32000000 ||| (flagWord (brkBit r) <<< 18) ||| (if o = .enhanced then 1 <<< 17 else 0)
          ||| (if o = .none then 0 else 1 <<< 16) ||| (BitVec.ofNat 32 bs.length <<< 8) ||| id.setWidth 32,
        none, none, some (packLow bs), some (packHigh bs)⟩)
  ∧ (∀ (id : BitVec 6) (bs : List Byte) (n : BitVec 4) (tc : Bool) (k : CksKind) (r : BrkKind), bs.length ≤ 8 →
    (AsmLine.linXchg id bs n tc k r).assemble =
      ⟨0x33000000 ||| (flagWord (brkBit r) <<< 18) ||| (flagWord (kindBit k) <<< 17) ||| (flagWord tc <<< 16)
          ||| (n.setWidth 32 <<< 12) ||| (BitVec.ofNat 32 bs.length <<< 8) ||| id.setWidth 32,
        none, none, some (packLow bs), some (packHigh bs)⟩)
  ∧ (∀ addr : CsrAddr, (AsmLine.csrRd addr).assemble = ⟨0x50000000 ||| addr.setWidth 32, none, none, none, none⟩)
  ∧ (∀ (addr : CsrAddr) (v : Word),
    (AsmLine.csrWr addr v).assemble = ⟨0x51000000 ||| addr.setWidth 32, some v, none, none, none⟩)

/-- R61 (a), (c), R92, R93: data byte `k` is byte `k % 4` of register 2 for `k < 4` and of register 3 above, the byte of lowest weight
first; data bytes packed into registers 2 and 3 are the bytes read from them; and the frame that legal
operands spell comes back in the result registers: identifier, flag and length as posted, byte `k` as posted for `k < len` and
zero from `len` on. -/
def Obligations.RegisterPacking : Prop :=
  (∀ (q : Quad) (k : Nat), k < 8 →
    q.allBytes.getD k 0 = BitVec.ofNat 8 ((if k < 4 then q.w2 else q.w3).toNat / 2 ^ (8 * (k % 4))))
  ∧ (∀ (bs : List Byte) (w0 w1 : Word), bs.length ≤ 8 →
    (⟨w0, w1, packLow bs, packHigh bs⟩ : Quad).bytes bs.length = bs)
  ∧ ∀ q : Quad, operandsLegal q = true →
    q.frame.results.w0 = q.w0 ∧ q.frame.results.w1 = q.w1
    ∧ ∀ k < 8, q.frame.results.allBytes.getD k 0 =
        if k < (q.w1.extractLsb' 0 4).toNat then q.allBytes.getD k 0 else 0

/-! ### The step -/

/-- A scheduled port whose command word decodes to `i` takes one micro-step of `i`: the step is `exec i` of the state in which
that port acts and the event is used up. -/
def Obligations.StepRunsDecoded : Prop :=
  ∀ (s : State) (p : Nat) (P : Port) (i : Instr),
    s.nextEvent.1 = .port p → s.ports[p]? = some P → P.req = true → decode P.cw = .ok i →
    step s = exec i { s.nextEvent.2 with cur := p }

/-- R95: an illegal command word changes nothing but the issuing port's `ST`, which receives IllegalCmd (6), phase 0; the command
has then ended (`req`, a field of the model, falls), and the model's `cur` names the port. -/
def Obligations.IllegalWordOnlySt : Prop :=
  ∀ (s : State) (p : Nat) (P : Port),
    s.nextEvent.1 = .port p → s.ports[p]? = some P → P.req = true → P.phase = .ready →
    (∀ row ∈ opcodeTable, row.spells P.cw = true → row.constraint P.cw = false) →
    step s = .next { s.nextEvent.2 with cur := p, ports := s.ports.set p { P with st := 6, req := false } }

/-- What the environment does in one step: a user writes one operand register, and the other three keep their
values (R38); a user presents a word together with the
present values of the operand registers (R90), which a port takes only when its last command has ended (the model's choice for a
busy port, log entry 8); the clock advances modulo 2^32 (R45); an
idle port that is scheduled does nothing (R43). -/
def Obligations.EnvironmentSteps : Prop :=
  ∀ s : State,
    (∀ p i v P, s.nextEvent.1 = .write p i v → s.ports[p]? = some P →
      step s = .next { s.nextEvent.2 with ports := s.ports.set p { P with a :=
        ⟨if i = 0 then v else P.a.w0, if i = 1 then v else P.a.w1, if i = 2 then v else P.a.w2,
          if i = 3 then v else P.a.w3⟩ } })
    ∧ (∀ p w P, s.nextEvent.1 = .present p w → s.ports[p]? = some P →
      step s = .next { s.nextEvent.2 with
        ports := s.ports.set p (if P.req then P else { P with cw := w, req := true, lat := P.a }) })
    ∧ (∀ n, s.nextEvent.1 = .clock n →
      step s = .next { s.nextEvent.2 with
        env := { s.nextEvent.2.env with now := BitVec.ofNat 32 (s.env.now.toNat + n) } })
    ∧ (∀ p P, s.nextEvent.1 = .port p → s.ports[p]? = some P → P.req = false → step s = .next s.nextEvent.2)

/-- R90, R92, D1: a command starts when its word is presented to a port without one, and its operands are the values of `A0 .. A3`
at that moment; until it has ended nothing but reset changes them or the word: not the port's own micro-steps, not a later write
of its operand registers, not another port. (That presentation is that moment is DEDUCED: log entry 9.) -/
def Obligations.OperandsTakenAtPresentation : Prop :=
  (∀ (s : State) (p : Nat) (w : Word) (P : Port), s.nextEvent.1 = .present p w → s.ports[p]? = some P → P.req = false →
    ∃ t Q, step s = .next t ∧ t.ports[p]? = some Q ∧ Q.req = true ∧ Q.cw = w ∧ Q.lat = P.a ∧ Q.phase = P.phase)
  ∧ ∀ (s t : State) (p : Nat) (P : Port), step s = .next t → s.nextEvent.1 ≠ .reset → s.ports[p]? = some P → P.req = true →
    ∃ Q, t.ports[p]? = some Q ∧ Q.lat = P.lat ∧ Q.cw = P.cw

/-- R310: reset is total, and may come at any time. -/
def Obligations.ResetIsTotal : Prop :=
  ∀ s : State, s.nextEvent.1 = .reset → step s = .next (State.resetWith s.cfg s.nextEvent.2.env)

/-- R43: the value of every piece of state after reset, for every configuration; and no port has a command in progress or presented
(R43, R310; `req` is the model's field, log entries 8 and 29). -/
def Obligations.ResetValues : Prop :=
  ∀ (c : Cfg) (e : Env),
    let s := State.resetWith c e
    (∀ d, (s.dir d).slots.length = c.slots d ∧ (∀ x ∈ (s.dir d).slots, x.occ = .free)
      ∧ (s.dir d).fifo = [] ∧ (s.dir d).drops = 0)
    ∧ (s.flt.ents.length = 2 * c.banks ∧ (∀ x ∈ s.flt.ents, x = ⟨0, false⟩) ∧ s.flt.enabled = false)
    ∧ (s.flt.banks.length = c.banks ∧ (∀ b ∈ s.flt.banks, b = ⟨false, 0, 0, .mask, .s0, 0, 0⟩) ∧ s.flt.nActive = 0)
    ∧ (s.lin.phase = .idle ∧ s.lin.owner = none ∧ s.lin.counter = 0 ∧ s.lin.mode = 0 ∧ s.lin.moving = false
      ∧ s.lin.position = 0 ∧ s.lin.stCode = .ok ∧ s.lin.stPhase = .idle ∧ s.lin.wake = false ∧ s.lin.wire = [])
    ∧ (s.act.last = 0 ∧ s.act.seen = false)
    ∧ (s.ports.length = c.nport
      ∧ ∀ P ∈ s.ports, P.a = ⟨0, 0, 0, 0⟩ ∧ P.r = ⟨0, 0, 0, 0⟩ ∧ P.st = 0 ∧ P.phase = .ready ∧ P.req = false)

/-! ### Mailbox (41_mailbox.md) -/

/-- R142: when MB.POST's operands are legal, and what it does when they are not: ST is IllegalCmd, and no other state changes. -/
def Obligations.PostIllegalOperands : Prop :=
  (∀ q : Quad, operandsLegal q = true ↔
    (q.w0.extractLsb' 29 2 = 0 ∧ q.w1.extractLsb' 4 28 = 0 ∧ (q.w1.extractLsb' 0 4).toNat ≤ 8
      ∧ (q.w0.getLsbD 31 = false → q.w0.extractLsb' 11 18 = 0)))
  ∧ ∀ (s : State) (P : Port) (d : Dir), s.acting P → P.phase = .ready → operandsLegal P.lat = false →
    exec (.mbPost d) s = .next (s.withPort (P.ended .illegalCmd .idle P.r))

/-- R131, step P1 of MB.POST: the Free slot of lowest index becomes Occupied and nothing else of the mailbox changes; with no Free
slot the drop counter of the direction counts, saturating, and the post ends Full. -/
def Obligations.PostClaims : Prop :=
  ∀ (s : State) (P : Port) (d : Dir), s.acting P →
    ((d ≠ .tx ∧ P.phase = .ready ∧ operandsLegal P.lat = true) ∨ (d = .tx ∧ P.phase = .pPrimary)) →
    (∀ k, ((s.dir d).slots[k]?).map Slot.occ = some .free →
      (∀ j < k, ((s.dir d).slots[j]?).map Slot.occ = some .occupied) →
      exec (.mbPost d) s = .next
        ({ s with mb := s.mb.set d { s.dir d with
            slots := (s.dir d).slots.modify k fun x => { x with occ := .occupied } } }.withPort
          { P with phase := .pClaimed d k .copy }))
    ∧ ((∀ x ∈ (s.dir d).slots, x.occ = .occupied) →
      exec (.mbPost d) s = .next
        ({ s with mb := s.mb.set d { s.dir d with
            drops := if (s.dir d).drops = 0xFFFFFFFF then 0xFFFFFFFF else (s.dir d).drops + 1 } }.withPort
          (P.ended .full .idle P.r)))

/-- R135, step M1: a post to TX first claims a USB slot, or counts the USB drop and goes on to its own post. -/
def Obligations.PostClaimsMirror : Prop :=
  ∀ (s : State) (P : Port), s.acting P → P.phase = .ready → operandsLegal P.lat = true →
    (∀ k, ((s.dir .usb).slots[k]?).map Slot.occ = some .free →
      (∀ j < k, ((s.dir .usb).slots[j]?).map Slot.occ = some .occupied) →
      exec (.mbPost .tx) s = .next
        ({ s with mb := { s.mb with usb := { s.mb.usb with
            slots := s.mb.usb.slots.modify k fun x => { x with occ := .occupied } } } }.withPort
          { P with phase := .pMirrorClaimed k false }))
    ∧ ((∀ x ∈ (s.dir .usb).slots, x.occ = .occupied) →
      exec (.mbPost .tx) s = .next
        ({ s with mb := { s.mb with usb := { s.mb.usb with
            drops := if s.mb.usb.drops = 0xFFFFFFFF then 0xFFFFFFFF else s.mb.usb.drops + 1 } } }.withPort
          { P with phase := .pPrimary }))

/-- R132, steps P2 and M2: the posted frame is stored into the slot the port holds, and nothing else changes. -/
def Obligations.PostCopiesIn : Prop :=
  ∀ (s : State) (P : Port) (k : Nat), s.acting P →
    (∀ d, P.phase = .pClaimed d k .copy →
      exec (.mbPost d) s = .next
        ({ s with mb := s.mb.set d { s.dir d with
            slots := (s.dir d).slots.modify k fun x => { x with frm := P.lat.frame } } }.withPort
          { P with phase := .pClaimed d k .publish }))
    ∧ (P.phase = .pMirrorClaimed k false →
      exec (.mbPost .tx) s = .next
        ({ s with mb := { s.mb with usb := { s.mb.usb with
            slots := s.mb.usb.slots.modify k fun x => { x with frm := P.lat.frame } } } }.withPort
          { P with phase := .pMirrorClaimed k true }))

/-- R133, steps P3 and M3 on a FIFO with room: the slot's reference is appended at the tail; P3 ends the post OK, M3 goes on to the
primary post. -/
def Obligations.PostPublishes : Prop :=
  ∀ (s : State) (P : Port) (k : Nat), s.acting P →
    (∀ d, P.phase = .pClaimed d k .publish → (s.dir d).fifo.length < s.cfg.slots d →
      exec (.mbPost d) s = .next
        ({ s with mb := s.mb.set d { s.dir d with fifo := (s.dir d).fifo ++ [k] } }.withPort
          (P.ended .ok .idle P.r)))
    ∧ (P.phase = .pMirrorClaimed k true → (s.dir .usb).fifo.length < s.cfg.nUsb →
      exec (.mbPost .tx) s = .next
        ({ s with mb := { s.mb with usb := { s.mb.usb with fifo := s.mb.usb.fifo ++ [k] } } }.withPort
          { P with phase := .pPrimary }))

/-- R134, R135: when the push fails (which no run shows), the slot is Free again, the drop is counted, and a post ends Full in its
next step, while a mirror offer is given up in the same step (log entry 16). -/
def Obligations.PostRollsBack : Prop :=
  ∀ (s : State) (P : Port) (k : Nat), s.acting P →
    (∀ d, P.phase = .pClaimed d k .publish → s.cfg.slots d ≤ (s.dir d).fifo.length →
      exec (.mbPost d) s = .next (s.withPort { P with phase := .pClaimed d k .rollback }))
    ∧ (∀ d, P.phase = .pClaimed d k .rollback →
      exec (.mbPost d) s = .next
        ({ s with mb := s.mb.set d { s.dir d with
            slots := (s.dir d).slots.modify k fun x => { x with occ := .free }
            drops := satSucc (s.dir d).drops } }.withPort (P.ended .full .idle P.r)))
    ∧ (P.phase = .pMirrorClaimed k true → s.cfg.nUsb ≤ (s.dir .usb).fifo.length →
      exec (.mbPost .tx) s = .next
        ({ s with mb := { s.mb with usb := { s.mb.usb with
            slots := s.mb.usb.slots.modify k fun x => { x with occ := .free }
            drops := satSucc s.mb.usb.drops } } }.withPort { P with phase := .pPrimary }))

/-- R136, R137, the steps of MB.FETCH: F1 removes the head of the FIFO, or ends Empty and changes nothing; F2 copies the frame out;
F3 makes the slot Free and delivers the frame (R93). -/
def Obligations.FetchSteps : Prop :=
  ∀ (s : State) (P : Port) (d : Dir), s.acting P →
    (P.phase = .ready → (s.dir d).fifo = [] →
      exec (.mbFetch d) s = .next (s.withPort (P.ended .empty .idle P.r)))
    ∧ (∀ k rest, P.phase = .ready → (s.dir d).fifo = k :: rest →
      exec (.mbFetch d) s = .next
        ({ s with mb := s.mb.set d { s.dir d with fifo := rest } }.withPort
          { P with phase := .fPopped d k none }))
    ∧ (∀ k x, P.phase = .fPopped d k none → (s.dir d).slots[k]? = some x →
      exec (.mbFetch d) s = .next (s.withPort { P with phase := .fPopped d k (some x.frm) }))
    ∧ (∀ k f, P.phase = .fPopped d k (some f) →
      exec (.mbFetch d) s = .next
        ({ s with mb := s.mb.set d { s.dir d with
            slots := (s.dir d).slots.modify k fun x => { x with occ := .free } } }.withPort
          (P.ended .ok .idle
            ⟨f.id.setWidth 32 ||| (if f.ext then 0x80000000 else 0), BitVec.ofNat 32 f.data.length,
              wordOfBytes (f.data.getD 0 0) (f.data.getD 1 0) (f.data.getD 2 0) (f.data.getD 3 0),
              wordOfBytes (f.data.getD 4 0) (f.data.getD 5 0) (f.data.getD 6 0) (f.data.getD 7 0)⟩)))

/-- R138: MB.EMPTY answers 1 exactly when the FIFO's count is zero; it changes no state of the block but the port's `R0` and
`ST`. -/
def Obligations.EmptyReports : Prop :=
  ∀ (s : State) (P : Port) (d : Dir), s.acting P → P.phase = .ready →
    exec (.mbEmpty d) s = .next
      (s.withPort (P.ended .ok .idle { P.r with w0 := if (s.dir d).fifo.length = 0 then 1 else 0 }))

/-- R25, all of it, of every state with the invariant: (I1) a reference in the FIFO names an Occupied slot; (I2) none occurs twice;
(I3) the count is at most the number of Occupied slots, and that at most `N[d]` (R144); (I4) an Occupied slot that is in no FIFO is
held by exactly one port; and the push of a slot that a port holds does not fail. -/
def Obligations.PoolInvariants : Prop :=
  ∀ (s : State) (d : Dir), s.Inv →
    (∀ k ∈ (s.dir d).fifo, (s.dir d).occupied k)
    ∧ (s.dir d).fifo.Nodup
    ∧ ((s.dir d).fifo.length ≤ (s.dir d).occCount ∧ (s.dir d).occCount ≤ s.cfg.slots d)
    ∧ (∀ k, (s.dir d).occupied k → k ∉ (s.dir d).fifo →
      ∃ (p : Nat) (P : Port), s.ports[p]? = some P ∧ P.phase.held d = some k
        ∧ ∀ (q : Nat) (Q : Port), s.ports[q]? = some Q → Q.phase.held d = some k → q = p)
    ∧ ∀ P ∈ s.ports, ∀ k, P.phase.held d = some k → (s.dir d).fifo.length < s.cfg.slots d

/-- R140, R289: in a quiescent state the Occupied slots of a direction are as many as its FIFO's references, no slot is Free exactly
when the count is `N[d]`, and the engine is IDLE. (A port with a word presented and no micro-step taken is READY: log entry 29.) -/
def Obligations.QuiescentCounts : Prop :=
  ∀ (s : State) (d : Dir), s.Inv → s.quiescent →
    (s.dir d).occCount = (s.dir d).fifo.length
    ∧ ((∀ x ∈ (s.dir d).slots, x.occ = .occupied) ↔ (s.dir d).fifo.length = s.cfg.slots d)
    ∧ s.lin.phase = .idle

/-- R145: used by one port at a time, each direction is a bounded queue of capacity `N[d]`; a post to TX first offers its frame to
USB, which is another such queue. -/
def Obligations.SequentialView : Prop :=
  ∀ (s : State) (P : Port), s.Inv → s.acting P → P.phase = .ready →
    (∀ Q ∈ s.ports, ∀ d, Q.phase.held d = none) →
    (operandsLegal P.lat = true →
      (∀ d, d ≠ .tx → ∃ t, runCmd 3 (.mbPost d) s = .next t ∧ s.offered t d P.lat.frame ∧ (∀ e, e ≠ d → t.dir e = s.dir e)
        ∧ s.onlyMailbox t
        ∧ t.ports = s.ports.set s.cur
            (P.ended (if (s.queue d).length < s.cfg.slots d then .ok else .full) .idle P.r))
      ∧ (∃ t, runCmd 6 (.mbPost .tx) s = .next t ∧ s.offered t .usb P.lat.frame ∧ s.offered t .tx P.lat.frame
        ∧ t.dir .rx = s.dir .rx ∧ s.onlyMailbox t
        ∧ t.ports = s.ports.set s.cur
            (P.ended (if (s.queue .tx).length < s.cfg.nTx then .ok else .full) .idle P.r)))
    ∧ (∀ d, s.queue d = [] → runCmd 3 (.mbFetch d) s = .next (s.withPort (P.ended .empty .idle P.r)))
    ∧ (∀ d f rest, s.queue d = f :: rest →
      ∃ t, runCmd 3 (.mbFetch d) s = .next t ∧ t.queue d = rest ∧ (t.dir d).drops = (s.dir d).drops
        ∧ (∀ e, e ≠ d → t.dir e = s.dir e) ∧ s.onlyMailbox t
        ∧ t.ports = s.ports.set s.cur (P.ended .ok .idle f.results))
    ∧ (∀ d, runCmd 1 (.mbEmpty d) s = .next
        (s.withPort (P.ended .ok .idle { P.r with w0 := if s.queue d = [] then 1 else 0 })))

/-- R139, the FIFO law, over every step of every state with the invariant, whatever the other ports do: the queue of a direction
changes only by a publish step, which appends the frame the publishing port posts, and by an F1 step, which takes the oldest
frame. -/
def Obligations.FifoLaw : Prop :=
  ∀ (s t : State) (d : Dir), s.Inv → step s = .next t → s.nextEvent.1 ≠ .reset →
    t.queue d = s.queue d
    ∨ (∃ p P k, s.nextEvent.1 = .port p ∧ s.ports[p]? = some P ∧ operandsLegal P.lat = true
        ∧ (P.phase = .pClaimed d k .publish ∨ (d = .usb ∧ P.phase = .pMirrorClaimed k true))
        ∧ t.queue d = s.queue d ++ [P.lat.frame])
    ∨ (∃ p Q k f, s.nextEvent.1 = .port p ∧ t.ports[p]? = some Q ∧ Q.phase = .fPopped d k none
        ∧ (t.dir d).read k = f ∧ s.queue d = f :: t.queue d)

/-- R69, R136, R139: the frame a port has popped stays what it is, whatever any port does, until that port's MB.FETCH delivers it in
its result registers with status OK. -/
def Obligations.PoppedFrameIsDelivered : Prop :=
  ∀ (s t : State) (p : Nat) (P : Port) (d : Dir) (k : Nat) (o : Option Frame),
    s.Inv → step s = .next t → s.nextEvent.1 ≠ .reset → s.ports[p]? = some P → P.phase = .fPopped d k o →
    ∃ Q, t.ports[p]? = some Q
      ∧ ((∃ o', Q.phase = .fPopped d k o' ∧ o'.getD ((t.dir d).read k) = o.getD ((s.dir d).read k))
        ∨ (Q.phase = .ready ∧ Q.st = 0 ∧ Q.r = (o.getD ((s.dir d).read k)).results))

/-! ### Filter packer (42_filter.md) -/

/-- R161, R163: FLT.CLEAR makes every entry unused and changes neither the flag nor the bank table; FLT.EN sets the flag and changes
neither the entries nor the table. -/
def Obligations.FltClearAndEnable : Prop :=
  ∀ (s : State) (P : Port), s.acting P → P.phase = .ready →
    exec .fltClear s = .next
      ({ s with flt := { s.flt with ents := List.replicate (2 * s.cfg.banks) ⟨0, false⟩ } }.withPort
        (P.ended .ok .idle P.r))
    ∧ ∀ n, exec (.fltEn n) s = .next
      ({ s with flt := { s.flt with enabled := n } }.withPort (P.ended .ok .idle P.r))

/-- R162: FLT.SET stores the raw entry, or ends ConfigError and changes nothing. -/
def Obligations.FltSetStores : Prop :=
  ∀ (s : State) (P : Port) (slot : BitVec 8) (e : Bool), s.acting P → P.phase = .ready →
    exec (.fltSet slot e) s =
      if 2 * s.cfg.banks ≤ slot.toNat ∨ (e = false ∧ 0x7FF < P.lat.w0.toNat) ∨ (e = true ∧ 0x1FFFFFFF < P.lat.w0.toNat) then
        .next (s.withPort (P.ended .configError .idle P.r))
      else
        .next ({ s with flt := { s.flt with ents := s.flt.ents.set slot.toNat ⟨P.lat.w0, e⟩ } }.withPort
          (P.ended .ok .idle P.r))

/-- R164: FLT.APPLY is its pseudocode, assignment by assignment, in one step; between 1 and `B` banks are active. (How the pass-all
bank is spelled is the spec's own, G2 and log entry 19.) -/
def Obligations.FltApplyIsPseudocode : Prop :=
  ∀ (s : State) (P : Port), s.acting P → P.phase = .ready → 1 ≤ s.cfg.banks →
    exec .fltApply s = .next ({ s with flt := applyPseudocode s.cfg s.flt }.withPort (P.ended .ok .idle P.r))
    ∧ 1 ≤ (applyPseudocode s.cfg s.flt).nActive ∧ (applyPseudocode s.cfg s.flt).nActive ≤ s.cfg.banks

/-- R165, R166, R167, R168, R170: the table FLT.APPLY derives. Disabled: pass-all in bank 0. Enabled: the `j`-th populated pair in
index order is bank `j`; with no populated pair bank 0 holds zero registers. Every other bank is inactive with all fields zero. -/
def Obligations.FltApplyTable : Prop :=
  ∀ (c : Cfg) (f : Filter), 1 ≤ c.banks →
    let g := f.applied c
    let ps := (List.range c.banks).filter fun i => decide ((f.ent (2 * i)).id ≠ 0) || decide ((f.ent (2 * i + 1)).id ≠ 0)
    g.ents = f.ents ∧ g.enabled = f.enabled ∧ g.banks.length = c.banks
    ∧ (f.enabled = false → g.nActive = 1 ∧ g.banks[0]? = some ⟨true, 0, 0, .mask, .s32, 0, 0⟩)
    ∧ (f.enabled = true → ps = [] → g.nActive = 1 ∧ g.banks[0]? = some ⟨true, 0, 0, .list, .s32, 0, 0⟩)
    ∧ (f.enabled = true → ps ≠ [] → g.nActive = ps.length ∧
      ∀ (j : Nat) (i : Nat), ps[j]? = some i →
        g.banks[j]? = some (⟨true, BitVec.ofNat 8 j, 0, .list, .s32,
          regOf c.ideBit (f.ent (2 * i)), regOf c.ideBit (f.ent (2 * i + 1))⟩ : Bank))
    ∧ ∀ n, g.nActive ≤ n → n < c.banks → g.banks[n]? = some ⟨false, 0, 0, .mask, .s0, 0, 0⟩

/-- R160: the two encodings, the register of an entry (its encoding, or zero for an unused one), and that no two identifiers in
range share an encoding. -/
def Obligations.EncIsInjective : Prop :=
  ∀ (b : Nat), b ≤ 2 →
    (∀ e : FilterEntry, e.id = 0 → regOf b e = 0)
    ∧ (∀ e : FilterEntry, e.id ≠ 0 → regOf b e = enc b e.id e.ext)
    ∧ (∀ x : Word, enc b x false = BitVec.ofNat 32 (x.toNat * 2 ^ 21)
        ∧ enc b x true = BitVec.ofNat 32 (x.toNat * 2 ^ 3) ||| BitVec.ofNat 32 (2 ^ b))
    ∧ (∀ x y : Word, x.toNat ≤ 0x7FF → y.toNat ≤ 0x7FF → enc b x false = enc b y false → x = y)
    ∧ (∀ x y : Word, x.toNat ≤ 0x1FFFFFFF → y.toNat ≤ 0x1FFFFFFF → enc b x true = enc b y true → x = y)
    ∧ (∀ x y : Word, enc b x false ≠ enc b y true)

/-! ### LIN arithmetic (43_lin.md, section 1) -/

/-- R192: the accumulator is the seed (0 for Classic) plus the bytes, and the checksum 0xFF less its fold. R193, all five laws: (a) the protected identifier's low six bits are the identifier, so that it is injective; (b) it is neither
0x00 nor 0xFF; (c) the accumulator plus the checksum folds to 0xFF; (d) the two kinds' checksums of the same data differ for
every protected identifier; (e) the source's payload. -/
def Obligations.ArithmeticLaws : Prop :=
  (∀ (k : CksKind) (p : Byte) (data : List Byte), data.length ≤ 8 →
    (cksAcc k p data).toNat = (if k = .enhanced then p.toNat else 0) + (data.map BitVec.toNat).sum
    ∧ (cks k p data).toNat = 255 - (fold (cksAcc k p data)).toNat)
  ∧ (∀ id : BitVec 6, (pid id).extractLsb' 0 6 = id)
  ∧ (∀ id id' : BitVec 6, pid id = pid id' → id = id')
  ∧ (∀ id : BitVec 6, pid id ≠ 0x00 ∧ pid id ≠ 0xFF)
  ∧ (∀ (k : CksKind) (p : Byte) (data : List Byte), data.length ≤ 8 →
    fold (cksAcc k p data + (cks k p data).setWidth 16) = 0xFF)
  ∧ (∀ (id : BitVec 6) (data : List Byte), data.length ≤ 8 →
    cks .classic (pid id) data ≠ cks .enhanced (pid id) data)
  ∧ cksAcc .classic 0 [0x30, 0x08, 0x01, 0x00, 0x00] = 0x0039 ∧ (∀ p, cks .classic p [0x30, 0x08, 0x01, 0x00, 0x00] = 0xC6)
  ∧ pid 0x01 = 0xC1 ∧ cksAcc .enhanced 0xC1 [0x30, 0x08, 0x01, 0x00, 0x00] = 0x00FA
  ∧ cks .enhanced (pid 0x01) [0x30, 0x08, 0x01, 0x00, 0x00] = 0x05

/-- R191: one more turn of the loop is the source's pass while the value is above 0xFF; the first pass leaves at most 0x1FE; two passes
are as good as any larger number and leave at most 0xFF; the fold is congruent to its argument modulo 255, and zero only for
zero. -/
def Obligations.FoldLaw : Prop :=
  ∀ a : BitVec 16,
    (∀ n, foldLoop (n + 1) a =
      if 0xFF < a.toNat then foldLoop n (BitVec.ofNat 16 (a.toNat % 2 ^ 8 + a.toNat / 2 ^ 8)) else a)
    ∧ (foldLoop 1 a).toNat ≤ 0x1FE
    ∧ (∀ n, 2 ≤ n → foldLoop n a = foldLoop 2 a ∧ (foldLoop n a).toNat ≤ 0xFF)
    ∧ (fold a).toNat % 255 = a.toNat % 255 ∧ (fold a = 0 ↔ a = 0)

/-- R194, R196: LIN.PID and LIN.CKS write `R0` and `ST` of their port and change no other state; a length above 8 makes LIN.CKS end
IllegalCmd (no word decodes to such a command; this says what the meaning does if it is given one). -/
def Obligations.LinPureCommands : Prop :=
  ∀ (s : State) (P : Port), s.acting P → P.phase = .ready →
    (∀ id, exec (.linPid id) s = .next
      (s.withPort (P.ended .ok .idle { P.r with w0 :=
        (BitVec.ofBool (!(id.getLsbD 1 ^^ id.getLsbD 3 ^^ id.getLsbD 4 ^^ id.getLsbD 5))
          ++ BitVec.ofBool (id.getLsbD 0 ^^ id.getLsbD 1 ^^ id.getLsbD 2 ^^ id.getLsbD 4) ++ id : BitVec 8).setWidth 32 })))
    ∧ (∀ k (len : BitVec 4) seed, len.toNat ≤ 8 →
      exec (.linCks k len seed) s = .next
        (s.withPort (P.ended .ok .idle { P.r with w0 := (cks k seed (P.lat.bytes len.toNat)).setWidth 32 })))
    ∧ (∀ k (len : BitVec 4) seed, 8 < len.toNat →
      exec (.linCks k len seed) s = .next (s.withPort (P.ended .illegalCmd .idle P.r)))

/-! ### The LIN engine (43_lin.md, sections 3 to 8) -/

/-- R198, R200: a length above 8 ends the command IllegalCmd; the engine is not acquired and the wire is untouched. (No word
decodes to such a command; this says what the meanings do if they are given one.) -/
def Obligations.LinIllegalLengths : Prop :=
  ∀ (s : State) (P : Port), s.acting P → P.phase = .ready →
    (∀ id (len : BitVec 4) c k r, 8 < len.toNat →
      exec (.linSend id len c k r) s = .next (s.withPort (P.ended .illegalCmd .idle P.r)))
    ∧ (∀ id (len n : BitVec 4) c k r, (8 < len.toNat ∨ 8 < n.toNat) →
      exec (.linXchg id len n c k r) s = .next (s.withPort (P.ended .illegalCmd .idle P.r)))

/-- R204, R213: a port that presents a LIN command, or waits with one, takes the free engine in one step: the owner, the
micro-phase L_RUN, the phase BREAK, and the command's frame (R30); LIN.CYCLE has its counter step still before it. -/
def Obligations.EngineTaken : Prop :=
  ∀ (s : State) (P : Port), s.acting P → s.lin.owner = none → (P.phase = .ready ∨ P.phase = .lWait) →
    let start (id : BitVec 6) (data : List Byte) : Lin :=
      { s.lin with owner := some s.cur, phase := .brk, first := none, idx := 0, rx := [], stage := .xfer,
                   lf := ⟨id, data.length, data, pid id, s.lin.lf.cks⟩ }
    let go (l : Lin) : Host.Outcome State Fault Refusal := .next ({ s with lin := l }.withPort { P with phase := .lRun })
    (∀ id (len : BitVec 4) c k r, len.toNat ≤ 8 →
      exec (.linSend id len c k r) s = go (start id (P.lat.bytes len.toNat)))
    ∧ (∀ id (len n : BitVec 4) c k r, len.toNat ≤ 8 → n.toNat ≤ 8 →
      exec (.linXchg id len n c k r) s = go (start id (P.lat.bytes len.toNat)))
    ∧ exec .linDiag s = go (start s.cfg.diagId s.cfg.diagReqData)
    ∧ exec .linCycle s = go { s.lin with owner := some s.cur, phase := .brk, first := none, stage := .frame }

/-- R46, R204: while the engine has an owner, a port with a LIN command is held in L_WAIT, and nothing else changes. -/
def Obligations.EngineHeld : Prop :=
  ∀ (s : State) (P : Port) (q : Nat), s.acting P → s.lin.owner = some q → (P.phase = .ready ∨ P.phase = .lWait) →
    (∀ id (len : BitVec 4) c k r, len.toNat ≤ 8 →
      exec (.linSend id len c k r) s = .next (s.withPort { P with phase := .lWait }))
    ∧ (∀ id (len n : BitVec 4) c k r, len.toNat ≤ 8 → n.toNat ≤ 8 →
      exec (.linXchg id len n c k r) s = .next (s.withPort { P with phase := .lWait }))
    ∧ exec .linDiag s = .next (s.withPort { P with phase := .lWait })
    ∧ exec .linCycle s = .next (s.withPort { P with phase := .lWait })

/-- R206, R207: LIN.CYCLE's counter step: the counter advances modulo 16, and the status frame of the new counter and the mode, read
now, is what its transaction sends. -/
def Obligations.CycleCounterStep : Prop :=
  ∀ (s : State) (P : Port), s.acting P → P.phase = .lRun → s.lin.stage = .frame →
    exec .linCycle s = .next { s with lin := { s.lin with
      counter := BitVec.ofNat 4 ((s.lin.counter.toNat + 1) % 16), phase := .brk, idx := 0, rx := [], stage := .xfer,
      lf := ⟨s.cfg.statusId, s.cfg.statusLen, statusBytes s.cfg (s.lin.counter + 1) s.lin.mode, pid s.cfg.statusId,
        s.lin.lf.cks⟩ } }

/-- R209: the reference status frame: identifier 0x10, two bytes, speed level and counter in byte 0 and the four flags in byte 1, an
Enhanced checksum, strategy BRK_A; the protected identifier is 0x50. -/
def Obligations.ReferenceStatusFrame : Prop :=
  (∀ (c : Cfg) (cnt : BitVec 4) (mode : Byte), c.statusData = .reference → c.statusLen = 2 →
    statusBytes c cnt mode =
      [BitVec.ofNat 8 (mode.toNat / 2 ^ 4 * 2 ^ 4 + cnt.toNat), BitVec.ofNat 8 (mode.toNat % 2 ^ 4)])
  ∧ Cfg.reference.statusId = 0x10 ∧ Cfg.reference.statusLen = 2 ∧ Cfg.reference.statusData = .reference
  ∧ statusTxn Cfg.reference = ⟨true, .enhanced, .brkA, none⟩ ∧ pid 0x10 = 0x50

/-- R6, R207: the status frame's data is a function of the counter and the mode alone, any function of the configured length can be
configured, and in every legal configuration the counter and the mode flags can be read back from the data. -/
def Obligations.StatusFrameEmbeds : Prop :=
  (∀ (f : BitVec 4 → Byte → List Byte) (n : Nat), (∀ cnt mode, (f cnt mode).length = n) →
    (∀ (c : Cfg) (cnt : BitVec 4) (mode : Byte), c.statusLen = n → c.statusData = .ofFun f →
      statusBytes c cnt mode = f cnt mode)
    ∧ ((StatusData.ofFun f).embeds n = true
      ↔ ∀ cnt cnt' mode mode', f cnt mode = f cnt' mode' → cnt = cnt' ∧ mode = mode'))
  ∧ ∀ (c : Cfg) (cnt cnt' : BitVec 4) (mode mode' : Byte), c.wf = true →
    (statusBytes c cnt mode).length = c.statusLen
    ∧ (statusBytes c cnt mode = statusBytes c cnt' mode' → cnt = cnt' ∧ mode = mode')

/-- R201, R288: the last steps of the commands that use the engine, each from the place where only it is left: LIN.SEND's last
byte accepted; LIN.XCHG's response valid or not; LIN.DIAG's and LIN.CYCLE's end. `LIN_STATUS`, IDLE, the engine's release,
`ST`, READY and the results come in one step (log entry 10). And LIN.CYCLE's `Finish(c1, p1)` after its status frame, at the last
byte accepted, at a byte refused, at a break unconfirmed: IDLE, and the engine stays owned (R210, R213). -/
def Obligations.LinCommandsEnd : Prop :=
  ∀ (s : State) (P : Port), s.acting P → P.phase = .lRun →
    let done (l : Lin) (c : Status) (ph : LinPhase) : Lin :=
      { l with stCode := c, stPhase := ph, phase := .idle, idx := 0, rx := [], stage := .xfer, owner := none, first := none }
    let mid (l : Lin) (c : Status) (ph : LinPhase) : Lin :=
      { l with stCode := c, stPhase := ph, phase := .idle, idx := 0, rx := [], stage := .xfer, first := some (c, ph) }
    let w (n : Nat) := s.lin.rx.take n
    let cb (n : Nat) := s.lin.rx.getD n 0
    (∀ id len c k r a rest, (s.lin.phase = .sync ∨ s.lin.phase = .pid ∨ s.lin.phase = .data ∨ s.lin.phase = .cks) →
      s.env.answers = a :: rest → a.ack = true →
      s.lin.idx + 1 = (wireBytes (sendTxn c k r) s.lin.lf).length →
      exec (.linSend id len c k r) s = .next
        ({ s with env := { s.env with answers := rest },
                  lin := done { s.lin with wire :=
                    s.lin.wire ++ [WireEvent.tx ((wireBytes (sendTxn c k r) s.lin.lf).getD s.lin.idx 0)] } .ok .idle }.withPort
          (P.ended .ok .idle P.r)))
    ∧ (∀ id len (n : BitVec 4) c k r, s.lin.phase = .validate →
      exec (.linXchg id len n c k r) s = .next
        (if cb n.toNat = cks k s.lin.lf.pid (w n.toNat) then
          { s with lin := done s.lin .ok .idle }.withPort (P.ended .ok .idle
            ⟨(cb n.toNat).setWidth 32, n.setWidth 32, packLow (w n.toNat), packHigh (w n.toNat)⟩)
        else
          { s with lin := done s.lin .checksumMismatch .validate }.withPort
            (P.ended .checksumMismatch .validate P.r)))
    ∧ (s.lin.stage = .telemDone → s.lin.phase = .validate →
      exec .linDiag s = .next
        ({ s with lin := done s.lin .ok .idle }.withPort (P.ended .ok .idle
          ⟨(cb s.cfg.diagRespLen).setWidth 32, BitVec.ofNat 32 s.cfg.diagRespLen, packLow (w s.cfg.diagRespLen),
            packHigh (w s.cfg.diagRespLen)⟩))
      ∧ ∀ (c1 : Status) (p1 : LinPhase), s.lin.first = some (c1, p1) →
        exec .linCycle s = .next
          ({ s with lin := done s.lin .ok .idle }.withPort
            (P.ended (if c1 = Status.ok then Status.ok else c1) (if c1 = Status.ok then LinPhase.idle else p1)
              { P.r with w0 := cycleWord c1 p1 .ok .idle })))
    ∧ (∀ a rest, s.lin.stage = .xfer → s.lin.first = none → s.env.answers = a :: rest →
      let W := wireBytes (statusTxn s.cfg) s.lin.lf
      let go (es : List WireEvent) (c : Status) (ph : LinPhase) : State :=
        { s with env := { s.env with answers := rest }, lin := mid { s.lin with wire := s.lin.wire ++ es } c ph }
      (s.lin.phase = .brk → a.ack = false →
        exec .linCycle s = .next (go [.brk s.cfg.statusBrk false] .timeout .brk))
      ∧ ((s.lin.phase = .sync ∨ s.lin.phase = .pid ∨ s.lin.phase = .data ∨ s.lin.phase = .cks) →
        (a.ack = false → exec .linCycle s = .next (go [] .timeout (phaseOf s.lin.lf.data.length s.lin.idx)))
        ∧ (a.ack = true → s.lin.idx + 1 = W.length →
          exec .linCycle s = .next (go [.tx (W.getD s.lin.idx 0)] .ok .idle))))

/-- R208, R211: the telemetry update of LIN.DIAG and of LIN.CYCLE's exchange: on a valid response, in one step, both fields from
the response's bytes; nothing else but the model's position changes. -/
def Obligations.TelemetryUpdate : Prop :=
  ∀ (s : State) (P : Port), s.acting P → P.phase = .lRun → s.lin.phase = .validate → s.lin.stage = .xfer →
    s.cfg.movByte < s.cfg.diagRespLen → s.cfg.posByte < s.cfg.diagRespLen →
    s.lin.rx.getD s.cfg.diagRespLen 0 = cks s.cfg.diagCksKind s.lin.lf.pid (s.lin.rx.take s.cfg.diagRespLen) →
    let t := { s with lin := { s.lin with
      moving := (s.lin.rx.getD s.cfg.movByte 0).getLsbD s.cfg.movBit
      position := s.lin.rx.getD s.cfg.posByte 0
      stage := .telemDone } }
    exec .linDiag s = .next t ∧ (s.lin.first.isSome = true → exec .linCycle s = .next t)

/-- R197: `PhaseOf`, byte by byte: SYNC, PID, DATA for each data byte, CKS. R197, R198: a whole LIN.SEND on the free engine, for every way the transport can answer it (`requestRun`): a break not
confirmed, byte `j` of `W` not accepted, or all of `W` accepted; what the wire history gains, how the command ends, and which
answers it used. -/
def Obligations.SendWhole : Prop :=
  (∀ len : Nat, phaseOf len 0 = .sync ∧ phaseOf len 1 = .pid ∧ (∀ m, 2 ≤ m → m < 2 + len → phaseOf len m = .data)
    ∧ phaseOf len (2 + len) = .cks)
  ∧ ∀ (s : State) (P : Port) (id : BitVec 6) (len : BitVec 4) (c : Bool) (k : CksKind) (r : BrkKind), s.acting P →
    P.phase = .ready → s.lin.owner = none → len.toNat ≤ 8 →
    ∃ t code ph w u, runCmd 34 (.linSend id len c k r) s = .next t
      ∧ s.requestRun 0 r len.toNat (requestBytes id (P.lat.bytes len.toNat) c k) code ph w u
      ∧ s.linEnded P code ph P.r w (s.env.answers.drop u) t

/-- R197, R199, R200: a whole LIN.XCHG on the free engine, for every way the transport can answer it (`exchangeRun`). The request
fails as a LIN.SEND: nothing is read, the results are kept. Of an accepted request a short response is a Timeout at RESP, a
complete response with a wrong checksum a ChecksumMismatch at VALIDATE, and a right one is delivered. Every byte that arrived is
in the wire history. -/
def Obligations.XchgWhole : Prop :=
  ∀ (s : State) (P : Port) (id : BitVec 6) (len n : BitVec 4) (c : Bool) (k : CksKind) (r : BrkKind), s.acting P →
    P.phase = .ready → s.lin.owner = none → len.toNat ≤ 8 → n.toNat ≤ 8 →
    ∃ t code ph w rx u, runCmd 34 (.linXchg id len n c k r) s = .next t
      ∧ s.exchangeRun 0 r len.toNat (requestBytes id (P.lat.bytes len.toNat) c k) k (pid id) n.toNat code ph w rx u
      ∧ s.linEnded P code ph
          (if code = .ok then
            ⟨(rx.getD n.toNat 0).setWidth 32, n.setWidth 32, packLow (rx.take n.toNat), packHigh (rx.take n.toNat)⟩
          else P.r) w (s.env.answers.drop u) t

/-- R208, R211: a whole LIN.DIAG on the free engine, for every way the transport can answer it: as LIN.XCHG with the operands of Cfg;
on success both telemetry fields come from the response, and on any failure they keep their values. -/
def Obligations.DiagWhole : Prop :=
  ∀ (s : State) (P : Port), s.acting P → P.phase = .ready → s.lin.owner = none → s.cfg.wf = true →
    let n := s.cfg.diagRespLen
    ∃ t code ph w rx u, runCmd 34 .linDiag s = .next t
      ∧ s.diagRun 0 code ph w rx u
      ∧ (code ≠ .ok → s.linEnded P code ph P.r w (s.env.answers.drop u) t)
      ∧ (code = .ok →
        s.linEnded P .ok .idle
            ⟨(rx.getD n 0).setWidth 32, BitVec.ofNat 32 n, packLow (rx.take n), packHigh (rx.take n)⟩ w
            (s.env.answers.drop u) (t.withTelem s)
        ∧ t.lin.moving = (rx.getD s.cfg.movByte 0).getLsbD s.cfg.movBit ∧ t.lin.position = rx.getD s.cfg.posByte 0)

/-- R206, R207, R210, R288: a whole LIN.CYCLE on the free engine, for every way the transport can answer it: the counter has advanced by
one modulo 16; the status frame ran as a LIN.SEND and ended with `(c1, p1)`, which is (OK, IDLE) when every request of it was
accepted; then, whatever its outcome, the exchange ran on the answers that follow and ended with `(c2, p2)`; `R0` holds both
outcomes, `ST` the first that is not OK, `LIN_STATUS` the second; the telemetry comes from the response when the exchange was OK
and keeps its value otherwise; nothing else changes. -/
def Obligations.CycleWhole : Prop :=
  ∀ (s : State) (P : Port), s.acting P → P.phase = .ready → s.lin.owner = none → s.cfg.wf = true →
    let W := requestBytes s.cfg.statusId (statusBytes s.cfg (s.lin.counter + 1) s.lin.mode) s.cfg.statusCksEn s.cfg.statusCksKind
    ∃ t c1 p1 w1 u c2 p2 w2 rx v, runCmd 34 .linCycle s = .next t
      ∧ s.requestRun 0 s.cfg.statusBrk s.cfg.statusLen W c1 p1 w1 u
      ∧ ((∀ j ≤ W.length, (s.answerAt j).ack = true) → c1 = .ok ∧ p1 = .idle)
      ∧ s.diagRun u c2 p2 w2 rx v
      ∧ t.lin.wire = s.lin.wire ++ w1 ++ w2 ∧ t.env.answers = s.env.answers.drop v
      ∧ t.ports = s.ports.set s.cur
          (P.ended (if c1 ≠ .ok then c1 else c2) (if c1 ≠ .ok then p1 else p2)
            { P.r with w0 := BitVec.ofNat 32 (c1.code.toNat + 2 ^ 4 * p1.code.toNat + 2 ^ 8 * c2.code.toNat
                + 2 ^ 12 * p2.code.toNat) })
      ∧ t.lin.counter = BitVec.ofNat 4 ((s.lin.counter.toNat + 1) % 16)
      ∧ t.lin.stCode = c2 ∧ t.lin.stPhase = p2 ∧ t.lin.owner = none ∧ t.lin.phase = .idle
      ∧ t.lin.mode = s.lin.mode ∧ t.lin.wake = s.lin.wake
      ∧ (if c2 = .ok then
          t.lin.moving = (rx.getD s.cfg.movByte 0).getLsbD s.cfg.movBit ∧ t.lin.position = rx.getD s.cfg.posByte 0
        else t.lin.moving = s.lin.moving ∧ t.lin.position = s.lin.position)
      ∧ t.mb = s.mb ∧ t.flt = s.flt ∧ t.act = s.act ∧ t.cfg = s.cfg ∧ t.cur = s.cur ∧ t.env.now = s.env.now
      ∧ t.env.script = s.env.script

/-- R213, R31: the only transitions of `LIN_PHASE`. -/
def Obligations.PhaseTransitions : Prop :=
  ∀ (s t : State), s.Inv → step s = .next t → s.nextEvent.1 ≠ .reset → t.lin.phase ≠ s.lin.phase →
    (s.lin.phase, t.lin.phase) ∈
      ([(.idle, .brk), (.brk, .sync), (.brk, .idle), (.sync, .pid), (.sync, .idle), (.pid, .data), (.pid, .cks), (.pid, .resp),
        (.pid, .idle)] : List (LinPhase × LinPhase)) ++
      [(.data, .cks), (.data, .resp), (.data, .idle), (.cks, .resp), (.cks, .idle), (.resp, .validate), (.resp, .idle),
        (.validate, .idle)]

/-- R34, R211: the telemetry changes only when a LIN.DIAG or LIN.CYCLE that owns the engine finds a valid response, and then both
fields come from that response. -/
def Obligations.TelemetryOnlyOnSuccess : Prop :=
  ∀ (i : Instr) (s t : State) (P : Port), s.acting P → exec i s = .next t →
    (t.lin.moving = s.lin.moving ∧ t.lin.position = s.lin.position)
    ∨ ((i = .linDiag ∨ i = .linCycle) ∧ P.phase = .lRun ∧ s.lin.phase = .validate
      ∧ s.lin.rx.getD s.cfg.diagRespLen 0 = cks s.cfg.diagCksKind s.lin.lf.pid (s.lin.rx.take s.cfg.diagRespLen)
      ∧ t.lin.moving = ((s.lin.rx.take s.cfg.diagRespLen).getD s.cfg.movByte 0).getLsbD s.cfg.movBit
      ∧ t.lin.position = (s.lin.rx.take s.cfg.diagRespLen).getD s.cfg.posByte 0)

/-! ### System commands (44_system.md) -/

/-- R250: CSR.RD of a mapped address delivers the register in `R0`; of an unmapped one it is IllegalCmd; nothing else changes. -/
def Obligations.CsrRdReads : Prop :=
  ∀ (s : State) (P : Port) (addr : CsrAddr), s.acting P → P.phase = .ready →
    exec (.csrRd addr) s =
      match s.csrRead addr with
      | some v => .next (s.withPort (P.ended .ok .idle { P.r with w0 := v }))
      | none => .next (s.withPort (P.ended .illegalCmd .idle P.r))

/-- R40, R250 (b): the CSR map: every register's address and fields, and which addresses are unmapped. -/
def Obligations.CsrMap : Prop :=
  ∀ s : State, s.cfg.wf = true → s.sized →
    (s.csrRead 0x0010 = some (if s.flt.enabled then 1 else 0)
      ∧ s.csrRead 0x0011 = some (BitVec.ofNat 32 (s.flt.nActive % 256))
      ∧ s.csrRead 0x0020 = some (BitVec.ofNat 32 s.lin.mode.toNat)
      ∧ s.csrRead 0x0021 = some (BitVec.ofNat 32 s.lin.counter.toNat)
      ∧ s.csrRead 0x0022 = some (BitVec.ofNat 32 ((if s.lin.moving then 1 else 0) + 2 ^ 8 * s.lin.position.toNat))
      ∧ s.csrRead 0x0023 = some (BitVec.ofNat 32 (s.lin.stCode.code.toNat + 2 ^ 4 * s.lin.stPhase.code.toNat))
      ∧ s.csrRead 0x0024 = some (if s.lin.wake then 1 else 0)
      ∧ s.csrRead 0x0025 = some (BitVec.ofNat 32 s.lin.phase.code.toNat))
    ∧ (∀ d, s.csrRead (0x0030 + (dirCode d).setWidth 16) = some (s.dir d).drops
      ∧ s.csrRead (0x0034 + (dirCode d).setWidth 16) = some (BitVec.ofNat 32 (s.dir d).fifo.length)
      ∧ s.csrRead (0x0038 + (dirCode d).setWidth 16)
        = some (BitVec.ofNat 32 ((s.dir d).slots.filter fun x => decide (x.occ = .occupied)).length))
    ∧ (s.csrRead 0x0040 = some s.act.last
      ∧ s.csrRead 0x0041 = some (BitVec.ofNat 32 ((if s.isCanActive then 1 else 0) + 2 * (if s.act.seen then 1 else 0)))
      ∧ s.csrRead 0x0042 = some s.env.now)
    ∧ (∀ i e, s.flt.ents[i]? = some e →
      s.csrRead (BitVec.ofNat 16 (0x0100 + i)) = some e.id
      ∧ s.csrRead (BitVec.ofNat 16 (0x0200 + i)) = some (if e.ext then 1 else 0))
    ∧ (∀ n b, s.flt.banks[n]? = some b →
      s.csrRead (BitVec.ofNat 16 (0x0300 + 4 * n)) = some (BitVec.ofNat 32
        ((if b.active then 1 else 0) + 2 * (if b.mode = .list then 1 else 0) + 4 * (if b.scale = .s32 then 1 else 0)
          + 8 * b.fifo.toNat + 2 ^ 8 * b.index.toNat))
      ∧ s.csrRead (BitVec.ofNat 16 (0x0301 + 4 * n)) = some b.reg1
      ∧ s.csrRead (BitVec.ofNat 16 (0x0302 + 4 * n)) = some b.reg2)
    ∧ ∀ a : CsrAddr, s.csrRead a = none ↔
      ¬ (a.toNat ∈ ([0x10, 0x11, 0x20, 0x21, 0x22, 0x23, 0x24, 0x25, 0x30, 0x31, 0x32, 0x34, 0x35, 0x36, 0x38, 0x39, 0x3A,
            0x40, 0x41, 0x42] : List Nat)
        ∨ (0x100 ≤ a.toNat ∧ a.toNat < 0x100 + 2 * s.cfg.banks) ∨ (0x200 ≤ a.toNat ∧ a.toNat < 0x200 + 2 * s.cfg.banks)
        ∨ (0x300 ≤ a.toNat ∧ a.toNat < 0x300 + 4 * s.cfg.banks ∧ a.toNat % 4 ≠ 3))

/-- R251: the two writable registers; every other address is IllegalCmd and changes nothing. -/
def Obligations.CsrWrWrites : Prop :=
  ∀ (s : State) (P : Port) (addr : CsrAddr), s.acting P → P.phase = .ready →
    exec (.csrWr addr) s = .next
      (if addr = 0x0020 then
        { s with lin := { s.lin with mode := BitVec.ofNat 8 P.lat.w0.toNat } }.withPort (P.ended .ok .idle P.r)
      else if addr = 0x0024 then
        { s with lin := { s.lin with wake := decide (P.lat.w0.toNat % 2 = 1) } }.withPort (P.ended .ok .idle P.r)
      else s.withPort (P.ended .illegalCmd .idle P.r))

/-- R252, R253: ACT.MARK records the present millisecond count and the seen bit; the liveness predicate is as the rule writes it, and is
bit 0 of ACT_ACTIVE;
and after an ACT.MARK it is true until the clock has advanced past the window (for advances below 2^32 ms). -/
def Obligations.ActMarkAndLiveness : Prop :=
  (∀ (s : State) (P : Port), s.acting P → P.phase = .ready →
    exec .actMark s = .next ({ s with act := ⟨s.env.now, true⟩ }.withPort (P.ended .ok .idle P.r)))
  ∧ (∀ s : State, s.isCanActive = true ↔
    (s.act.seen = true ∧ (s.env.now.toNat + 2 ^ 32 - s.act.last.toNat) % 2 ^ 32 ≤ s.cfg.canActiveTimeoutMs))
  ∧ (∀ s : State, ∃ w, s.csrRead 0x0041 = some w ∧ w.getLsbD 0 = s.isCanActive)
  ∧ ∀ (s t : State) (n : Nat), exec .actMark s = .next t → n < 2 ^ 32 →
    ((t.advance n).isCanActive = true ↔ n ≤ s.cfg.canActiveTimeoutMs)

/-! ### The machine as a whole -/

/-- The invariant holds after reset, for every legal configuration and every environment. -/
def Obligations.InvAtReset : Prop := ∀ (c : Cfg) (e : Env), c.wf = true → (State.resetWith c e).Inv

/-- Every step of every state with the invariant keeps it: the sizes (the canonical form of the stores), the pool invariants of R25,
the fit of ports and commands (R39), the engine's owner (R46) and progress, the frames (R21), the entries and the bank
table (R27, R29). -/
def Obligations.InvKept : Prop := ∀ (s t : State), s.Inv → step s = .next t → t.Inv

/-- R9, R272: nothing stops the block: every step of a state with the invariant has a next state. -/
def Obligations.NothingStops : Prop := ∀ s : State, s.Inv → ∃ t, step s = .next t

/-- R103, R31: the numbers of the status codes and of the phases, by name. R271: which command can end with which status and
phase. -/
def Obligations.StatusTable : Prop :=
  (Status.ok.code = 0 ∧ Status.full.code = 1 ∧ Status.empty.code = 2 ∧ Status.timeout.code = 3
    ∧ Status.checksumMismatch.code = 4 ∧ Status.configError.code = 5 ∧ Status.illegalCmd.code = 6)
  ∧ (LinPhase.idle.code = 0 ∧ LinPhase.brk.code = 1 ∧ LinPhase.sync.code = 2 ∧ LinPhase.pid.code = 3
    ∧ LinPhase.data.code = 4 ∧ LinPhase.cks.code = 5 ∧ LinPhase.resp.code = 6 ∧ LinPhase.validate.code = 7)
  ∧ ∀ (s t : State) (p : Nat) (P Q : Port) (i : Instr), s.Inv → step s = .next t → s.nextEvent.1 = .port p →
    s.ports[p]? = some P → P.req = true → decode P.cw = .ok i → t.ports[p]? = some Q → Q.req = false →
    Q.phase = .ready ∧ ∃ c ph, statusAllowed i c ph
      ∧ Q.st = BitVec.ofNat 32 (c.code.toNat + 2 ^ 4 * ph.code.toNat)

/-- R325, R202: every command ends after a bounded number of its own micro-steps, whatever the other ports and the transport do: the
bound `Port.remaining` (7 for MB.POST, 3 for MB.FETCH, 34 for a LIN command, 1 for the others) falls with every own step that
neither ends the command nor finds the engine taken, and no step of another agent but reset raises it. -/
def Obligations.CommandsTerminate : Prop :=
  ∀ (s t : State) (p : Nat) (P : Port) (i : Instr), s.Inv → step s = .next t → s.nextEvent.1 ≠ .reset →
    s.ports[p]? = some P → P.req = true → decode P.cw = .ok i →
    P.remaining s.cfg s.lin i ≤ 34
    ∧ ∃ Q, t.ports[p]? = some Q
      ∧ (s.nextEvent.1 = .port p →
        (Q.req = false ∧ Q.phase = .ready)
        ∨ Q.remaining t.cfg t.lin i < P.remaining s.cfg s.lin i
        ∨ (Q.phase = .lWait ∧ ∃ q, q ≠ p ∧ s.lin.owner = some q))
      ∧ (s.nextEvent.1 ≠ .port p → Q.req = true ∧ Q.cw = P.cw ∧ Q.remaining t.cfg t.lin i = P.remaining s.cfg s.lin i)

/-- R38, R67: a micro-step of one port changes no other port, and not its own operand registers, its command word or the operands
taken with it. -/
def Obligations.PortsArePrivate : Prop :=
  ∀ (s t : State) (p : Nat) (P : Port), s.nextEvent.1 = .port p → step s = .next t → s.ports[p]? = some P →
    (∀ q, q ≠ p → t.ports[q]? = s.ports[q]?) ∧ ∃ Q, t.ports[p]? = some Q ∧ Q.a = P.a ∧ Q.cw = P.cw ∧ Q.lat = P.lat

/-- R38: no command of one port reads another port's registers: replacing another port changes nothing of what the command does. -/
def Obligations.OtherPortsUnread : Prop :=
  ∀ (i : Instr) (s : State) (q : Nat) (Q : Port), q ≠ s.cur → s.cur < s.ports.length →
    exec i (s.setPort q Q) =
      match exec i s with
      | .next t => .next (t.setPort q Q)
      | .fault r => .fault r
      | .refused r => .refused r

/-- R2 and the "written by" clauses of 10_state.md: which commands change which state. -/
def Obligations.OnlyNamedWriters : Prop :=
  ∀ (i : Instr) (s t : State), exec i s = .next t →
    (t.mb ≠ s.mb → (∃ d, i = .mbPost d) ∨ ∃ d, i = .mbFetch d)
    ∧ ((∃ d, (t.dir d).drops ≠ (s.dir d).drops) → ∃ d, i = .mbPost d)
    ∧ (t.flt.ents ≠ s.flt.ents → i = .fltClear ∨ ∃ slot e, i = .fltSet slot e)
    ∧ (t.flt.enabled ≠ s.flt.enabled → ∃ n, i = .fltEn n)
    ∧ (t.flt.banks ≠ s.flt.banks ∨ t.flt.nActive ≠ s.flt.nActive → i = .fltApply)
    ∧ (t.lin.counter ≠ s.lin.counter → i = .linCycle)
    ∧ (t.lin.mode ≠ s.lin.mode → i = .csrWr 0x0020)
    ∧ (t.lin.wake ≠ s.lin.wake → i = .csrWr 0x0024)
    ∧ (t.lin.wire ≠ s.lin.wire ∨ t.lin.phase ≠ s.lin.phase ∨ t.lin.owner ≠ s.lin.owner ∨ t.lin.stCode ≠ s.lin.stCode
        ∨ t.lin.stPhase ≠ s.lin.stPhase ∨ t.lin.lf ≠ s.lin.lf →
      (∃ id len c k r, i = .linSend id len c k r) ∨ (∃ id len n c k r, i = .linXchg id len n c k r)
      ∨ i = .linDiag ∨ i = .linCycle)
    ∧ (t.act ≠ s.act → i = .actMark)

/-- R44, R45, R287: no step writes the configuration; only the clock's own event writes `NOW_MS`; and the wire history is only ever
appended to, but for reset. -/
def Obligations.ConfigurationAndHistoryKept : Prop :=
  ∀ (s t : State), step s = .next t →
    t.cfg = s.cfg ∧ ((∀ n, s.nextEvent.1 ≠ .clock n) → t.env.now = s.env.now)
    ∧ (s.nextEvent.1 ≠ .reset → ∃ w, t.lin.wire = s.lin.wire ++ w)
end

