-- ==== Sys2Proof/Laws/State.lean ====
section
/-! SUPPORT. One lemma per field per update of the state, each true by rfl, so that no later proof unfolds a record update. -/

namespace Sys2Proof.Machine

open Sys2Proof

/-! ### `updMe` -/

@[simp] theorem State.updMe_cfg (s : State) (f : Port → Port) : (s.updMe f).cfg = s.cfg := rfl
@[simp] theorem State.updMe_env (s : State) (f : Port → Port) : (s.updMe f).env = s.env := rfl
@[simp] theorem State.updMe_cur (s : State) (f : Port → Port) : (s.updMe f).cur = s.cur := rfl
@[simp] theorem State.updMe_ports (s : State) (f : Port → Port) : (s.updMe f).ports = s.ports.modify s.cur f := rfl
@[simp] theorem State.updMe_mb (s : State) (f : Port → Port) : (s.updMe f).mb = s.mb := rfl
@[simp] theorem State.updMe_flt (s : State) (f : Port → Port) : (s.updMe f).flt = s.flt := rfl
@[simp] theorem State.updMe_lin (s : State) (f : Port → Port) : (s.updMe f).lin = s.lin := rfl
@[simp] theorem State.updMe_act (s : State) (f : Port → Port) : (s.updMe f).act = s.act := rfl

/-! ### `goto` -/

@[simp] theorem State.goto_cfg (s : State) (ph : MicroPhase) : (s.goto ph).cfg = s.cfg := rfl
@[simp] theorem State.goto_env (s : State) (ph : MicroPhase) : (s.goto ph).env = s.env := rfl
@[simp] theorem State.goto_cur (s : State) (ph : MicroPhase) : (s.goto ph).cur = s.cur := rfl
@[simp] theorem State.goto_ports (s : State) (ph : MicroPhase) :
    (s.goto ph).ports = s.ports.modify s.cur fun P => { P with phase := ph } := rfl
@[simp] theorem State.goto_mb (s : State) (ph : MicroPhase) : (s.goto ph).mb = s.mb := rfl
@[simp] theorem State.goto_flt (s : State) (ph : MicroPhase) : (s.goto ph).flt = s.flt := rfl
@[simp] theorem State.goto_lin (s : State) (ph : MicroPhase) : (s.goto ph).lin = s.lin := rfl
@[simp] theorem State.goto_act (s : State) (ph : MicroPhase) : (s.goto ph).act = s.act := rfl

/-! ### `setR0` -/

@[simp] theorem State.setR0_cfg (s : State) (v : Word) : (s.setR0 v).cfg = s.cfg := rfl
@[simp] theorem State.setR0_env (s : State) (v : Word) : (s.setR0 v).env = s.env := rfl
@[simp] theorem State.setR0_cur (s : State) (v : Word) : (s.setR0 v).cur = s.cur := rfl
@[simp] theorem State.setR0_ports (s : State) (v : Word) :
    (s.setR0 v).ports = s.ports.modify s.cur fun P => { P with r := { P.r with w0 := v } } := rfl
@[simp] theorem State.setR0_mb (s : State) (v : Word) : (s.setR0 v).mb = s.mb := rfl
@[simp] theorem State.setR0_flt (s : State) (v : Word) : (s.setR0 v).flt = s.flt := rfl
@[simp] theorem State.setR0_lin (s : State) (v : Word) : (s.setR0 v).lin = s.lin := rfl
@[simp] theorem State.setR0_act (s : State) (v : Word) : (s.setR0 v).act = s.act := rfl

/-! ### `setR` -/

@[simp] theorem State.setR_cfg (s : State) (q : Quad) : (s.setR q).cfg = s.cfg := rfl
@[simp] theorem State.setR_env (s : State) (q : Quad) : (s.setR q).env = s.env := rfl
@[simp] theorem State.setR_cur (s : State) (q : Quad) : (s.setR q).cur = s.cur := rfl
@[simp] theorem State.setR_ports (s : State) (q : Quad) :
    (s.setR q).ports = s.ports.modify s.cur fun P => { P with r := q } := rfl
@[simp] theorem State.setR_mb (s : State) (q : Quad) : (s.setR q).mb = s.mb := rfl
@[simp] theorem State.setR_flt (s : State) (q : Quad) : (s.setR q).flt = s.flt := rfl
@[simp] theorem State.setR_lin (s : State) (q : Quad) : (s.setR q).lin = s.lin := rfl
@[simp] theorem State.setR_act (s : State) (q : Quad) : (s.setR q).act = s.act := rfl

/-! ### `endCmd` -/

@[simp] theorem State.endCmd_cfg (s : State) (c : Status) (ph : LinPhase) : (s.endCmd c ph).cfg = s.cfg := rfl
@[simp] theorem State.endCmd_env (s : State) (c : Status) (ph : LinPhase) : (s.endCmd c ph).env = s.env := rfl
@[simp] theorem State.endCmd_cur (s : State) (c : Status) (ph : LinPhase) : (s.endCmd c ph).cur = s.cur := rfl
@[simp] theorem State.endCmd_ports (s : State) (c : Status) (ph : LinPhase) :
    (s.endCmd c ph).ports = s.ports.modify s.cur fun P => { P with st := stWord c ph, phase := .ready, req := false } := rfl
@[simp] theorem State.endCmd_mb (s : State) (c : Status) (ph : LinPhase) : (s.endCmd c ph).mb = s.mb := rfl
@[simp] theorem State.endCmd_flt (s : State) (c : Status) (ph : LinPhase) : (s.endCmd c ph).flt = s.flt := rfl
@[simp] theorem State.endCmd_lin (s : State) (c : Status) (ph : LinPhase) : (s.endCmd c ph).lin = s.lin := rfl
@[simp] theorem State.endCmd_act (s : State) (c : Status) (ph : LinPhase) : (s.endCmd c ph).act = s.act := rfl

/-! ### `setDir` -/

@[simp] theorem State.setDir_cfg (s : State) (d : Dir) (D : DirStore) : (s.setDir d D).cfg = s.cfg := rfl
@[simp] theorem State.setDir_env (s : State) (d : Dir) (D : DirStore) : (s.setDir d D).env = s.env := rfl
@[simp] theorem State.setDir_cur (s : State) (d : Dir) (D : DirStore) : (s.setDir d D).cur = s.cur := rfl
@[simp] theorem State.setDir_ports (s : State) (d : Dir) (D : DirStore) : (s.setDir d D).ports = s.ports := rfl
@[simp] theorem State.setDir_mb (s : State) (d : Dir) (D : DirStore) : (s.setDir d D).mb = s.mb.set d D := rfl
@[simp] theorem State.setDir_flt (s : State) (d : Dir) (D : DirStore) : (s.setDir d D).flt = s.flt := rfl
@[simp] theorem State.setDir_lin (s : State) (d : Dir) (D : DirStore) : (s.setDir d D).lin = s.lin := rfl
@[simp] theorem State.setDir_act (s : State) (d : Dir) (D : DirStore) : (s.setDir d D).act = s.act := rfl

/-! ### `slotWrite` -/

@[simp] theorem State.slotWrite_cfg (s : State) (d : Dir) (k : Nat) (f : Frame) : (s.slotWrite d k f).cfg = s.cfg := rfl
@[simp] theorem State.slotWrite_env (s : State) (d : Dir) (k : Nat) (f : Frame) : (s.slotWrite d k f).env = s.env := rfl
@[simp] theorem State.slotWrite_cur (s : State) (d : Dir) (k : Nat) (f : Frame) : (s.slotWrite d k f).cur = s.cur := rfl
@[simp] theorem State.slotWrite_ports (s : State) (d : Dir) (k : Nat) (f : Frame) :
    (s.slotWrite d k f).ports = s.ports := rfl
@[simp] theorem State.slotWrite_mb (s : State) (d : Dir) (k : Nat) (f : Frame) :
    (s.slotWrite d k f).mb = s.mb.set d ((s.dir d).write k f) := rfl
@[simp] theorem State.slotWrite_flt (s : State) (d : Dir) (k : Nat) (f : Frame) : (s.slotWrite d k f).flt = s.flt := rfl
@[simp] theorem State.slotWrite_lin (s : State) (d : Dir) (k : Nat) (f : Frame) : (s.slotWrite d k f).lin = s.lin := rfl
@[simp] theorem State.slotWrite_act (s : State) (d : Dir) (k : Nat) (f : Frame) : (s.slotWrite d k f).act = s.act := rfl

/-! ### `release` -/

@[simp] theorem State.release_cfg (s : State) (d : Dir) (k : Nat) : (s.release d k).cfg = s.cfg := rfl
@[simp] theorem State.release_env (s : State) (d : Dir) (k : Nat) : (s.release d k).env = s.env := rfl
@[simp] theorem State.release_cur (s : State) (d : Dir) (k : Nat) : (s.release d k).cur = s.cur := rfl
@[simp] theorem State.release_ports (s : State) (d : Dir) (k : Nat) : (s.release d k).ports = s.ports := rfl
@[simp] theorem State.release_mb (s : State) (d : Dir) (k : Nat) :
    (s.release d k).mb = s.mb.set d ((s.dir d).mark k .free) := rfl
@[simp] theorem State.release_flt (s : State) (d : Dir) (k : Nat) : (s.release d k).flt = s.flt := rfl
@[simp] theorem State.release_lin (s : State) (d : Dir) (k : Nat) : (s.release d k).lin = s.lin := rfl
@[simp] theorem State.release_act (s : State) (d : Dir) (k : Nat) : (s.release d k).act = s.act := rfl

/-! ### `countDrop` -/

@[simp] theorem State.countDrop_cfg (s : State) (d : Dir) : (s.countDrop d).cfg = s.cfg := rfl
@[simp] theorem State.countDrop_env (s : State) (d : Dir) : (s.countDrop d).env = s.env := rfl
@[simp] theorem State.countDrop_cur (s : State) (d : Dir) : (s.countDrop d).cur = s.cur := rfl
@[simp] theorem State.countDrop_ports (s : State) (d : Dir) : (s.countDrop d).ports = s.ports := rfl
@[simp] theorem State.countDrop_mb (s : State) (d : Dir) :
    (s.countDrop d).mb = s.mb.set d { s.dir d with drops := satSucc (s.dir d).drops } := rfl
@[simp] theorem State.countDrop_flt (s : State) (d : Dir) : (s.countDrop d).flt = s.flt := rfl
@[simp] theorem State.countDrop_lin (s : State) (d : Dir) : (s.countDrop d).lin = s.lin := rfl
@[simp] theorem State.countDrop_act (s : State) (d : Dir) : (s.countDrop d).act = s.act := rfl

/-! ### `updLin` -/

@[simp] theorem State.updLin_cfg (s : State) (f : Lin → Lin) : (s.updLin f).cfg = s.cfg := rfl
@[simp] theorem State.updLin_env (s : State) (f : Lin → Lin) : (s.updLin f).env = s.env := rfl
@[simp] theorem State.updLin_cur (s : State) (f : Lin → Lin) : (s.updLin f).cur = s.cur := rfl
@[simp] theorem State.updLin_ports (s : State) (f : Lin → Lin) : (s.updLin f).ports = s.ports := rfl
@[simp] theorem State.updLin_mb (s : State) (f : Lin → Lin) : (s.updLin f).mb = s.mb := rfl
@[simp] theorem State.updLin_flt (s : State) (f : Lin → Lin) : (s.updLin f).flt = s.flt := rfl
@[simp] theorem State.updLin_lin (s : State) (f : Lin → Lin) : (s.updLin f).lin = f s.lin := rfl
@[simp] theorem State.updLin_act (s : State) (f : Lin → Lin) : (s.updLin f).act = s.act := rfl

/-! ### `record` -/

@[simp] theorem State.record_cfg (s : State) (es : List WireEvent) : (s.record es).cfg = s.cfg := rfl
@[simp] theorem State.record_env (s : State) (es : List WireEvent) : (s.record es).env = s.env := rfl
@[simp] theorem State.record_cur (s : State) (es : List WireEvent) : (s.record es).cur = s.cur := rfl
@[simp] theorem State.record_ports (s : State) (es : List WireEvent) : (s.record es).ports = s.ports := rfl
@[simp] theorem State.record_mb (s : State) (es : List WireEvent) : (s.record es).mb = s.mb := rfl
@[simp] theorem State.record_flt (s : State) (es : List WireEvent) : (s.record es).flt = s.flt := rfl
@[simp] theorem State.record_lin (s : State) (es : List WireEvent) :
    (s.record es).lin = { s.lin with wire := s.lin.wire ++ es } := rfl
@[simp] theorem State.record_act (s : State) (es : List WireEvent) : (s.record es).act = s.act := rfl

/-! ### `finish` -/

@[simp] theorem State.finish_cfg (s : State) (c : Status) (ph : LinPhase) : (s.finish c ph).cfg = s.cfg := rfl
@[simp] theorem State.finish_env (s : State) (c : Status) (ph : LinPhase) : (s.finish c ph).env = s.env := rfl
@[simp] theorem State.finish_cur (s : State) (c : Status) (ph : LinPhase) : (s.finish c ph).cur = s.cur := rfl
@[simp] theorem State.finish_ports (s : State) (c : Status) (ph : LinPhase) : (s.finish c ph).ports = s.ports := rfl
@[simp] theorem State.finish_mb (s : State) (c : Status) (ph : LinPhase) : (s.finish c ph).mb = s.mb := rfl
@[simp] theorem State.finish_flt (s : State) (c : Status) (ph : LinPhase) : (s.finish c ph).flt = s.flt := rfl
@[simp] theorem State.finish_lin (s : State) (c : Status) (ph : LinPhase) :
    (s.finish c ph).lin = { s.lin with stCode := c, stPhase := ph, phase := .idle, idx := 0, rx := [], stage := .xfer } := rfl
@[simp] theorem State.finish_act (s : State) (c : Status) (ph : LinPhase) : (s.finish c ph).act = s.act := rfl

/-! ### `releaseEngine` -/

@[simp] theorem State.releaseEngine_cfg (s : State) : s.releaseEngine.cfg = s.cfg := rfl
@[simp] theorem State.releaseEngine_env (s : State) : s.releaseEngine.env = s.env := rfl
@[simp] theorem State.releaseEngine_cur (s : State) : s.releaseEngine.cur = s.cur := rfl
@[simp] theorem State.releaseEngine_ports (s : State) : s.releaseEngine.ports = s.ports := rfl
@[simp] theorem State.releaseEngine_mb (s : State) : s.releaseEngine.mb = s.mb := rfl
@[simp] theorem State.releaseEngine_flt (s : State) : s.releaseEngine.flt = s.flt := rfl
@[simp] theorem State.releaseEngine_lin (s : State) :
    s.releaseEngine.lin = { s.lin with owner := none, first := none } := rfl
@[simp] theorem State.releaseEngine_act (s : State) : s.releaseEngine.act = s.act := rfl

/-! ### `updFlt` -/

@[simp] theorem State.updFlt_cfg (s : State) (g : Filter → Filter) : (s.updFlt g).cfg = s.cfg := rfl
@[simp] theorem State.updFlt_env (s : State) (g : Filter → Filter) : (s.updFlt g).env = s.env := rfl
@[simp] theorem State.updFlt_cur (s : State) (g : Filter → Filter) : (s.updFlt g).cur = s.cur := rfl
@[simp] theorem State.updFlt_ports (s : State) (g : Filter → Filter) : (s.updFlt g).ports = s.ports := rfl
@[simp] theorem State.updFlt_mb (s : State) (g : Filter → Filter) : (s.updFlt g).mb = s.mb := rfl
@[simp] theorem State.updFlt_flt (s : State) (g : Filter → Filter) : (s.updFlt g).flt = g s.flt := rfl
@[simp] theorem State.updFlt_lin (s : State) (g : Filter → Filter) : (s.updFlt g).lin = s.lin := rfl
@[simp] theorem State.updFlt_act (s : State) (g : Filter → Filter) : (s.updFlt g).act = s.act := rfl

/-! ### `withPort` -/

@[simp] theorem State.withPort_cfg (s : State) (P : Port) : (s.withPort P).cfg = s.cfg := rfl
@[simp] theorem State.withPort_env (s : State) (P : Port) : (s.withPort P).env = s.env := rfl
@[simp] theorem State.withPort_cur (s : State) (P : Port) : (s.withPort P).cur = s.cur := rfl
@[simp] theorem State.withPort_ports (s : State) (P : Port) : (s.withPort P).ports = s.ports.set s.cur P := rfl
@[simp] theorem State.withPort_mb (s : State) (P : Port) : (s.withPort P).mb = s.mb := rfl
@[simp] theorem State.withPort_flt (s : State) (P : Port) : (s.withPort P).flt = s.flt := rfl
@[simp] theorem State.withPort_lin (s : State) (P : Port) : (s.withPort P).lin = s.lin := rfl
@[simp] theorem State.withPort_act (s : State) (P : Port) : (s.withPort P).act = s.act := rfl

end Sys2Proof.Machine
end

