-- ==== Sys2Proof/Laws/Ops.lean ====
section
/-! SUPPORT. What each shared operation of Machine/Ops.lean can do, said once. -/

namespace Sys2Proof.Machine

open Sys2Proof Host

/-! ### The three directions -/

@[simp] theorem Mailbox.get_set (m : Mailbox) (d e : Dir) (D : DirStore) :
    (m.set d D).get e = if e = d then D else m.get e := by
  cases d <;> cases e <;> rfl

theorem State.dir_def (s : State) (d : Dir) : s.dir d = s.mb.get d := rfl

@[simp] theorem State.setDir_dir (s : State) (d e : Dir) (D : DirStore) :
    (s.setDir d D).dir e = if e = d then D else s.dir e := Mailbox.get_set s.mb d e D

@[simp] theorem State.updMe_dir (s : State) (f : Port → Port) (d : Dir) : (s.updMe f).dir d = s.dir d := rfl
@[simp] theorem State.goto_dir (s : State) (ph : MicroPhase) (d : Dir) : (s.goto ph).dir d = s.dir d := rfl
@[simp] theorem State.setR0_dir (s : State) (v : Word) (d : Dir) : (s.setR0 v).dir d = s.dir d := rfl
@[simp] theorem State.setR_dir (s : State) (q : Quad) (d : Dir) : (s.setR q).dir d = s.dir d := rfl
@[simp] theorem State.endCmd_dir (s : State) (c : Status) (ph : LinPhase) (d : Dir) :
    (s.endCmd c ph).dir d = s.dir d := rfl
@[simp] theorem State.updLin_dir (s : State) (f : Lin → Lin) (d : Dir) : (s.updLin f).dir d = s.dir d := rfl
@[simp] theorem State.finish_dir (s : State) (c : Status) (ph : LinPhase) (d : Dir) :
    (s.finish c ph).dir d = s.dir d := rfl
@[simp] theorem State.releaseEngine_dir (s : State) (d : Dir) : s.releaseEngine.dir d = s.dir d := rfl
@[simp] theorem State.updFlt_dir (s : State) (g : Filter → Filter) (d : Dir) : (s.updFlt g).dir d = s.dir d := rfl
@[simp] theorem State.withPort_dir (s : State) (P : Port) (d : Dir) : (s.withPort P).dir d = s.dir d := rfl

@[simp] theorem State.slotWrite_dir (s : State) (d e : Dir) (k : Nat) (f : Frame) :
    (s.slotWrite d k f).dir e = if e = d then (s.dir d).write k f else s.dir e := State.setDir_dir ..
@[simp] theorem State.release_dir (s : State) (d e : Dir) (k : Nat) :
    (s.release d k).dir e = if e = d then (s.dir d).mark k .free else s.dir e := State.setDir_dir ..
@[simp] theorem State.countDrop_dir (s : State) (d e : Dir) :
    (s.countDrop d).dir e = if e = d then { s.dir d with drops := satSucc (s.dir d).drops } else s.dir e :=
  State.setDir_dir ..

@[simp] theorem DirStore.mark_fifo (D : DirStore) (k : Nat) (m : SlotMark) : (D.mark k m).fifo = D.fifo := rfl
@[simp] theorem DirStore.mark_drops (D : DirStore) (k : Nat) (m : SlotMark) : (D.mark k m).drops = D.drops := rfl
@[simp] theorem DirStore.mark_length (D : DirStore) (k : Nat) (m : SlotMark) :
    (D.mark k m).slots.length = D.slots.length := by simp [DirStore.mark]
@[simp] theorem DirStore.write_fifo (D : DirStore) (k : Nat) (f : Frame) : (D.write k f).fifo = D.fifo := rfl
@[simp] theorem DirStore.write_drops (D : DirStore) (k : Nat) (f : Frame) : (D.write k f).drops = D.drops := rfl
@[simp] theorem DirStore.write_length (D : DirStore) (k : Nat) (f : Frame) :
    (D.write k f).slots.length = D.slots.length := by simp [DirStore.write]

/-- A mark changes the occupancy of its own slot only. -/
theorem DirStore.mark_occupied (D : DirStore) (k j : Nat) (m : SlotMark) :
    (D.mark k m).occupied j ↔ if j = k then m = .occupied ∧ k < D.slots.length else D.occupied j := by
  unfold DirStore.occupied DirStore.mark
  simp only [List.getElem?_modify]
  by_cases h : j = k
  · subst h
    by_cases hl : j < D.slots.length <;> simp [hl]
  · simp [h, Ne.symm h]

/-- A frame write changes no occupancy. -/
@[simp] theorem DirStore.write_occupied (D : DirStore) (k j : Nat) (f : Frame) :
    (D.write k f).occupied j ↔ D.occupied j := by
  unfold DirStore.occupied DirStore.write
  simp only [List.getElem?_modify]
  by_cases h : k = j <;> simp [h, Function.comp_def]

/-- A mark changes no frame. -/
@[simp] theorem DirStore.mark_read (D : DirStore) (k j : Nat) (m : SlotMark) : (D.mark k m).read j = D.read j := by
  unfold DirStore.read DirStore.mark
  simp only [List.getElem?_modify]
  by_cases h : k = j
  · subst h; cases D.slots[k]? <;> simp
  · simp [h]

/-- Read after write: the frame written in its own slot, the old frame in every other. -/
theorem DirStore.write_read (D : DirStore) (k j : Nat) (f : Frame) :
    (D.write k f).read j = if j = k ∧ k < D.slots.length then f else D.read j := by
  unfold DirStore.read DirStore.write
  simp only [List.getElem?_modify]
  by_cases h : k = j
  · subst h
    by_cases hl : k < D.slots.length <;> simp [hl]
  · simp [h, Ne.symm h]

/-- The claimed index is the lowest Free slot (R131). -/
theorem DirStore.freeIdx_eq_some (D : DirStore) (k : Nat) :
    D.freeIdx = some k ↔
      (D.slots[k]?).map Slot.occ = some .free ∧ ∀ j < k, (D.slots[j]?).map Slot.occ ≠ some .free := by
  unfold DirStore.freeIdx
  rw [List.findIdx?_eq_some_iff_getElem]
  constructor
  · rintro ⟨hk, h1, h2⟩
    refine ⟨by simpa [hk] using h1, fun j hj => ?_⟩
    have hjl : j < D.slots.length := by omega
    simpa [hjl] using h2 j hj
  · rintro ⟨h1, h2⟩
    have hk : k < D.slots.length := by
      by_contra hk
      simp [List.getElem?_eq_none (Nat.le_of_not_lt hk)] at h1
    refine ⟨hk, by simpa [hk] using h1, fun j hj => ?_⟩
    have hjl : j < D.slots.length := by omega
    simpa [hjl] using h2 j hj

/-- `Claim` answers `none` exactly when no slot is Free (R131, R140). -/
theorem DirStore.freeIdx_eq_none (D : DirStore) : D.freeIdx = none ↔ ∀ x ∈ D.slots, x.occ = .occupied := by
  unfold DirStore.freeIdx
  rw [List.findIdx?_eq_none_iff]
  refine forall₂_congr fun x _ => ?_
  cases x.occ <;> simp

/-- Everything a claim can do (R131). -/
theorem State.claim_eq_some (s t : State) (d : Dir) (k : Nat) :
    s.claim d = some (k, t) ↔ (s.dir d).freeIdx = some k ∧ t = s.setDir d ((s.dir d).mark k .occupied) := by
  unfold State.claim
  cases (s.dir d).freeIdx with
  | none => simp
  | some j => simp; grind

theorem State.claim_eq_none (s : State) (d : Dir) : s.claim d = none ↔ (s.dir d).freeIdx = none := by
  unfold State.claim
  cases (s.dir d).freeIdx <;> simp

/-- Everything a push can do (R24, R133). -/
theorem State.push_eq_some (s t : State) (d : Dir) (k : Nat) :
    s.push d k = some t ↔
      (s.dir d).fifo.length < s.cfg.slots d ∧ t = s.setDir d { s.dir d with fifo := (s.dir d).fifo ++ [k] } := by
  unfold State.push
  split <;> simp [*, eq_comm]

theorem State.push_eq_none (s : State) (d : Dir) (k : Nat) :
    s.push d k = none ↔ s.cfg.slots d ≤ (s.dir d).fifo.length := by
  unfold State.push
  split <;> simp_all

/-- Everything a pop can do (R24, R137). -/
theorem State.pop_eq_some (s t : State) (d : Dir) (k : Nat) :
    s.pop d = some (k, t) ↔
      ∃ rest, (s.dir d).fifo = k :: rest ∧ t = s.setDir d { s.dir d with fifo := rest } := by
  unfold State.pop
  cases h : (s.dir d).fifo with
  | nil => simp
  | cons j rest => simp; grind

theorem State.pop_eq_none (s : State) (d : Dir) : s.pop d = none ↔ (s.dir d).fifo = [] := by
  unfold State.pop
  cases h : (s.dir d).fifo <;> simp

/-! ### The acting port -/

theorem State.acting_def (s : State) (P : Port) : s.acting P ↔ s.ports[s.cur]? = some P := Iff.rfl

theorem State.acting.lt {s : State} {P : Port} (h : s.acting P) : s.cur < s.ports.length :=
  (List.getElem?_eq_some_iff.mp h).1

/-- The acting port, read. -/
theorem State.acting.me {s : State} {P : Port} (h : s.acting P) : s.me = P := by
  simp [State.me, State.acting_def s P |>.mp h]

/-- Changing the acting port replaces it. -/
theorem State.acting.updMe {s : State} {P : Port} (h : s.acting P) (f : Port → Port) :
    s.updMe f = s.withPort (f P) := by
  unfold State.updMe State.withPort
  congr 1
  apply List.ext_getElem?
  intro j
  rw [List.getElem?_modify, List.getElem?_set]
  by_cases hj : s.cur = j
  · subst hj
    have hP := (List.getElem?_eq_some_iff.mp h).2
    simp [h.lt, hP]
  · simp [hj]

/-- Any change of the acting port, written as a replacement. -/
theorem State.modify_acting {s : State} {P : Port} (h : s.acting P) (f : Port → Port) :
    s.ports.modify s.cur f = s.ports.set s.cur (f P) := congrArg State.ports (h.updMe f)

theorem State.acting.withPort {s : State} {P : Port} (h : s.acting P) (Q : Port) : (s.withPort Q).acting Q := by
  simp [State.acting_def, h.lt]

theorem State.acting.me_updMe {s : State} {P : Port} (h : s.acting P) (f : Port → Port) :
    (s.updMe f).me = f P := by
  rw [h.updMe f]; exact (h.withPort (f P)).me

@[simp] theorem State.setDir_me (s : State) (d : Dir) (D : DirStore) : (s.setDir d D).me = s.me := rfl
@[simp] theorem State.updLin_me (s : State) (f : Lin → Lin) : (s.updLin f).me = s.me := rfl
@[simp] theorem State.updFlt_me (s : State) (g : Filter → Filter) : (s.updFlt g).me = s.me := rfl

/-! ### The LIN transport (R195) -/

/-- An answer touches the answer queue and the count of free values only. -/
theorem State.takeAnswer_spec (s : State) :
    ∃ as n, s.takeAnswer.2 = { s with env := { s.env with answers := as, drawn := n } } := by
  unfold State.takeAnswer
  cases h : s.env.answers with
  | nil => exact ⟨[], s.env.drawn + 1, by simp [← h]⟩
  | cons a rest => exact ⟨rest, s.env.drawn, rfl⟩

/-- A queued answer is the one given. -/
theorem State.takeAnswer_cons {s : State} {a : LinAnswer} {rest : List LinAnswer} (h : s.env.answers = a :: rest) :
    s.takeAnswer = (a, { s with env := { s.env with answers := rest } }) := by
  unfold State.takeAnswer; simp [h]

/-- The answer given is number 0 (log entry 6). -/
theorem State.takeAnswer_answer (s : State) : s.takeAnswer.1 = s.answerAt 0 := by
  unfold State.takeAnswer State.answerAt
  cases h : s.env.answers <;> simp

/-- After an answer the others move up by one. -/
theorem State.takeAnswer_answerAt (s : State) (i : Nat) : s.takeAnswer.2.answerAt i = s.answerAt (i + 1) := by
  unfold State.takeAnswer State.answerAt
  cases h : s.env.answers with
  | nil => simp [h]; congr 1; omega
  | cons a as => simp

theorem State.takeAnswer_answers (s : State) : s.takeAnswer.2.env.answers = s.env.answers.drop 1 := by
  unfold State.takeAnswer
  cases h : s.env.answers <;> simp [h]

/-! ### Presenting a command (R90, R92) -/

/-- An idle port takes the word and, with it, its operands. -/
theorem Port.present_idle {P : Port} (h : P.req = false) (w : Word) :
    P.present w = { P with cw := w, req := true, lat := P.a } := by simp [Port.present, h]

/-- A busy port ignores it (log entry 8). -/
theorem Port.present_busy {P : Port} (h : P.req = true) (w : Word) : P.present w = P := by simp [Port.present, h]

/-! ### One-step commands -/

/-- A one-step command runs from READY, and only from there. -/
theorem State.oneStep_eq_next (s t : State) (k : State → State) :
    s.oneStep k = .next t ↔ s.me.phase = .ready ∧ t = k s := by
  unfold State.oneStep
  cases h : s.me.phase <;> simp [eq_comm]

/-- A one-step command never refuses. -/
theorem State.oneStep_ne_refused (s : State) (k : State → State) (r : Refusal) : s.oneStep k ≠ .refused r := by
  unfold State.oneStep
  cases h : s.me.phase <;> simp

end Sys2Proof.Machine
end

