-- ==== Sys2Proof/Laws/Arms.lean ====
section
/-! SUPPORT. Each command's meaning as one of the two shared forms, `oneStep` or `linCommand`, or as its own micro-steps; and what a
one-step command leaves when it ends: the equations a proof rewrites with instead of unfolding `exec`. -/

namespace Sys2Proof.Machine

open Sys2Proof Host

/-! ### One lemma per arm of `exec` -/

theorem exec_mbPost (d : Dir) (s : State) : exec (.mbPost d) s = execMbPost d s := rfl
theorem exec_mbFetch (d : Dir) (s : State) : exec (.mbFetch d) s = execMbFetch d s := rfl
theorem exec_mbEmpty (d : Dir) (s : State) : exec (.mbEmpty d) s = s.oneStep (emptyE1 d) := rfl

theorem exec_fltClear (s : State) : exec .fltClear s = s.oneStep fun t =>
    (t.updFlt fun f => { f with ents := List.replicate (2 * t.cfg.banks) FilterEntry.unused }).endCmd .ok .idle := rfl

theorem exec_fltSet (slot : BitVec 8) (ext : Bool) (s : State) : exec (.fltSet slot ext) s = s.oneStep fun t =>
    if fltSetLegal t.cfg slot.toNat ext t.me.lat.w0 then
      (t.updFlt fun f => { f with ents := f.ents.set slot.toNat ⟨t.me.lat.w0, ext⟩ }).endCmd .ok .idle
    else t.endCmd .configError .idle := rfl

theorem exec_fltEn (n : Bool) (s : State) :
    exec (.fltEn n) s = s.oneStep fun t => (t.updFlt fun f => { f with enabled := n }).endCmd .ok .idle := rfl

theorem exec_fltApply (s : State) :
    exec .fltApply s = s.oneStep fun t => (t.updFlt (Filter.applied t.cfg)).endCmd .ok .idle := rfl

theorem exec_linPid (id : BitVec 6) (s : State) :
    exec (.linPid id) s = s.oneStep fun t => (t.setR0 ((pid id).setWidth 32)).endCmd .ok .idle := rfl

theorem exec_linCks (k : CksKind) (len : BitVec 4) (seed : Byte) (s : State) :
    exec (.linCks k len seed) s = s.oneStep fun t =>
      if lenOk len then (t.setR0 ((cks k seed (t.me.lat.bytes len.toNat)).setWidth 32)).endCmd .ok .idle
      else t.endCmd .illegalCmd .idle := rfl

theorem exec_linSend (id : BitVec 6) (len : BitVec 4) (c : Bool) (k : CksKind) (r : BrkKind) (s : State) :
    exec (.linSend id len c k r) s =
      linCommand (lenOk len) (loadRequest id len) (sendStep (sendTxn c k r)) s := rfl

theorem exec_linXchg (id : BitVec 6) (len n : BitVec 4) (c : Bool) (k : CksKind) (r : BrkKind) (s : State) :
    exec (.linXchg id len n c k r) s =
      linCommand (lenOk len && lenOk n) (loadRequest id len) (xchgStep (xchgTxn n c k r)) s := rfl

theorem exec_linDiag (s : State) : exec .linDiag s = linCommand true startDiag diagCommandStep s := rfl
theorem exec_linCycle (s : State) : exec .linCycle s = linCommand true armCycle cycleStep s := rfl

theorem exec_actMark (s : State) :
    exec .actMark s = s.oneStep fun t => { t with act := ⟨t.env.now, true⟩ }.endCmd .ok .idle := rfl

theorem exec_csrRd (addr : CsrAddr) (s : State) : exec (.csrRd addr) s = s.oneStep fun t =>
    match t.csrRead addr with
    | some v => (t.setR0 v).endCmd .ok .idle
    | none => t.endCmd .illegalCmd .idle := rfl

theorem exec_csrWr (addr : CsrAddr) (s : State) : exec (.csrWr addr) s = s.oneStep fun t =>
    match t.csrWrite addr t.me.lat.w0 with
    | some u => u.endCmd .ok .idle
    | none => t.endCmd .illegalCmd .idle := rfl

/-! ### The acting port, replaced -/

@[simp] theorem State.withPort_withPort (s : State) (Q R : Port) : (s.withPort Q).withPort R = s.withPort R := by
  unfold State.withPort; simp

/-- Changing the acting port after it was replaced. -/
theorem State.acting.withPort_updMe {s : State} {P : Port} (h : s.acting P) (Q : Port) (f : Port → Port) :
    (s.withPort Q).updMe f = s.withPort (f Q) := by
  rw [(h.withPort Q).updMe f, State.withPort_withPort]

/-- A one-step command, from READY. -/
theorem State.acting.oneStep {s : State} {P : Port} (h : s.acting P) (hr : P.phase = .ready) (k : State → State) :
    s.oneStep k = .next (k s) := by
  rw [State.oneStep_eq_next]
  exact ⟨by rw [h.me, hr], rfl⟩

theorem State.acting.withPort_endCmd {s : State} {P : Port} (h : s.acting P) (c : Status) (ph : LinPhase) (Q : Port) :
    (s.withPort Q).endCmd c ph = s.withPort (Q.ended c ph Q.r) := by
  unfold State.endCmd; rw [h.withPort_updMe]; rfl

theorem State.acting.withPort_setR0_endCmd {s : State} {P : Port} (h : s.acting P) (c : Status) (ph : LinPhase) (v : Word)
    (Q : Port) : ((s.withPort Q).setR0 v).endCmd c ph = s.withPort (Q.ended c ph { Q.r with w0 := v }) := by
  unfold State.endCmd State.setR0; rw [h.withPort_updMe, h.withPort_updMe]; rfl

theorem State.acting.endCmd {s : State} {P : Port} (h : s.acting P) (c : Status) (ph : LinPhase) :
    s.endCmd c ph = s.withPort (P.ended c ph P.r) := by
  unfold State.endCmd; rw [h.updMe]; rfl

theorem State.acting.goto {s : State} {P : Port} (h : s.acting P) (ph : MicroPhase) :
    s.goto ph = s.withPort { P with phase := ph } := by
  unfold State.goto; rw [h.updMe]

end Sys2Proof.Machine
end

