-- ==== Sys2Proof/Laws/Check.lean ====
section
/-! SUPPORT. A test of the invariant that the kernel can evaluate on a state that is written out, and its soundness: used by the
tests to show that hypotheses on the invariant can be met. -/

namespace Sys2Proof.Machine

open Sys2Proof Host

/-- The three directions. -/
def allDirs : List Dir := [.rx, .tx, .usb]

theorem mem_allDirs (d : Dir) : d ∈ allDirs := by cases d <;> decide

/-- The mark of slot `k` is Occupied. -/
def DirStore.occupiedB (D : DirStore) (k : Nat) : Bool := decide ((D.slots[k]?).map Slot.occ = some .occupied)

/-- `State.poolOk`, one direction. -/
def State.poolB (s : State) (d : Dir) : Bool :=
  decide (s.refs d).Nodup && (s.refs d).all (s.dir d).occupiedB
    && (List.range (s.dir d).slots.length).all fun k => !(s.dir d).occupiedB k || decide (k ∈ s.refs d)

theorem State.poolOk_of_check {s : State} (h : allDirs.all s.poolB = true) : s.poolOk := by
  intro d
  have hd := List.all_eq_true.mp h d (mem_allDirs d)
  simp only [State.poolB, Bool.and_eq_true, decide_eq_true_eq, List.all_eq_true, Bool.or_eq_true, Bool.not_eq_true',
    DirStore.occupiedB, decide_eq_false_iff_not, List.mem_range] at hd
  obtain ⟨⟨h1, h2⟩, h3⟩ := hd
  refine ⟨h1, fun k => ⟨fun hk => h2 k hk, fun hk => ?_⟩⟩
  have hk : ((s.dir d).slots[k]?).map Slot.occ = some .occupied := hk
  have hlt : k < (s.dir d).slots.length := by
    by_contra hge
    rw [List.getElem?_eq_none (by omega)] at hk
    simp at hk
  exact (h3 k hlt).resolve_left fun hn => hn hk

/-- `State.sized`. -/
def State.sizedB (s : State) : Bool :=
  decide (s.ports.length = s.cfg.nport) && allDirs.all (fun d => decide ((s.dir d).slots.length = s.cfg.slots d))
    && decide (s.flt.ents.length = 2 * s.cfg.banks) && decide (s.flt.banks.length = s.cfg.banks)

theorem State.sized_of_check {s : State} (h : s.sizedB = true) : s.sized := by
  simp only [State.sizedB, Bool.and_eq_true, decide_eq_true_eq, List.all_eq_true] at h
  exact ⟨h.1.1.1, fun d => h.1.1.2 d (mem_allDirs d), h.1.2, h.2⟩

/-- `Port.fits`. -/
def Port.fitsB (P : Port) : Bool :=
  decide (P.phase = .ready) || (P.req && match decode P.cw with
    | .ok i => fitsPhase i P.phase
    | .error _ => false)

theorem Port.fits_of_check {P : Port} (h : P.fitsB = true) : P.fits := by
  simp only [Port.fitsB, Bool.or_eq_true, decide_eq_true_eq, Bool.and_eq_true] at h
  refine h.imp_right fun h => ⟨h.1, ?_⟩
  have h2 := h.2
  split at h2
  · rename_i i hi; exact ⟨i, hi, h2⟩
  · cases h2

/-- `State.engineOk`. -/
def State.engineB (s : State) : Bool :=
  (List.range s.ports.length).all (fun p => match s.ports[p]? with
    | some P => decide (P.phase = .lRun) == decide (s.lin.owner = some p)
    | none => true)
  && (match s.lin.owner with
    | some p => decide (p < s.ports.length)
    | none => decide (s.lin.phase = .idle))
  && (decide (s.lin.phase ≠ .idle) || s.lin.owner.isNone || s.lin.first.isSome)

theorem State.engineOk_of_check {s : State} (h : s.engineB = true) : s.engineOk := by
  simp only [State.engineB, Bool.and_eq_true, List.all_eq_true, List.mem_range, Bool.or_eq_true, decide_eq_true_eq] at h
  obtain ⟨⟨h1, h2⟩, h3⟩ := h
  refine ⟨fun p P hP => ?_, fun p hp => ?_, fun hn => ?_, fun hi => ?_⟩
  · have hlt : p < s.ports.length := by
      by_contra hge
      rw [List.getElem?_eq_none (by omega)] at hP
      cases hP
    have := h1 p hlt
    rw [hP] at this
    simpa using this
  · rw [hp] at h2; simpa using h2
  · rw [hn] at h2; simpa using h2
  · rcases h3 with (h3 | h3) | h3
    · exact absurd hi h3
    · exact .inl (Option.isNone_iff_eq_none.mp h3)
    · exact .inr h3

/-- `Port.frameOk`. -/
def Port.frameB (P : Port) : Bool :=
  match P.phase with
  | .pMirrorClaimed _ _ => operandsLegal P.lat
  | .pPrimary => operandsLegal P.lat
  | .pClaimed _ _ _ => operandsLegal P.lat
  | .fPopped _ _ (some f) => f.wf
  | .fPopped _ _ none => true
  | .ready => true
  | .lWait => true
  | .lRun => true

theorem Port.frameOk_of_check {P : Port} (h : P.frameB = true) : P.frameOk := by
  unfold Port.frameB at h
  unfold Port.frameOk
  split <;> rename_i hp <;> rw [hp] at h <;> first | exact h | trivial

/-- The port's part of `State.copiedOk`. -/
def State.copiedB (s : State) (P : Port) : Bool :=
  match P.phase with
  | .pMirrorClaimed k true => decide ((s.dir .usb).read k = P.lat.frame)
  | .pClaimed d k .publish => decide ((s.dir d).read k = P.lat.frame)
  | _ => true

theorem State.copiedOk_of_check {s : State} (h : s.ports.all s.copiedB = true) : s.copiedOk := by
  intro P hP
  have hc := List.all_eq_true.mp h P hP
  unfold State.copiedB at hc
  refine ⟨fun k hk => ?_, fun d k hk => ?_⟩ <;> rw [hk] at hc <;> exact of_decide_eq_true hc

/-- `State.filterOk`. -/
def State.filterB (s : State) : Bool :=
  s.flt.ents.all (fun e => if e.ext then decide (e.id.toNat ≤ 0x1FFFFFFF) else decide (e.id.toNat ≤ 0x7FF))
  && decide (s.flt.nActive ≤ s.cfg.banks)
  && (List.range s.flt.banks.length).all fun n => match s.flt.banks[n]? with
    | some b =>
      if n < s.flt.nActive then decide (b.active = true ∧ b.index = BitVec.ofNat 8 n ∧ b.fifo = 0 ∧ b.scale = .s32)
      else decide (b = Bank.inactive)
    | none => true

theorem State.filterOk_of_check {s : State} (h : s.filterB = true) : s.filterOk := by
  simp only [State.filterB, Bool.and_eq_true, List.all_eq_true, List.mem_range, decide_eq_true_eq] at h
  obtain ⟨⟨h1, h2⟩, h3⟩ := h
  refine ⟨fun e he => ?_, h2, fun n b hb => ?_⟩
  · have := h1 e he
    unfold FilterEntry.legal
    split <;> rename_i hx
    · rw [if_pos hx] at this; exact of_decide_eq_true this
    · rw [if_neg hx] at this; exact of_decide_eq_true this
  · have hlt : n < s.flt.banks.length := by
      by_contra hge
      rw [List.getElem?_eq_none (by omega)] at hb
      cases hb
    have := h3 n hlt
    rw [hb] at this
    simp only at this
    split <;> rename_i hn
    · rw [if_pos hn] at this; exact of_decide_eq_true this
    · rw [if_neg hn] at this; exact of_decide_eq_true this

/-- A state whose engine is free meets the invariant when the checks hold. -/
theorem State.inv_of_check {s : State} (h0 : s.cfg.wf = true) (h1 : s.sizedB = true) (h2 : allDirs.all s.poolB = true)
    (h3 : s.ports.all Port.fitsB = true) (h4 : s.engineB = true)
    (h5 : allDirs.all (fun d => (s.dir d).slots.all fun x => x.frm.wf) = true) (h6 : s.ports.all Port.frameB = true)
    (h7 : s.ports.all s.copiedB = true) (h8 : s.filterB = true) (h9 : s.progressOk) : s.Inv where
  cfgOk := h0
  sizes := State.sized_of_check h1
  pool := State.poolOk_of_check h2
  ports := fun P hP => Port.fits_of_check (List.all_eq_true.mp h3 P hP)
  engine := State.engineOk_of_check h4
  frames := ⟨fun d x hx => List.all_eq_true.mp (List.all_eq_true.mp h5 d (mem_allDirs d)) x hx,
    fun P hP => Port.frameOk_of_check (List.all_eq_true.mp h6 P hP)⟩
  copied := State.copiedOk_of_check h7
  filter := State.filterOk_of_check h8
  progress := h9

/-- With a free engine there is no transaction to be in place. -/
theorem State.progressOk_of_free {s : State} (h : s.lin.owner = none) : s.progressOk := by
  intro p P i hp
  rw [h] at hp
  cases hp

end Sys2Proof.Machine
end

