-- ==== Sys2Proof/Laws/Engine.lean ====
section
/-! SUPPORT. What the micro-steps of a LIN transaction can do (R195 to R201), said once. -/

namespace Sys2Proof.Machine

open Sys2Proof Host

/-- What no transport request and no transaction step writes: everything outside the engine and the answer queue, and inside
the engine the owner, the counter, the mode, the telemetry, the status, the wake line and LIN.CYCLE's first outcome. -/
structure TxnKept (s u : State) : Prop where
  cfg : u.cfg = s.cfg
  cur : u.cur = s.cur
  ports : u.ports = s.ports
  mb : u.mb = s.mb
  flt : u.flt = s.flt
  act : u.act = s.act
  now : u.env.now = s.env.now
  script : u.env.script = s.env.script
  owner : u.lin.owner = s.lin.owner
  counter : u.lin.counter = s.lin.counter
  mode : u.lin.mode = s.lin.mode
  moving : u.lin.moving = s.lin.moving
  position : u.lin.position = s.lin.position
  stCode : u.lin.stCode = s.lin.stCode
  stPhase : u.lin.stPhase = s.lin.stPhase
  wake : u.lin.wake = s.lin.wake
  stage : u.lin.stage = s.lin.stage
  first : u.lin.first = s.lin.first

theorem TxnKept.refl (s : State) : TxnKept s s := by constructor <;> rfl

theorem TxnKept.trans {s t u : State} (h : TxnKept s t) (k : TxnKept t u) : TxnKept s u := by
  constructor
  · rw [k.cfg, h.cfg]
  · rw [k.cur, h.cur]
  · rw [k.ports, h.ports]
  · rw [k.mb, h.mb]
  · rw [k.flt, h.flt]
  · rw [k.act, h.act]
  · rw [k.now, h.now]
  · rw [k.script, h.script]
  · rw [k.owner, h.owner]
  · rw [k.counter, h.counter]
  · rw [k.mode, h.mode]
  · rw [k.moving, h.moving]
  · rw [k.position, h.position]
  · rw [k.stCode, h.stCode]
  · rw [k.stPhase, h.stPhase]
  · rw [k.wake, h.wake]
  · rw [k.stage, h.stage]
  · rw [k.first, h.first]

theorem State.takeAnswer_kept (s : State) : TxnKept s s.takeAnswer.2 := by
  obtain ⟨as, n, h⟩ := s.takeAnswer_spec
  rw [h]; constructor <;> rfl

theorem State.record_kept (s : State) (es : List WireEvent) : TxnKept s (s.record es) := by constructor <;> rfl

theorem State.linBreak_kept (s : State) (r : BrkKind) : TxnKept s (s.linBreak r).2 :=
  s.takeAnswer_kept.trans (State.record_kept _ _)

theorem State.linWriteByte_kept (s : State) (b : Byte) : TxnKept s (s.linWriteByte b).2 := by
  unfold State.linWriteByte
  split
  rename_i a t h
  have k := s.takeAnswer_kept
  rw [h] at k
  dsimp only
  split
  · exact k.trans (State.record_kept _ _)
  · exact k

theorem State.linRead_kept (s : State) (n : Nat) : TxnKept s (s.linRead n).2 :=
  s.takeAnswer_kept.trans (State.record_kept _ _)

/-- The state a transaction step leaves, whether the transaction goes on or has ended. -/
def TxnStep.state : TxnStep → State
  | .going s => s
  | .ended s _ _ => s

theorem afterByte_kept (t : Txn) (j : Nat) (s : State) : TxnKept s (afterByte t j s).state := by
  unfold afterByte
  split
  · constructor <;> rfl
  · split <;> (constructor <;> rfl)

/-- A transaction step leaves all of `TxnKept` as it was. -/
theorem txnStep_kept (t : Txn) (s : State) : TxnKept s (txnStep t s).state := by
  have hw : TxnKept s (writeStep t s).state := by
    unfold writeStep
    split <;> rename_i u h
    all_goals
      have k := s.linWriteByte_kept ((wireBytes t s.lin.lf).getD s.lin.idx 0)
      rw [h] at k
    · exact k.trans (afterByte_kept _ _ _)
    · exact k
  unfold txnStep
  split
  · exact TxnKept.refl s
  · unfold breakStep
    split <;> rename_i u h
    all_goals
      have k := s.linBreak_kept t.brk
      rw [h] at k
    · exact (k.trans (by constructor <;> rfl)).trans (afterByte_kept _ _ _)
    · exact k
  · exact hw
  · exact hw
  · exact hw
  · exact hw
  · unfold respStep
    split <;> rename_i u h
    · have k := s.linRead_kept (t.respLen + 1)
      rw [h] at k
      exact k.trans (by constructor <;> rfl)
    · have k := s.linRead_kept (t.respLen + 1)
      rw [h] at k
      exact k
  · unfold validateStep
    split <;> exact TxnKept.refl s

theorem txnStep_going {t : Txn} {s u : State} (h : txnStep t s = .going u) : TxnKept s u := by
  have := txnStep_kept t s; rwa [h] at this

theorem txnStep_ended {t : Txn} {s u : State} {c : Status} {ph : LinPhase} (h : txnStep t s = .ended u c ph) :
    TxnKept s u := by
  have := txnStep_kept t s; rwa [h] at this

theorem phaseOf_ne_idle (len j : Nat) : phaseOf len j ≠ .idle := by
  unfold phaseOf; split_ifs <;> simp

theorem afterByte_going_phase {t : Txn} {j : Nat} {s u : State} (h : afterByte t j s = .going u) :
    u.lin.phase ≠ .idle := by
  unfold afterByte at h
  split at h
  · cases h; exact phaseOf_ne_idle _ _
  · split at h
    · cases h; simp
    · cases h

/-- A transaction that goes on is not in IDLE afterwards, unless it was in IDLE before. -/
theorem txnStep_going_phase {t : Txn} {s u : State} (h : txnStep t s = .going u) (hi : s.lin.phase ≠ .idle) :
    u.lin.phase ≠ .idle := by
  have hw : writeStep t s = .going u → u.lin.phase ≠ .idle := by
    intro h
    unfold writeStep at h
    split at h
    · exact afterByte_going_phase h
    · cases h
  unfold txnStep at h
  split at h
  · contradiction
  · unfold breakStep at h
    split at h
    · exact afterByte_going_phase h
    · cases h
  · exact hw h
  · exact hw h
  · exact hw h
  · exact hw h
  · unfold respStep at h
    split at h
    · cases h; simp
    · cases h
  · unfold validateStep at h
    split at h <;> cases h

/-- The status frame's data has the configured length (R207). -/
@[simp] theorem statusBytes_length (c : Cfg) (cnt : BitVec 4) (mode : Byte) :
    (statusBytes c cnt mode).length = c.statusLen := by simp [statusBytes]

end Sys2Proof.Machine
end

