-- ==== Sys2Proof/Laws/Exec.lean ====
section
/-! SUPPORT. What one micro-step of a command can do to the mailbox, to its port and to the engine: said once, for every
command, so that the invariants need not unfold the meanings again. -/

namespace Sys2Proof.Machine

open Sys2Proof Host

/-- A micro-phase that holds slot `k` of direction `d` and nothing else. -/
def MicroPhase.holds (ph : MicroPhase) (d : Dir) (k : Nat) : Prop := ∀ e, ph.held e = if e = d then some k else none

/-- A micro-phase that holds no slot. -/
def MicroPhase.holdsNothing (ph : MicroPhase) : Prop := ∀ e, ph.held e = none

theorem MicroPhase.ready_holdsNothing : MicroPhase.ready.holdsNothing := fun _ => rfl
theorem MicroPhase.pPrimary_holdsNothing : MicroPhase.pPrimary.holdsNothing := fun _ => rfl
theorem MicroPhase.lWait_holdsNothing : MicroPhase.lWait.holdsNothing := fun _ => rfl
theorem MicroPhase.lRun_holdsNothing : MicroPhase.lRun.holdsNothing := fun _ => rfl
theorem MicroPhase.pMirrorClaimed_holds (k : Nat) (b : Bool) : (MicroPhase.pMirrorClaimed k b).holds .usb k := fun _ => rfl
theorem MicroPhase.pClaimed_holds (d : Dir) (k : Nat) (x : PostPos) : (MicroPhase.pClaimed d k x).holds d k := fun _ => rfl
theorem MicroPhase.fPopped_holds (d : Dir) (k : Nat) (o : Option Frame) : (MicroPhase.fPopped d k o).holds d k := fun _ => rfl

/-- What one micro-step of a port can do to the mailbox `m`, with the port's micro-phase before (`P`) and after (`Q`):
R63's table of micro-steps, and nothing else. -/
inductive MbEffect (c : Cfg) (m : Mailbox) (P Q : Port) : Mailbox → Prop
  /-- The mailbox is untouched, and the port holds what it held. -/
  | same (h : ∀ d, Q.phase.held d = P.phase.held d) : MbEffect c m P Q m
  /-- `Claim` (R131). -/
  | claim (d : Dir) (k : Nat) (hk : (m.get d).freeIdx = some k) (hP : P.phase.holdsNothing) (hQ : Q.phase.holds d k) :
      MbEffect c m P Q (m.set d ((m.get d).mark k .occupied))
  /-- `SlotWrite` (R132). -/
  | write (d : Dir) (k : Nat) (hP : P.phase.holds d k) (hQ : Q.phase.holds d k)
      (hf : P.frameOk → operandsLegal P.lat = true) : MbEffect c m P Q (m.set d ((m.get d).write k P.lat.frame))
  /-- `Push` (R133). -/
  | push (d : Dir) (k : Nat) (hl : (m.get d).fifo.length < c.slots d) (hP : P.phase.holds d k)
      (hQ : Q.phase.holdsNothing) : MbEffect c m P Q (m.set d { m.get d with fifo := (m.get d).fifo ++ [k] })
  /-- `Pop` (R137). -/
  | pop (d : Dir) (k : Nat) (rest : List Nat) (hk : (m.get d).fifo = k :: rest) (hP : P.phase.holdsNothing)
      (hQ : Q.phase.holds d k) : MbEffect c m P Q (m.set d { m.get d with fifo := rest })
  /-- `Release` after a copy-out (R137). -/
  | release (d : Dir) (k : Nat) (hP : P.phase.holds d k) (hQ : Q.phase.holdsNothing) :
      MbEffect c m P Q (m.set d ((m.get d).mark k .free))
  /-- `Release` after a failed push, and the drop counted (R134, R135, R141). -/
  | rollback (d : Dir) (k : Nat) (hP : P.phase.holds d k) (hQ : Q.phase.holdsNothing) :
      MbEffect c m P Q (m.set d { (m.get d).mark k .free with drops := satSucc (m.get d).drops })
  /-- A refused claim, and the drop counted (R141). -/
  | drop (d : Dir) (hk : (m.get d).freeIdx = none) (hP : P.phase.holdsNothing) (hQ : Q.phase.holdsNothing) :
      MbEffect c m P Q (m.set d { m.get d with drops := satSucc (m.get d).drops })

/-- What one micro-step of port `p` can do to the engine's owner and phase (R204, R213). -/
inductive LinEffect (p : Nat) (l : Lin) (P Q : Port) (l' : Lin) : Prop
  /-- The engine's owner, phase and progress are untouched; the port is outside `L_RUN` before and after. -/
  | outside (hP : P.phase ≠ .lRun) (hQ : Q.phase ≠ .lRun) (ho : l'.owner = l.owner) (hp : l'.phase = l.phase)
      (hf : l'.first = l.first)
  /-- The port takes the engine (R204). -/
  | enter (ho : l.owner = none) (hQ : Q.phase = .lRun) (ho' : l'.owner = some p) (hp : l'.phase = .brk)
  /-- The port runs, and goes on; in IDLE only between the two transactions of LIN.CYCLE. -/
  | run (hP : P.phase = .lRun) (hQ : Q.phase = .lRun) (ho : l'.owner = l.owner)
      (hp : l'.phase = .idle → l'.first.isSome = true ∨ (l.phase = .idle ∧ l'.first = l.first))
  /-- The port's command ends, and the engine is released. -/
  | ended (hP : P.phase = .lRun) (hQ : Q.phase = .ready) (ho : l'.owner = none) (hp : l'.phase = .idle)

/-- What one micro-step of the command `i`, taken by the acting port `P`, does around its own effect: the configuration, the
clock, the script and every other port are untouched; the port keeps its operand registers, its command word and the operands
taken with it; and a port in a micro-phase of this command stays in one until the command ends. -/
structure ExecEffect (i : Instr) (s : State) (P : Port) (t : State) (Q : Port) : Prop where
  cfg : t.cfg = s.cfg
  cur : t.cur = s.cur
  now : t.env.now = s.env.now
  script : t.env.script = s.env.script
  ports : t.ports = s.ports.set s.cur Q
  a : Q.a = P.a
  lat : Q.lat = P.lat
  cw : Q.cw = P.cw
  stays : P.phase = .ready ∨ fitsPhase i P.phase = true →
    Q.phase = .ready ∨ (Q.req = P.req ∧ fitsPhase i Q.phase = true)
  mb : MbEffect s.cfg s.mb P Q t.mb
  lin : LinEffect s.cur s.lin P Q t.lin

/-! ### One-step commands -/

/-- A command of one micro-step that leaves the mailbox and the engine's owner alone, and ends. -/
theorem oneStep_effect {i : Instr} {s t : State} {P : Port} (hP : s.acting P) {k : State → State}
    (hk : ∀ u : State, ∀ U : Port, u.acting U → ∃ v : State, ∃ c ph r, k u = v.endCmd c ph ∧ v.cfg = u.cfg ∧ v.cur = u.cur
      ∧ v.env = u.env ∧ v.mb = u.mb ∧ v.ports = u.ports.set u.cur { U with r := r }
      ∧ v.lin.owner = u.lin.owner ∧ v.lin.phase = u.lin.phase ∧ v.lin.first = u.lin.first)
    (h : s.oneStep k = .next t) : ∃ Q, ExecEffect i s P t Q := by
  rw [State.oneStep_eq_next, hP.me] at h
  obtain ⟨hr, rfl⟩ := h
  obtain ⟨v, c, ph, r, e, h1, h2, h3, h4, hp, h6, h7, h8⟩ := hk _ _ hP
  have hva : v.acting { P with r := r } := by
    rw [State.acting_def, hp, h2]; simp [hP.lt]
  rw [e]
  refine ⟨{ P with r := r, st := stWord c ph, phase := .ready, req := false }, ?_⟩
  constructor
  · simp [h1]
  · simp [h2]
  · simp [h3]
  · simp [h3]
  · rw [State.endCmd_ports, State.modify_acting hva, hp, h2]; simp
  · rfl
  · rfl
  · rfl
  · exact fun _ => .inl rfl
  · rw [State.endCmd_mb, h4]
    exact .same fun d => by rw [hr]
  · rw [State.endCmd_lin]
    exact .outside (by simp [hr]) (by simp) (by simp [h6]) (by simp [h7]) (by simp [h8])

/-! ### The multi-step commands -/

/-- An effect whose last act is a change of the acting port. -/
theorem ExecEffect.of_updMe {i : Instr} {s u : State} {P P1 : Port} (hP : s.acting P) (f : Port → Port)
    (hcfg : u.cfg = s.cfg) (hcur : u.cur = s.cur) (hnow : u.env.now = s.env.now) (hscr : u.env.script = s.env.script)
    (hports : u.ports = s.ports.set s.cur P1) (ha : ((f P1).a, (f P1).lat) = (P.a, P.lat))
    (hcw : (f P1).cw = P.cw)
    (hst : P.phase = .ready ∨ fitsPhase i P.phase = true →
      (f P1).phase = .ready ∨ ((f P1).req = P.req ∧ fitsPhase i (f P1).phase = true))
    (hmb : MbEffect s.cfg s.mb P (f P1) u.mb) (hlin : LinEffect s.cur s.lin P (f P1) u.lin) :
    ExecEffect i s P (u.updMe f) (f P1) := by
  have hu : u.acting P1 := by rw [State.acting_def, hports, hcur]; simp [hP.lt]
  refine ⟨hcfg, hcur, hnow, hscr, ?_, congrArg Prod.fst ha, congrArg Prod.snd ha, hcw, hst, hmb, hlin⟩
  rw [State.updMe_ports, State.modify_acting hu, hports, hcur]; simp

/-- Replacing the acting port by itself changes nothing. -/
theorem State.acting.set_self {s : State} {P : Port} (hP : s.acting P) : s.ports.set s.cur P = s.ports := by
  apply List.ext_getElem?
  intro j
  rw [List.getElem?_set]
  by_cases hj : s.cur = j
  · subst hj; rw [(State.acting_def s P).mp hP]; simp [hP.lt]
  · simp [hj]

/-- Outside the engine. -/
theorem LinEffect.untouched {p : Nat} {l : Lin} {P Q : Port} (hP : P.phase ≠ .lRun) (hQ : Q.phase ≠ .lRun) :
    LinEffect p l P Q l := .outside hP hQ rfl rfl rfl

/-- MB.POST (R130, R135). -/
theorem execMbPost_effect {d : Dir} {s t : State} {P : Port} (hP : s.acting P) (h : execMbPost d s = .next t) :
    ∃ Q, ExecEffect (.mbPost d) s P t Q := by
  have hself := hP.set_self
  unfold execMbPost at h
  rw [hP.me] at h
  cases hph : P.phase with
  | ready =>
    simp only [hph, Host.Outcome.next.injEq] at h
    subst h
    unfold postStart
    rw [hP.me]
    have claimOf : ∀ d' : Dir, fitsPhase (.mbPost d) (.pClaimed d' 0 .copy) = true →
        ∃ Q, ExecEffect (.mbPost d) s P (postP1 d' s) Q := by
      intro d' hfit
      unfold postP1
      split
      · rename_i hc
        rw [State.claim_eq_none] at hc
        exact ⟨_, ExecEffect.of_updMe hP _ rfl rfl rfl rfl hself.symm rfl rfl (fun _ => .inl rfl)
          (.drop d' hc (by rw [hph]; exact MicroPhase.ready_holdsNothing) MicroPhase.ready_holdsNothing)
          (.untouched (by simp [hph]) (by simp))⟩
      · rename_i k u hc
        rw [State.claim_eq_some] at hc
        obtain ⟨hk, rfl⟩ := hc
        exact ⟨_, ExecEffect.of_updMe hP _ rfl rfl rfl rfl hself.symm rfl rfl (fun _ => .inr ⟨rfl, hfit⟩)
          (.claim d' k hk (by rw [hph]; exact MicroPhase.ready_holdsNothing) (MicroPhase.pClaimed_holds _ _ _))
          (.untouched (by simp [hph]) (by simp))⟩
    split
    · cases d with
      | rx => exact claimOf .rx rfl
      | usb => exact claimOf .usb rfl
      | tx =>
        show ∃ Q, ExecEffect _ s P (postM1 s) Q
        unfold postM1
        split
        · rename_i hc
          rw [State.claim_eq_none] at hc
          exact ⟨_, ExecEffect.of_updMe hP _ rfl rfl rfl rfl hself.symm rfl rfl (fun _ => .inr ⟨rfl, rfl⟩)
            (.drop .usb hc (by rw [hph]; exact MicroPhase.ready_holdsNothing) MicroPhase.pPrimary_holdsNothing)
            (.untouched (by simp [hph]) (by simp))⟩
        · rename_i k u hc
          rw [State.claim_eq_some] at hc
          obtain ⟨hk, rfl⟩ := hc
          exact ⟨_, ExecEffect.of_updMe hP _ rfl rfl rfl rfl hself.symm rfl rfl (fun _ => .inr ⟨rfl, rfl⟩)
            (.claim .usb k hk (by rw [hph]; exact MicroPhase.ready_holdsNothing) (MicroPhase.pMirrorClaimed_holds _ _))
            (.untouched (by simp [hph]) (by simp))⟩
    · exact ⟨_, ExecEffect.of_updMe hP _ rfl rfl rfl rfl hself.symm rfl rfl (fun _ => .inl rfl)
        (.same fun e => by rw [hph]) (.untouched (by simp [hph]) (by simp))⟩
  | pMirrorClaimed k b =>
    have hold : P.phase.holds .usb k := by rw [hph]; exact MicroPhase.pMirrorClaimed_holds k b
    cases b with
    | false =>
      simp only [hph, Host.Outcome.next.injEq] at h
      subst h
      unfold postM2
      rw [hP.me]
      exact ⟨_, ExecEffect.of_updMe hP _ rfl rfl rfl rfl hself.symm rfl rfl (by simp [hph, fitsPhase])
        (.write .usb k hold (MicroPhase.pMirrorClaimed_holds _ _) (by simp [Port.frameOk, hph]))
        (.untouched (by simp [hph]) (by simp))⟩
    | true =>
      simp only [hph, Host.Outcome.next.injEq] at h
      subst h
      unfold postM3
      split
      · rename_i u hc
        rw [State.push_eq_some] at hc
        obtain ⟨hl, rfl⟩ := hc
        exact ⟨_, ExecEffect.of_updMe hP _ rfl rfl rfl rfl hself.symm rfl rfl (by simp [hph, fitsPhase])
          (.push .usb k hl hold MicroPhase.pPrimary_holdsNothing) (.untouched (by simp [hph]) (by simp))⟩
      · exact ⟨_, ExecEffect.of_updMe hP _ rfl rfl rfl rfl hself.symm rfl rfl (by simp [hph, fitsPhase])
          (.rollback .usb k hold MicroPhase.pPrimary_holdsNothing) (.untouched (by simp [hph]) (by simp))⟩
  | pPrimary =>
    simp only [hph, Host.Outcome.next.injEq] at h
    subst h
    have hnone : P.phase.holdsNothing := by rw [hph]; exact MicroPhase.pPrimary_holdsNothing
    unfold postP1
    split
    · rename_i hc
      rw [State.claim_eq_none] at hc
      exact ⟨_, ExecEffect.of_updMe hP _ rfl rfl rfl rfl hself.symm rfl rfl (fun _ => .inl rfl)
        (.drop d hc hnone MicroPhase.ready_holdsNothing) (.untouched (by simp [hph]) (by simp))⟩
    · rename_i k u hc
      rw [State.claim_eq_some] at hc
      obtain ⟨hk, rfl⟩ := hc
      exact ⟨_, ExecEffect.of_updMe hP _ rfl rfl rfl rfl hself.symm rfl rfl (by simp [fitsPhase])
        (.claim d k hk hnone (MicroPhase.pClaimed_holds _ _ _)) (.untouched (by simp [hph]) (by simp))⟩
  | pClaimed d' k x =>
    have hold : P.phase.holds d' k := by rw [hph]; exact MicroPhase.pClaimed_holds d' k x
    cases x with
    | copy =>
      simp only [hph, Host.Outcome.next.injEq] at h
      subst h
      unfold postP2
      rw [hP.me]
      exact ⟨_, ExecEffect.of_updMe hP _ rfl rfl rfl rfl hself.symm rfl rfl (by simp [hph, fitsPhase])
        (.write d' k hold (MicroPhase.pClaimed_holds _ _ _) (by simp [Port.frameOk, hph]))
        (.untouched (by simp [hph]) (by simp))⟩
    | publish =>
      simp only [hph, Host.Outcome.next.injEq] at h
      subst h
      unfold postP3
      split
      · rename_i u hc
        rw [State.push_eq_some] at hc
        obtain ⟨hl, rfl⟩ := hc
        exact ⟨_, ExecEffect.of_updMe hP _ rfl rfl rfl rfl hself.symm rfl rfl (fun _ => .inl rfl)
          (.push d' k hl hold MicroPhase.ready_holdsNothing) (.untouched (by simp [hph]) (by simp))⟩
      · exact ⟨_, ExecEffect.of_updMe hP _ rfl rfl rfl rfl hself.symm rfl rfl (by simp [hph, fitsPhase])
          (.same fun e => by rw [hph]; rfl) (.untouched (by simp [hph]) (by simp))⟩
    | rollback =>
      simp only [hph, Host.Outcome.next.injEq] at h
      subst h
      unfold postP4
      exact ⟨_, ExecEffect.of_updMe hP _ rfl rfl rfl rfl hself.symm rfl rfl (fun _ => .inl rfl)
        (by
          have := MbEffect.rollback (c := s.cfg) (m := s.mb) d' k hold (Q := { P with st := stWord .full .idle, phase := .ready, req := false }) MicroPhase.ready_holdsNothing
          convert this using 1
          cases d' <;> rfl)
        (.untouched (by simp [hph]) (by simp))⟩
  | fPopped d' k o => simp [hph] at h
  | lWait => simp [hph] at h
  | lRun => simp [hph] at h

/-- MB.FETCH (R136). -/
theorem execMbFetch_effect {d : Dir} {s t : State} {P : Port} (hP : s.acting P) (h : execMbFetch d s = .next t) :
    ∃ Q, ExecEffect (.mbFetch d) s P t Q := by
  have hself := hP.set_self
  unfold execMbFetch at h
  rw [hP.me] at h
  cases hph : P.phase with
  | ready =>
    simp only [hph, Host.Outcome.next.injEq] at h
    subst h
    unfold fetchF1
    split
    · exact ⟨_, ExecEffect.of_updMe hP _ rfl rfl rfl rfl hself.symm rfl rfl (fun _ => .inl rfl)
        (.same fun e => by rw [hph]) (.untouched (by simp [hph]) (by simp))⟩
    · rename_i k u hc
      rw [State.pop_eq_some] at hc
      obtain ⟨rest, hk, rfl⟩ := hc
      exact ⟨_, ExecEffect.of_updMe hP _ rfl rfl rfl rfl hself.symm rfl rfl (by simp [fitsPhase])
        (.pop d k rest hk (by rw [hph]; exact MicroPhase.ready_holdsNothing) (MicroPhase.fPopped_holds _ _ _))
        (.untouched (by simp [hph]) (by simp))⟩
  | fPopped d' k o =>
    have hold : P.phase.holds d' k := by rw [hph]; exact MicroPhase.fPopped_holds d' k o
    cases o with
    | none =>
      simp only [hph, Host.Outcome.next.injEq] at h
      subst h
      exact ⟨_, ExecEffect.of_updMe hP _ rfl rfl rfl rfl hself.symm rfl rfl (by simp [hph, fitsPhase])
        (.same fun e => by rw [hph]; rfl) (.untouched (by simp [hph]) (by simp))⟩
    | some f =>
      simp only [hph, Host.Outcome.next.injEq] at h
      subst h
      unfold fetchF3 State.endCmd
      have hset : ((s.release d' k).setR f.results).ports = s.ports.set s.cur { P with r := f.results } := by
        rw [State.setR_ports, State.release_ports, State.release_cur, State.modify_acting hP]
      exact ⟨_, ExecEffect.of_updMe hP _ rfl rfl rfl rfl hset rfl rfl (fun _ => .inl rfl)
        (.release d' k hold MicroPhase.ready_holdsNothing) (.untouched (by simp [hph]) (by simp))⟩
  | pMirrorClaimed k b => simp [hph] at h
  | pPrimary => simp [hph] at h
  | pClaimed d' k x => simp [hph] at h
  | lWait => simp [hph] at h
  | lRun => simp [hph] at h

/-! ### The commands that use the engine -/

/-- What a load does: only the engine's transaction is set up, in phase BREAK, under the same owner. -/
structure LoadKept (s u : State) : Prop where
  cfg : u.cfg = s.cfg
  cur : u.cur = s.cur
  env : u.env = s.env
  ports : u.ports = s.ports
  mb : u.mb = s.mb
  owner : u.lin.owner = s.lin.owner
  phase : u.lin.phase = .brk

/-- What a micro-step of a port that owns the engine can do: it goes on, or the command ends and the engine is released. -/
inductive BodyEffect (s : State) (P : Port) (v : State) : Prop
  | goes (cfg : v.cfg = s.cfg) (cur : v.cur = s.cur) (now : v.env.now = s.env.now) (script : v.env.script = s.env.script)
      (ports : v.ports = s.ports) (mb : v.mb = s.mb) (owner : v.lin.owner = s.lin.owner)
      (phase : v.lin.phase = .idle → v.lin.first.isSome = true ∨ (s.lin.phase = .idle ∧ v.lin.first = s.lin.first))
  | ends (w : State) (c : Status) (ph : LinPhase) (r : Quad) (hv : v = w.endCmd c ph) (cfg : w.cfg = s.cfg)
      (cur : w.cur = s.cur) (now : w.env.now = s.env.now) (script : w.env.script = s.env.script)
      (ports : w.ports = s.ports.set s.cur { P with r := r }) (mb : w.mb = s.mb) (owner : w.lin.owner = none)
      (phase : w.lin.phase = .idle)

/-- Entering the engine, or waiting for it (R204). -/
theorem linEnter_effect {i : Instr} {load : State → State} (hload : ∀ u : State, u.lin.phase = .brk → LoadKept u (load u))
    (hw : fitsPhase i .lWait = true) (hr : fitsPhase i .lRun = true) {s u : State} {P P1 : Port} (hP : s.acting P)
    (hcfg : u.cfg = s.cfg) (hcur : u.cur = s.cur) (henv : u.env = s.env) (hmb : u.mb = s.mb) (hlin : u.lin = s.lin)
    (hports : u.ports = s.ports.set s.cur P1) (ha : (P1.a, P1.lat) = (P.a, P.lat)) (hcw : P1.cw = P.cw) (hreq : P1.req = P.req)
    (hnone : P.phase.holdsNothing) (hrun : P.phase ≠ .lRun) :
    ∃ Q, ExecEffect i s P (linEnter load u) Q := by
  unfold linEnter
  split
  · rename_i ho
    have base := ExecEffect.of_updMe (i := i) (s := s)
      (u := u.updLin fun l => { l with owner := some u.cur, phase := .brk, first := none }) (P := P) (P1 := P1) hP
      (fun Q => { Q with phase := .lRun }) hcfg hcur (by simp [henv]) (by simp [henv]) hports ha hcw
      (fun _ => .inr ⟨hreq, hr⟩)
      (by simp only [State.updLin_mb, hmb]; exact .same fun d => by rw [hnone d]; rfl)
      (.enter (by rw [← hlin]; exact ho) rfl (by simp [hcur]) rfl)
    have k := hload ((u.updLin fun l => { l with owner := some u.cur, phase := .brk, first := none }).goto .lRun) rfl
    refine ⟨_, ?_, ?_, ?_, ?_, ?_, base.a, base.lat, base.cw, base.stays, ?_, ?_⟩
    · rw [k.cfg]; exact base.cfg
    · rw [k.cur]; exact base.cur
    · rw [k.env]; exact base.now
    · rw [k.env]; exact base.script
    · rw [k.ports]; exact base.ports
    · rw [k.mb]; exact base.mb
    · exact .enter (by rw [← hlin]; exact ho) rfl (by rw [k.owner]; simp [hcur]) k.phase
  · exact ⟨_, ExecEffect.of_updMe hP (fun Q => { Q with phase := .lWait }) hcfg hcur (by rw [henv]) (by rw [henv])
      hports ha hcw (fun _ => .inr ⟨hreq, hw⟩) (by rw [hmb]; exact .same fun d => by rw [hnone d]; rfl)
      (by rw [hlin]; exact .untouched hrun (by simp))⟩

/-- A command that uses the engine, given what its load and its body do. -/
theorem linCommand_effect {i : Instr} {legal : Bool} {load body : State → State}
    (hload : ∀ u : State, u.lin.phase = .brk → LoadKept u (load u))
    (hw : fitsPhase i .lWait = true) (hr : fitsPhase i .lRun = true) {s t : State} {P : Port} (hP : s.acting P)
    (hbody : BodyEffect s P (body s)) (h : linCommand legal load body s = .next t) : ∃ Q, ExecEffect i s P t Q := by
  have hself := hP.set_self
  unfold linCommand at h
  rw [hP.me] at h
  cases hph : P.phase with
  | ready =>
    simp only [hph, Host.Outcome.next.injEq] at h
    subst h
    split
    · exact linEnter_effect hload hw hr hP rfl rfl rfl rfl rfl hself.symm rfl rfl rfl
        (by rw [hph]; exact MicroPhase.ready_holdsNothing) (by simp [hph])
    · exact ⟨_, ExecEffect.of_updMe hP _ rfl rfl rfl rfl hself.symm rfl rfl (fun _ => .inl rfl)
        (.same fun e => by rw [hph]) (.untouched (by simp [hph]) (by simp))⟩
  | lWait =>
    simp only [hph, Host.Outcome.next.injEq] at h
    subst h
    exact linEnter_effect hload hw hr hP rfl rfl rfl rfl rfl hself.symm rfl rfl rfl
      (by rw [hph]; exact MicroPhase.lWait_holdsNothing) (by simp [hph])
  | lRun =>
    simp only [hph, Host.Outcome.next.injEq] at h
    subst h
    cases hbody with
    | goes h1 h2 h3 h4 h5 h6 h7 h8 =>
      exact ⟨P, h1, h2, h3, h4, by rw [h5, hself], rfl, rfl, rfl, fun _ => .inr ⟨rfl, by rw [hph]; exact hr⟩,
        by rw [h6]; exact .same fun _ => rfl, .run hph hph h7 h8⟩
    | ends w c ph r hv h1 h2 h3 h4 h5 h6 h7 h8 =>
      rw [hv]
      exact ⟨_, ExecEffect.of_updMe hP _ h1 h2 h3 h4 h5 rfl rfl (fun _ => .inl rfl)
        (by rw [h6]; exact .same fun e => by rw [hph]; rfl) (.ended hph rfl h7 h8)⟩
  | pMirrorClaimed k b => simp [hph] at h
  | pPrimary => simp [hph] at h
  | pClaimed d' k x => simp [hph] at h
  | fPopped d' k o => simp [hph] at h

theorem startTxn_loadKept (id : BitVec 6) (data : List Byte) (u : State) : LoadKept u (startTxn id data u) := by
  constructor <;> rfl

/-- The end of a LIN command, as a body effect. -/
theorem linEnd_ends {s u : State} {P : Port} (hP : s.acting P) (k : TxnKept s u) (c : Status) (ph : LinPhase)
    (c' : Status) (ph' : LinPhase) : BodyEffect s P (linEnd c ph (u.finish c' ph')) :=
  .ends _ c ph P.r rfl k.cfg k.cur k.now k.script (by
    show u.ports = _
    rw [k.ports]; exact hP.set_self.symm) k.mb rfl rfl

/-- The end of a LIN command that delivers results in all four result registers. -/
theorem linEnd_setR_ends {s u : State} {P : Port} (hP : s.acting P) (k : TxnKept s u) (q : Quad) (c : Status)
    (ph : LinPhase) (c' : Status) (ph' : LinPhase) : BodyEffect s P (linEnd c ph ((u.setR q).finish c' ph')) := by
  have hu : u.acting P := by rw [State.acting_def, k.ports, k.cur]; exact hP
  refine .ends _ c ph q rfl k.cfg k.cur k.now k.script ?_ k.mb rfl rfl
  show (u.setR q).ports = _
  rw [State.setR_ports, State.modify_acting hu, k.ports, k.cur]

theorem goes_of_kept {s u : State} {P : Port} (k : TxnKept s u)
    (hp : u.lin.phase = .idle → u.lin.first.isSome = true ∨ (s.lin.phase = .idle ∧ u.lin.first = s.lin.first)) :
    BodyEffect s P u := .goes k.cfg k.cur k.now k.script k.ports k.mb k.owner hp

theorem going_goes {t : Txn} {s u : State} {P : Port} (h : txnStep t s = .going u) : BodyEffect s P u :=
  goes_of_kept (txnStep_going h) fun hi => by
    by_cases hs : s.lin.phase = .idle
    · exact .inr ⟨hs, (txnStep_going h).first⟩
    · exact absurd hi (txnStep_going_phase h hs)

theorem sendStep_effect {t : Txn} {s : State} {P : Port} (hP : s.acting P) : BodyEffect s P (sendStep t s) := by
  unfold sendStep
  split <;> rename_i h
  · exact going_goes h
  · exact linEnd_ends hP (txnStep_ended h) _ _ _ _

theorem xchgStep_effect {t : Txn} {s : State} {P : Port} (hP : s.acting P) : BodyEffect s P (xchgStep t s) := by
  unfold xchgStep
  split <;> rename_i h
  · exact going_goes h
  · exact linEnd_setR_ends hP (txnStep_ended h) _ _ _ _ _
  · exact linEnd_ends hP (txnStep_ended h) _ _ _ _

/-- What a step of the diagnostic exchange can do (R208): as a transaction step, but that a valid response first updates the
telemetry, both fields at once, and the transaction ends one step later. -/
theorem diagStep_cases (s : State) :
    (∃ u, txnStep (diagTxn s.cfg) s = .going u ∧ diagStep s = .going u ∧ s.lin.stage ≠ .telemDone)
    ∨ (∃ u ph, txnStep (diagTxn s.cfg) s = .ended u .ok ph ∧ diagStep s = .going (telemUpdate u) ∧ s.lin.stage ≠ .telemDone)
    ∨ (∃ u c ph, c ≠ .ok ∧ txnStep (diagTxn s.cfg) s = .ended u c ph ∧ diagStep s = .ended u c ph
        ∧ s.lin.stage ≠ .telemDone)
    ∨ (diagStep s = .ended s .ok .idle ∧ s.lin.stage = .telemDone) := by
  unfold diagStep
  cases hst : s.lin.stage with
  | telemDone => simp
  | frame | xfer =>
    simp only
    cases h : txnStep (diagTxn s.cfg) s with
    | going u => simp
    | ended u c ph => cases c <;> simp

/-- A diagnostic exchange whose response was valid is in VALIDATE: the step that ended it was the validation. -/
theorem txnStep_ended_phase {t : Txn} {s u : State} {c : Status} {ph : LinPhase} (h : txnStep t s = .ended u c ph) :
    s.lin.phase ≠ .idle ∧ (u.lin.phase = s.lin.phase) := by
  have hab : ∀ (j : Nat) (v : State), afterByte t j v = .ended u c ph → u = v := by
    intro j v h
    unfold afterByte at h
    split at h
    · cases h
    · split at h
      · cases h
      · cases h; rfl
  have hw : writeStep t s = .ended u c ph → u.lin.phase = s.lin.phase := by
    intro h
    have hph : ∀ b, (s.linWriteByte b).2.lin.phase = s.lin.phase := by
      intro b
      obtain ⟨as, n, hk⟩ := s.takeAnswer_spec
      unfold State.linWriteByte
      split
      rename_i a v hv
      rw [hv] at hk
      dsimp only at hk ⊢
      subst hk
      split <;> rfl
    unfold writeStep at h
    split at h <;> rename_i v hv
    · have := hab _ _ h
      rw [this]
      have := hph ((wireBytes t s.lin.lf).getD s.lin.idx 0)
      rwa [hv] at this
    · cases h
      have := hph ((wireBytes t s.lin.lf).getD s.lin.idx 0)
      rwa [hv] at this
  unfold txnStep at h
  cases hp : s.lin.phase with
  | idle => simp [hp] at h
  | brk =>
    simp only [hp] at h
    refine ⟨by simp, ?_⟩
    obtain ⟨as, n, hk⟩ := s.takeAnswer_spec
    unfold breakStep State.linBreak at h
    split at h <;> rename_i v hv
    · have := hab _ _ h
      rw [this]
      simp only [Prod.mk.injEq] at hv
      rw [← hv.2, hk]; exact hp
    · cases h
      simp only [Prod.mk.injEq] at hv
      rw [← hv.2, hk]; exact hp
  | sync | pid | data | cks => simp only [hp] at h; exact ⟨by simp, by rw [hw h, hp]⟩
  | resp =>
    simp only [hp] at h
    refine ⟨by simp, ?_⟩
    obtain ⟨as, n, hk⟩ := s.takeAnswer_spec
    unfold respStep State.linRead at h
    split at h <;> rename_i v hv
    · cases h
    · cases h
      simp only [Prod.mk.injEq] at hv
      rw [← hv.2, hk]; exact hp
  | validate =>
    simp only [hp] at h
    refine ⟨by simp, ?_⟩
    unfold validateStep at h
    split at h <;> (cases h; exact hp)

/-- The telemetry update keeps the engine where it is. -/
theorem telemUpdate_goes {t : Txn} {s u : State} {P : Port} {c : Status} {ph : LinPhase}
    (h : txnStep t s = .ended u c ph) : BodyEffect s P (telemUpdate u) := by
  have k := txnStep_ended h
  refine .goes k.cfg k.cur k.now k.script k.ports k.mb k.owner fun hi => ?_
  have hp := txnStep_ended_phase h
  exact absurd (hp.2 ▸ hi) hp.1

theorem diagCommandStep_effect {s : State} {P : Port} (hP : s.acting P) : BodyEffect s P (diagCommandStep s) := by
  unfold diagCommandStep
  obtain ⟨u, h, e, _⟩ | ⟨u, ph, h, e, _⟩ | ⟨u, c, ph, hc, h, e, _⟩ | ⟨e, _⟩ := diagStep_cases s <;> rw [e]
  · exact going_goes h
  · exact telemUpdate_goes h
  · cases c
    · exact absurd rfl hc
    all_goals exact linEnd_ends hP (txnStep_ended h) _ _ _ _
  · exact linEnd_setR_ends hP (TxnKept.refl s) _ _ _ _ _

theorem cycleStep_effect {s : State} {P : Port} (hP : s.acting P) : BodyEffect s P (cycleStep s) := by
  have hst : BodyEffect s P (cycleStatusStep s) := by
    unfold cycleStatusStep
    split <;> rename_i h
    · exact going_goes h
    · have k := txnStep_ended h
      exact .goes k.cfg k.cur k.now k.script k.ports k.mb k.owner fun _ => .inl rfl
  have hdg : ∀ c1 p1, BodyEffect s P (cycleDiagStep c1 p1 s) := by
    intro c1 p1
    have fin : ∀ u : State, TxnKept s u → ∀ c2 p2, BodyEffect s P
        (linEnd (cycleStatus c1 p1 c2 p2).1 (cycleStatus c1 p1 c2 p2).2
          ((u.finish c2 p2).setR0 (cycleWord c1 p1 c2 p2))) := by
      intro u k c2 p2
      have hu : (u.finish c2 p2).acting P := by
        rw [State.acting_def]; simp only [State.finish_ports, State.finish_cur, k.ports, k.cur]; exact hP
      refine .ends _ _ _ { P.r with w0 := cycleWord c1 p1 c2 p2 } rfl k.cfg k.cur k.now k.script ?_ k.mb rfl rfl
      show ((u.finish c2 p2).setR0 _).ports = _
      rw [State.setR0_ports, State.modify_acting hu, State.finish_ports, State.finish_cur, k.ports, k.cur]
    unfold cycleDiagStep
    obtain ⟨u, h, e, _⟩ | ⟨u, ph, h, e, _⟩ | ⟨u, c, ph, hc, h, e, _⟩ | ⟨e, _⟩ := diagStep_cases s <;> rw [e]
    · exact going_goes h
    · exact telemUpdate_goes h
    · exact fin u (txnStep_ended h) c ph
    · exact fin s (TxnKept.refl s) .ok .idle
  have hxf : BodyEffect s P (match s.lin.first with
      | none => cycleStatusStep s
      | some (c1, p1) => if s.lin.phase = .idle then startDiag s else cycleDiagStep c1 p1 s) := by
    split
    · exact hst
    · split
      · exact .goes rfl rfl rfl rfl rfl rfl rfl fun hi => by simp [startDiag, startTxn] at hi
      · exact hdg _ _
  unfold cycleStep
  split
  · exact .goes rfl rfl rfl rfl rfl rfl rfl fun hi => by simp [startStatus, startTxn] at hi
  · exact hxf
  · exact hxf

/-- What a micro-step of any command does: the one inversion lemma of `exec`. -/
theorem exec_effect {i : Instr} {s t : State} {P : Port} (hP : s.acting P) (h : exec i s = .next t) :
    ∃ Q, ExecEffect i s P t Q := by
  have r0 : ∀ (u v : State) (U : Port), v.acting U → v.ports = u.ports → v.cur = u.cur → ∀ w : Word,
      (v.setR0 w).ports = u.ports.set u.cur { U with r := { U.r with w0 := w } } := by
    intro u v U hv hp hc w
    rw [State.setR0_ports, State.modify_acting hv, hp, hc]
  have plain : ∀ (u v : State) (U : Port), u.acting U → v.ports = u.ports →
      v.ports = u.ports.set u.cur { U with r := U.r } := by
    intro u v U hu hp
    rw [hp]; exact hu.set_self.symm
  cases i with
  | mbPost d => exact execMbPost_effect hP h
  | mbFetch d => exact execMbFetch_effect hP h
  | mbEmpty d =>
    unfold exec execMbEmpty at h
    refine oneStep_effect hP ?_ h
    intro u U hu
    exact ⟨u.setR0 _, _, _, _, rfl, rfl, rfl, rfl, rfl, r0 u u U hu rfl rfl _, rfl, rfl, rfl⟩
  | fltClear =>
    unfold exec execFltClear at h
    refine oneStep_effect hP ?_ h
    intro u U hu
    exact ⟨u.updFlt _, _, _, _, rfl, rfl, rfl, rfl, rfl, plain u _ U hu rfl, rfl, rfl, rfl⟩
  | fltSet slot ext =>
    unfold exec execFltSet at h
    refine oneStep_effect hP ?_ h
    intro u U hu
    split
    · exact ⟨u.updFlt _, _, _, _, rfl, rfl, rfl, rfl, rfl, plain u _ U hu rfl, rfl, rfl, rfl⟩
    · exact ⟨u, _, _, _, rfl, rfl, rfl, rfl, rfl, plain u _ U hu rfl, rfl, rfl, rfl⟩
  | fltEn n =>
    unfold exec execFltEn at h
    refine oneStep_effect hP ?_ h
    intro u U hu
    exact ⟨u.updFlt _, _, _, _, rfl, rfl, rfl, rfl, rfl, plain u _ U hu rfl, rfl, rfl, rfl⟩
  | fltApply =>
    unfold exec execFltApply at h
    refine oneStep_effect hP ?_ h
    intro u U hu
    exact ⟨u.updFlt _, _, _, _, rfl, rfl, rfl, rfl, rfl, plain u _ U hu rfl, rfl, rfl, rfl⟩
  | linPid id =>
    unfold exec execLinPid at h
    refine oneStep_effect hP ?_ h
    intro u U hu
    exact ⟨u.setR0 _, _, _, _, rfl, rfl, rfl, rfl, rfl, r0 u u U hu rfl rfl _, rfl, rfl, rfl⟩
  | linCks k len seed =>
    unfold exec execLinCks at h
    refine oneStep_effect hP ?_ h
    intro u U hu
    split
    · exact ⟨u.setR0 _, _, _, _, rfl, rfl, rfl, rfl, rfl, r0 u u U hu rfl rfl _, rfl, rfl, rfl⟩
    · exact ⟨u, _, _, _, rfl, rfl, rfl, rfl, rfl, plain u _ U hu rfl, rfl, rfl, rfl⟩
  | linSend id len c k r =>
    exact linCommand_effect (load := loadRequest id len) (body := sendStep (sendTxn c k r))
      (fun u _ => startTxn_loadKept id _ u) rfl rfl hP (sendStep_effect hP) h
  | linXchg id len n c k r =>
    exact linCommand_effect (load := loadRequest id len) (body := xchgStep (xchgTxn n c k r))
      (fun u _ => startTxn_loadKept id _ u) rfl rfl hP (xchgStep_effect hP) h
  | linDiag =>
    exact linCommand_effect (load := startDiag) (body := diagCommandStep)
      (fun u _ => startTxn_loadKept _ _ u) rfl rfl hP (diagCommandStep_effect hP) h
  | linCycle =>
    exact linCommand_effect (load := armCycle) (body := cycleStep)
      (fun u hu => ⟨rfl, rfl, rfl, rfl, rfl, rfl, hu⟩) rfl rfl hP (cycleStep_effect hP) h
  | actMark =>
    unfold exec execActMark at h
    refine oneStep_effect hP ?_ h
    intro u U hu
    exact ⟨{ u with act := _ }, _, _, _, rfl, rfl, rfl, rfl, rfl, plain u _ U hu rfl, rfl, rfl, rfl⟩
  | csrRd addr =>
    unfold exec execCsrRd at h
    refine oneStep_effect hP ?_ h
    intro u U hu
    split
    · exact ⟨u.setR0 _, _, _, _, rfl, rfl, rfl, rfl, rfl, r0 u u U hu rfl rfl _, rfl, rfl, rfl⟩
    · exact ⟨u, _, _, _, rfl, rfl, rfl, rfl, rfl, plain u _ U hu rfl, rfl, rfl, rfl⟩
  | csrWr addr =>
    unfold exec execCsrWr at h
    refine oneStep_effect hP ?_ h
    intro u U hu
    split
    · rename_i v hv
      unfold State.csrWrite at hv
      split at hv
      · cases hv
        exact ⟨u.updLin _, _, _, _, rfl, rfl, rfl, rfl, rfl, plain u _ U hu rfl, rfl, rfl, rfl⟩
      · split at hv
        · cases hv
          exact ⟨u.updLin _, _, _, _, rfl, rfl, rfl, rfl, rfl, plain u _ U hu rfl, rfl, rfl, rfl⟩
        · cases hv
    · exact ⟨u, _, _, _, rfl, rfl, rfl, rfl, rfl, plain u _ U hu rfl, rfl, rfl, rfl⟩

end Sys2Proof.Machine
end

