-- ==== Sys2Proof/Laws/PerInstr.lean ====
section
/-! SUPPORT. Facts about every command as syntax, one lemma per constructor: the opcode field of its word (R90, R94). -/

namespace Sys2Proof

/-- The opcode field of a word built from its four fields. -/
theorem cwField_cwOf_op (op a b c : BitVec 8) : cwField (cwOf op a b c) 24 8 = op := by
  unfold cwField cwOf
  ext i hi
  simp only [BitVec.getElem_extractLsb', BitVec.getLsbD_append]
  rw [if_neg (by omega), if_neg (by omega), if_neg (by omega), ← BitVec.getLsbD_eq_getElem]
  congr 1
  omega

end Sys2Proof

namespace Sys2Proof.Laws.OpcodeField

open Sys2Proof

/-- R94: the opcode field of the word of a command is that of the command's own row of the opcode map. -/
def Statement (i : Instr) : Prop :=
  ∃ row ∈ opcodeTable, row.mnemonic = i.mnemonic ∧ cwField (encode i) 24 8 = cwField row.pattern 24 8

/-- Row `n` of the map is the row of `i`, and its opcode is the one `encode` writes. -/
theorem of_row {i : Instr} {op a b c : BitVec 8} (n : Nat) (he : encode i = cwOf op a b c)
    (hn : (opcodeTable[n]?).map (fun r => (r.mnemonic, cwField r.pattern 24 8)) = some (i.mnemonic, op)) :
    Statement i := by
  rw [Option.map_eq_some_iff] at hn
  obtain ⟨row, hr, hp⟩ := hn
  rw [Prod.mk.injEq] at hp
  exact ⟨row, List.mem_of_getElem? hr, hp.1, by rw [he, cwField_cwOf_op, hp.2]⟩

theorem mbPost (d : Dir) : Statement (.mbPost d) := of_row 0 rfl rfl
theorem mbFetch (d : Dir) : Statement (.mbFetch d) := of_row 1 rfl rfl
theorem mbEmpty (d : Dir) : Statement (.mbEmpty d) := of_row 2 rfl rfl
theorem fltClear : Statement .fltClear := of_row 3 rfl rfl
theorem fltSet (slot : BitVec 8) (ext : Bool) : Statement (.fltSet slot ext) := of_row 4 rfl rfl
theorem fltEn (n : Bool) : Statement (.fltEn n) := of_row 5 rfl rfl
theorem fltApply : Statement .fltApply := of_row 6 rfl rfl
theorem linPid (id : BitVec 6) : Statement (.linPid id) := of_row 7 rfl rfl
theorem linCks (k : CksKind) (len : BitVec 4) (seed : Byte) : Statement (.linCks k len seed) := of_row 8 rfl rfl
theorem linSend (id : BitVec 6) (len : BitVec 4) (c : Bool) (k : CksKind) (r : BrkKind) :
    Statement (.linSend id len c k r) := of_row 9 rfl rfl
theorem linXchg (id : BitVec 6) (len n : BitVec 4) (c : Bool) (k : CksKind) (r : BrkKind) :
    Statement (.linXchg id len n c k r) := of_row 10 rfl rfl
theorem linDiag : Statement .linDiag := of_row 11 rfl rfl
theorem linCycle : Statement .linCycle := of_row 12 rfl rfl
theorem actMark : Statement .actMark := of_row 13 rfl rfl
theorem csrRd (addr : CsrAddr) : Statement (.csrRd addr) := of_row 14 rfl rfl
theorem csrWr (addr : CsrAddr) : Statement (.csrWr addr) := of_row 15 rfl rfl

end Sys2Proof.Laws.OpcodeField
end

