-- ==== Sys2Proof/Laws/Pool.lean ====
section
/-! SUPPORT. What the micro-steps of MbEffect do to the pool: the references of a direction, its occupancy, its frames. -/

namespace Sys2Proof.Machine

open Sys2Proof Host

/-- The references that the ports other than the acting one hold. -/
def State.othersHeld (s : State) (d : Dir) : List Nat :=
  (s.ports.take s.cur).filterMap (fun P => P.phase.held d) ++ (s.ports.drop (s.cur + 1)).filterMap fun P => P.phase.held d

/-- The references of a direction are those of the FIFO, the one the acting port holds, and those the others hold. -/
theorem State.acting.refs_perm {s : State} {P : Port} (hP : s.acting P) (d : Dir) :
    (s.refs d).Perm ((P.phase.held d).toList ++ ((s.dir d).fifo ++ s.othersHeld d)) := by
  have hsplit : s.ports = s.ports.take s.cur ++ P :: s.ports.drop (s.cur + 1) := by
    obtain ⟨hl, he⟩ := List.getElem?_eq_some_iff.mp hP
    rw [← he, List.cons_getElem_drop_succ, List.take_append_drop]
  unfold State.refs State.othersHeld
  conv_lhs => rw [hsplit]
  rw [List.filterMap_append, List.filterMap_cons]
  cases P.phase.held d with
  | none => simp
  | some k =>
    simp only [Option.toList_some, List.singleton_append]
    exact (List.perm_middle.append_left _).trans List.perm_middle

/-- The others hold what they held. -/
theorem othersHeld_set {s t : State} {Q : Port} (hc : t.cur = s.cur) (hp : t.ports = s.ports.set s.cur Q) (d : Dir) :
    t.othersHeld d = s.othersHeld d := by
  unfold State.othersHeld
  rw [hc, hp, List.take_set_of_le (le_refl _), List.drop_set_of_lt (Nat.lt_succ_self _)]

/-- The pool invariants of one direction, over the references the acting port holds, the FIFO, and the others. -/
def poolOf (held : Option Nat) (D : DirStore) (others : List Nat) : Prop :=
  (held.toList ++ (D.fifo ++ others)).Nodup ∧ ∀ k, k ∈ held.toList ++ (D.fifo ++ others) ↔ D.occupied k

theorem State.acting.poolOk_iff {s : State} {P : Port} (hP : s.acting P) :
    s.poolOk ↔ ∀ d, poolOf (P.phase.held d) (s.dir d) (s.othersHeld d) := by
  unfold State.poolOk poolOf
  refine forall_congr' fun d => ?_
  have h := hP.refs_perm d
  rw [h.nodup_iff]
  exact and_congr_right fun _ => forall_congr' fun k => by rw [h.mem_iff]

theorem freeIdx_not_occupied {D : DirStore} {k : Nat} (h : D.freeIdx = some k) : ¬ D.occupied k ∧ k < D.slots.length := by
  rw [DirStore.freeIdx_eq_some] at h
  constructor
  · unfold DirStore.occupied; rw [h.1]; simp
  · by_contra hk
    have := h.1
    simp [List.getElem?_eq_none (Nat.le_of_not_lt hk)] at this

theorem DirStore.occupied.lt {D : DirStore} {k : Nat} (h : D.occupied k) : k < D.slots.length := by
  by_contra hk
  unfold DirStore.occupied at h
  simp [List.getElem?_eq_none (Nat.le_of_not_lt hk)] at h

/-- Every micro-step on the mailbox keeps the pool invariants (R25). -/
theorem MbEffect.poolOf {c : Cfg} {m m' : Mailbox} {P Q : Port} (h : MbEffect c m P Q m') (o : Dir → List Nat)
    (hp : ∀ d, poolOf (P.phase.held d) (m.get d) (o d)) (e : Dir) : poolOf (Q.phase.held e) (m'.get e) (o e) := by
  have he := hp e
  cases h with
  | same hh => rw [hh]; exact he
  | claim d k hk hP hQ =>
    rw [hQ e, Mailbox.get_set]
    rw [hP e] at he
    split
    · rename_i hed
      subst hed
      obtain ⟨hn, hl⟩ := freeIdx_not_occupied hk
      obtain ⟨h1, h2⟩ := he
      simp only [Option.toList_none, List.nil_append] at h1 h2
      refine ⟨?_, fun j => ?_⟩
      · simp only [Option.toList_some, List.singleton_append, List.nodup_cons]
        exact ⟨fun hm => hn ((h2 k).mp hm), h1⟩
      · rw [DirStore.mark_occupied, ← h2]
        simp only [Option.toList_some, List.singleton_append, List.mem_cons, DirStore.mark_fifo]
        by_cases hj : j = k <;> simp [hj, hl]
    · exact he
  | write d k hP hQ hf =>
    rw [hQ e, ← hP e, Mailbox.get_set]
    split
    · rename_i hed
      subst hed
      exact ⟨he.1, fun j => by rw [DirStore.write_occupied]; exact he.2 j⟩
    · exact he
  | push d k hl hP hQ =>
    rw [hQ e, Mailbox.get_set]
    rw [hP e] at he
    split
    · rename_i hed
      subst hed
      simp only [if_true] at he
      have hperm : (((m.get e).fifo ++ [k]) ++ o e).Perm (k :: ((m.get e).fifo ++ o e)) := by
        rw [List.append_assoc]; exact List.perm_middle
      refine ⟨?_, fun j => ?_⟩
      · simpa using hperm.nodup_iff.mpr he.1
      · rw [Option.toList_none, List.nil_append, hperm.mem_iff]; exact he.2 j
    · rename_i hed; rw [if_neg hed] at he; exact he
  | pop d k rest hk hP hQ =>
    rw [hQ e, Mailbox.get_set]
    rw [hP e] at he
    split
    · rename_i hed
      subst hed
      unfold Machine.poolOf at he ⊢
      rw [hk] at he
      exact he
    · exact he
  | release d k hP hQ =>
    rw [hQ e, Mailbox.get_set]
    rw [hP e] at he
    split
    · rename_i hed
      subst hed
      simp only [if_true] at he
      obtain ⟨h1, h2⟩ := he
      simp only [Option.toList_some, List.singleton_append, List.nodup_cons] at h1 h2
      refine ⟨by simpa using h1.2, fun j => ?_⟩
      rw [DirStore.mark_occupied, ← h2]
      simp only [Option.toList_none, List.nil_append, List.mem_cons, DirStore.mark_fifo]
      by_cases hj : j = k
      · subst hj; simpa using h1.1
      · simp [hj]
    · rename_i hed; rw [if_neg hed] at he; exact he
  | rollback d k hP hQ =>
    rw [hQ e, Mailbox.get_set]
    rw [hP e] at he
    split
    · rename_i hed
      subst hed
      simp only [if_true] at he
      obtain ⟨h1, h2⟩ := he
      simp only [Option.toList_some, List.singleton_append, List.nodup_cons] at h1 h2
      refine ⟨by simpa using h1.2, fun j => ?_⟩
      change _ ↔ ((m.get e).mark k .free).occupied j
      rw [DirStore.mark_occupied, ← h2]
      simp only [Option.toList_none, List.nil_append, List.mem_cons, DirStore.mark_fifo]
      by_cases hj : j = k
      · subst hj; simpa using h1.1
      · simp [hj]
    · rename_i hed; rw [if_neg hed] at he; exact he
  | drop d hk hP hQ =>
    rw [hQ e, ← hP e, Mailbox.get_set]
    split
    · rename_i hed; subst hed; exact he
    · exact he

/-- A micro-step keeps the pool invariants. -/
theorem ExecEffect.poolOk {i : Instr} {s t : State} {P Q : Port} (hP : s.acting P) (h : ExecEffect i s P t Q)
    (hp : s.poolOk) : t.poolOk := by
  have hQ : t.acting Q := by rw [State.acting_def, h.ports, h.cur]; simp [hP.lt]
  rw [hQ.poolOk_iff]
  rw [hP.poolOk_iff] at hp
  intro e
  rw [othersHeld_set h.cur h.ports]
  exact h.mb.poolOf _ hp e

end Sys2Proof.Machine
end

