-- ==== Sys2Proof/Laws/Units.lean ====
section
/-! SUPPORT. Which units a command leaves alone (R2): each command's frame over the mailbox, the filter packer, the engine and the
activity mark. -/

namespace Sys2Proof.Machine

open Sys2Proof Host

/-- The three units besides the mailbox are untouched. -/
def onlyMb (s t : State) : Prop := t.flt = s.flt ∧ t.lin = s.lin ∧ t.act = s.act

theorem execMbPost_units {d : Dir} {s t : State} (h : execMbPost d s = .next t) : onlyMb s t := by
  have p1 : ∀ (d : Dir) (u : State), onlyMb u (postP1 d u) := by
    intro d u; unfold postP1
    split
    · exact ⟨rfl, rfl, rfl⟩
    · rename_i k v hc; rw [State.claim_eq_some] at hc; obtain ⟨_, rfl⟩ := hc; exact ⟨rfl, rfl, rfl⟩
  have m1 : ∀ u : State, onlyMb u (postM1 u) := by
    intro u; unfold postM1
    split
    · exact ⟨rfl, rfl, rfl⟩
    · rename_i k v hc; rw [State.claim_eq_some] at hc; obtain ⟨_, rfl⟩ := hc; exact ⟨rfl, rfl, rfl⟩
  unfold execMbPost at h
  split at h <;> cases h
  · unfold postStart
    split
    · split
      · exact m1 s
      · exact p1 _ s
      · exact p1 _ s
    · exact ⟨rfl, rfl, rfl⟩
  · exact ⟨rfl, rfl, rfl⟩
  · unfold postM3
    split
    · rename_i v hc; rw [State.push_eq_some] at hc; obtain ⟨_, rfl⟩ := hc; exact ⟨rfl, rfl, rfl⟩
    · exact ⟨rfl, rfl, rfl⟩
  · exact p1 _ s
  · exact ⟨rfl, rfl, rfl⟩
  · unfold postP3
    split
    · rename_i v hc; rw [State.push_eq_some] at hc; obtain ⟨_, rfl⟩ := hc; exact ⟨rfl, rfl, rfl⟩
    · exact ⟨rfl, rfl, rfl⟩
  · exact ⟨rfl, rfl, rfl⟩

theorem execMbFetch_units {d : Dir} {s t : State} (h : execMbFetch d s = .next t) : onlyMb s t := by
  unfold execMbFetch at h
  split at h <;> cases h
  · unfold fetchF1
    split
    · exact ⟨rfl, rfl, rfl⟩
    · rename_i k v hc; rw [State.pop_eq_some] at hc; obtain ⟨_, _, rfl⟩ := hc; exact ⟨rfl, rfl, rfl⟩
  · exact ⟨rfl, rfl, rfl⟩
  · exact ⟨rfl, rfl, rfl⟩

/-- What a command that uses the engine leaves alone: the mailbox, the filter packer, the activity mark, the mode and the wake
line. -/
structure LinKept (s t : State) : Prop where
  mb : t.mb = s.mb
  flt : t.flt = s.flt
  act : t.act = s.act
  mode : t.lin.mode = s.lin.mode
  wake : t.lin.wake = s.lin.wake

theorem TxnKept.linKept {s u : State} (k : TxnKept s u) : LinKept s u := ⟨k.mb, k.flt, k.act, k.mode, k.wake⟩

theorem LinKept.trans {s t u : State} (h : LinKept s t) (k : LinKept t u) : LinKept s u :=
  ⟨by rw [k.mb, h.mb], by rw [k.flt, h.flt], by rw [k.act, h.act], by rw [k.mode, h.mode], by rw [k.wake, h.wake]⟩

theorem linCommand_kept {legal : Bool} {load body : State → State} (hl : ∀ u, LinKept u (load u)) {s t : State}
    (hb : LinKept s (body s)) (h : linCommand legal load body s = .next t) : LinKept s t := by
  have he : ∀ u : State, LinKept u (linEnter load u) := by
    intro u; unfold linEnter
    split
    · refine LinKept.trans ?_ (hl _)
      exact ⟨rfl, rfl, rfl, rfl, rfl⟩
    · exact ⟨rfl, rfl, rfl, rfl, rfl⟩
  unfold linCommand at h
  split at h <;> cases h
  · split
    · refine LinKept.trans ?_ (he _)
      exact ⟨rfl, rfl, rfl, rfl, rfl⟩
    · exact ⟨rfl, rfl, rfl, rfl, rfl⟩
  · exact he s
  · exact hb

theorem sendStep_kept (t : Txn) (s : State) : LinKept s (sendStep t s) := by
  unfold sendStep
  split <;> rename_i h
  · exact (txnStep_going h).linKept
  · exact (txnStep_ended h).linKept.trans ⟨rfl, rfl, rfl, rfl, rfl⟩

theorem xchgStep_kept (t : Txn) (s : State) : LinKept s (xchgStep t s) := by
  unfold xchgStep
  split <;> rename_i h
  · exact (txnStep_going h).linKept
  all_goals exact (txnStep_ended h).linKept.trans ⟨rfl, rfl, rfl, rfl, rfl⟩

theorem diagStep_kept (s : State) : LinKept s (diagStep s).state := by
  obtain ⟨u, h, e, _⟩ | ⟨u, ph, h, e, _⟩ | ⟨u, c, ph, _, h, e, _⟩ | ⟨e, _⟩ := diagStep_cases s <;> rw [e]
  · exact (txnStep_going h).linKept
  · exact (txnStep_ended h).linKept.trans ⟨rfl, rfl, rfl, rfl, rfl⟩
  · exact (txnStep_ended h).linKept
  · exact ⟨rfl, rfl, rfl, rfl, rfl⟩

theorem diagCommandStep_kept (s : State) : LinKept s (diagCommandStep s) := by
  have k := diagStep_kept s
  unfold diagCommandStep
  split <;> rename_i h <;> rw [h] at k
  · exact k
  all_goals exact LinKept.trans k ⟨rfl, rfl, rfl, rfl, rfl⟩

theorem cycleStep_kept (s : State) : LinKept s (cycleStep s) := by
  have hx : LinKept s (match s.lin.first with
      | none => cycleStatusStep s
      | some (c1, p1) => if s.lin.phase = .idle then startDiag s else cycleDiagStep c1 p1 s) := by
    split
    · unfold cycleStatusStep
      split <;> rename_i h
      · exact (txnStep_going h).linKept
      · exact (txnStep_ended h).linKept.trans ⟨rfl, rfl, rfl, rfl, rfl⟩
    · split
      · exact ⟨rfl, rfl, rfl, rfl, rfl⟩
      · have k := diagStep_kept s
        unfold cycleDiagStep
        split <;> rename_i h <;> rw [h] at k
        · exact k
        · exact LinKept.trans k ⟨rfl, rfl, rfl, rfl, rfl⟩
  unfold cycleStep
  split
  · exact ⟨rfl, rfl, rfl, rfl, rfl⟩
  · exact hx
  · exact hx

theorem startTxn_kept (id : BitVec 6) (data : List Byte) (u : State) : LinKept u (startTxn id data u) :=
  ⟨rfl, rfl, rfl, rfl, rfl⟩

/-- The four commands that use the engine. -/
def usesEngine : Instr → Bool
  | .linSend _ _ _ _ _ => true
  | .linXchg _ _ _ _ _ _ => true
  | .linDiag => true
  | .linCycle => true
  | _ => false

theorem exec_linKept {i : Instr} {s t : State} (hi : usesEngine i = true) (h : exec i s = .next t) : LinKept s t := by
  cases i <;> simp only [usesEngine, Bool.false_eq_true] at hi
  · rw [exec_linSend] at h
    exact linCommand_kept (fun u => startTxn_kept _ _ u) (sendStep_kept _ s) h
  · rw [exec_linXchg] at h
    exact linCommand_kept (fun u => startTxn_kept _ _ u) (xchgStep_kept _ s) h
  · rw [exec_linDiag] at h
    exact linCommand_kept (fun u => startTxn_kept _ _ u) (diagCommandStep_kept s) h
  · rw [exec_linCycle] at h
    exact linCommand_kept (load := armCycle) (fun _ => ⟨rfl, rfl, rfl, rfl, rfl⟩) (cycleStep_kept s) h

/-- What a command of one micro-step does outside its port: only the filter packer's commands, ACT.MARK and CSR.WR change
anything. -/
inductive OneEffect : Instr → State → State → Prop
  | none (i : Instr) (s t : State) (hm : t.mb = s.mb) (hf : t.flt = s.flt) (hl : t.lin = s.lin) (ha : t.act = s.act) :
      OneEffect i s t
  | fltClear (s t : State) (hm : t.mb = s.mb) (hl : t.lin = s.lin) (ha : t.act = s.act)
      (hf : t.flt = { s.flt with ents := List.replicate (2 * s.cfg.banks) FilterEntry.unused }) : OneEffect .fltClear s t
  | fltSet (slot : BitVec 8) (ext : Bool) (id : Word) (s t : State) (hm : t.mb = s.mb) (hl : t.lin = s.lin)
      (ha : t.act = s.act) (hok : fltSetLegal s.cfg slot.toNat ext id = true)
      (hf : t.flt = { s.flt with ents := s.flt.ents.set slot.toNat ⟨id, ext⟩ }) : OneEffect (.fltSet slot ext) s t
  | fltEn (n : Bool) (s t : State) (hm : t.mb = s.mb) (hl : t.lin = s.lin) (ha : t.act = s.act)
      (hf : t.flt = { s.flt with enabled := n }) : OneEffect (.fltEn n) s t
  | fltApply (s t : State) (hm : t.mb = s.mb) (hl : t.lin = s.lin) (ha : t.act = s.act)
      (hf : t.flt = s.flt.applied s.cfg) : OneEffect .fltApply s t
  | actMark (s t : State) (hm : t.mb = s.mb) (hf : t.flt = s.flt) (hl : t.lin = s.lin)
      (ha : t.act = ⟨s.env.now, true⟩) : OneEffect .actMark s t
  | mode (v : Byte) (s t : State) (hm : t.mb = s.mb) (hf : t.flt = s.flt) (ha : t.act = s.act)
      (hl : t.lin = { s.lin with mode := v }) : OneEffect (.csrWr 0x0020) s t
  | wake (v : Bool) (s t : State) (hm : t.mb = s.mb) (hf : t.flt = s.flt) (ha : t.act = s.act)
      (hl : t.lin = { s.lin with wake := v }) : OneEffect (.csrWr 0x0024) s t

/-- The one-step commands, as opposed to MB.POST, MB.FETCH and the commands that use the engine. -/
def isOneStep : Instr → Bool
  | .mbPost _ => false
  | .mbFetch _ => false
  | i => !usesEngine i

theorem exec_oneEffect {i : Instr} {s t : State} (hi : isOneStep i = true) (h : exec i s = .next t) : OneEffect i s t := by
  cases i <;> simp only [isOneStep, usesEngine, Bool.not_true, Bool.false_eq_true] at hi
  · rw [exec_mbEmpty, State.oneStep_eq_next] at h; obtain ⟨_, rfl⟩ := h; exact .none _ _ _ rfl rfl rfl rfl
  · rw [exec_fltClear, State.oneStep_eq_next] at h; obtain ⟨_, rfl⟩ := h; exact .fltClear _ _ rfl rfl rfl rfl
  · rw [exec_fltSet, State.oneStep_eq_next] at h
    obtain ⟨_, rfl⟩ := h
    split
    · rename_i hok; exact .fltSet _ _ s.me.lat.w0 _ _ rfl rfl rfl hok rfl
    · exact .none _ _ _ rfl rfl rfl rfl
  · rw [exec_fltEn, State.oneStep_eq_next] at h; obtain ⟨_, rfl⟩ := h; exact .fltEn _ _ _ rfl rfl rfl rfl
  · rw [exec_fltApply, State.oneStep_eq_next] at h; obtain ⟨_, rfl⟩ := h; exact .fltApply _ _ rfl rfl rfl rfl
  · rw [exec_linPid, State.oneStep_eq_next] at h; obtain ⟨_, rfl⟩ := h; exact .none _ _ _ rfl rfl rfl rfl
  · rw [exec_linCks, State.oneStep_eq_next] at h
    obtain ⟨_, rfl⟩ := h
    split <;> exact .none _ _ _ rfl rfl rfl rfl
  · rw [exec_actMark, State.oneStep_eq_next] at h; obtain ⟨_, rfl⟩ := h; exact .actMark _ _ rfl rfl rfl rfl
  · rw [exec_csrRd, State.oneStep_eq_next] at h
    obtain ⟨_, rfl⟩ := h
    split <;> exact .none _ _ _ rfl rfl rfl rfl
  · rw [exec_csrWr, State.oneStep_eq_next] at h
    obtain ⟨_, rfl⟩ := h
    split
    · rename_i u hu
      unfold State.csrWrite at hu
      split at hu
      · rename_i ha; subst ha; cases hu; exact .mode _ _ _ rfl rfl rfl rfl
      · split at hu
        · rename_i ha; subst ha; cases hu; exact .wake _ _ _ rfl rfl rfl rfl
        · cases hu
    · exact .none _ _ _ rfl rfl rfl rfl

end Sys2Proof.Machine
end

