-- ==== Sys2Proof/Laws/Progress.lean ====
section
/-! SUPPORT. Where a transaction can be, and that each of its steps goes on from there or ends it with an outcome of R271. -/

namespace Sys2Proof.Machine

open Sys2Proof Host

/-- An engine inside a transaction `t`: R213's phases, each with its progress. -/
def Lin.inTxn (t : Txn) (l : Lin) : Prop :=
  l.lf.ok ∧
  match l.phase with
  | .idle => False
  | .brk => True
  | .resp => t.resp.isSome = true
  | .validate => t.resp.isSome = true ∧ l.rx.length = t.respLen + 1
  | _ => l.idx < (wireBytes t l.lf).length ∧ l.phase = phaseOf l.lf.data.length l.idx

/-- How a transaction `t` can end. -/
def txnOutcome (t : Txn) (c : Status) (ph : LinPhase) : Prop :=
  sendOutcome c ph ∨ (t.resp.isSome = true ∧ ((c = .timeout ∧ ph = .resp) ∨ (c = .checksumMismatch ∧ ph = .validate)))

@[simp] theorem wireBytes_length (t : Txn) (lf : LinFrame) :
    (wireBytes t lf).length = 2 + lf.data.length + (if t.cksEn then 1 else 0) := by
  unfold wireBytes
  cases t.cksEn <;> simp <;> omega

theorem phaseOf_cases (n j : Nat) : phaseOf n j = .sync ∨ phaseOf n j = .pid ∨ phaseOf n j = .data ∨ phaseOf n j = .cks := by
  unfold phaseOf; split_ifs <;> simp

/-- In a byte phase the transaction writes byte `idx` of `W`. -/
theorem Lin.inTxn.write {t : Txn} {l : Lin} (h : l.inTxn t)
    (hp : l.phase = .sync ∨ l.phase = .pid ∨ l.phase = .data ∨ l.phase = .cks) :
    l.lf.ok ∧ l.idx < (wireBytes t l.lf).length ∧ l.phase = phaseOf l.lf.data.length l.idx := by
  obtain ⟨h1, h2⟩ := h
  rcases hp with hp | hp | hp | hp <;> rw [hp] at h2 <;> exact ⟨h1, h2.1, hp.trans h2.2⟩

theorem Lin.inTxn.of_write {t : Txn} {l : Lin} (h1 : l.lf.ok) (h2 : l.idx < (wireBytes t l.lf).length)
    (h3 : l.phase = phaseOf l.lf.data.length l.idx) : l.inTxn t := by
  refine ⟨h1, ?_⟩
  rcases phaseOf_cases l.lf.data.length l.idx with hp | hp | hp | hp <;> rw [h3.trans hp] <;> exact ⟨h2, hp.symm⟩

theorem txnRemaining_write (t : Txn) {l : Lin} (hp : l.phase = .sync ∨ l.phase = .pid ∨ l.phase = .data ∨ l.phase = .cks) :
    txnRemaining t l = (wireBytes t l.lf).length - l.idx + 2 := by
  unfold txnRemaining
  rcases hp with hp | hp | hp | hp <;> rw [hp]

/-- What one step of a transaction can do: it goes on, nearer its end, or it ends with an outcome of its own. -/
def TxnProgress (t : Txn) (s : State) (r : TxnStep) : Prop :=
  (∃ u, r = .going u ∧ u.lin.inTxn t ∧ txnRemaining t u.lin < txnRemaining t s.lin)
  ∨ ∃ u c ph, r = .ended u c ph ∧ txnOutcome t c ph ∧ (c = .ok → ph = .idle ∧
      (t.resp.isSome = true → s.lin.phase = .validate ∧ u = s))

/-- Where byte `j` is next. -/
theorem afterByte_progress {t : Txn} {j : Nat} {s u : State} (hok : u.lin.lf.ok)
    (hr : (wireBytes t u.lin.lf).length - j + 2 < txnRemaining t s.lin) : TxnProgress t s (afterByte t j u) := by
  unfold afterByte
  split
  · rename_i hlt
    refine .inl ⟨_, rfl, Lin.inTxn.of_write hok hlt rfl, ?_⟩
    rw [txnRemaining_write t (phaseOf_cases _ _)]
    exact hr
  · rename_i hge
    split
    · rename_i n hn
      refine .inl ⟨_, rfl, ⟨hok, by simp [State.updLin, hn]⟩, ?_⟩
      show 2 < txnRemaining t s.lin
      omega
    · rename_i hn
      exact .inr ⟨_, _, _, rfl, .inl (.inl ⟨rfl, rfl⟩), fun _ => ⟨rfl, by simp [hn]⟩⟩

theorem State.linWriteByte_lin (s : State) (b : Byte) :
    ∃ w, (s.linWriteByte b).2.lin = { s.lin with wire := w } := by
  obtain ⟨as, n, hk⟩ := s.takeAnswer_spec
  unfold State.linWriteByte
  split
  rename_i a v hv
  rw [hv] at hk
  dsimp only at hk ⊢
  subst hk
  split
  · exact ⟨_, rfl⟩
  · exact ⟨s.lin.wire, rfl⟩

theorem State.linBreak_lin (s : State) (r : BrkKind) : ∃ w, (s.linBreak r).2.lin = { s.lin with wire := w } := by
  obtain ⟨as, n, hk⟩ := s.takeAnswer_spec
  unfold State.linBreak
  exact ⟨_, by simp only [hk]; rfl⟩

theorem State.linRead_lin (s : State) (n : Nat) :
    ∃ w, (s.linRead n).2.lin = { s.lin with wire := w } := by
  obtain ⟨as, m, hk⟩ := s.takeAnswer_spec
  unfold State.linRead
  exact ⟨_, by simp only [hk]; rfl⟩

theorem State.linRead_length {s u : State} {n : Nat} {w : List Byte} (h : s.linRead n = (some w, u)) : w.length = n := by
  unfold State.linRead at h
  simp only [Prod.mk.injEq] at h
  have h := h.1
  split at h
  · rename_i hl; cases h; exact hl
  · cases h

/-- R202, R213: every step of a transaction goes on or ends it. -/
theorem txnStep_progress {t : Txn} {s : State} (h : s.lin.inTxn t) : TxnProgress t s (txnStep t s) := by
  have hw : (s.lin.phase = .sync ∨ s.lin.phase = .pid ∨ s.lin.phase = .data ∨ s.lin.phase = .cks) →
      TxnProgress t s (writeStep t s) := by
    intro hp
    obtain ⟨h1, h2, h3⟩ := h.write hp
    obtain ⟨w, hl⟩ := s.linWriteByte_lin ((wireBytes t s.lin.lf).getD s.lin.idx 0)
    unfold writeStep
    split <;> rename_i u hu <;> rw [hu] at hl <;> dsimp only at hl
    · refine afterByte_progress (by rw [hl]; exact h1) ?_
      rw [hl, txnRemaining_write t hp]
      dsimp only
      omega
    · refine .inr ⟨_, _, _, rfl, .inl (.inr ⟨rfl, .inr ?_⟩), by simp⟩
      exact phaseOf_cases _ _
  obtain ⟨hok, hm⟩ := id h
  unfold txnStep
  cases hp : s.lin.phase with
  | idle => rw [hp] at hm; exact hm.elim
  | brk =>
    simp only
    obtain ⟨w, hl⟩ := s.linBreak_lin t.brk
    unfold breakStep
    split <;> rename_i u hu <;> rw [hu] at hl <;> dsimp only at hl
    · refine afterByte_progress ?_ ?_
      · simp only [State.updLin_lin]; rw [hl]; exact hok
      · simp only [State.updLin_lin, wireBytes_length]
        rw [hl]
        simp only [txnRemaining, hp, wireBytes_length]
        omega
    · exact .inr ⟨_, _, _, rfl, .inl (.inr ⟨rfl, .inl rfl⟩), by simp⟩
  | sync => exact hw (by simp [hp])
  | pid => exact hw (by simp [hp])
  | data => exact hw (by simp [hp])
  | cks => exact hw (by simp [hp])
  | resp =>
    rw [hp] at hm
    obtain ⟨w, hl⟩ := s.linRead_lin (t.respLen + 1)
    simp only
    unfold respStep
    split
    · rename_i v u hu
      rw [hu] at hl
      dsimp only at hl
      refine .inl ⟨_, rfl, ⟨?_, ?_⟩, ?_⟩
      · simp only [State.updLin_lin]; rw [hl]; exact hok
      · exact ⟨hm, State.linRead_length hu⟩
      · simp [txnRemaining, hp]
    · exact .inr ⟨_, _, _, rfl, .inr ⟨hm, .inl ⟨rfl, rfl⟩⟩, by simp⟩
  | validate =>
    rw [hp] at hm
    simp only
    unfold validateStep
    split
    · exact .inr ⟨_, _, _, rfl, .inl (.inl ⟨rfl, rfl⟩), fun _ => ⟨rfl, fun _ => ⟨hp, rfl⟩⟩⟩
    · exact .inr ⟨_, _, _, rfl, .inr ⟨hm.1, .inr ⟨rfl, rfl⟩⟩, by simp⟩

end Sys2Proof.Machine
end

