-- ==== Sys2Proof/Laws/Step.lean ====
section
/-! SUPPORT. What a step can do, said once: the inversion lemma of `step`. -/

namespace Sys2Proof.Machine

open Sys2Proof Host

/-- Taking an event from the script touches the script and the count of free values only. -/
theorem State.nextEvent_spec (s : State) :
    ∃ sc n, s.nextEvent.2 = { s with env := { s.env with script := sc, drawn := n } } := by
  unfold State.nextEvent
  cases h : s.env.script with
  | nil => exact ⟨[], s.env.drawn + 1, by simp [← h]⟩
  | cons e rest => exact ⟨rest, s.env.drawn, rfl⟩

@[simp] theorem State.nextEvent_cfg (s : State) : s.nextEvent.2.cfg = s.cfg := by
  obtain ⟨sc, n, h⟩ := s.nextEvent_spec; rw [h]
@[simp] theorem State.nextEvent_cur (s : State) : s.nextEvent.2.cur = s.cur := by
  obtain ⟨sc, n, h⟩ := s.nextEvent_spec; rw [h]
@[simp] theorem State.nextEvent_ports (s : State) : s.nextEvent.2.ports = s.ports := by
  obtain ⟨sc, n, h⟩ := s.nextEvent_spec; rw [h]
@[simp] theorem State.nextEvent_mb (s : State) : s.nextEvent.2.mb = s.mb := by
  obtain ⟨sc, n, h⟩ := s.nextEvent_spec; rw [h]
@[simp] theorem State.nextEvent_flt (s : State) : s.nextEvent.2.flt = s.flt := by
  obtain ⟨sc, n, h⟩ := s.nextEvent_spec; rw [h]
@[simp] theorem State.nextEvent_lin (s : State) : s.nextEvent.2.lin = s.lin := by
  obtain ⟨sc, n, h⟩ := s.nextEvent_spec; rw [h]
@[simp] theorem State.nextEvent_act (s : State) : s.nextEvent.2.act = s.act := by
  obtain ⟨sc, n, h⟩ := s.nextEvent_spec; rw [h]
@[simp] theorem State.nextEvent_now (s : State) : s.nextEvent.2.env.now = s.env.now := by
  obtain ⟨sc, n, h⟩ := s.nextEvent_spec; rw [h]
@[simp] theorem State.nextEvent_answers (s : State) : s.nextEvent.2.env.answers = s.env.answers := by
  obtain ⟨sc, n, h⟩ := s.nextEvent_spec; rw [h]

/-- What one step can do, given the event `e` and the state `u` without it. -/
inductive StepEffect (e : Event) (u t : State) : Prop
  /-- A scheduled port takes a micro-step of the command it presents. -/
  | run (p : Nat) (P : Port) (i : Instr) (he : e = .port p) (hp : u.ports[p]? = some P) (hr : P.req = true)
      (hd : decode P.cw = .ok i) (hx : exec i { u with cur := p } = .next t)
  /-- An illegal command word ends (R95). -/
  | illegal (p : Nat) (P : Port) (he : e = .port p) (hp : u.ports[p]? = some P) (hr : P.req = true)
      (hd : ∀ i, decode P.cw ≠ .ok i) (hph : P.phase = .ready)
      (ht : t = { u with cur := p }.withPort (P.ended .illegalCmd .idle P.r))
  /-- A port without a command is scheduled, or a number that names no port. -/
  | idle (p : Nat) (he : e = .port p) (hp : ∀ P, u.ports[p]? = some P → P.req = false) (ht : t = u)
  | write (p : Nat) (i : Fin 4) (v : Word) (he : e = .write p i v) (ht : t = u.userWrite p i v)
  | present (p : Nat) (w : Word) (he : e = .present p w) (ht : t = u.userPresent p w)
  | clock (n : Nat) (he : e = .clock n) (ht : t = u.advance n)
  | reset (he : e = .reset) (ht : t = u.assertReset)

/-- The inversion lemma of `step`. -/
theorem step_cases {s t : State} (h : step s = .next t) : StepEffect s.nextEvent.1 s.nextEvent.2 t := by
  unfold step eventStep at h
  generalize s.nextEvent.1 = e at *
  generalize s.nextEvent.2 = u at *
  cases e with
  | port p =>
    simp only at h
    unfold portStep at h
    split at h
    · rename_i hn
      cases h
      exact .idle p rfl (by simp [hn]) rfl
    · rename_i P hp
      split at h
      · rename_i hr
        split at h
        · rename_i i hd
          exact .run p P i rfl hp hr hd h
        · rename_i er hd
          split at h
          · rename_i hph
            cases h
            have ha : State.acting { u with cur := p } P := hp
            exact .illegal p P rfl hp hr (by simp [hd]) hph (ha.endCmd .illegalCmd .idle)
          · cases h
      · rename_i hr
        cases h
        exact .idle p rfl (fun Q hQ => by rw [hp] at hQ; cases hQ; simpa using hr) rfl
  | write p i v => cases h; exact .write p i v rfl rfl
  | present p w => cases h; exact .present p w rfl rfl
  | clock n => cases h; exact .clock n rfl rfl
  | reset => cases h; exact .reset rfl rfl

end Sys2Proof.Machine
end

