-- ==== Sys2Proof/Tests/Slice0.lean ====
section
/-! SUPPORT. Tests: ill-formed terms refused, words of 30_encoding.md and 95_test_vectors.md decoded, one-step tests with values of
the spec's vectors, and for every statement with hypotheses a state and operands that meet them. -/

namespace Sys2Proof.Tests

open Sys2Proof Sys2Proof.Machine Host

/-! ### Helpers -/

/-- The state of a step's answer; the reset state where it gave none. -/
def after : Outcome State Fault Refusal → State
  | .next t => t
  | .fault _ => State.reset
  | .refused _ => State.reset

/-- Port 0 of the reset state is `P`. -/
def at0 (P : Port) : State := { State.reset with ports := State.reset.ports.set 0 P }

/-- A READY port with operand registers `q` and a command presented with them. -/
def rdy (q : Quad) : Port := { Port.reset with a := q, req := true, lat := q }

/-- The outcome of a command of port 0 that starts from READY with operand registers `q`. -/
def run (i : Instr) (q : Quad) : State := after (exec i (at0 (rdy q)))

/-- An engine that port 0 owns, in a phase. -/
def busy (ph : LinPhase) : Lin := { Lin.reset with owner := some 0, phase := ph }

/-- Port 0 in `L_RUN` with an engine `l` and answers `as`. -/
def running (l : Lin) (as : List LinAnswer) : State :=
  { at0 { rdy Quad.zero with phase := .lRun } with lin := l, env := { Env.reset with answers := as } }

/-! ### WellFormed: each check refuses an ill-formed term (R94, R95 (c)) -/

theorem test_wf_linCks_length_9 : (Instr.linCks .classic 9 0).wf = false := by decide
theorem test_wf_linSend_length_9 : (Instr.linSend 1 9 true .enhanced .brkA).wf = false := by decide
theorem test_wf_linXchg_length_9 : (Instr.linXchg 0x11 9 5 false .enhanced .brkA).wf = false := by decide
theorem test_wf_linXchg_response_9 : (Instr.linXchg 0x11 0 9 false .enhanced .brkA).wf = false := by decide
theorem test_wf_linXchg_longest : (Instr.linXchg 0x11 8 8 true .enhanced .brkB).wf = true := by decide

/-! ### Decoding: words of V-E and of the assembly vectors (95_test_vectors.md, section 4), one for every command -/

theorem test_decode_mbPost : decode 0x10010000 = .ok (.mbPost .tx) := by decide
theorem test_decode_mbFetch : decode 0x11020000 = .ok (.mbFetch .usb) := by decide
theorem test_decode_mbEmpty : decode 0x12010000 = .ok (.mbEmpty .tx) := by decide
theorem test_decode_fltClear : decode 0x20000000 = .ok .fltClear := by decide
theorem test_decode_fltSet : decode 0x21060100 = .ok (.fltSet 6 true) := by decide
theorem test_decode_fltEn : decode 0x22000001 = .ok (.fltEn true) := by decide
theorem test_decode_fltApply : decode 0x23000000 = .ok .fltApply := by decide
theorem test_decode_linPid : decode 0x3000003F = .ok (.linPid 0x3F) := by decide
theorem test_decode_linCks : decode 0x310105C1 = .ok (.linCks .enhanced 5 0xC1) := by decide
theorem test_decode_linSend : decode 0x32030501 = .ok (.linSend 1 5 true .enhanced .brkA) := by decide
theorem test_decode_linSend_brkB : decode 0x32040501 = .ok (.linSend 1 5 false .classic .brkB) := by decide
theorem test_decode_linXchg : decode 0x3303822A = .ok (.linXchg 0x2A 2 8 true .enhanced .brkA) := by decide
theorem test_decode_linDiag : decode 0x34000000 = .ok .linDiag := by decide
theorem test_decode_linCycle : decode 0x35000000 = .ok .linCycle := by decide
theorem test_decode_actMark : decode 0x40000000 = .ok .actMark := by decide
theorem test_decode_csrRd : decode 0x50000022 = .ok (.csrRd 0x0022) := by decide
theorem test_decode_csrWr : decode 0x51000020 = .ok (.csrWr 0x0020) := by decide

/-- V-E2 to V-E20, the illegal ones: each is refused. -/
theorem test_decode_illegal_fields :
    ([0x10030000, 0x10040000, 0x10000001, 0x11030000, 0x12800000, 0x21000200, 0x22000002, 0x30000040, 0x31000900,
      0x31020000, 0x32080000, 0x32030901, 0x32030541] : List Nat).map (decodeTableWord 32) = List.replicate 13 none := by
  decide

/-- V-E23 to V-E32, the illegal ones. -/
theorem test_decode_illegal_more :
    ([0x33029011, 0x34000001, 0x35000100, 0x40000001, 0x50010022, 0x00000000, 0xFFFFFFFF, 0x13000000, 0x14000000,
      0x24000000, 0x36000000, 0x41000000, 0x52000000] : List Nat).map (decodeTableWord 32) = List.replicate 13 none := by
  decide

theorem test_decode_reserved_bit_by_name : decode 0x22000002 = .error .reservedBits := by decide
theorem test_decode_direction_by_name : decode 0x10030000 = .error .badDirection := by decide
theorem test_decode_length_by_name : decode 0x31000900 = .error .badLength := by decide
theorem test_decode_op_by_name : decode 0x13000000 = .error (.unknownOp 0x13) := by decide

/-- The assembly vector of `mb.post tx, 0x18DAF110 ext, [01 .. 08]`. -/
theorem test_assemble_mbPost : (AsmLine.mbPost .tx 0x18DAF110 true [1, 2, 3, 4, 5, 6, 7, 8]).assemble =
    ⟨0x10010000, some 0x98DAF110, some 8, some 0x04030201, some 0x08070605⟩ := by decide

/-! ### The arithmetic: golden tables T1 and T2 -/

/-- T1, its first two rows. -/
theorem test_pid_golden_first : (List.range 16).map (fun i => pid (BitVec.ofNat 6 i)) =
    [0x80, 0xC1, 0x42, 0x03, 0xC4, 0x85, 0x06, 0x47, 0x08, 0x49, 0xCA, 0x8B, 0x4C, 0x0D, 0x8E, 0xCF] := by decide

/-- T1, its last two rows. -/
theorem test_pid_golden_last : (List.range 16).map (fun i => pid (BitVec.ofNat 6 (0x30 + i))) =
    [0xF0, 0xB1, 0x32, 0x73, 0xB4, 0xF5, 0x76, 0x37, 0x78, 0x39, 0xBA, 0xFB, 0x3C, 0x7D, 0xFE, 0xBF] := by decide

/-- T2, rows 1, 3, 8, 10, 14, 22. -/
theorem test_cks_golden : [cks .classic 0 [], cks .classic 0 [0xFF, 0xFF], cks .classic 0 [0xFE, 0x02],
    cks .classic 0 [0x4A, 0x55, 0x93, 0xE5], cks .enhanced 0xBF (List.replicate 8 0xFF), cks .enhanced 0x6A [0xAA, 0xBB]] =
    [0xFF, 0x00, 0xFE, 0xE6, 0x40, 0x2F] := by decide

/-! ### Mailbox commands -/

/-- V-M5: a standard identifier wider than 11 bits. -/
theorem test_mbPost_illegal : (run (.mbPost .rx) ⟨0x800, 0, 0, 0⟩).me.st = 6 := by decide

/-- PRG4 (A) and V-M2: with every slot claimed the post ends Full and the drop is counted. -/
theorem test_mbPost_full :
    let t := after (exec (.mbPost .rx) { at0 (rdy ⟨0x104, 1, 0xA4, 0⟩) with
      mb := { Mailbox.reset Cfg.reference with rx := ⟨List.replicate 4 ⟨.occupied, Frame.reset⟩, [0, 1, 2, 3], 0⟩ } })
    t.me.st = 1 ∧ t.mb.rx.drops = 1 ∧ t.mb.rx.fifo = [0, 1, 2, 3] := by decide

/-- V-M4: Empty. -/
theorem test_mbFetch_empty : (run (.mbFetch .rx) Quad.zero).me.st = 2 := by decide

/-- V-M6: the widest legal frame comes back as it was posted. -/
theorem test_mbFetch_delivers :
    (after (exec (.mbFetch .rx) (at0 { rdy Quad.zero with
      phase := .fPopped .rx 0 (some ⟨0x1FFFFFFF, true, [1, 2, 3, 4, 5, 6, 7, 8]⟩) }))).me.r =
      ⟨0x9FFFFFFF, 8, 0x04030201, 0x08070605⟩ := by decide

/-- V-M4. -/
theorem test_mbEmpty : (run (.mbEmpty .rx) Quad.zero).me.r.w0 = 1 := by decide

/-! ### Filter packer -/

/-- The entries of V-F1. -/
def entsF1 : List FilterEntry :=
  [⟨0x100, false⟩, ⟨0, false⟩, ⟨0, false⟩, ⟨0, false⟩, ⟨0, false⟩, ⟨0, false⟩, ⟨0x200, true⟩]
    ++ List.replicate 21 FilterEntry.unused

/-- The reset state with given entries and flag, port 0 READY with operands `q`. -/
def fltState (ents : List FilterEntry) (on : Bool) (q : Quad) : State :=
  { at0 (rdy q) with flt := { Filter.reset Cfg.reference with ents := ents, enabled := on } }

theorem test_fltClear : (after (exec .fltClear (fltState entsF1 true Quad.zero))).flt.ents =
    List.replicate 28 ⟨0, false⟩ := by decide

/-- V-E7, V-F1. -/
theorem test_fltSet : (run (.fltSet 6 true) ⟨0x200, 0, 0, 0⟩).flt.ent 6 = ⟨0x200, true⟩ := by decide

/-- V-F9: index 28, a standard identifier over 11 bits, an extended one over 29, and the largest legal one. -/
theorem test_fltSet_errors : [(run (.fltSet 28 false) ⟨1, 0, 0, 0⟩).me.st, (run (.fltSet 0 false) ⟨0x800, 0, 0, 0⟩).me.st,
    (run (.fltSet 0 true) ⟨0x20000000, 0, 0, 0⟩).me.st, (run (.fltSet 0 true) ⟨0x1FFFFFFF, 0, 0, 0⟩).me.st] =
    [5, 5, 5, 0] := by decide

theorem test_fltEn : (run (.fltEn true) Quad.zero).flt.enabled = true := by decide

/-- V-F1: pair 3 goes to bank 1. -/
theorem test_fltApply_dense :
    let f := (after (exec .fltApply (fltState entsF1 true Quad.zero))).flt
    f.nActive = 2 ∧ (f.banks.take 2).map (fun b => (b.cfgWord, b.reg1, b.reg2)) =
      [(0x00000007, 0x20000000, 0), (0x00000107, 0x00001004, 0)] := by decide

/-- V-F2: disabled, the entries stay and bank 1 is inactive again. -/
theorem test_fltApply_disabled :
    let f := (after (exec .fltApply (fltState entsF1 false Quad.zero))).flt
    f.nActive = 1 ∧ (f.banks.take 2).map (fun b => (b.cfgWord, b.reg1, b.reg2)) = [(5, 0, 0), (0, 0, 0)] := by decide

/-! ### LIN -/

/-- E2. -/
theorem test_linPid : (run (.linPid 1) Quad.zero).me.r.w0 = 0xC1 := by decide

/-- E3, V-E13. -/
theorem test_linCks : (run (.linCks .enhanced 5 0xC1) ⟨1, 0, 0x00010830, 0⟩).me.r.w0 = 5 := by decide

/-- V-L9: a break that is not confirmed. -/
theorem test_linSend_noConfirm :
    let t := after (exec (.linSend 1 5 true .enhanced .brkA) (running (busy .brk) [⟨false, []⟩]))
    t.me.st = 0x13 ∧ t.lin.wire = [.brk .brkA false] ∧ t.lin.owner = none := by decide

/-- V-L1, its last step: the checksum byte `05` goes out. -/
theorem test_linSend_checksum :
    let t := after (exec (.linSend 1 5 true .enhanced .brkA)
      (running { busy .cks with lf := ⟨1, 5, [0x30, 0x08, 0x01, 0, 0], 0xC1, 0x05⟩, idx := 7 } [⟨true, []⟩]))
    t.me.st = 0 ∧ t.lin.wire = [.tx 0x05] ∧ t.lin.phase = .idle := by decide

/-- V-L20: a valid response. -/
theorem test_linXchg_valid :
    (after (exec (.linXchg 0x11 0 5 false .enhanced .brkA)
      (running { busy .validate with lf := ⟨0x11, 0, [], 0x11, 0⟩, rx := [0x30, 0x08, 0x01, 0, 0, 0xB5] } []))).me.r =
      ⟨0xB5, 5, 0x00010830, 0⟩ := by decide

/-- V-L25: a Classic checksum does not validate as Enhanced. -/
theorem test_linXchg_mismatch :
    (after (exec (.linXchg 0x11 0 5 false .enhanced .brkA)
      (running { busy .validate with lf := ⟨0x11, 0, [], 0x11, 0⟩, rx := [0x30, 0x08, 0x01, 0, 0, 0xC6] } []))).me.st =
      0x74 := by decide

/-- V-L30: the telemetry update. -/
theorem test_linDiag_telemetry :
    (after (exec .linDiag
      (running { busy .validate with lf := ⟨0x11, 0, [], 0x11, 0⟩, rx := [0x31, 0x7F, 0, 0, 0, 0x3E] } []))).lin.telemWord =
      0x00007F01 := by decide

/-- V-L31: a bad checksum leaves the telemetry as it was. -/
theorem test_linDiag_mismatch :
    let t := after (exec .linDiag (running { busy .validate with
      lf := ⟨0x11, 0, [], 0x11, 0⟩, rx := [0x30, 0x08, 0x01, 0, 0, 0], moving := true, position := 0x7F } []))
    t.lin.telemWord = 0x00007F01 ∧ t.me.st = 0x74 := by decide

/-- V-L41: the first status frame after reset with mode 0x25. -/
theorem test_linCycle_status_frame :
    let t := after (exec .linCycle (running { busy .brk with stage := .frame, mode := 0x25 } []))
    t.lin.counter = 1 ∧ t.lin.lf.data = [0x21, 0x05] ∧ t.lin.lf.pid = 0x50 := by decide

/-- V-L44: both breaks unconfirmed, the last step. -/
theorem test_linCycle_both_fail :
    let t := after (exec .linCycle (running { busy .brk with first := some (.timeout, .brk) } [⟨false, []⟩]))
    t.me.r.w0 = 0x00001313 ∧ t.me.st = 0x13 ∧ t.lin.owner = none := by decide

/-! ### System -/

/-- V-S2. -/
theorem test_actMark : (after (exec .actMark { at0 (rdy Quad.zero) with env := { Env.reset with now := 5000 } })).act =
    ⟨5000, true⟩ := by decide

/-- V-S3 to V-S5: the window, its end, and the wrap of the clock. -/
theorem test_liveness :
    [({ State.reset with act := ⟨5000, true⟩, env := { Env.reset with now := 6000 } } : State).activeWord,
     ({ State.reset with act := ⟨5000, true⟩, env := { Env.reset with now := 6001 } } : State).activeWord,
     ({ State.reset with act := ⟨0xFFFFFF00, true⟩, env := { Env.reset with now := 0x2E8 } } : State).activeWord,
     ({ State.reset with act := ⟨0xFFFFFF00, true⟩, env := { Env.reset with now := 0x2E9 } } : State).activeWord] =
    [3, 2, 3, 2] := by decide

/-- V-S6, V-S7: the edges of the map. -/
theorem test_csrRd_map :
    ([0x0010, 0x011B, 0x0334, 0x0026, 0x0033, 0x011C, 0x0303, 0x0337, 0x0338, 0xFFFF] : List CsrAddr).map
      (fun a => (run (.csrRd a) Quad.zero).me.st) = [0, 0, 0, 6, 6, 6, 6, 6, 6, 6] := by decide

/-- V-S8. -/
theorem test_csrWr_mode : (run (.csrWr 0x0020) ⟨0xFFFFFFFF, 0, 0, 0⟩).lin.mode = 0xFF := by decide

/-- V-S10: read-only and unmapped. -/
theorem test_csrWr_readOnly :
    ([0x0021, 0x0010, 0x0100, 0x0042] : List CsrAddr).map (fun a => (run (.csrWr a) Quad.zero).me.st) = [6, 6, 6, 6] := by
  decide

/-! ### The step -/

/-- A word put where the step fetches runs as the first command after reset. -/
theorem test_step_runs_first_word : (after (step (State.reset.withFetchWord 32 0x30000001))).me.r.w0 = 0xC1 := by decide

/-- V-E30: the all-zero word. -/
theorem test_step_illegal_word : (after (step (State.reset.withFetchWord 32 0))).me.st = 6 := by decide

/-- R90, R92, D1: the operands are those of the presentation, and a later write of `A1` does not change them. -/
theorem test_present_takes_operands :
    let s := (at0 { Port.reset with a := ⟨0x123, 2, 0x2211, 0⟩ }).userPresent 0 0x10000000
    (s.userWrite 0 1 9).me.a.w1 = 9 ∧ (s.userWrite 0 1 9).me.lat = ⟨0x123, 2, 0x2211, 0⟩ := by decide

/-! ### The status frame as configured -/

/-- R207: the first rows of a layout other than the reference one, `data = [mode, counter]`: counter 2 of mode 0, then counter 0 of
mode 1. -/
theorem test_statusBytes_table :
    let c := { Cfg.reference with statusData := .table ((List.range 16).map (fun n => [0, BitVec.ofNat 8 n]) ++ [[1, 0]]) }
    statusBytes c 2 0 = [0, 2] ∧ statusBytes c 0 1 = [1, 0] := by decide

/-- Equal rows, from which the counter cannot be read back, make no legal configuration. -/
theorem test_cfg_no_embedding :
    ({ Cfg.reference with statusData := .table [[0, 0]] } : Cfg).wf = false
    ∧ ({ Cfg.reference with statusLen := 1 } : Cfg).wf = false := by decide

/-! ### Witnesses: states and operands that meet the hypotheses of each statement -/

/-- The operands of `mb.post rx, 0x123, [11 22]`. -/
def q0 : Quad := ⟨0x123, 2, 0x2211, 0⟩

/-- A port that presents a word. -/
def presents (w : Word) (P : Port) : Port := { P with cw := w, req := true }

/-- A direction with every slot Occupied and queued. -/
def fullDir : DirStore := ⟨List.replicate 4 ⟨.occupied, ⟨0x100, false, [0xA0]⟩⟩, [0, 1, 2, 3], 0⟩

/-- A direction whose last slot alone is Free. -/
def lastFree : DirStore :=
  ⟨List.replicate 3 ⟨.occupied, ⟨0x100, false, [0xA0]⟩⟩ ++ [Slot.reset], [0, 1, 2], 0⟩

/-- A direction whose slot 0 holds a frame that is in no FIFO. -/
def heldDir (f : Frame) : DirStore := ⟨⟨.occupied, f⟩ :: List.replicate 3 Slot.reset, [], 0⟩

/-- The reset state with a port 0, a mailbox, and a script. -/
def scene (P : Port) (mb : Mailbox) (sc : List Event) : State :=
  { at0 P with mb := mb, env := { Env.reset with script := sc } }

/-- The mailbox after reset. -/
def mb0 : Mailbox := Mailbox.reset Cfg.reference

/-- The mailbox with every direction full. -/
def mbFull : Mailbox := ⟨fullDir, fullDir, fullDir⟩

/-- Answers: all accepted. -/
def acks (n : Nat) : List LinAnswer := List.replicate n ⟨true, []⟩

theorem witness_DecodeOfEncode : (Instr.linXchg 0x2A 8 8 true .enhanced .brkB).wf = true := by decide

theorem witness_EncodeOfDecode : decode 0x3303822A = .ok (.linXchg 0x2A 2 8 true .enhanced .brkA) := by decide

/-- A word at the row's largest length satisfies the constraint, one above it does not. -/
theorem witness_DecodeIsTheOpcodeMap :
    (∃ row ∈ opcodeTable, row.mnemonic = "LIN.CKS" ∧ row.spells 0x31000800 = true ∧ row.constraint 0x31000800 = true)
    ∧ (∃ row ∈ opcodeTable, row.spells 0x31000900 = true ∧ row.constraint 0x31000900 = false) := by decide

theorem witness_AssembledWords : ([1, 2, 3, 4, 5, 6, 7, 8] : List Byte).length ≤ 8 := by decide

theorem witness_RegisterPacking :
    operandsLegal ⟨0x9FFFFFFF, 8, 0x04030201, 0x08070605⟩ = true ∧ operandsLegal ⟨0x7FF, 0, 0, 0⟩ = true := by decide

theorem witness_StepRunsDecoded :
    let s := State.reset.withFetchWord 32 0x30000001
    s.nextEvent.1 = .port 0 ∧ s.ports[0]? = some (presents 0x30000001 Port.reset)
    ∧ (presents 0x30000001 Port.reset).req = true ∧ decode (presents 0x30000001 Port.reset).cw = .ok (.linPid 1) := by decide

theorem witness_IllegalWordOnlySt :
    let s := State.reset.withFetchWord 32 0x31000900
    let P := presents 0x31000900 Port.reset
    s.nextEvent.1 = .port 0 ∧ s.ports[0]? = some P ∧ P.req = true ∧ P.phase = .ready
    ∧ ∀ row ∈ opcodeTable, row.spells P.cw = true → row.constraint P.cw = false := by decide

/-- Each clause: an operand write, a word presented to an idle and to a busy port, the clock, an idle port scheduled. -/
theorem witness_EnvironmentSteps :
    ((scene Port.reset mb0 [.write 0 3 7]).nextEvent.1 = .write 0 3 7
      ∧ (scene Port.reset mb0 [.write 0 3 7]).ports[0]? = some Port.reset)
    ∧ ((scene Port.reset mb0 [.present 0 5]).nextEvent.1 = .present 0 5
      ∧ (scene Port.reset mb0 [.present 0 5]).ports[0]? = some Port.reset)
    ∧ (scene (rdy q0) mb0 [.present 0 5]).ports[0]? = some (rdy q0)
    ∧ (scene Port.reset mb0 [.clock 1000]).nextEvent.1 = .clock 1000
    ∧ (scene Port.reset mb0 [.port 0]).nextEvent.1 = .port 0 ∧ Port.reset.req = false := by decide

/-- A word presented to an idle port, and an operand register written while its command is in progress. -/
theorem witness_OperandsTakenAtPresentation :
    ((scene { Port.reset with a := q0 } mb0 [.present 0 5]).nextEvent.1 = .present 0 5
      ∧ (scene { Port.reset with a := q0 } mb0 [.present 0 5]).ports[0]? = some { Port.reset with a := q0 }
      ∧ ({ Port.reset with a := q0 } : Port).req = false)
    ∧ (∃ t, step (scene (rdy q0) mb0 [.write 0 1 9]) = .next t) ∧ (scene (rdy q0) mb0 [.write 0 1 9]).nextEvent.1 ≠ .reset
      ∧ (scene (rdy q0) mb0 [.write 0 1 9]).ports[0]? = some (rdy q0) ∧ (rdy q0).req = true :=
  ⟨⟨rfl, rfl, rfl⟩, ⟨_, rfl⟩, by decide, rfl, rfl⟩

theorem witness_ResetIsTotal : (scene (rdy q0) mbFull [.reset]).nextEvent.1 = .reset := by decide

theorem witness_PostIllegalOperands :
    (at0 (rdy ⟨0x800, 0, 0, 0⟩)).acting (rdy ⟨0x800, 0, 0, 0⟩) ∧ (rdy ⟨0x800, 0, 0, 0⟩).phase = .ready
    ∧ operandsLegal (rdy ⟨0x800, 0, 0, 0⟩).lat = false := ⟨rfl, rfl, by decide⟩

/-- A post to RX from READY whose lowest Free slot is the last one, and one that finds no Free slot. -/
theorem witness_PostClaims_ready :
    let s := scene (rdy q0) { mb0 with rx := lastFree } []
    let u := scene (rdy q0) mbFull []
    s.acting (rdy q0) ∧ (Dir.rx ≠ .tx ∧ (rdy q0).phase = .ready ∧ operandsLegal (rdy q0).lat = true)
    ∧ ((s.dir .rx).slots[3]?).map Slot.occ = some .free
    ∧ (∀ j < 3, ((s.dir .rx).slots[j]?).map Slot.occ = some .occupied)
    ∧ u.acting (rdy q0) ∧ ∀ x ∈ (u.dir .rx).slots, x.occ = .occupied := by
  refine ⟨rfl, by decide, by decide, by decide, rfl, by decide⟩

/-- A post to TX after its mirror offer. -/
theorem witness_PostClaims_primary :
    let P := { rdy q0 with phase := MicroPhase.pPrimary }
    let s := scene P mb0 []
    let u := scene P mbFull []
    s.acting P ∧ P.phase = .pPrimary ∧ ((s.dir .tx).slots[0]?).map Slot.occ = some .free
    ∧ (∀ j < 0, ((s.dir .tx).slots[j]?).map Slot.occ = some .occupied)
    ∧ u.acting P ∧ ∀ x ∈ (u.dir .tx).slots, x.occ = .occupied := by
  refine ⟨rfl, rfl, by decide, by decide, rfl, by decide⟩

theorem witness_PostClaimsMirror :
    let s := scene (rdy q0) { mb0 with usb := lastFree } []
    let u := scene (rdy q0) mbFull []
    s.acting (rdy q0) ∧ (rdy q0).phase = .ready ∧ operandsLegal (rdy q0).lat = true
    ∧ ((s.dir .usb).slots[3]?).map Slot.occ = some .free
    ∧ (∀ j < 3, ((s.dir .usb).slots[j]?).map Slot.occ = some .occupied)
    ∧ u.acting (rdy q0) ∧ ∀ x ∈ (u.dir .usb).slots, x.occ = .occupied := by
  refine ⟨rfl, rfl, by decide, by decide, by decide, rfl, by decide⟩

theorem witness_PostCopiesIn :
    (scene { rdy q0 with phase := .pClaimed .rx 0 .copy } mb0 []).acting { rdy q0 with phase := .pClaimed .rx 0 .copy }
    ∧ (scene { rdy q0 with phase := .pMirrorClaimed 0 false } mb0 []).acting
        { rdy q0 with phase := .pMirrorClaimed 0 false } := ⟨rfl, rfl⟩

/-- The FIFO with room for just one more reference. -/
theorem witness_PostPublishes :
    let s := scene { rdy q0 with phase := .pClaimed .rx 3 .publish } { mb0 with rx := lastFree } []
    let u := scene { rdy q0 with phase := .pMirrorClaimed 3 true } { mb0 with usb := lastFree } []
    (s.acting { rdy q0 with phase := .pClaimed .rx 3 .publish } ∧ (s.dir .rx).fifo.length < s.cfg.slots .rx)
    ∧ u.acting { rdy q0 with phase := .pMirrorClaimed 3 true } ∧ (u.dir .usb).fifo.length < u.cfg.nUsb :=
  ⟨⟨rfl, by decide⟩, rfl, by decide⟩

theorem witness_PostRollsBack :
    let s := scene { rdy q0 with phase := .pClaimed .rx 3 .publish } mbFull []
    let t := scene { rdy q0 with phase := .pClaimed .rx 3 .rollback } mbFull []
    let u := scene { rdy q0 with phase := .pMirrorClaimed 3 true } mbFull []
    (s.acting { rdy q0 with phase := .pClaimed .rx 3 .publish } ∧ s.cfg.slots .rx ≤ (s.dir .rx).fifo.length)
    ∧ t.acting { rdy q0 with phase := .pClaimed .rx 3 .rollback }
    ∧ u.acting { rdy q0 with phase := .pMirrorClaimed 3 true } ∧ u.cfg.nUsb ≤ (u.dir .usb).fifo.length :=
  ⟨⟨rfl, by decide⟩, rfl, rfl, by decide⟩

theorem witness_FetchSteps :
    let F := (⟨0x100, false, [0xA0]⟩ : Frame)
    (scene (rdy q0) mb0 []).acting (rdy q0) ∧ ((scene (rdy q0) mb0 []).dir .rx).fifo = []
    ∧ (scene (rdy q0) mbFull []).acting (rdy q0) ∧ ((scene (rdy q0) mbFull []).dir .rx).fifo = 0 :: [1, 2, 3]
    ∧ (scene { rdy q0 with phase := .fPopped .rx 0 none } { mb0 with rx := heldDir F } []).acting
        { rdy q0 with phase := .fPopped .rx 0 none }
    ∧ ((scene (rdy q0) { mb0 with rx := heldDir F } []).dir .rx).slots[0]? = some ⟨.occupied, F⟩
    ∧ (scene { rdy q0 with phase := .fPopped .rx 0 (some F) } mb0 []).acting
        { rdy q0 with phase := .fPopped .rx 0 (some F) } := ⟨rfl, rfl, rfl, rfl, rfl, rfl, rfl⟩

theorem witness_EmptyReports : (at0 (rdy q0)).acting (rdy q0) ∧ (rdy q0).phase = .ready := ⟨rfl, rfl⟩

/-- Port 0 posts `q0` to RX and publishes next. -/
def publishing : Port := presents 0x10000000 { rdy q0 with phase := .pClaimed .rx 0 .publish }

/-- Port 0 takes a frame of RX, popped. -/
def popped (o : Option Frame) : Port := presents 0x11000000 { rdy q0 with phase := .fPopped .rx 0 o }

theorem inv_publishing : (scene publishing { mb0 with rx := heldDir q0.frame } [.port 0]).Inv :=
  State.inv_of_check (by decide) (by decide) (by decide) (by decide) (by decide) (by decide) (by decide) (by decide)
    (by decide) (State.progressOk_of_free rfl)

theorem inv_popped : (scene (popped none) { mb0 with rx := heldDir q0.frame } [.port 0]).Inv :=
  State.inv_of_check (by decide) (by decide) (by decide) (by decide) (by decide) (by decide) (by decide) (by decide)
    (by decide) (State.progressOk_of_free rfl)

theorem inv_poppedCopied : (scene (popped (some q0.frame)) { mb0 with rx := heldDir q0.frame } [.port 0]).Inv :=
  State.inv_of_check (by decide) (by decide) (by decide) (by decide) (by decide) (by decide) (by decide) (by decide)
    (by decide) (State.progressOk_of_free rfl)

/-- A full mailbox, port 0 READY with a command word `w`. -/
theorem inv_full_fetch : (scene (presents 0x11000000 (rdy q0)) mbFull [.port 0]).Inv :=
  State.inv_of_check (by decide) (by decide) (by decide) (by decide) (by decide) (by decide) (by decide) (by decide)
    (by decide) (State.progressOk_of_free rfl)

theorem inv_empty_fetch : (scene (presents 0x11000000 (rdy q0)) mb0 [.port 0]).Inv :=
  State.inv_of_check (by decide) (by decide) (by decide) (by decide) (by decide) (by decide) (by decide) (by decide)
    (by decide) (State.progressOk_of_free rfl)

theorem inv_send : (scene (presents 0x32030501 (rdy q0)) mb0 [.port 0]).Inv :=
  State.inv_of_check (by decide) (by decide) (by decide) (by decide) (by decide) (by decide) (by decide) (by decide)
    (by decide) (State.progressOk_of_free rfl)

theorem witness_PoolInvariants_holder :
    (scene publishing { mb0 with rx := heldDir q0.frame } [.port 0]).Inv
    ∧ publishing ∈ (scene publishing { mb0 with rx := heldDir q0.frame } [.port 0]).ports
    ∧ publishing.phase.held .rx = some 0 := ⟨inv_publishing, by decide, by decide⟩

theorem witness_PoolInvariants_full : (scene (presents 0x11000000 (rdy q0)) mbFull [.port 0]).Inv := inv_full_fetch

/-- A quiescent state with full directions, and one with empty ones. -/
theorem witness_QuiescentCounts :
    ((scene (presents 0x11000000 (rdy q0)) mbFull [.port 0]).Inv
      ∧ (scene (presents 0x11000000 (rdy q0)) mbFull [.port 0]).quiescent)
    ∧ (scene (presents 0x11000000 (rdy q0)) mb0 [.port 0]).Inv
      ∧ (scene (presents 0x11000000 (rdy q0)) mb0 [.port 0]).quiescent :=
  ⟨⟨inv_full_fetch, by decide, rfl⟩, inv_empty_fetch, by decide, rfl⟩

/-- With legal operands, on empty directions and on full ones. -/
theorem witness_SequentialView :
    let P := presents 0x11000000 (rdy q0)
    let s := scene P mb0 [.port 0]
    let u := scene P mbFull [.port 0]
    (s.Inv ∧ s.acting P ∧ P.phase = .ready ∧ (∀ Q ∈ s.ports, ∀ d, Q.phase.held d = none) ∧ operandsLegal P.lat = true
      ∧ s.queue .rx = [])
    ∧ u.Inv ∧ u.acting P ∧ (∀ Q ∈ u.ports, ∀ d, Q.phase.held d = none)
      ∧ u.queue .rx = ⟨0x100, false, [0xA0]⟩ :: List.replicate 3 ⟨0x100, false, [0xA0]⟩ := by
  have hheld : ∀ mb, ∀ Q ∈ (scene (presents 0x11000000 (rdy q0)) mb [.port 0]).ports, ∀ d, Q.phase.held d = none := by
    intro mb Q hQ d
    have hr : Q.phase = .ready := by
      have hall : ∀ Q ∈ (scene (presents 0x11000000 (rdy q0)) mb0 [.port 0]).ports, Q.phase = .ready := by decide
      exact hall Q hQ
    rw [hr]; rfl
  exact ⟨⟨inv_empty_fetch, rfl, rfl, hheld _, by decide, by decide⟩, inv_full_fetch, rfl, hheld _, by decide⟩

/-- A publish step and an F1 step. -/
theorem witness_FifoLaw :
    (∃ t, step (scene publishing { mb0 with rx := heldDir q0.frame } [.port 0]) = .next t
      ∧ t.queue .rx = [q0.frame])
    ∧ (∃ t, step (scene (presents 0x11000000 (rdy q0)) mbFull [.port 0]) = .next t
      ∧ (t.queue .rx).length = 3)
    ∧ (scene publishing { mb0 with rx := heldDir q0.frame } [.port 0]).nextEvent.1 ≠ .reset
    ∧ (scene publishing { mb0 with rx := heldDir q0.frame } [.port 0]).Inv
    ∧ (scene (presents 0x11000000 (rdy q0)) mbFull [.port 0]).Inv :=
  ⟨⟨_, rfl, by decide⟩, ⟨_, rfl, by decide⟩, by decide, inv_publishing, inv_full_fetch⟩

/-- Before and after step F2. -/
theorem witness_PoppedFrameIsDelivered :
    let s := scene (popped none) { mb0 with rx := heldDir q0.frame } [.port 0]
    let u := scene (popped (some q0.frame)) { mb0 with rx := heldDir q0.frame } [.port 0]
    (s.Inv ∧ (∃ t, step s = .next t) ∧ s.nextEvent.1 ≠ .reset ∧ s.ports[0]? = some (popped none)
      ∧ (popped none).phase = .fPopped .rx 0 none)
    ∧ u.Inv ∧ (∃ t, step u = .next t) ∧ u.ports[0]? = some (popped (some q0.frame)) :=
  ⟨⟨inv_popped, ⟨_, rfl⟩, by decide, rfl, rfl⟩, inv_poppedCopied, ⟨_, rfl⟩, rfl⟩

theorem witness_FltClearAndEnable : (at0 (rdy q0)).acting (rdy q0) ∧ (rdy q0).phase = .ready := ⟨rfl, rfl⟩

/-- The largest slot and identifiers that are stored, and the smallest that are not. -/
theorem witness_FltSetStores :
    (at0 (rdy q0)).acting (rdy q0) ∧ (rdy q0).phase = .ready
    ∧ [(run (.fltSet 27 false) ⟨0x7FF, 0, 0, 0⟩).me.st, (run (.fltSet 28 false) ⟨0x7FF, 0, 0, 0⟩).me.st,
      (run (.fltSet 27 true) ⟨0x1FFFFFFF, 0, 0, 0⟩).me.st, (run (.fltSet 27 true) ⟨0x20000000, 0, 0, 0⟩).me.st] =
      [0, 5, 0, 5] := ⟨rfl, rfl, by decide⟩

theorem witness_FltApplyIsPseudocode : (at0 (rdy q0)).acting (rdy q0) ∧ 1 ≤ (at0 (rdy q0)).cfg.banks := ⟨rfl, by decide⟩

/-- Disabled; enabled without a pair; enabled with two pairs, the second of which goes to the last bank allocated. -/
theorem witness_FltApplyTable :
    1 ≤ Cfg.reference.banks
    ∧ (Filter.reset Cfg.reference).enabled = false
    ∧ ((List.range 14).filter fun i => decide (((fltState [] true q0).flt.ent (2 * i)).id ≠ 0)
        || decide (((fltState [] true q0).flt.ent (2 * i + 1)).id ≠ 0)) = []
    ∧ ((List.range 14).filter fun i => decide (((fltState entsF1 true q0).flt.ent (2 * i)).id ≠ 0)
        || decide (((fltState entsF1 true q0).flt.ent (2 * i + 1)).id ≠ 0)) = [0, 3]
    ∧ ((fltState entsF1 true q0).flt.applied Cfg.reference).nActive ≤ 13 ∧ 13 < Cfg.reference.banks := by decide

theorem witness_EncIsInjective :
    (2 ≤ 2) ∧ FilterEntry.unused.id = 0 ∧ (⟨0x200, true⟩ : FilterEntry).id ≠ 0 ∧ (0x7FF : Word).toNat ≤ 0x7FF ∧ (0x1FFFFFFF : Word).toNat ≤ 0x1FFFFFFF
    ∧ enc 2 0x7FF false = 0xFFE00000 ∧ enc 2 0x1FFFFFFF true = 0xFFFFFFFC := by decide

theorem witness_ArithmeticLaws : pid 0x3F = pid 0x3F ∧ (List.replicate 8 (0xFF : Byte)).length ≤ 8 := by decide

theorem witness_FoldLaw : 2 ≤ 2 ∧ (foldLoop 2 0xFFFF).toNat = 0xFF := by decide

theorem witness_LinPureCommands :
    (at0 (rdy q0)).acting (rdy q0) ∧ (rdy q0).phase = .ready ∧ (8 : BitVec 4).toNat ≤ 8 := ⟨rfl, rfl, by decide⟩

theorem witness_LinIllegalLengths :
    (at0 (rdy q0)).acting (rdy q0) ∧ (rdy q0).phase = .ready ∧ 8 < (9 : BitVec 4).toNat := ⟨rfl, rfl, by decide⟩

/-- From READY and from `L_WAIT`. -/
theorem witness_EngineTaken :
    ((at0 (rdy q0)).acting (rdy q0) ∧ (at0 (rdy q0)).lin.owner = none ∧ (rdy q0).phase = .ready)
    ∧ (at0 { rdy q0 with phase := .lWait }).acting { rdy q0 with phase := .lWait } ∧ (8 : BitVec 4).toNat ≤ 8 :=
  ⟨⟨rfl, rfl, rfl⟩, rfl, by decide⟩

theorem witness_EngineHeld :
    let s := { at0 (rdy q0) with lin := { busy .brk with owner := some 1 } }
    let u := { at0 { rdy q0 with phase := .lWait } with lin := { busy .brk with owner := some 1 } }
    (s.acting (rdy q0) ∧ s.lin.owner = some 1 ∧ (rdy q0).phase = .ready)
    ∧ u.acting { rdy q0 with phase := .lWait } ∧ u.lin.owner = some 1 := ⟨⟨rfl, rfl, rfl⟩, rfl, rfl⟩

/-- The port that `running` lets act. -/
def runner : Port := { rdy Quad.zero with phase := .lRun }

theorem witness_CycleCounterStep :
    (running { busy .brk with stage := .frame } []).acting runner ∧ runner.phase = .lRun := ⟨rfl, rfl⟩

theorem witness_ReferenceStatusFrame : Cfg.reference.statusData = .reference ∧ Cfg.reference.statusLen = 2 := by decide

/-- A function of constant length from which counter and mode can be read back, and one from which they cannot; a legal
configuration. -/
theorem witness_StatusFrameEmbeds :
    (∀ (cnt : BitVec 4) (mode : Byte), ([cnt.setWidth 8, mode] : List Byte).length = 2)
    ∧ (∀ (_ : BitVec 4) (mode : Byte), ([0, mode] : List Byte).length = 2)
    ∧ ({ Cfg.reference with statusData := .ofFun fun cnt mode => [cnt.setWidth 8, mode] } : Cfg).statusLen = 2
    ∧ Cfg.reference.wf = true := ⟨fun _ _ => rfl, fun _ _ => rfl, rfl, by decide⟩

/-- LIN.SEND at its checksum byte; LIN.XCHG in VALIDATE with a right and with a wrong checksum; LIN.DIAG and LIN.CYCLE after their
telemetry update; LIN.CYCLE in its status frame, at the break and at the checksum byte. -/
theorem witness_LinCommandsEnd :
    let l := { busy .cks with lf := ⟨1, 5, [0x30, 0x08, 0x01, 0, 0], 0xC1, 0x05⟩, idx := 7 }
    let v (w : List Byte) := running { busy .validate with lf := ⟨0x11, 0, [], 0x11, 0⟩, rx := w } []
    let d := running { busy .validate with stage := .telemDone, first := some (.ok, .idle) } []
    let y := { busy .cks with lf := ⟨0x10, 2, [0x21, 0x05], 0x50, 0x89⟩, idx := 4 }
    ((running l [⟨true, []⟩]).acting runner ∧ (running l [⟨true, []⟩]).env.answers = ⟨true, []⟩ :: []
      ∧ l.idx + 1 = (wireBytes (sendTxn true .enhanced .brkA) l.lf).length)
    ∧ ((v [0x30, 8, 1, 0, 0, 0xB5]).acting runner ∧ (v [0x30, 8, 1, 0, 0, 0xB5]).lin.phase = .validate
      ∧ (v [0x30, 8, 1, 0, 0, 0xC6]).acting runner)
    ∧ (d.acting runner ∧ d.lin.stage = .telemDone ∧ d.lin.phase = .validate ∧ d.lin.first = some (.ok, .idle))
    ∧ ((running (busy .brk) [⟨false, []⟩]).acting runner ∧ (running (busy .brk) [⟨false, []⟩]).lin.stage = .xfer
      ∧ (running (busy .brk) [⟨false, []⟩]).lin.first = none)
    ∧ (running y [⟨true, []⟩]).acting runner ∧ y.stage = .xfer ∧ y.first = none
      ∧ y.idx + 1 = (wireBytes (statusTxn (running y [⟨true, []⟩]).cfg) y.lf).length :=
  ⟨⟨rfl, rfl, by decide⟩, ⟨rfl, rfl, rfl⟩, ⟨rfl, rfl, rfl, rfl⟩, ⟨rfl, rfl, rfl⟩, rfl, rfl, rfl, by decide⟩

theorem witness_TelemetryUpdate :
    let s := running { busy .validate with
      lf := ⟨0x11, 0, [], 0x11, 0⟩, rx := [0x31, 0x7F, 0, 0, 0, 0x3E], first := some (.ok, .idle) } []
    s.acting runner ∧ s.lin.phase = .validate ∧ s.lin.stage = .xfer ∧ s.lin.first.isSome = true
    ∧ s.cfg.movByte < s.cfg.diagRespLen ∧ s.cfg.posByte < s.cfg.diagRespLen
    ∧ s.lin.rx.getD s.cfg.diagRespLen 0 = cks s.cfg.diagCksKind s.lin.lf.pid (s.lin.rx.take s.cfg.diagRespLen) :=
  ⟨rfl, rfl, rfl, rfl, by decide, by decide, by decide⟩

/-- The reset state, port 0 READY with operands `q`, and a list of answers. -/
def answering (q : Quad) (as : List LinAnswer) : State :=
  { at0 (rdy q) with env := { Env.reset with answers := as } }

theorem answering_ready (q : Quad) (as : List LinAnswer) :
    (answering q as).acting (rdy q) ∧ (rdy q).phase = .ready ∧ (answering q as).lin.owner = none
    ∧ (answering q as).cfg = Cfg.reference ∧ (answering q as).env.answers = as := ⟨rfl, rfl, rfl, rfl, rfl⟩

/-- For each way of `requestRun` a list of answers: no confirmation; the last of the eleven bytes of the longest frame not accepted;
all of them accepted. -/
theorem witness_SendWhole :
    let W := requestBytes 1 ((rdy q0).lat.bytes (8 : BitVec 4).toNat) true .enhanced
    (∀ as, (answering q0 as).acting (rdy q0) ∧ (rdy q0).phase = .ready ∧ (answering q0 as).lin.owner = none)
    ∧ (8 : BitVec 4).toNat ≤ 8
    ∧ (answering q0 [⟨false, []⟩]).requestRun 0 .brkA 8 W .timeout .brk [.brk .brkA false] 1
    ∧ (answering q0 (acks 11 ++ [⟨false, []⟩])).requestRun 0 .brkA 8 W .timeout .cks
        (.brk .brkA true :: (W.take 10).map WireEvent.tx) 12
    ∧ (answering q0 (acks 12)).requestRun 0 .brkA 8 W .ok .idle (.brk .brkA true :: W.map WireEvent.tx) 12 := by
  refine ⟨fun as => ⟨rfl, rfl, rfl⟩, by decide, .inl ⟨rfl, rfl, rfl, rfl, rfl⟩, .inr ⟨rfl, 10, by decide, by decide, rfl, ?_⟩,
    .inr ⟨rfl, 11, by decide, by decide, rfl, ?_⟩⟩
  · rw [if_pos (by decide)]; exact ⟨rfl, rfl, by decide, rfl⟩
  · rw [if_neg (by decide)]; exact ⟨rfl, rfl, rfl⟩

/-- For each way of `exchangeRun` after an accepted request an answer to the read, at the largest response length (V-L27): short by one
byte, a wrong checksum, the right one; and a request whose break is not confirmed. -/
theorem witness_XchgWhole :
    let q : Quad := ⟨0, 0, 0xBBAA, 0⟩
    let W := requestBytes 0x2A ((rdy q).lat.bytes (2 : BitVec 4).toNat) true .enhanced
    let rx : List Byte := [1, 2, 3, 4, 5, 6, 7, 8]
    let as (w : List Byte) : List LinAnswer := acks 6 ++ [⟨true, w⟩]
    let gained (w : List Byte) : List WireEvent := .brk .brkA true :: W.map WireEvent.tx ++ w.map WireEvent.rx
    (∀ as, (answering q as).acting (rdy q) ∧ (rdy q).phase = .ready ∧ (answering q as).lin.owner = none)
    ∧ (8 : BitVec 4).toNat ≤ 8
    ∧ (answering q [⟨false, []⟩]).exchangeRun 0 .brkA 2 W .enhanced (pid 0x2A) 8 .timeout .brk [.brk .brkA false] [] 1
    ∧ (answering q (as rx)).exchangeRun 0 .brkA 2 W .enhanced (pid 0x2A) 8 .timeout .resp (gained rx) rx 7
    ∧ (answering q (as (rx ++ [0x70]))).exchangeRun 0 .brkA 2 W .enhanced (pid 0x2A) 8 .checksumMismatch .validate
        (gained (rx ++ [0x70])) (rx ++ [0x70]) 7
    ∧ (answering q (as (rx ++ [0x71]))).exchangeRun 0 .brkA 2 W .enhanced (pid 0x2A) 8 .ok .idle
        (gained (rx ++ [0x71])) (rx ++ [0x71]) 7 := by
  intro q W rx as gained
  have hreq : ∀ w, (answering q (as w)).requestRun 0 .brkA 2 W .ok .idle (.brk .brkA true :: W.map WireEvent.tx) 6 := by
    intro w
    refine .inr ⟨rfl, 5, by decide, ?_, rfl, ?_⟩
    · intro j hj
      interval_cases j <;> rfl
    · rw [if_neg (by decide)]; exact ⟨rfl, rfl, rfl⟩
  refine ⟨fun as => ⟨rfl, rfl, rfl⟩, by decide, .inl ⟨by decide, rfl, .inl ⟨rfl, rfl, rfl, rfl, rfl⟩⟩,
    .inr ⟨_, 6, hreq _, rfl, rfl, rfl, ?_⟩, .inr ⟨_, 6, hreq _, rfl, rfl, rfl, ?_⟩, .inr ⟨_, 6, hreq _, rfl, rfl, rfl, ?_⟩⟩
  · rw [if_pos (by decide)]; exact ⟨rfl, rfl⟩
  · rw [if_neg (by decide), if_neg (by decide)]; exact ⟨rfl, rfl⟩
  · rw [if_neg (by decide), if_pos (by decide)]; exact ⟨rfl, rfl⟩

/-- An unconfirmed break, and a valid response in the reference configuration (V-L30). -/
theorem witness_DiagWhole :
    let rx : List Byte := [0x31, 0x7F, 0, 0, 0, 0x3E]
    let s := answering q0 (acks 3 ++ [⟨true, rx⟩])
    (∀ as, (answering q0 as).acting (rdy q0) ∧ (rdy q0).phase = .ready ∧ (answering q0 as).lin.owner = none)
    ∧ (answering q0 []).cfg.wf = true
    ∧ (answering q0 [⟨false, []⟩]).diagRun 0 .timeout .brk [.brk .brkA false] [] 1
    ∧ s.diagRun 0 .ok .idle (.brk .brkA true :: [0x55, 0x11].map WireEvent.tx ++ rx.map WireEvent.rx) rx 4 := by
  refine ⟨fun as => ⟨rfl, rfl, rfl⟩, by decide, .inl ⟨by decide, rfl, .inl ⟨rfl, rfl, rfl, rfl, rfl⟩⟩,
    .inr ⟨.brk .brkA true :: [0x55, 0x11].map WireEvent.tx, 3, .inr ⟨rfl, 2, by decide, by decide, rfl, ?_⟩, rfl, rfl, rfl, ?_⟩⟩
  · rw [if_neg (by decide)]; exact ⟨rfl, rfl, rfl⟩
  · rw [if_neg (by decide), if_pos (by decide)]; exact ⟨rfl, rfl⟩

/-- A state, and answers that accept all six requests of the reference status frame. -/
theorem witness_CycleWhole :
    (answering q0 (acks 6)).acting (rdy q0) ∧ (rdy q0).phase = .ready ∧ (answering q0 (acks 6)).lin.owner = none
    ∧ (answering q0 (acks 6)).cfg.wf = true
    ∧ ∀ j ≤ (requestBytes 0x10 [0x01, 0x00] true .enhanced).length, ((answering q0 (acks 6)).answerAt j).ack = true :=
  ⟨rfl, rfl, rfl, by decide, by decide⟩

theorem witness_PhaseTransitions :
    let s := scene (presents 0x32030501 (rdy q0)) mb0 [.port 0]
    s.Inv ∧ s.nextEvent.1 ≠ .reset ∧ ∃ t, step s = .next t ∧ t.lin.phase ≠ s.lin.phase :=
  ⟨inv_send, by decide, _, rfl, by decide⟩

theorem witness_TelemetryOnlyOnSuccess :
    let s := running { busy .validate with lf := ⟨0x11, 0, [], 0x11, 0⟩, rx := [0x31, 0x7F, 0, 0, 0, 0x3E] } []
    s.acting runner ∧ ∃ t, exec .linDiag s = .next t ∧ t.lin.position ≠ s.lin.position := ⟨rfl, _, rfl, by decide⟩

theorem witness_CsrRdReads : (at0 (rdy q0)).acting (rdy q0) ∧ (rdy q0).phase = .ready := ⟨rfl, rfl⟩

/-- The last entry and the last bank. -/
theorem witness_CsrMap :
    State.reset.cfg.wf = true ∧ State.reset.sized ∧ State.reset.flt.ents[27]? = some ⟨0, false⟩
    ∧ State.reset.flt.banks[13]? = some Bank.inactive :=
  ⟨by decide, State.sized_of_check (by decide), by decide, by decide⟩

theorem witness_CsrWrWrites : (at0 (rdy q0)).acting (rdy q0) ∧ (rdy q0).phase = .ready := ⟨rfl, rfl⟩

theorem witness_ActMarkAndLiveness :
    (at0 (rdy q0)).acting (rdy q0) ∧ (rdy q0).phase = .ready ∧ (∃ t, exec .actMark (at0 (rdy q0)) = .next t)
    ∧ 2 ^ 32 - 1 < 2 ^ 32 := ⟨rfl, rfl, ⟨_, rfl⟩, by decide⟩

theorem witness_InvAtReset : Cfg.reference.wf = true := by decide

theorem witness_InvKept :
    let s := scene publishing { mb0 with rx := heldDir q0.frame } [.port 0]
    s.Inv ∧ ∃ t, step s = .next t := ⟨inv_publishing, _, rfl⟩

theorem witness_NothingStops : (scene (popped none) { mb0 with rx := heldDir q0.frame } [.port 0]).Inv := inv_popped

theorem witness_StatusTable :
    let s := scene (presents 0x11000000 (rdy q0)) mb0 [.port 0]
    s.Inv ∧ s.nextEvent.1 = .port 0 ∧ s.ports[0]? = some (presents 0x11000000 (rdy q0))
    ∧ decode 0x11000000 = .ok (.mbFetch .rx)
    ∧ ∃ t Q, step s = .next t ∧ t.ports[0]? = some Q ∧ Q.req = false :=
  ⟨inv_empty_fetch, by decide, rfl, by decide, _, _, rfl, rfl, rfl⟩

/-- The port's own step, and a step of another port. -/
theorem witness_CommandsTerminate :
    let s := scene (presents 0x32030501 (rdy q0)) mb0 [.port 0]
    s.Inv ∧ s.nextEvent.1 = .port 0 ∧ s.ports[0]? = some (presents 0x32030501 (rdy q0))
    ∧ decode 0x32030501 = .ok (.linSend 1 5 true .enhanced .brkA) ∧ (∃ t, step s = .next t)
    ∧ (scene (presents 0x32030501 (rdy q0)) mb0 [.port 1]).nextEvent.1 ≠ .port 0 :=
  ⟨inv_send, by decide, rfl, by decide, ⟨_, rfl⟩, by decide⟩

theorem witness_PortsArePrivate :
    let s := scene (presents 0x32030501 (rdy q0)) mb0 [.port 0]
    s.nextEvent.1 = .port 0 ∧ (∃ t, step s = .next t) ∧ s.ports[0]? = some (presents 0x32030501 (rdy q0)) :=
  ⟨by decide, ⟨_, rfl⟩, rfl⟩

theorem witness_OtherPortsUnread : 7 ≠ (at0 (rdy q0)).cur ∧ (at0 (rdy q0)).cur < (at0 (rdy q0)).ports.length := by decide

/-- A command that changes each of the named pieces of state. -/
theorem witness_OnlyNamedWriters :
    (run (.mbPost .rx) q0).mb ≠ (at0 (rdy q0)).mb
    ∧ (run (.fltSet 0 false) q0).flt.ents ≠ (at0 (rdy q0)).flt.ents
    ∧ (run (.fltEn true) q0).flt.enabled ≠ (at0 (rdy q0)).flt.enabled
    ∧ (run .fltApply q0).flt.banks ≠ (at0 (rdy q0)).flt.banks
    ∧ (run (.csrWr 0x0020) q0).lin.mode ≠ (at0 (rdy q0)).lin.mode
    ∧ (run (.csrWr 0x0024) q0).lin.wake ≠ (at0 (rdy q0)).lin.wake
    ∧ (run .linDiag q0).lin.owner ≠ (at0 (rdy q0)).lin.owner
    ∧ (run .actMark q0).act ≠ (at0 (rdy q0)).act := by decide

theorem witness_ConfigurationAndHistoryKept :
    ∃ t, step (scene (presents 0x32030501 (rdy q0)) mb0 [.port 0]) = .next t := ⟨_, rfl⟩

end Sys2Proof.Tests
end

section
/-! Nothing stops the block (R9, R272): a command takes its next micro-step from every micro-phase it passes through, and the
invariant puts every port in such a micro-phase (R39). -/

namespace Sys2Proof.Machine

open Sys2Proof Host

/-! ### The two shared forms of a command -/

/-- A one-step command is the shared form `oneStep`, with a `k` of its own. -/
theorem exec_eq_oneStep {i : Instr} (hi : isOneStep i = true) (s : State) : ∃ k, exec i s = s.oneStep k := by
  cases i <;> simp only [isOneStep, usesEngine, Bool.not_true, Bool.false_eq_true] at hi
  case mbEmpty d => exact ⟨_, exec_mbEmpty d s⟩
  case fltClear => exact ⟨_, exec_fltClear s⟩
  case fltSet slot ext => exact ⟨_, exec_fltSet slot ext s⟩
  case fltEn n => exact ⟨_, exec_fltEn n s⟩
  case fltApply => exact ⟨_, exec_fltApply s⟩
  case linPid id => exact ⟨_, exec_linPid id s⟩
  case linCks k len seed => exact ⟨_, exec_linCks k len seed s⟩
  case actMark => exact ⟨_, exec_actMark s⟩
  case csrRd addr => exact ⟨_, exec_csrRd addr s⟩
  case csrWr addr => exact ⟨_, exec_csrWr addr s⟩

/-- A command that uses the engine is the shared form `linCommand`. -/
theorem exec_eq_linCommand {i : Instr} (hi : usesEngine i = true) (s : State) :
    ∃ legal load body, exec i s = linCommand legal load body s := by
  cases i <;> simp only [usesEngine, Bool.false_eq_true] at hi
  case linSend id len c k r => exact ⟨_, _, _, exec_linSend id len c k r s⟩
  case linXchg id len n c k r => exact ⟨_, _, _, exec_linXchg id len n c k r s⟩
  case linDiag => exact ⟨_, _, _, exec_linDiag s⟩
  case linCycle => exact ⟨_, _, _, exec_linCycle s⟩

/-- Every command has one of the two shared forms, or is MB.POST or MB.FETCH. -/
theorem instr_forms (i : Instr) :
    isOneStep i = true ∨ usesEngine i = true ∨ (∃ d, i = .mbPost d) ∨ ∃ d, i = .mbFetch d := by
  cases i <;> simp [isOneStep, usesEngine]

/-! ### The micro-phases a command passes through (R39) -/

/-- A one-step command passes through no micro-phase but READY. -/
theorem fitsPhase_of_isOneStep {i : Instr} (hi : isOneStep i = true) (ph : MicroPhase) : fitsPhase i ph = false := by
  cases i <;> simp only [isOneStep, usesEngine, Bool.not_true, Bool.false_eq_true] at hi
  all_goals rfl

/-- A command that uses the engine waits for it or runs on it. -/
theorem fitsPhase_of_usesEngine {i : Instr} (hi : usesEngine i = true) {ph : MicroPhase} (h : fitsPhase i ph = true) :
    ph = .lWait ∨ ph = .lRun := by
  cases i <;> simp only [usesEngine, Bool.false_eq_true] at hi
  all_goals cases ph <;> simp [fitsPhase] at h ⊢

/-- A port that fits passes with the command it presents through its micro-phase. -/
theorem Port.fits.fitsPhase {P : Port} (h : P.fits) {i : Instr} (hd : decode P.cw = .ok i) :
    P.phase = .ready ∨ fitsPhase i P.phase = true := by
  obtain hready | ⟨_, j, hj, hfit⟩ := h
  · exact .inl hready
  · obtain rfl : j = i := Except.ok.inj (hj.symm.trans hd)
    exact .inr hfit

/-- A port that fits and presents an illegal word is READY. -/
theorem Port.fits.ready_of_illegal {P : Port} (h : P.fits) {e : DecodeError} (hd : decode P.cw = .error e) :
    P.phase = .ready := by
  obtain hready | ⟨_, j, hj, _⟩ := h
  · exact hready
  · cases hj.symm.trans hd

/-! ### From there the command takes its next micro-step -/

theorem linCommand_next {s : State} (h : s.me.phase = .ready ∨ s.me.phase = .lWait ∨ s.me.phase = .lRun) (legal : Bool)
    (load body : State → State) : ∃ t, linCommand legal load body s = .next t := by
  unfold linCommand
  obtain h | h | h := h <;> rw [h] <;> exact ⟨_, rfl⟩

theorem execMbPost_next {d : Dir} {s : State} (h : s.me.phase = .ready ∨ fitsPhase (.mbPost d) s.me.phase = true) :
    ∃ t, execMbPost d s = .next t := by
  unfold execMbPost
  cases hph : s.me.phase with
  | ready => exact ⟨_, rfl⟩
  | pMirrorClaimed k copied => cases copied <;> exact ⟨_, rfl⟩
  | pPrimary => exact ⟨_, rfl⟩
  | pClaimed d' k pos => cases pos <;> exact ⟨_, rfl⟩
  | fPopped d' k out => simp [hph, fitsPhase] at h
  | lWait => simp [hph, fitsPhase] at h
  | lRun => simp [hph, fitsPhase] at h

theorem execMbFetch_next {d : Dir} {s : State} (h : s.me.phase = .ready ∨ fitsPhase (.mbFetch d) s.me.phase = true) :
    ∃ t, execMbFetch d s = .next t := by
  unfold execMbFetch
  cases hph : s.me.phase with
  | ready => exact ⟨_, rfl⟩
  | fPopped d' k out => cases out <;> exact ⟨_, rfl⟩
  | pMirrorClaimed k copied => simp [hph, fitsPhase] at h
  | pPrimary => simp [hph, fitsPhase] at h
  | pClaimed d' k pos => simp [hph, fitsPhase] at h
  | lWait => simp [hph, fitsPhase] at h
  | lRun => simp [hph, fitsPhase] at h

/-- No command faults or is refused in READY or in a micro-phase it passes through. -/
theorem exec_next_of_fitsPhase {i : Instr} {s : State} (h : s.me.phase = .ready ∨ fitsPhase i s.me.phase = true) :
    ∃ t, exec i s = .next t := by
  obtain hone | heng | ⟨d, rfl⟩ | ⟨d, rfl⟩ := instr_forms i
  · obtain ⟨k, hk⟩ := exec_eq_oneStep hone s
    have hready : s.me.phase = .ready := by simpa [fitsPhase_of_isOneStep hone] using h
    exact ⟨k s, by rw [hk, State.oneStep_eq_next]; exact ⟨hready, rfl⟩⟩
  · obtain ⟨legal, load, body, hx⟩ := exec_eq_linCommand heng s
    rw [hx]
    exact linCommand_next (h.imp_right (fitsPhase_of_usesEngine heng)) legal load body
  · exact execMbPost_next h
  · exact execMbFetch_next h

/-! ### The step -/

/-- Scheduling a port takes a step when the ports fit. -/
theorem portStep_next {s : State} (hfit : s.portsFit) (p : Nat) : ∃ t, portStep p s = .next t := by
  unfold portStep
  cases hp : s.ports[p]? with
  | none => exact ⟨_, rfl⟩
  | some P =>
    have hP : P.fits := hfit P (List.mem_of_getElem? hp)
    have hact : State.acting { s with cur := p } P := hp
    cases hr : P.req with
    | false => exact ⟨s, by simp [hr]⟩
    | true =>
      cases hd : decode P.cw with
      | ok i =>
        obtain ⟨t, ht⟩ := exec_next_of_fitsPhase (hact.me ▸ hP.fitsPhase hd)
        exact ⟨t, by simpa [hr, hd] using ht⟩
      | error e => exact ⟨State.illegalWord { s with cur := p }, by simp [hr, hd, hP.ready_of_illegal hd]⟩

/-- Every event has a next state when the ports fit; only a scheduled port needs it. -/
theorem eventStep_next {s : State} (hfit : s.portsFit) (e : Event) : ∃ t, eventStep e s = .next t := by
  cases e with
  | port p => exact portStep_next hfit p
  | write p i v => exact ⟨_, rfl⟩
  | present p w => exact ⟨_, rfl⟩
  | clock n => exact ⟨_, rfl⟩
  | reset => exact ⟨_, rfl⟩

/-- Settles O54: of the invariant, only the fit of ports and commands (R39) is needed. -/
theorem nothingStops : Obligations.NothingStops := by
  intro s hs
  have hfit : s.nextEvent.2.portsFit := by simpa [State.portsFit] using hs.ports
  exact eventStep_next hfit s.nextEvent.1

end Sys2Proof.Machine
end

section
/-! The state after reset (R43): its fields, its values, and the invariant in it. -/

namespace Sys2Proof.Machine

open Sys2Proof Host

/-! ### The fields of the reset state -/

@[simp] theorem State.resetWith_cfg (c : Cfg) (e : Env) : (State.resetWith c e).cfg = c := rfl
@[simp] theorem State.resetWith_env (c : Cfg) (e : Env) : (State.resetWith c e).env = e := rfl
@[simp] theorem State.resetWith_ports (c : Cfg) (e : Env) :
    (State.resetWith c e).ports = List.replicate c.nport Port.reset := rfl
@[simp] theorem State.resetWith_flt (c : Cfg) (e : Env) : (State.resetWith c e).flt = Filter.reset c := rfl
@[simp] theorem State.resetWith_lin (c : Cfg) (e : Env) : (State.resetWith c e).lin = Lin.reset := rfl
@[simp] theorem State.resetWith_act (c : Cfg) (e : Env) : (State.resetWith c e).act = Activity.reset := rfl

@[simp] theorem State.resetWith_dir (c : Cfg) (e : Env) (d : Dir) :
    (State.resetWith c e).dir d = DirStore.reset (c.slots d) := by cases d <;> rfl

@[simp] theorem DirStore.reset_slots (n : Nat) : (DirStore.reset n).slots = List.replicate n Slot.reset := rfl
@[simp] theorem DirStore.reset_fifo (n : Nat) : (DirStore.reset n).fifo = [] := rfl
@[simp] theorem DirStore.reset_drops (n : Nat) : (DirStore.reset n).drops = 0 := rfl

theorem DirStore.reset_not_occupied (n k : Nat) : ¬ (DirStore.reset n).occupied k := by
  simp [DirStore.occupied, List.getElem?_replicate, Slot.reset]

/-- Every port of the reset state is the reset port. -/
theorem State.mem_ports_resetWith {c : Cfg} {e : Env} {P : Port} (h : P ∈ (State.resetWith c e).ports) :
    P = Port.reset := List.eq_of_mem_replicate h

/-! ### The invariant after reset -/

theorem State.resetWith_sized (c : Cfg) (e : Env) : (State.resetWith c e).sized := by
  refine ⟨?_, fun d => ?_, ?_, ?_⟩ <;> simp [Filter.reset]

/-- After reset no slot is referred to, and none is Occupied. -/
theorem State.resetWith_poolOk (c : Cfg) (e : Env) : (State.resetWith c e).poolOk := by
  intro d
  have hrefs : (State.resetWith c e).refs d = [] := by
    simp [State.refs, Port.reset, MicroPhase.held]
  rw [hrefs, State.resetWith_dir]
  exact ⟨List.nodup_nil, fun k => by simp [DirStore.reset_not_occupied]⟩

theorem State.resetWith_engineOk (c : Cfg) (e : Env) : (State.resetWith c e).engineOk := by
  refine ⟨fun p P hP => ?_, fun p hp => ?_, fun _ => rfl, fun _ => .inl rfl⟩
  · obtain rfl := State.mem_ports_resetWith (List.mem_of_getElem? hP)
    simp [Port.reset, Lin.reset]
  · cases hp

theorem State.resetWith_framesOk (c : Cfg) (e : Env) : (State.resetWith c e).framesOk := by
  refine ⟨fun d x hx => ?_, fun P hP => ?_⟩
  · rw [State.resetWith_dir] at hx
    obtain rfl := List.eq_of_mem_replicate hx
    decide
  · obtain rfl := State.mem_ports_resetWith hP
    trivial

theorem State.resetWith_copiedOk (c : Cfg) (e : Env) : (State.resetWith c e).copiedOk := by
  intro P hP
  obtain rfl := State.mem_ports_resetWith hP
  simp [Port.reset]

theorem State.resetWith_filterOk (c : Cfg) (e : Env) : (State.resetWith c e).filterOk := by
  refine ⟨fun x hx => ?_, Nat.zero_le _, fun n b hb => ?_⟩
  · obtain rfl := List.eq_of_mem_replicate hx
    simp [FilterEntry.legal, FilterEntry.unused]
  · have hn : ¬ n < (State.resetWith c e).flt.nActive := Nat.not_lt_zero n
    rw [if_neg hn]
    exact List.eq_of_mem_replicate (List.mem_of_getElem? hb)

/-- Settles O52: after reset the pool is Free, every port is READY, and the engine has no owner. -/
theorem invAtReset : Obligations.InvAtReset := by
  intro c e hc
  exact {
    cfgOk := hc
    sizes := State.resetWith_sized c e
    pool := State.resetWith_poolOk c e
    ports := fun P hP => .inl (by rw [State.mem_ports_resetWith hP]; rfl)
    engine := State.resetWith_engineOk c e
    frames := State.resetWith_framesOk c e
    copied := State.resetWith_copiedOk c e
    filter := State.resetWith_filterOk c e
    progress := State.progressOk_of_free rfl }

/-! ### The values of R43 -/

/-- Settles O12: the reset state holds the reset value of each unit. -/
theorem resetValues : Obligations.ResetValues := by
  intro c e s
  refine ⟨fun d => ?_, ?_, ?_, ?_, ⟨rfl, rfl⟩, ?_⟩
  · have hd : s.dir d = DirStore.reset (c.slots d) := State.resetWith_dir c e d
    rw [hd]
    exact ⟨by simp, fun x hx => by rw [List.eq_of_mem_replicate hx]; rfl, rfl, rfl⟩
  · exact ⟨List.length_replicate, fun x hx => List.eq_of_mem_replicate hx, rfl⟩
  · exact ⟨List.length_replicate, fun b hb => List.eq_of_mem_replicate hb, rfl⟩
  · exact ⟨rfl, rfl, rfl, rfl, rfl, rfl, rfl, rfl, rfl, rfl⟩
  · refine ⟨List.length_replicate, fun P hP => ?_⟩
    rw [State.mem_ports_resetWith hP]
    exact ⟨rfl, rfl, rfl, rfl, rfl⟩

end Sys2Proof.Machine
end

section
/-! One port replaced: what the others and the pool see of it. First the replacement itself, then the agents that replace a
port from outside its own micro-steps: its user, and the end of an illegal word. -/

namespace Sys2Proof.Machine

open Sys2Proof Host

/-! ### The ports after a replacement -/

/-- What is found at an index after a replacement: the new port in its own place, the old ones elsewhere. -/
theorem getElem?_set_cases {ports : List Port} {p q : Nat} {Q R : Port} (h : (ports.set p Q)[q]? = some R) :
    (q = p ∧ R = Q) ∨ (q ≠ p ∧ ports[q]? = some R) := by
  rw [List.getElem?_set] at h
  by_cases hpq : p = q
  · rw [if_pos hpq] at h
    split at h
    · exact .inl ⟨hpq.symm, (Option.some.inj h).symm⟩
    · cases h
  · rw [if_neg hpq] at h
    exact .inr ⟨Ne.symm hpq, h⟩

/-- The ports after a replacement: the new one, and the old ones of every other index. -/
theorem mem_set_cases {ports : List Port} {p : Nat} {Q R : Port} (h : R ∈ ports.set p Q) :
    R = Q ∨ ∃ q, q ≠ p ∧ ports[q]? = some R := by
  obtain ⟨q, hq⟩ := List.mem_iff_getElem?.mp h
  obtain ⟨_, rfl⟩ | hother := getElem?_set_cases hq
  · exact .inl rfl
  · exact .inr ⟨q, hother⟩

/-- A change of a port that exists, written as its replacement. -/
theorem modify_eq_set {ports : List Port} {p : Nat} {P : Port} (h : ports[p]? = some P) (f : Port → Port) :
    ports.modify p f = ports.set p (f P) := by
  rw [List.modify_eq_set_getElem?, h]; rfl

/-- Two ports that hold the same slot are the same port (R25). -/
theorem State.poolOk.holder_unique {s : State} (h : s.poolOk) {d : Dir} {k p q : Nat} {P Q : Port}
    (hp : s.ports[p]? = some P) (hq : s.ports[q]? = some Q) (hP : P.phase.held d = some k)
    (hQ : Q.phase.held d = some k) : p = q := by
  have hnodup : (s.ports.filterMap fun P => P.phase.held d).Nodup := (List.nodup_append.mp (h d).1).2.1
  obtain ⟨hpl, rfl⟩ := List.getElem?_eq_some_iff.mp hp
  obtain ⟨hql, rfl⟩ := List.getElem?_eq_some_iff.mp hq
  have hpair := List.pairwise_iff_getElem.mp (List.pairwise_filterMap.mp hnodup)
  obtain hlt | heq | hgt := Nat.lt_trichotomy p q
  · exact absurd rfl (hpair p q hpl hql hlt k hP k hQ)
  · exact heq
  · exact absurd rfl (hpair q p hql hpl hgt k hQ k hP)

/-- A slot that a port holds is Occupied, so it exists. -/
theorem State.poolOk.held_occupied {s : State} (h : s.poolOk) {d : Dir} {k : Nat} {P : Port} (hP : P ∈ s.ports)
    (hk : P.phase.held d = some k) : (s.dir d).occupied k :=
  ((h d).2 k).mp (List.mem_append_right _ (List.mem_filterMap.mpr ⟨P, hP, hk⟩))

/-! ### The invariant, and what it does not speak of -/

/-- The invariant speaks of the configuration, the ports, the mailbox, the filter packer and the engine only. -/
theorem State.Inv.of_eq {s t : State} (h : s.Inv) (hcfg : t.cfg = s.cfg) (hports : t.ports = s.ports)
    (hmb : t.mb = s.mb) (hflt : t.flt = s.flt) (hlin : t.lin = s.lin) : t.Inv := by
  cases s
  cases t
  dsimp only at hcfg hports hmb hflt hlin
  subst hcfg hports hmb hflt hlin
  exact ⟨h.cfgOk, h.sizes, h.pool, h.ports, h.engine, h.frames, h.copied, h.filter, h.progress⟩

/-- What an agent other than the port's own micro-step does to a port, as far as the invariant goes: the micro-phase stays,
and so do, outside READY, the command in progress and its operands. -/
structure Port.Undisturbed (P Q : Port) : Prop where
  phase : Q.phase = P.phase
  command : P.phase = .ready ∨ (Q.req = P.req ∧ Q.cw = P.cw ∧ Q.lat = P.lat)

theorem Port.Undisturbed.fits {P Q : Port} (h : P.Undisturbed Q) (hP : P.fits) : Q.fits := by
  unfold Port.fits
  rw [h.phase]
  obtain hready | ⟨hreq, hcw, _⟩ := h.command
  · exact .inl hready
  · rw [hreq, hcw]; exact hP

theorem Port.Undisturbed.frameOk {P Q : Port} (h : P.Undisturbed Q) (hP : P.frameOk) : Q.frameOk := by
  unfold Port.frameOk at hP ⊢
  rw [h.phase]
  obtain hready | ⟨_, _, hlat⟩ := h.command
  · rw [hready]; trivial
  · rw [hlat]; exact hP

/-- The pool's references do not see a port replaced by one in the same micro-phase. -/
theorem State.refs_setPort {s : State} {p : Nat} {P Q : Port} (hp : s.ports[p]? = some P) (hph : Q.phase = P.phase)
    (d : Dir) : (s.setPort p Q).refs d = s.refs d := by
  obtain ⟨hlt, rfl⟩ := List.getElem?_eq_some_iff.mp hp
  have hheld : (s.ports.set p Q).map (fun P => P.phase.held d) = s.ports.map fun P => P.phase.held d := by
    rw [List.map_set, hph, ← List.getElem_map (fun P : Port => P.phase.held d) (h := by simpa using hlt),
      List.set_getElem_self]
  have hfilter := congrArg (List.filterMap id) hheld
  simp only [List.filterMap_map, Function.id_comp] at hfilter
  exact congrArg ((s.dir d).fifo ++ ·) hfilter

/-- An undisturbed port keeps the invariant. -/
theorem State.Inv.setPort {s : State} (h : s.Inv) {p : Nat} {P Q : Port} (hp : s.ports[p]? = some P)
    (hQ : P.Undisturbed Q) : (s.setPort p Q).Inv where
  cfgOk := h.cfgOk
  sizes := ⟨List.length_set.trans h.sizes.1, h.sizes.2⟩
  pool := fun d => by rw [State.refs_setPort hp hQ.phase]; exact h.pool d
  ports := fun R hR => by
    obtain rfl | ⟨q, _, hq⟩ := mem_set_cases hR
    · exact hQ.fits (h.ports P (List.mem_of_getElem? hp))
    · exact h.ports R (List.mem_of_getElem? hq)
  engine := by
    obtain ⟨hrun, hlt, hfree, hidle⟩ := h.engine
    refine ⟨fun q R hR => ?_, fun q hq => (hlt q hq).trans_eq List.length_set.symm, hfree, hidle⟩
    obtain ⟨rfl, rfl⟩ | ⟨_, hR⟩ := getElem?_set_cases hR
    · rw [hQ.phase]; exact hrun q P hp
    · exact hrun q R hR
  frames := by
    refine ⟨h.frames.1, fun R hR => ?_⟩
    obtain rfl | ⟨q, _, hq⟩ := mem_set_cases hR
    · exact hQ.frameOk (h.frames.2 P (List.mem_of_getElem? hp))
    · exact h.frames.2 R (List.mem_of_getElem? hq)
  copied := fun R hR => by
    obtain rfl | ⟨q, _, hq⟩ := mem_set_cases hR
    · rw [hQ.phase]
      obtain hready | ⟨_, _, hlat⟩ := hQ.command
      · simp [hready]
      · rw [hlat]; exact h.copied P (List.mem_of_getElem? hp)
    · exact h.copied R (List.mem_of_getElem? hq)
  filter := h.filter
  progress := fun q R i hown hR hd => by
    obtain ⟨rfl, rfl⟩ | ⟨_, hR⟩ := getElem?_set_cases hR
    · have hrun : P.phase = .lRun := (h.engine.1 q P hp).mpr hown
      obtain hready | ⟨_, hcw, _⟩ := hQ.command
      · rw [hready] at hrun; cases hrun
      · exact h.progress q P i hown hp (hcw ▸ hd)
    · exact h.progress q R i hown hR hd

/-! ### The agents that replace a port from outside -/

/-- The user's event changes an undisturbed port, or, with a number that names no port, nothing (log entry 24). -/
theorem State.Inv.modifyPort {s : State} (h : s.Inv) (p : Nat) (f : Port → Port)
    (hf : ∀ P, s.ports[p]? = some P → P.Undisturbed (f P)) : State.Inv { s with ports := s.ports.modify p f } := by
  cases hp : s.ports[p]? with
  | none =>
    have hself : s.ports.modify p f = s.ports := List.modify_eq_self (List.getElem?_eq_none_iff.mp hp)
    exact h.of_eq rfl hself rfl rfl rfl
  | some P =>
    rw [modify_eq_set hp]
    exact h.setPort hp (hf P hp)

/-- A port that fits and is not busy is READY, so a presented word disturbs no command (R39). -/
theorem Port.fits.present {P : Port} (h : P.fits) (w : Word) : P.Undisturbed (P.present w) := by
  cases hreq : P.req with
  | true => rw [Port.present_busy hreq]; exact ⟨rfl, .inr ⟨rfl, rfl, rfl⟩⟩
  | false =>
    rw [Port.present_idle hreq]
    exact ⟨rfl, .inl (h.resolve_right fun hbusy => by simp [hreq] at hbusy)⟩

theorem State.Inv.userWrite {s : State} (h : s.Inv) (p : Nat) (i : Fin 4) (v : Word) : (s.userWrite p i v).Inv :=
  h.modifyPort p _ fun _ _ => ⟨rfl, .inr ⟨rfl, rfl, rfl⟩⟩

theorem State.Inv.userPresent {s : State} (h : s.Inv) (p : Nat) (w : Word) : (s.userPresent p w).Inv :=
  h.modifyPort p _ fun P hP => (h.ports P (List.mem_of_getElem? hP)).present w

end Sys2Proof.Machine
end

section
/-! The mailbox under one micro-step: sizes, the frames stored, and the frame that a posting port has copied in. -/

namespace Sys2Proof.Machine

open Sys2Proof Host

/-! ### Sizes and stored frames -/

/-- No micro-step makes or removes a slot (R22). -/
theorem MbEffect.slots_length {c : Cfg} {m m' : Mailbox} {P Q : Port} (h : MbEffect c m P Q m') (e : Dir) :
    (m'.get e).slots.length = (m.get e).slots.length := by
  cases h with
  | same _ => rfl
  | claim d k _ _ _ | write d k _ _ _ | release d k _ _ | rollback d k _ _ =>
    rw [Mailbox.get_set]
    split
    · rename_i hed; subst hed; simp
    · rfl
  | push d k _ _ _ | pop d k rest _ _ _ | drop d _ _ _ =>
    rw [Mailbox.get_set]
    split
    · rename_i hed; subst hed; rfl
    · rfl

/-- The frame read from a slot after a micro-step: the one before, or the frame that the port, holding the slot, copies in. -/
theorem MbEffect.read {c : Cfg} {m m' : Mailbox} {P Q : Port} (h : MbEffect c m P Q m') (e : Dir) (j : Nat) :
    (m'.get e).read j = (m.get e).read j
    ∨ (P.phase.held e = some j ∧ (P.frameOk → operandsLegal P.lat = true) ∧ (m'.get e).read j = P.lat.frame) := by
  cases h with
  | same _ => exact .inl rfl
  | write d k hP _ hf =>
    rw [Mailbox.get_set]
    split
    · rename_i hed
      subst hed
      rw [DirStore.write_read]
      split
      · rename_i hj
        exact .inr ⟨by rw [hP e, if_pos rfl, hj.1], hf, rfl⟩
      · exact .inl rfl
    · exact .inl rfl
  | claim d k _ _ _ | release d k _ _ | rollback d k _ _ =>
    refine .inl ?_
    rw [Mailbox.get_set]
    split
    · rename_i hed; subst hed; exact DirStore.mark_read _ _ _ _
    · rfl
  | push d k _ _ _ | pop d k rest _ _ _ | drop d _ _ _ =>
    refine .inl ?_
    rw [Mailbox.get_set]
    split
    · rename_i hed; subst hed; rfl
    · rfl

/-- The frames stored are well-formed when every read gives a well-formed frame; a read outside the slots gives the reset one. -/
theorem DirStore.frames_wf_iff (D : DirStore) :
    (∀ x ∈ D.slots, x.frm.wf = true) ↔ ∀ k, (D.read k).wf = true := by
  constructor
  · intro h k
    unfold DirStore.read
    cases hk : D.slots[k]? with
    | none => decide
    | some x => exact h x (List.mem_of_getElem? hk)
  · intro h x hx
    obtain ⟨k, hk⟩ := List.mem_iff_getElem?.mp hx
    simpa [DirStore.read, hk] using h k

/-- The frame that legal operands spell is well-formed (R21, R142). -/
theorem operandsLegal_frame_wf {q : Quad} (h : operandsLegal q = true) : q.frame.wf = true := by
  simp only [operandsLegal, Bool.and_eq_true, Bool.or_eq_true, decide_eq_true_eq] at h
  obtain ⟨_, hid⟩ := h
  have hlen : (q.bytes (q.w1.extractLsb' 0 4).toNat).length ≤ 8 := by
    simp [Quad.bytes, Quad.allBytes]
  simp only [Frame.wf, Quad.frame, hlen, decide_true, Bool.true_and, Bool.or_eq_true]
  refine hid.imp_right fun hhigh => ?_
  have hsmall := congrArg BitVec.toNat hhigh
  simp only [BitVec.extractLsb'_toNat, Nat.shiftRight_eq_div_pow, BitVec.ofNat_eq_ofNat, BitVec.toNat_zero,
    decide_eq_true_eq] at hsmall ⊢
  omega

/-! ### The frame in the port's own hands -/

/-- A port in a micro-phase of MB.POST has passed the test of its operands. -/
theorem Port.frameOk.operandsLegal {P : Port} (h : P.frameOk) {d : Dir} (hfit : fitsPhase (.mbPost d) P.phase = true) :
    operandsLegal P.lat = true := by
  unfold Port.frameOk at h
  cases hph : P.phase <;> rw [hph] at h hfit
  case pMirrorClaimed k copied => exact h
  case pPrimary => exact h
  case pClaimed d' k pos => exact h
  all_goals simp [fitsPhase] at hfit

theorem Port.frameOk_of_operandsLegal {P : Port} (h : operandsLegal P.lat = true) {d : Dir}
    (hfit : fitsPhase (.mbPost d) P.phase = true) : P.frameOk := by
  unfold Port.frameOk
  cases hph : P.phase <;> rw [hph] at hfit
  case pMirrorClaimed k copied => exact h
  case pPrimary => exact h
  case pClaimed d' k pos => exact h
  all_goals simp [fitsPhase] at hfit

theorem Port.frameOk_of_ready {P : Port} (h : P.phase = .ready) : P.frameOk := by
  unfold Port.frameOk; rw [h]; trivial

/-- The micro-phase of the acting port after a `goto`. -/
theorem State.acting.goto_phase {s : State} {P Q : Port} (hP : s.acting P) {ph : MicroPhase} (hQ : (s.goto ph).acting Q) :
    Q.phase = ph := by
  rw [hP.goto] at hQ
  rw [← hQ.me, (hP.withPort _).me]

/-- The micro-phase of the acting port after the end of its command. -/
theorem State.acting.endCmd_phase {s : State} {P Q : Port} (hP : s.acting P) {c : Status} {ph : LinPhase}
    (hQ : (s.endCmd c ph).acting Q) : Q.phase = .ready := by
  rw [hP.endCmd] at hQ
  rw [← hQ.me, (hP.withPort _).me]; rfl

end Sys2Proof.Machine
end

section
/-! The frames on their way through a port: what MB.POST has copied in, and what MB.FETCH has copied out. -/

namespace Sys2Proof.Machine

open Sys2Proof Host

/-! ### The slot that a posting port has copied its frame into -/

/-- The direction and slot into which a port in this micro-phase has copied its frame, and which it publishes next (R132). -/
def MicroPhase.copiedSlot : MicroPhase → Option (Dir × Nat)
  | .pMirrorClaimed k true => some (.usb, k)
  | .pClaimed d k .publish => some (d, k)
  | _ => none

theorem State.copiedOk_iff (s : State) :
    s.copiedOk ↔ ∀ P ∈ s.ports, ∀ d k, P.phase.copiedSlot = some (d, k) → (s.dir d).read k = P.lat.frame := by
  refine forall₂_congr fun P _ => ⟨fun ⟨hmirror, hown⟩ d k hslot => ?_, fun h => ⟨fun k hph => ?_, fun d k hph => ?_⟩⟩
  · unfold MicroPhase.copiedSlot at hslot
    split at hslot
    · rename_i hph; cases hslot; exact hmirror _ hph
    · rename_i hph; cases hslot; exact hown _ _ hph
    · cases hslot
  · exact h .usb k (by rw [hph]; rfl)
  · exact h d k (by rw [hph]; rfl)

/-- The slot that holds the copy is the one the port holds (R39). -/
theorem MicroPhase.held_of_copiedSlot {ph : MicroPhase} {d : Dir} {k : Nat} (h : ph.copiedSlot = some (d, k)) :
    ph.held d = some k := by
  unfold MicroPhase.copiedSlot at h
  split at h <;> cases h <;> simp [MicroPhase.held]

/-- After a micro-step of MB.POST the port publishes next only when that step was the copy-in (R132). -/
theorem execMbPost_copiedSlot {d : Dir} {s t : State} {P Q : Port} (hP : s.acting P) (h : execMbPost d s = .next t)
    (hQ : t.acting Q) :
    Q.phase.copiedSlot = none ∨ ∃ e k, P.phase.held e = some k ∧ Q.phase.copiedSlot = some (e, k)
      ∧ t.dir e = (s.dir e).write k P.lat.frame := by
  have endsReady : ∀ {u : State} {c : Status} {ph : LinPhase}, u.acting P → (u.endCmd c ph).acting Q →
      Q.phase.copiedSlot = none := fun hu hQ => by rw [hu.endCmd_phase hQ]; rfl
  have claims : ∀ e, (postP1 e s).acting Q → Q.phase.copiedSlot = none := by
    intro e hQ
    unfold postP1 at hQ
    split at hQ
    · exact endsReady hP hQ
    · rename_i k u hc
      obtain ⟨_, rfl⟩ := (State.claim_eq_some ..).mp hc
      rw [State.acting.goto_phase hP hQ]; rfl
  have claimsMirror : (postM1 s).acting Q → Q.phase.copiedSlot = none := by
    intro hQ
    unfold postM1 at hQ
    split at hQ
    · rw [State.acting.goto_phase hP hQ]; rfl
    · rename_i k u hc
      obtain ⟨_, rfl⟩ := (State.claim_eq_some ..).mp hc
      rw [State.acting.goto_phase hP hQ]; rfl
  unfold execMbPost at h
  rw [hP.me] at h
  cases hph : P.phase with
  | ready =>
    simp only [hph, Host.Outcome.next.injEq] at h
    subst h
    refine .inl ?_
    unfold postStart at hQ
    split at hQ
    · cases d with
      | tx => exact claimsMirror hQ
      | rx => exact claims .rx hQ
      | usb => exact claims .usb hQ
    · exact endsReady hP hQ
  | pMirrorClaimed k copied =>
    cases copied with
    | false =>
      simp only [hph, Host.Outcome.next.injEq] at h
      subst h
      unfold postM2 at hQ ⊢
      rw [State.acting.goto_phase hP hQ, hP.me]
      exact .inr ⟨.usb, k, rfl, rfl, by simp⟩
    | true =>
      simp only [hph, Host.Outcome.next.injEq] at h
      subst h
      refine .inl ?_
      unfold postM3 at hQ
      split at hQ
      · rename_i u hc
        obtain ⟨_, rfl⟩ := (State.push_eq_some ..).mp hc
        rw [State.acting.goto_phase hP hQ]; rfl
      · rw [State.acting.goto_phase hP hQ]; rfl
  | pPrimary =>
    simp only [hph, Host.Outcome.next.injEq] at h
    subst h
    exact .inl (claims d hQ)
  | pClaimed e k pos =>
    cases pos with
    | copy =>
      simp only [hph, Host.Outcome.next.injEq] at h
      subst h
      unfold postP2 at hQ ⊢
      rw [State.acting.goto_phase hP hQ, hP.me]
      exact .inr ⟨e, k, by simp [MicroPhase.held], rfl, by simp⟩
    | publish =>
      simp only [hph, Host.Outcome.next.injEq] at h
      subst h
      refine .inl ?_
      unfold postP3 at hQ
      split at hQ
      · rename_i u hc
        obtain ⟨_, rfl⟩ := (State.push_eq_some ..).mp hc
        exact endsReady hP hQ
      · rw [State.acting.goto_phase hP hQ]; rfl
    | rollback =>
      simp only [hph, Host.Outcome.next.injEq] at h
      subst h
      exact .inl (endsReady (u := (s.release e k).countDrop e) hP hQ)
  | fPopped e k out => simp [hph] at h
  | lWait => simp [hph] at h
  | lRun => simp [hph] at h

/-- No micro-phase of a command but MB.POST is one in which a copied frame waits for its publication. -/
theorem copiedSlot_of_fitsPhase {i : Instr} {ph : MicroPhase} (hi : ∀ d, i ≠ .mbPost d) (h : fitsPhase i ph = true) :
    ph.copiedSlot = none := by
  unfold MicroPhase.copiedSlot
  split
  · cases i <;> simp [fitsPhase] at h hi
  · cases i <;> simp [fitsPhase] at h hi
  · rfl

/-- After a micro-step of any command, run from a micro-phase of its own, a port that publishes next has just copied its frame
into the slot it holds. -/
theorem ExecEffect.copiedSlot {i : Instr} {s t : State} {P Q : Port} (hP : s.acting P) (hx : exec i s = .next t)
    (h : ExecEffect i s P t Q) (hQ : t.acting Q) (hfit : P.phase = .ready ∨ fitsPhase i P.phase = true) :
    Q.phase.copiedSlot = none ∨ ∃ e k, P.phase.held e = some k ∧ Q.phase.copiedSlot = some (e, k)
      ∧ t.dir e = (s.dir e).write k P.lat.frame := by
  by_cases hpost : ∃ d, i = .mbPost d
  · obtain ⟨d, rfl⟩ := hpost
    exact execMbPost_copiedSlot hP hx hQ
  · refine .inl ?_
    obtain hready | ⟨_, hfitQ⟩ := h.stays hfit
    · rw [hready]; rfl
    · exact copiedSlot_of_fitsPhase (fun d hi => hpost ⟨d, hi⟩) hfitQ

/-! ### The frame on its way -/

/-- MB.FETCH copies out a frame that is stored (R136), so it is a well-formed one. -/
theorem execMbFetch_frameOk {d : Dir} {s t : State} {P Q : Port} (hP : s.acting P) (h : execMbFetch d s = .next t)
    (hQ : t.acting Q) (hframes : ∀ d k, ((s.dir d).read k).wf = true) : Q.frameOk := by
  unfold execMbFetch at h
  rw [hP.me] at h
  cases hph : P.phase with
  | ready =>
    simp only [hph, Host.Outcome.next.injEq] at h
    subst h
    unfold fetchF1 at hQ
    split at hQ
    · exact Port.frameOk_of_ready (hP.endCmd_phase hQ)
    · rename_i k u hc
      obtain ⟨rest, _, rfl⟩ := (State.pop_eq_some ..).mp hc
      unfold Port.frameOk
      rw [State.acting.goto_phase hP hQ]
      trivial
  | fPopped e k out =>
    cases out with
    | none =>
      simp only [hph, Host.Outcome.next.injEq] at h
      subst h
      unfold Port.frameOk
      rw [State.acting.goto_phase hP hQ]
      exact hframes e k
    | some f =>
      simp only [hph, Host.Outcome.next.injEq] at h
      subst h
      have hset : ((s.release e k).setR f.results).acting { P with r := f.results } := by
        rw [State.acting_def, State.setR_ports, State.release_ports, State.release_cur, State.modify_acting hP]
        simp [hP.lt]
      exact Port.frameOk_of_ready (hset.endCmd_phase hQ)
  | pMirrorClaimed k copied => simp [hph] at h
  | pPrimary => simp [hph] at h
  | pClaimed e k pos => simp [hph] at h
  | lWait => simp [hph] at h
  | lRun => simp [hph] at h

/-- MB.POST with illegal operands ends at once, with nothing claimed (R142). -/
theorem execMbPost_illegal {d : Dir} {s t : State} {P Q : Port} (hP : s.acting P) (h : execMbPost d s = .next t)
    (hQ : t.acting Q) (hph : P.phase = .ready) (hbad : operandsLegal P.lat = false) : Q.phase = .ready := by
  unfold execMbPost at h
  simp only [hP.me, hph, Host.Outcome.next.injEq] at h
  subst h
  unfold postStart at hQ
  rw [hP.me, hbad] at hQ
  exact hP.endCmd_phase hQ

/-- A port outside MB.POST and MB.FETCH carries no frame. -/
theorem Port.frameOk_of_lin {P : Port} (h : P.phase = .lWait ∨ P.phase = .lRun) : P.frameOk := by
  unfold Port.frameOk
  obtain h | h := h <;> rw [h] <;> trivial

/-- The frame in the acting port's hands is well-formed after its micro-step. -/
theorem ExecEffect.frameOk {i : Instr} {s t : State} {P Q : Port} (hP : s.acting P) (hx : exec i s = .next t)
    (h : ExecEffect i s P t Q) (hQ : t.acting Q) (hfit : P.phase = .ready ∨ fitsPhase i P.phase = true)
    (hframe : P.frameOk) (hframes : ∀ d k, ((s.dir d).read k).wf = true) : Q.frameOk := by
  obtain hready | ⟨_, hfitQ⟩ := h.stays hfit
  · exact Port.frameOk_of_ready hready
  obtain hone | heng | ⟨d, rfl⟩ | ⟨d, rfl⟩ := instr_forms i
  · rw [fitsPhase_of_isOneStep hone] at hfitQ; cases hfitQ
  · exact Port.frameOk_of_lin (fitsPhase_of_usesEngine heng hfitQ)
  · refine Port.frameOk_of_operandsLegal (h.lat ▸ ?_) hfitQ
    obtain hready | hfitP := hfit
    · cases hop : operandsLegal P.lat with
      | true => rfl
      | false =>
        rw [execMbPost_illegal hP hx hQ hready hop] at hfitQ
        simp [fitsPhase] at hfitQ
    · exact hframe.operandsLegal hfitP
  · exact execMbFetch_frameOk hP hx hQ hframes

end Sys2Proof.Machine
end

section
/-! The filter packer under one micro-step: the entries stay in range, and the bank table keeps its form (R27, R29). -/

namespace Sys2Proof.Machine

open Sys2Proof Host

/-! ### What a command can do to the filter packer -/

/-- Everything a micro-step can do to the filter packer: the four FLT commands (R161 to R164), or nothing. -/
inductive FltEffect (c : Cfg) (f : Filter) : Filter → Prop
  | same : FltEffect c f f
  | clear : FltEffect c f { f with ents := List.replicate (2 * c.banks) FilterEntry.unused }
  | store (slot : Nat) (ext : Bool) (id : Word) (hok : fltSetLegal c slot ext id = true) :
      FltEffect c f { f with ents := f.ents.set slot ⟨id, ext⟩ }
  | enable (n : Bool) : FltEffect c f { f with enabled := n }
  | apply : FltEffect c f (f.applied c)

theorem exec_fltEffect {i : Instr} {s t : State} (h : exec i s = .next t) : FltEffect s.cfg s.flt t.flt := by
  obtain hone | heng | ⟨d, rfl⟩ | ⟨d, rfl⟩ := instr_forms i
  · cases exec_oneEffect hone h with
    | none _ _ _ _ hf _ _ => rw [hf]; exact .same
    | fltClear _ _ _ _ _ hf => rw [hf]; exact .clear
    | fltSet slot ext id _ _ _ _ _ hok hf => rw [hf]; exact .store _ _ _ hok
    | fltEn n _ _ _ _ _ hf => rw [hf]; exact .enable n
    | fltApply _ _ _ _ _ hf => rw [hf]; exact .apply
    | actMark _ _ _ hf _ _ => rw [hf]; exact .same
    | mode _ _ _ _ hf _ _ => rw [hf]; exact .same
    | wake _ _ _ _ hf _ _ => rw [hf]; exact .same
  · rw [(exec_linKept heng h).flt]; exact .same
  · obtain ⟨hflt, _, _⟩ := execMbPost_units h
    rw [hflt]; exact .same
  · obtain ⟨hflt, _, _⟩ := execMbFetch_units h
    rw [hflt]; exact .same

/-! ### The entries -/

/-- R162: what FLT.SET stores is in range, and its index exists. -/
theorem fltSetLegal_iff (c : Cfg) (slot : Nat) (ext : Bool) (id : Word) :
    fltSetLegal c slot ext id = true ↔ slot < 2 * c.banks ∧ FilterEntry.legal ⟨id, ext⟩ := by
  unfold fltSetLegal FilterEntry.legal
  by_cases hslot : 2 * c.banks ≤ slot
  · simp [hslot]
  · cases ext <;> simp [hslot, Nat.lt_of_not_le hslot]

/-! ### The bank table that FLT.APPLY derives -/

/-- R29: what an active bank at position `n` holds beside its mode and registers. -/
def Bank.activeAt (n : Nat) (b : Bank) : Prop :=
  b.active = true ∧ b.index = BitVec.ofNat 8 n ∧ b.fifo = 0 ∧ b.scale = .s32

theorem listBank_activeAt (ideBit n : Nat) (p : FilterEntry × FilterEntry) : (listBank ideBit n p).activeAt n :=
  ⟨rfl, rfl, rfl, rfl⟩

/-- The populated pairs are at most as many as the pairs (R166). -/
theorem Filter.populatedPairs_length_le (f : Filter) (b : Nat) : (f.populatedPairs b).length ≤ b := by
  refine (List.length_filter_le ..).trans_eq ?_
  simp

/-- The descriptors fit the hardware banks (R164). -/
theorem Filter.activeBanks_length_le {c : Cfg} (hb : 1 ≤ c.banks) (f : Filter) : (f.activeBanks c).length ≤ c.banks := by
  unfold Filter.activeBanks
  split
  · split
    · exact hb
    · rename_i p ps hpairs
      rw [List.length_mapIdx, ← hpairs]
      exact f.populatedPairs_length_le c.banks
  · exact hb

/-- Descriptor `n` is that of an active bank at position `n`. -/
theorem Filter.activeBanks_activeAt {c : Cfg} {f : Filter} {n : Nat} {b : Bank} (h : (f.activeBanks c)[n]? = some b) :
    b.activeAt n := by
  have single : ∀ x : Bank, x.activeAt 0 → [x][n]? = some b → b.activeAt n := by
    intro x hx hn
    obtain ⟨rfl, rfl⟩ : n = 0 ∧ x = b := by
      rw [List.getElem?_singleton] at hn
      split at hn
      · exact ⟨‹_›, Option.some.inj hn⟩
      · cases hn
    exact hx
  unfold Filter.activeBanks at h
  split at h
  · split at h
    · exact single _ (listBank_activeAt _ _ _) h
    · rw [List.getElem?_mapIdx, Option.map_eq_some_iff] at h
      obtain ⟨p, _, rfl⟩ := h
      exact listBank_activeAt _ _ _
  · exact single _ ⟨rfl, rfl, rfl, rfl⟩ h

theorem Filter.applied_nActive (c : Cfg) (f : Filter) : (f.applied c).nActive = (f.activeBanks c).length := rfl

theorem Filter.applied_banks (c : Cfg) (f : Filter) :
    (f.applied c).banks =
      f.activeBanks c ++ List.replicate (c.banks - (f.activeBanks c).length) Bank.inactive := rfl

/-! ### The invariant's part -/

/-- The sizes of the filter packer's stores, its entries' range and the form of its bank table, as one fact about its state:
the parts of the invariant that speak of it. -/
structure Filter.ok (c : Cfg) (f : Filter) : Prop where
  ents_length : f.ents.length = 2 * c.banks
  banks_length : f.banks.length = c.banks
  legal : ∀ e ∈ f.ents, e.legal
  nActive_le : f.nActive ≤ c.banks
  banks : ∀ n b, f.banks[n]? = some b → if n < f.nActive then b.activeAt n else b = Bank.inactive

theorem State.Inv.filter_ok {s : State} (h : s.Inv) : s.flt.ok s.cfg :=
  let ⟨_, _, hents, hbanks⟩ := h.sizes
  let ⟨hlegal, hle, htable⟩ := h.filter
  ⟨hents, hbanks, hlegal, hle, htable⟩

theorem Filter.ok.filterOk {s : State} (h : s.flt.ok s.cfg) : s.filterOk := ⟨h.legal, h.nActive_le, h.banks⟩

/-- A micro-step keeps the filter packer's part of the invariant. -/
theorem FltEffect.ok {c : Cfg} {f g : Filter} (h : FltEffect c f g) (hb : 1 ≤ c.banks) (hf : f.ok c) : g.ok c := by
  cases h with
  | same => exact hf
  | clear =>
    refine { hf with ents_length := List.length_replicate, legal := fun e he => ?_ }
    obtain rfl := List.eq_of_mem_replicate he
    simp [FilterEntry.legal, FilterEntry.unused]
  | store slot ext id hok =>
    refine { hf with ents_length := List.length_set.trans hf.ents_length, legal := fun e he => ?_ }
    obtain hold | rfl := List.mem_or_eq_of_mem_set he
    · exact hf.legal e hold
    · exact ((fltSetLegal_iff ..).mp hok).2
  | enable n => exact { hf with }
  | apply =>
    have hle := f.activeBanks_length_le hb
    refine { hf with banks_length := ?_, nActive_le := hle, banks := fun n b hn => ?_ }
    · rw [Filter.applied_banks, List.length_append, List.length_replicate]; omega
    · rw [Filter.applied_banks] at hn
      split <;> rename_i hlt <;> rw [Filter.applied_nActive] at hlt
      · rw [List.getElem?_append_left hlt] at hn
        exact Filter.activeBanks_activeAt hn
      · rw [List.getElem?_append_right (Nat.le_of_not_lt hlt)] at hn
        exact List.eq_of_mem_replicate (List.mem_of_getElem? hn)

end Sys2Proof.Machine
end

section
/-! The engine under one micro-step (R46, R204, R213): who owns it, and where the owner's command is. -/

namespace Sys2Proof.Machine

open Sys2Proof Host

/-! ### The bounds of a legal configuration (R6) -/

theorem banks_pos_of_wf {c : Cfg} (h : c.wf = true) : 1 ≤ c.banks := by
  simp only [Cfg.wf, Bool.and_eq_true, decide_eq_true_eq] at h; omega

theorem banks_le_of_wf {c : Cfg} (h : c.wf = true) : c.banks ≤ 128 := by
  simp only [Cfg.wf, Bool.and_eq_true, decide_eq_true_eq] at h; omega

theorem statusLen_le_of_wf {c : Cfg} (h : c.wf = true) : c.statusLen ≤ 8 := by
  simp only [Cfg.wf, Bool.and_eq_true, decide_eq_true_eq] at h; omega

theorem diagReqData_length_le_of_wf {c : Cfg} (h : c.wf = true) : c.diagReqData.length ≤ 8 := by
  simp only [Cfg.wf, Bool.and_eq_true, decide_eq_true_eq] at h; omega

/-! ### The owner (R46) -/

/-- A micro-step keeps the owner and the ports in `L_RUN` together. -/
theorem ExecEffect.engineOk {i : Instr} {s t : State} {P Q : Port} (hP : s.acting P) (h : ExecEffect i s P t Q)
    (hs : s.engineOk) : t.engineOk := by
  obtain ⟨hrun, hlt, hfree, hidle⟩ := hs
  have hme : P.phase = .lRun ↔ s.lin.owner = some s.cur := hrun s.cur P hP
  have hlen : t.ports.length = s.ports.length := by rw [h.ports, List.length_set]
  have split_port : ∀ {q R}, t.ports[q]? = some R → (q = s.cur ∧ R = Q) ∨ (q ≠ s.cur ∧ s.ports[q]? = some R) :=
    fun hR => getElem?_set_cases (h.ports ▸ hR)
  cases h.lin with
  | outside hPout hQout ho hp hf =>
    refine ⟨fun q R hR => ?_, fun q hq => hlen ▸ hlt q (ho ▸ hq), fun hn => ?_, fun hi => ?_⟩
    · rw [ho]
      obtain ⟨rfl, rfl⟩ | ⟨_, hR⟩ := split_port hR
      · exact iff_of_false hQout fun hown => hPout (hme.mpr hown)
      · exact hrun q R hR
    · rw [hp]; exact hfree (ho ▸ hn)
    · rw [ho, hf]; exact hidle (hp ▸ hi)
  | enter ho hQrun ho' hp =>
    refine ⟨fun q R hR => ?_, fun q hq => ?_, fun hn => ?_, fun hi => ?_⟩
    · rw [ho', Option.some_inj]
      obtain ⟨rfl, rfl⟩ | ⟨hne, hR⟩ := split_port hR
      · exact iff_of_true hQrun rfl
      · refine iff_of_false (fun hRrun => ?_) (Ne.symm hne)
        have hown := (hrun q R hR).mp hRrun
        rw [ho] at hown; cases hown
    · rw [ho'] at hq; cases hq; exact hlen ▸ hP.lt
    · rw [ho'] at hn; cases hn
    · rw [hp] at hi; cases hi
  | run hPrun hQrun ho hp =>
    have hown := hme.mp hPrun
    refine ⟨fun q R hR => ?_, fun q hq => hlen ▸ hlt q (ho ▸ hq), fun hn => ?_, fun hi => ?_⟩
    · rw [ho]
      obtain ⟨rfl, rfl⟩ | ⟨_, hR⟩ := split_port hR
      · exact iff_of_true hQrun hown
      · exact hrun q R hR
    · rw [ho, hown] at hn; cases hn
    · obtain hsome | ⟨hsi, hf⟩ := hp hi
      · exact .inr hsome
      · rw [ho, hf]; exact hidle hsi
  | ended hPrun hQready ho hp =>
    have hown := hme.mp hPrun
    refine ⟨fun q R hR => ?_, fun q hq => ?_, fun _ => hp, fun _ => .inl ho⟩
    · rw [ho]
      obtain ⟨rfl, rfl⟩ | ⟨hne, hR⟩ := split_port hR
      · exact iff_of_false (by rw [hQready]; simp) (by simp)
      · refine iff_of_false (fun hRrun => hne ?_) (by simp)
        exact Option.some.inj (((hrun q R hR).mp hRrun).symm.trans hown)
    · rw [ho] at hq; cases hq

/-! ### Where the owner's command is -/

/-- The engine is where a command `i` that owns it can be, and only LIN.CYCLE has a first outcome: `State.progressOk` of one
command. -/
def Lin.runs (c : Cfg) (i : Instr) (l : Lin) : Prop :=
  l.at c i ∧ ∀ k ph, l.first = some (k, ph) → i = .linCycle ∧ sendOutcome k ph

theorem State.progressOk_iff (s : State) :
    s.progressOk ↔ ∀ p P i, s.lin.owner = some p → s.ports[p]? = some P → decode P.cw = .ok i → s.lin.runs s.cfg i :=
  Iff.rfl

/-- Inside a transaction, where a command can be is where its transaction can be. -/
theorem Lin.at_iff_inTxn {c : Cfg} {i : Instr} {l : Lin} {t : Txn} (hs : l.stage = .xfer) (hp : l.phase ≠ .idle)
    (ht : commandTxn c l.first i = some t) : l.at c i ↔ l.inTxn t := by
  unfold Lin.at Lin.inTxn
  rw [hs, ht]
  cases hph : l.phase
  case idle => exact absurd hph hp
  all_goals simp

/-- The stages of a command that owns the engine: the counter step of LIN.CYCLE, the moment after a telemetry update, the pause
between LIN.CYCLE's two transactions, or a transaction. -/
theorem Lin.at.stages {c : Cfg} {i : Instr} {l : Lin} (h : l.at c i) :
    (l.stage = .frame ∧ l.phase = .brk ∧ i = .linCycle ∧ l.first = none)
    ∨ (l.stage = .telemDone ∧ l.phase = .validate ∧ (i = .linDiag ∨ (i = .linCycle ∧ l.first.isSome = true)))
    ∨ (l.stage = .xfer ∧ l.phase = .idle ∧ i = .linCycle ∧ l.first.isSome = true)
    ∨ (l.stage = .xfer ∧ l.phase ≠ .idle) := by
  unfold Lin.at at h
  cases hs : l.stage <;> cases hp : l.phase <;> rw [hs, hp] at h <;> simp at h ⊢
  case frame.brk => exact h
  case telemDone.validate => exact h.1
  case xfer.idle => exact h

theorem Lin.inTxn.phase_ne_idle {t : Txn} {l : Lin} (h : l.inTxn t) : l.phase ≠ .idle := by
  intro hi
  obtain ⟨_, hphase⟩ := h
  rw [hi] at hphase
  exact hphase

/-- A command whose transaction has just been loaded is at its break. -/
theorem Lin.runs_of_loaded {c : Cfg} {i : Instr} {l : Lin} (hs : l.stage = .xfer) (hp : l.phase = .brk) (hlf : l.lf.ok)
    (hf : ∀ k ph, l.first = some (k, ph) → i = .linCycle ∧ sendOutcome k ph) : l.runs c i := by
  refine ⟨?_, hf⟩
  unfold Lin.at
  rw [hs, hp]
  exact hlf

theorem startTxn_runs {c : Cfg} {i : Instr} {id : BitVec 6} {data : List Byte} {u : State} (hlen : data.length ≤ 8)
    (hf : ∀ k ph, u.lin.first = some (k, ph) → i = .linCycle ∧ sendOutcome k ph) :
    (startTxn id data u).lin.runs c i := Lin.runs_of_loaded rfl rfl ⟨rfl, hlen, rfl⟩ hf

/-! ### One step of the transaction -/

theorem txnStep_going_inTxn {t : Txn} {s u : State} (h : s.lin.inTxn t) (hgo : txnStep t s = .going u) : u.lin.inTxn t := by
  obtain ⟨v, hv, hin, _⟩ | ⟨v, c, ph, hv, _⟩ := txnStep_progress h
  · obtain rfl : v = u := by rw [hgo] at hv; cases hv; rfl
    exact hin
  · rw [hgo] at hv; cases hv

theorem txnStep_ended_outcome {t : Txn} {s u : State} {c : Status} {ph : LinPhase} (h : s.lin.inTxn t)
    (hend : txnStep t s = .ended u c ph) :
    txnOutcome t c ph ∧ (c = .ok → t.resp.isSome = true → s.lin.phase = .validate ∧ u = s) := by
  obtain ⟨v, hv, _⟩ | ⟨v, c', ph', hv, hout, hok⟩ := txnStep_progress h
  · rw [hend] at hv; cases hv
  · rw [hend] at hv; cases hv
    exact ⟨hout, fun hc hresp => (hok hc).2 hresp⟩

/-- A transaction that goes on leaves its command where it can be. -/
theorem txnStep_going_runs {c : Cfg} {i : Instr} {t : Txn} {s u : State} (h : s.lin.runs c i) (hs : s.lin.stage = .xfer)
    (hp : s.lin.phase ≠ .idle) (ht : commandTxn c s.lin.first i = some t) (hgo : txnStep t s = .going u) :
    u.lin.runs c i := by
  obtain ⟨hat, hfirst⟩ := h
  have hkept := txnStep_going hgo
  have hin := txnStep_going_inTxn ((Lin.at_iff_inTxn hs hp ht).mp hat) hgo
  refine ⟨?_, hkept.first ▸ hfirst⟩
  exact (Lin.at_iff_inTxn (hkept.stage.trans hs) hin.phase_ne_idle (hkept.first ▸ ht)).mpr hin

/-! ### One step of each command that owns the engine -/

theorem linEnd_owner (c : Status) (ph : LinPhase) (s : State) : (linEnd c ph s).lin.owner = none := rfl

theorem Lin.runs.stage_xfer {c : Cfg} {i : Instr} {l : Lin} (h : l.runs c i) (hd : i ≠ .linDiag) (hc : i ≠ .linCycle) :
    l.stage = .xfer ∧ l.phase ≠ .idle := by
  obtain ⟨hat, _⟩ := h
  simpa [hd, hc] using hat.stages

theorem sendStep_runs {c : Cfg} {i : Instr} {t : Txn} {s : State} (h : s.lin.runs c i)
    (hx : s.lin.stage = .xfer ∧ s.lin.phase ≠ .idle) (ht : commandTxn c s.lin.first i = some t) :
    (sendStep t s).lin.owner = none ∨ (sendStep t s).lin.runs c i := by
  unfold sendStep
  split <;> rename_i hstep
  · exact .inr (txnStep_going_runs h hx.1 hx.2 ht hstep)
  · exact .inl (linEnd_owner ..)

theorem xchgStep_runs {c : Cfg} {i : Instr} {t : Txn} {s : State} (h : s.lin.runs c i)
    (hx : s.lin.stage = .xfer ∧ s.lin.phase ≠ .idle) (ht : commandTxn c s.lin.first i = some t) :
    (xchgStep t s).lin.owner = none ∨ (xchgStep t s).lin.runs c i := by
  unfold xchgStep
  split <;> rename_i hstep
  · exact .inr (txnStep_going_runs h hx.1 hx.2 ht hstep)
  · exact .inl (linEnd_owner ..)
  · exact .inl (linEnd_owner ..)

/-- The diagnostic exchange, alone or after LIN.CYCLE's status frame: a step that goes on leaves its command where it can be, also
when it updates the telemetry (R208). -/
theorem diagStep_going_runs {i : Instr} {s u : State} (h : s.lin.runs s.cfg i)
    (hi : i = .linDiag ∨ (i = .linCycle ∧ s.lin.first.isSome = true)) (hp : s.lin.phase ≠ .idle)
    (hgo : diagStep s = .going u) : u.lin.runs s.cfg i := by
  have ht : commandTxn s.cfg s.lin.first i = some (diagTxn s.cfg) := by
    obtain rfl | ⟨rfl, hsome⟩ := hi
    · rfl
    · simp [commandTxn, hsome]
  have hx : s.lin.stage ≠ .telemDone → s.lin.stage = .xfer := by
    intro htel
    obtain ⟨_, _, rfl, hnone⟩ | ⟨hst, _⟩ | ⟨hst, _⟩ | ⟨hst, _⟩ := h.1.stages
    · simp [hnone] at hi
    · exact absurd hst htel
    · exact hst
    · exact hst
  obtain ⟨v, hstep, he, htel⟩ | ⟨v, ph, hstep, he, htel⟩ | ⟨v, c, ph, _, _, he, _⟩ | ⟨he, _⟩ := diagStep_cases s
    <;> rw [hgo] at he <;> cases he
  · exact txnStep_going_runs h (hx htel) hp ht hstep
  · have hin := (Lin.at_iff_inTxn (hx htel) hp ht).mp h.1
    obtain ⟨hval, rfl⟩ := (txnStep_ended_outcome hin hstep).2 rfl rfl
    obtain ⟨_, hphase⟩ := hin
    rw [hval] at hphase
    refine ⟨?_, h.2⟩
    unfold Lin.at
    simp only [telemUpdate, State.updLin_lin, hval]
    exact ⟨hi, hphase.2⟩

theorem diagCommandStep_runs {s : State} (h : s.lin.runs s.cfg .linDiag) :
    (diagCommandStep s).lin.owner = none ∨ (diagCommandStep s).lin.runs s.cfg .linDiag := by
  unfold diagCommandStep
  split <;> rename_i hstep
  · have hp : s.lin.phase ≠ .idle := by
      obtain ⟨_, _, hi, _⟩ | ⟨_, hval, _⟩ | ⟨_, _, hi, _⟩ | ⟨_, hne⟩ := h.1.stages
      · cases hi
      · simp [hval]
      · cases hi
      · exact hne
    exact .inr (diagStep_going_runs h (.inl rfl) hp hstep)
  · exact .inl (linEnd_owner ..)
  · exact .inl (linEnd_owner ..)

/-- LIN.CYCLE's status frame: it goes on, or its outcome is the first one and the engine is in IDLE, still owned (R210). -/
theorem cycleStatusStep_runs {s : State} (h : s.lin.runs s.cfg .linCycle) (hs : s.lin.stage = .xfer)
    (hp : s.lin.phase ≠ .idle) (hnone : s.lin.first = none) : (cycleStatusStep s).lin.runs s.cfg .linCycle := by
  have ht : commandTxn s.cfg s.lin.first .linCycle = some (statusTxn s.cfg) := by simp [commandTxn, hnone]
  unfold cycleStatusStep
  split <;> rename_i hstep
  · exact txnStep_going_runs h hs hp ht hstep
  · have hout := (txnStep_ended_outcome ((Lin.at_iff_inTxn hs hp ht).mp h.1) hstep).1
    refine ⟨⟨rfl, rfl⟩, fun k ph hfirst => ?_⟩
    cases hfirst
    exact ⟨rfl, hout.resolve_right fun hresp => by simp [statusTxn] at hresp⟩

theorem cycleDiagStep_runs {s : State} (h : s.lin.runs s.cfg .linCycle) (hp : s.lin.phase ≠ .idle) {c1 : Status}
    {p1 : LinPhase} (hfirst : s.lin.first = some (c1, p1)) :
    (cycleDiagStep c1 p1 s).lin.owner = none ∨ (cycleDiagStep c1 p1 s).lin.runs s.cfg .linCycle := by
  unfold cycleDiagStep
  split <;> rename_i hstep
  · exact .inr (diagStep_going_runs h (.inr ⟨rfl, by simp [hfirst]⟩) hp hstep)
  · exact .inl (linEnd_owner ..)

theorem cycleStep_frame {s : State} (hs : s.lin.stage = .frame) : cycleStep s = startStatus s := by
  unfold cycleStep; rw [hs]

theorem cycleStep_status {s : State} (hs : s.lin.stage ≠ .frame) (hf : s.lin.first = none) :
    cycleStep s = cycleStatusStep s := by
  unfold cycleStep
  cases hst : s.lin.stage
  case frame => exact absurd hst hs
  all_goals simp [hf]

theorem cycleStep_pause {s : State} (hs : s.lin.stage ≠ .frame) {o : Status × LinPhase} (hf : s.lin.first = some o)
    (hp : s.lin.phase = .idle) : cycleStep s = startDiag s := by
  unfold cycleStep
  cases hst : s.lin.stage
  case frame => exact absurd hst hs
  all_goals simp [hf, hp]

theorem cycleStep_diag {s : State} (hs : s.lin.stage ≠ .frame) {c1 : Status} {p1 : LinPhase}
    (hf : s.lin.first = some (c1, p1)) (hp : s.lin.phase ≠ .idle) : cycleStep s = cycleDiagStep c1 p1 s := by
  unfold cycleStep
  cases hst : s.lin.stage
  case frame => exact absurd hst hs
  all_goals simp [hf, hp]

theorem cycleStep_runs {s : State} (hc : s.cfg.wf = true) (h : s.lin.runs s.cfg .linCycle) :
    (cycleStep s).lin.owner = none ∨ (cycleStep s).lin.runs s.cfg .linCycle := by
  by_cases hs : s.lin.stage = .frame
  · rw [cycleStep_frame hs]
    exact .inr (startTxn_runs (by simpa using statusLen_le_of_wf hc) h.2)
  cases hf : s.lin.first with
  | none =>
    rw [cycleStep_status hs hf]
    have hx : s.lin.stage = .xfer ∧ s.lin.phase ≠ .idle := by simpa [hs, hf] using h.1.stages
    exact .inr (cycleStatusStep_runs h hx.1 hx.2 hf)
  | some o =>
    by_cases hp : s.lin.phase = .idle
    · rw [cycleStep_pause hs hf hp]
      exact .inr (startTxn_runs (diagReqData_length_le_of_wf hc) h.2)
    · rw [cycleStep_diag hs hf hp]
      exact cycleDiagStep_runs h hp hf

/-- The owner's micro-step: the engine is released, or the command is where it can be (R202, R213). -/
theorem exec_runs {i : Instr} {s t : State} {P : Port} (hP : s.acting P) (hc : s.cfg.wf = true) (hph : P.phase = .lRun)
    (heng : usesEngine i = true) (h : s.lin.runs s.cfg i) (hx : exec i s = .next t) :
    t.lin.owner = none ∨ t.lin.runs s.cfg i := by
  have body_of : ∀ {legal load body}, linCommand legal load body s = .next t → t = body s := by
    intro legal load body hcmd
    unfold linCommand at hcmd
    rw [hP.me, hph] at hcmd
    exact (Host.Outcome.next.inj hcmd).symm
  cases i <;> simp only [usesEngine, Bool.false_eq_true] at heng
  case linSend id len c k r =>
    rw [exec_linSend] at hx
    rw [body_of hx]
    exact sendStep_runs h (h.stage_xfer (by simp) (by simp)) rfl
  case linXchg id len n c k r =>
    rw [exec_linXchg] at hx
    rw [body_of hx]
    exact xchgStep_runs h (h.stage_xfer (by simp) (by simp)) rfl
  case linDiag =>
    rw [exec_linDiag] at hx
    rw [body_of hx]
    exact diagCommandStep_runs h
  case linCycle =>
    rw [exec_linCycle] at hx
    rw [body_of hx]
    exact cycleStep_runs hc h

/-! ### A micro-step from outside `L_RUN` -/

/-- The state in which a command that takes the free engine loads its transaction (R204). -/
def State.entered (s : State) : State :=
  (s.updLin fun l => { l with owner := some s.cur, phase := .brk, first := none }).goto .lRun

theorem linEnter_free {s : State} (h : s.lin.owner = none) (load : State → State) :
    linEnter load s = load s.entered := by
  unfold linEnter; rw [h]; rfl

theorem linEnter_held {s : State} {q : Nat} (h : s.lin.owner = some q) (load : State → State) :
    linEnter load s = s.goto .lWait := by
  unfold linEnter; rw [h]

@[simp] theorem State.entered_cfg (s : State) : s.entered.cfg = s.cfg := rfl

@[simp] theorem State.entered_lin (s : State) :
    s.entered.lin = { s.lin with owner := some s.cur, phase := .brk, first := none } := rfl

/-- A command that uses the engine, from outside `L_RUN`, leaves the engine as it is, or takes it when it is free and loads its
transaction (R204). -/
theorem linCommand_outside {legal : Bool} {load body : State → State} {s t : State} {P : Port} (hP : s.acting P)
    (hph : P.phase ≠ .lRun) (h : linCommand legal load body s = .next t) :
    t.lin = s.lin ∨ (s.lin.owner = none ∧ t = load s.entered) := by
  have enters : (linEnter load s).lin = s.lin ∨ (s.lin.owner = none ∧ linEnter load s = load s.entered) := by
    cases ho : s.lin.owner with
    | none => exact .inr ⟨rfl, linEnter_free ho load⟩
    | some q => rw [linEnter_held ho]; exact .inl rfl
  unfold linCommand at h
  rw [hP.me] at h
  split at h
  case h_1 =>
    cases h
    split
    · exact enters
    · exact .inl rfl
  case h_2 => cases h; exact enters
  case h_3 hrun => exact absurd hrun hph
  all_goals cases h

/-- Of the engine's state a one-step command writes the mode or the wake line at most (R251). -/
theorem OneEffect.lin {i : Instr} {s t : State} (h : OneEffect i s t) :
    ∃ m w, t.lin = { s.lin with mode := m, wake := w } := by
  cases h with
  | none _ _ _ _ _ hl _ | fltClear _ _ _ hl _ _ | fltSet _ _ _ _ _ _ hl _ _ _ | fltEn _ _ _ _ hl _ _
  | fltApply _ _ _ hl _ _ | actMark _ _ _ _ hl _ => exact ⟨s.lin.mode, s.lin.wake, hl⟩
  | mode v _ _ _ _ _ hl => exact ⟨v, s.lin.wake, hl⟩
  | wake v _ _ _ _ _ hl => exact ⟨s.lin.mode, v, hl⟩

/-- A micro-step from outside `L_RUN` leaves the engine's progress as it is, or takes a free engine and is at its first position. -/
theorem exec_outside {i : Instr} {s t : State} {P : Port} (hP : s.acting P) (hc : s.cfg.wf = true) (hph : P.phase ≠ .lRun)
    (hx : exec i s = .next t) :
    (∃ m w, t.lin = { s.lin with mode := m, wake := w }) ∨ (s.lin.owner = none ∧ t.lin.runs s.cfg i) := by
  obtain hone | heng | ⟨d, rfl⟩ | ⟨d, rfl⟩ := instr_forms i
  · exact .inl (exec_oneEffect hone hx).lin
  · have takes : ∀ {legal load body}, linCommand legal load body s = .next t → (load s.entered).lin.runs s.cfg i →
        (∃ m w, t.lin = { s.lin with mode := m, wake := w }) ∨ (s.lin.owner = none ∧ t.lin.runs s.cfg i) := by
      intro legal load body hcmd hload
      obtain hl | ⟨ho, rfl⟩ := linCommand_outside hP hph hcmd
      · exact .inl ⟨s.lin.mode, s.lin.wake, hl⟩
      · exact .inr ⟨ho, hload⟩
    cases i <;> simp only [usesEngine, Bool.false_eq_true] at heng
    case linSend id len c k r =>
      rw [exec_linSend] at hx
      exact takes hx (startTxn_runs (by simp [Quad.bytes, Quad.allBytes]) (by simp))
    case linXchg id len n c k r =>
      rw [exec_linXchg] at hx
      exact takes hx (startTxn_runs (by simp [Quad.bytes, Quad.allBytes]) (by simp))
    case linDiag =>
      rw [exec_linDiag] at hx
      exact takes hx (startTxn_runs (diagReqData_length_le_of_wf hc) (by simp))
    case linCycle =>
      rw [exec_linCycle] at hx
      exact takes hx (by simp [Lin.runs, Lin.at, armCycle])
  · obtain ⟨_, hl, _⟩ := execMbPost_units hx
    exact .inl ⟨s.lin.mode, s.lin.wake, hl⟩
  · obtain ⟨_, hl, _⟩ := execMbFetch_units hx
    exact .inl ⟨s.lin.mode, s.lin.wake, hl⟩

/-- Only a command that uses the engine passes through `L_RUN`. -/
theorem usesEngine_of_fitsPhase {i : Instr} (h : fitsPhase i .lRun = true) : usesEngine i = true := by
  cases i <;> simp [fitsPhase] at h
  all_goals rfl

/-- A micro-step keeps the owner's command where it can be. -/
theorem ExecEffect.progressOk {i : Instr} {s t : State} {P Q : Port} (hP : s.acting P) (hx : exec i s = .next t)
    (h : ExecEffect i s P t Q) (hc : s.cfg.wf = true) (hd : decode P.cw = .ok i)
    (hfit : P.phase = .ready ∨ fitsPhase i P.phase = true) (heng : s.engineOk) (hs : s.progressOk) : t.progressOk := by
  have hme : P.phase = .lRun ↔ s.lin.owner = some s.cur := heng.1 s.cur P hP
  rw [State.progressOk_iff] at hs ⊢
  intro q R j hown hR hj
  have hRrun : R.phase = .lRun := ((h.engineOk hP heng).1 q R hR).mpr hown
  rw [h.cfg]
  obtain ⟨rfl, rfl⟩ | ⟨hne, hR⟩ := getElem?_set_cases (h.ports ▸ hR)
  · obtain rfl : i = j := Except.ok.inj (hd.symm.trans (h.cw ▸ hj))
    by_cases hph : P.phase = .lRun
    · have huses := usesEngine_of_fitsPhase (by simpa [hph] using hfit)
      obtain hnone | hruns := exec_runs hP hc hph huses (hs _ P i (hme.mp hph) hP hd) hx
      · rw [hnone] at hown; cases hown
      · exact hruns
    · obtain ⟨m, w, hl⟩ | ⟨_, hruns⟩ := exec_outside hP hc hph hx
      · rw [hl] at hown
        exact absurd (hme.mpr hown) hph
      · exact hruns
  · have hsown : s.lin.owner = some q := (heng.1 q R hR).mp hRrun
    have hph : P.phase ≠ .lRun := fun hrun => hne (Option.some.inj (hsown.symm.trans (hme.mp hrun)))
    obtain ⟨m, w, hl⟩ | ⟨hfree, _⟩ := exec_outside hP hc hph hx
    · rw [hl]
      exact hs q R j hsown hR hj
    · rw [hsown] at hfree; cases hfree

end Sys2Proof.Machine
end

section
/-! The invariant, kept by every step: each of its parts under a micro-step, then every event. -/

namespace Sys2Proof.Machine

open Sys2Proof Host

/-! ### The parts under a micro-step -/

/-- The acting port after its micro-step. -/
theorem ExecEffect.acting {i : Instr} {s t : State} {P Q : Port} (hP : s.acting P) (h : ExecEffect i s P t Q) :
    t.acting Q := by
  rw [State.acting_def, h.ports, h.cur]
  simp [hP.lt]

/-- The ports after a micro-step: the acting one, and the others as they were. -/
theorem ExecEffect.mem_ports {i : Instr} {s t : State} {P Q R : Port} (h : ExecEffect i s P t Q) (hR : R ∈ t.ports) :
    R = Q ∨ ∃ q, q ≠ s.cur ∧ s.ports[q]? = some R := mem_set_cases (h.ports ▸ hR)

theorem ExecEffect.sized {i : Instr} {s t : State} {P Q : Port} (h : ExecEffect i s P t Q) (hs : s.sized)
    (hflt : t.flt.ok s.cfg) : t.sized := by
  obtain ⟨hports, hslots, _, _⟩ := hs
  refine ⟨?_, fun d => ?_, ?_, ?_⟩ <;> rw [h.cfg]
  · rw [h.ports, List.length_set]; exact hports
  · exact (h.mb.slots_length d).trans (hslots d)
  · exact hflt.ents_length
  · exact hflt.banks_length

theorem ExecEffect.portsFit {i : Instr} {s t : State} {P Q : Port} (h : ExecEffect i s P t Q) (hreq : P.req = true)
    (hd : decode P.cw = .ok i) (hfit : P.phase = .ready ∨ fitsPhase i P.phase = true) (hs : s.portsFit) :
    t.portsFit := by
  intro R hR
  obtain rfl | ⟨q, _, hq⟩ := h.mem_ports hR
  · obtain hready | ⟨hreqQ, hfitQ⟩ := h.stays hfit
    · exact .inl hready
    · exact .inr ⟨hreqQ.trans hreq, i, h.cw ▸ hd, hfitQ⟩
  · exact hs R (List.mem_of_getElem? hq)

/-- The frames stored are well-formed after a micro-step: only a port with legal operands copies one in. -/
theorem ExecEffect.framesOk {i : Instr} {s t : State} {P Q : Port} (hP : s.acting P) (hx : exec i s = .next t)
    (h : ExecEffect i s P t Q) (hfit : P.phase = .ready ∨ fitsPhase i P.phase = true) (hs : s.framesOk) :
    t.framesOk := by
  obtain ⟨hstored, hports⟩ := hs
  have hframe : P.frameOk := hports P (List.mem_of_getElem? hP)
  have hread : ∀ d k, ((s.dir d).read k).wf = true := fun d => (DirStore.frames_wf_iff _).mp (hstored d)
  refine ⟨fun d => (DirStore.frames_wf_iff _).mpr fun k => ?_, fun R hR => ?_⟩
  · obtain hsame | ⟨_, hlegal, hnew⟩ := h.mb.read d k
    · exact hsame ▸ hread d k
    · exact hnew ▸ operandsLegal_frame_wf (hlegal hframe)
  · obtain rfl | ⟨q, _, hq⟩ := h.mem_ports hR
    · exact h.frameOk hP hx (h.acting hP) hfit hframe hread
    · exact hports R (List.mem_of_getElem? hq)

/-- A copied frame stays where it is until its port publishes it: nobody else holds its slot (R25), so nobody else writes there. -/
theorem ExecEffect.copiedOk {i : Instr} {s t : State} {P Q : Port} (hP : s.acting P) (hx : exec i s = .next t)
    (h : ExecEffect i s P t Q) (hfit : P.phase = .ready ∨ fitsPhase i P.phase = true) (hpool : s.poolOk)
    (hs : s.copiedOk) : t.copiedOk := by
  rw [State.copiedOk_iff] at hs ⊢
  intro R hR d k hslot
  obtain rfl | ⟨q, hne, hq⟩ := h.mem_ports hR
  · obtain hnone | ⟨e, j, hheld, hcopied, hwrite⟩ := h.copiedSlot hP hx (h.acting hP) hfit
    · rw [hnone] at hslot; cases hslot
    · obtain ⟨rfl, rfl⟩ : e = d ∧ j = k := by rw [hcopied] at hslot; cases hslot; exact ⟨rfl, rfl⟩
      have hlt := (hpool.held_occupied (List.mem_of_getElem? hP) hheld).lt
      rw [hwrite, DirStore.write_read, if_pos ⟨rfl, hlt⟩, h.lat]
  · obtain hsame | ⟨hheld, _, _⟩ := h.mb.read d k
    · exact hsame.trans (hs R (List.mem_of_getElem? hq) d k hslot)
    · exact absurd (hpool.holder_unique hq hP (MicroPhase.held_of_copiedSlot hslot) hheld) hne

/-- A micro-step of the command that the acting port presents keeps the invariant. -/
theorem State.Inv.exec {i : Instr} {s t : State} {P : Port} (h : s.Inv) (hP : s.acting P) (hreq : P.req = true)
    (hd : decode P.cw = .ok i) (hx : Machine.exec i s = .next t) : t.Inv := by
  obtain ⟨Q, e⟩ := exec_effect hP hx
  have hfit : P.phase = .ready ∨ fitsPhase i P.phase = true := (h.ports P (List.mem_of_getElem? hP)).fitsPhase hd
  have hflt : t.flt.ok s.cfg := (exec_fltEffect hx).ok (banks_pos_of_wf h.cfgOk) h.filter_ok
  exact {
    cfgOk := e.cfg ▸ h.cfgOk
    sizes := e.sized h.sizes hflt
    pool := e.poolOk hP h.pool
    ports := e.portsFit hreq hd hfit h.ports
    engine := e.engineOk hP h.engine
    frames := e.framesOk hP hx hfit h.frames
    copied := e.copiedOk hP hx hfit h.pool h.copied
    filter := Filter.ok.filterOk (e.cfg ▸ hflt)
    progress := e.progressOk hP hx h.cfgOk hd hfit h.engine h.progress }

/-! ### Every event -/

/-- The end of an illegal word: the port was READY and is so again (R95). -/
theorem State.Inv.illegalWord {s : State} {P : Port} (h : s.Inv) (hP : s.acting P) (hready : P.phase = .ready)
    (c : Status) (ph : LinPhase) (r : Quad) : (s.withPort (P.ended c ph r)).Inv :=
  h.setPort hP ⟨hready.symm, .inl hready⟩

/-- The invariant does not see the event taken from the script. -/
theorem State.Inv.nextEvent {s : State} (h : s.Inv) : s.nextEvent.2.Inv :=
  h.of_eq s.nextEvent_cfg s.nextEvent_ports s.nextEvent_mb s.nextEvent_flt s.nextEvent_lin

/-- The invariant does not see which port is scheduled. -/
theorem State.Inv.schedule {s : State} (h : s.Inv) (p : Nat) : State.Inv { s with cur := p } :=
  h.of_eq rfl rfl rfl rfl rfl

/-- Settles O53: by the event; a scheduled port's micro-step keeps each part of the invariant, the environment's events disturb no
port that has a command in progress, and reset establishes it. -/
theorem invKept : Obligations.InvKept := by
  intro s t hs hstep
  have hu := hs.nextEvent
  cases step_cases hstep with
  | run p P i _ hp hreq hd hx => exact (hu.schedule p).exec (P := P) hp hreq hd hx
  | illegal p P _ hp _ _ hready ht => rw [ht]; exact (hu.schedule p).illegalWord (P := P) hp hready _ _ _
  | idle _ _ _ ht => rw [ht]; exact hu
  | write p i v _ ht => rw [ht]; exact hu.userWrite p i v
  | present p w _ ht => rw [ht]; exact hu.userPresent p w
  | clock n _ ht => rw [ht]; exact hu.of_eq rfl rfl rfl rfl rfl
  | reset _ ht => rw [ht]; exact invAtReset _ _ hu.cfgOk

end Sys2Proof.Machine
end

section
/-! R25 read off the invariant: what the FIFO refers to, who holds a slot, and why a push has room. -/

namespace Sys2Proof.Machine

open Sys2Proof Host

/-- The indices of the Occupied slots. -/
def DirStore.occupiedIdx (D : DirStore) : List Nat :=
  (List.range D.slots.length).filter fun k => decide ((D.slots[k]?).map Slot.occ = some .occupied)

theorem DirStore.mem_occupiedIdx (D : DirStore) (k : Nat) : k ∈ D.occupiedIdx ↔ D.occupied k := by
  simp only [DirStore.occupiedIdx, List.mem_filter, List.mem_range, decide_eq_true_eq]
  exact ⟨And.right, fun h => ⟨DirStore.occupied.lt h, h⟩⟩

/-- `MB_OCC` counts the Occupied indices. -/
theorem DirStore.occupiedIdx_length (D : DirStore) : D.occupiedIdx.length = D.occCount := by
  have hslots : (List.range D.slots.length).map (fun k => D.slots[k]?) = D.slots.map some := by
    apply List.ext_getElem <;> simp
  calc D.occupiedIdx.length
      = (List.range D.slots.length).countP fun k => decide ((D.slots[k]?).map Slot.occ = some .occupied) :=
        (List.countP_eq_length_filter ..).symm
    _ = ((List.range D.slots.length).map fun k => D.slots[k]?).countP
          fun x => decide (x.map Slot.occ = some .occupied) := by rw [List.countP_map]; rfl
    _ = D.occCount := by rw [hslots, List.countP_map]; simp [DirStore.occCount, Function.comp_def]

/-- Different Occupied slots are at most as many as are counted. -/
theorem DirStore.length_le_occCount {D : DirStore} {ks : List Nat} (hnodup : ks.Nodup) (h : ∀ k ∈ ks, D.occupied k) :
    ks.length ≤ D.occCount :=
  D.occupiedIdx_length ▸ (hnodup.subperm fun k hk => (D.mem_occupiedIdx k).mpr (h k hk)).length_le

/-- All references of a direction together are at most as many as its Occupied slots. -/
theorem State.poolOk.refs_length_le {s : State} (h : s.poolOk) (d : Dir) : (s.refs d).length ≤ (s.dir d).occCount :=
  DirStore.length_le_occCount (h d).1 fun k hk => ((h d).2 k).mp hk

theorem State.Inv.occCount_le {s : State} (h : s.Inv) (d : Dir) : (s.dir d).occCount ≤ s.cfg.slots d :=
  List.countP_le_length.trans_eq (h.sizes.2.1 d)

/-- A port that holds a slot leaves room in the FIFO: its slot is Occupied and not in it (R144). -/
theorem State.Inv.push_room {s : State} (h : s.Inv) {P : Port} (hP : P ∈ s.ports) {d : Dir} {k : Nat}
    (hk : P.phase.held d = some k) : (s.dir d).fifo.length < s.cfg.slots d := by
  have hheld : 0 < (s.ports.filterMap fun P => P.phase.held d).length :=
    List.length_pos_of_mem (List.mem_filterMap.mpr ⟨P, hP, hk⟩)
  have hrefs : (s.refs d).length = (s.dir d).fifo.length + (s.ports.filterMap fun P => P.phase.held d).length :=
    List.length_append
  have hcount := h.pool.refs_length_le d
  have hcap := h.occCount_le d
  omega

/-- An Occupied slot that is in no FIFO is held by exactly one port (R25, I4). -/
theorem State.poolOk.exists_unique_holder {s : State} (h : s.poolOk) {d : Dir} {k : Nat} (hocc : (s.dir d).occupied k)
    (hfifo : k ∉ (s.dir d).fifo) :
    ∃ (p : Nat) (P : Port), s.ports[p]? = some P ∧ P.phase.held d = some k
      ∧ ∀ (q : Nat) (Q : Port), s.ports[q]? = some Q → Q.phase.held d = some k → q = p := by
  have href : k ∈ s.refs d := ((h d).2 k).mpr hocc
  have hheld := (List.mem_append.mp href).resolve_left hfifo
  obtain ⟨P, hP, hk⟩ := List.mem_filterMap.mp hheld
  obtain ⟨p, hp⟩ := List.mem_iff_getElem?.mp hP
  exact ⟨p, P, hp, hk, fun q Q hq hQ => h.holder_unique hq hp hQ hk⟩

/-- Settles O21: the references are exactly the Occupied slots, each once (`State.poolOk`). -/
theorem poolInvariants : Obligations.PoolInvariants := by
  intro s d hs
  obtain ⟨hnodup, hrefs⟩ := hs.pool d
  have hocc : ∀ k ∈ (s.dir d).fifo, (s.dir d).occupied k := fun k hk => (hrefs k).mp (List.mem_append_left _ hk)
  have hfifo : (s.dir d).fifo.Nodup := (List.nodup_append.mp hnodup).1
  exact ⟨hocc, hfifo, ⟨DirStore.length_le_occCount hfifo hocc, hs.occCount_le d⟩,
    fun k hk hout => hs.pool.exists_unique_holder hk hout, fun P hP k hk => hs.push_room hP hk⟩

end Sys2Proof.Machine
end

section
/-! One step: the port it schedules, what the environment does in it, and what no step touches (R38, R44, R45, R67, R287). -/

namespace Sys2Proof.Machine

open Sys2Proof Host

/-! ### The step of a given event -/

theorem step_of_event {s : State} {e : Event} (h : s.nextEvent.1 = e) : step s = eventStep e s.nextEvent.2 := by
  unfold step; rw [h]

theorem portStep_decoded {s : State} {p : Nat} {P : Port} {i : Instr} (hp : s.ports[p]? = some P) (hreq : P.req = true)
    (hd : decode P.cw = .ok i) : portStep p s = exec i { s with cur := p } := by
  unfold portStep; simp [hp, hreq, hd]

theorem portStep_idle {s : State} {p : Nat} {P : Port} (hp : s.ports[p]? = some P) (hreq : P.req = false) :
    portStep p s = .next s := by
  unfold portStep; simp [hp, hreq]

/-- Settles O7: the event schedules the port, and a busy port with a decoded word runs it (`portStep_decoded`). -/
theorem stepRunsDecoded : Obligations.StepRunsDecoded := by
  intro s p P i he hp hreq hd
  rw [step_of_event he]
  exact portStep_decoded (by rw [s.nextEvent_ports]; exact hp) hreq hd

/-! ### What the environment does -/

theorem Quad.write_eq (q : Quad) (i : Fin 4) (v : Word) :
    q.write i v = ⟨if i = 0 then v else q.w0, if i = 1 then v else q.w1, if i = 2 then v else q.w2,
      if i = 3 then v else q.w3⟩ := by
  fin_cases i <;> rfl

theorem userWrite_eq_set {s : State} {p : Nat} {P : Port} (hp : s.ports[p]? = some P) (i : Fin 4) (v : Word) :
    s.userWrite p i v = { s with ports := s.ports.set p { P with a := P.a.write i v } } := by
  unfold State.userWrite; rw [modify_eq_set hp]

theorem userPresent_eq_set {s : State} {p : Nat} {P : Port} (hp : s.ports[p]? = some P) (w : Word) :
    s.userPresent p w = { s with ports := s.ports.set p (P.present w) } := by
  unfold State.userPresent; rw [modify_eq_set hp]

/-- The clock counts modulo 2^32 (R45). -/
theorem State.advance_eq (s : State) (n : Nat) :
    s.advance n = { s with env := { s.env with now := BitVec.ofNat 32 (s.env.now.toNat + n) } } := by
  unfold State.advance
  rw [BitVec.ofNat_add, BitVec.ofNat_toNat, BitVec.setWidth_eq]

/-- Settles O9: each of the environment's events, by what its operation does to the port it names or to the clock. -/
theorem environmentSteps : Obligations.EnvironmentSteps := by
  intro s
  refine ⟨fun p i v P he hp => ?_, fun p w P he hp => ?_, fun n he => ?_, fun p P he hp hreq => ?_⟩
  all_goals rw [step_of_event he]
  · rw [← s.nextEvent_ports] at hp ⊢
    rw [← Quad.write_eq]
    exact congrArg Outcome.next (userWrite_eq_set hp i v)
  · rw [← s.nextEvent_ports] at hp ⊢
    exact congrArg Outcome.next (userPresent_eq_set hp w)
  · rw [← s.nextEvent_now]
    exact congrArg Outcome.next (s.nextEvent.2.advance_eq n)
  · exact portStep_idle (by rw [s.nextEvent_ports]; exact hp) hreq

/-! ### A port's micro-step and the other ports -/

/-- Settles O57: a micro-step replaces the acting port by one with the same operands and word (`ExecEffect`), and so does the end of
an illegal word; an idle port's step changes nothing. -/
theorem portsArePrivate : Obligations.PortsArePrivate := by
  intro s t p P he hstep hp
  have hlt : p < s.ports.length := (List.getElem?_eq_some_iff.mp hp).1
  have replaced : ∀ Q : Port, t.ports = s.ports.set p Q → Q.a = P.a → Q.cw = P.cw → Q.lat = P.lat →
      (∀ q, q ≠ p → t.ports[q]? = s.ports[q]?) ∧ ∃ Q, t.ports[p]? = some Q ∧ Q.a = P.a ∧ Q.cw = P.cw ∧ Q.lat = P.lat := by
    intro Q hports ha hcw hlat
    rw [hports]
    exact ⟨fun q hq => List.getElem?_set_ne (Ne.symm hq), Q, List.getElem?_set_self hlt, ha, hcw, hlat⟩
  have same_port : ∀ {q R}, s.nextEvent.1 = .port q → s.nextEvent.2.ports[q]? = some R → q = p ∧ R = P := by
    intro q R hq hR
    obtain rfl : p = q := Event.port.inj (he.symm.trans hq)
    rw [s.nextEvent_ports, hp] at hR
    exact ⟨rfl, (Option.some.inj hR).symm⟩
  cases step_cases hstep with
  | run q R i hq hR _ _ hx =>
    obtain ⟨rfl, rfl⟩ := same_port hq hR
    have hact : State.acting { s.nextEvent.2 with cur := q } R := hR
    obtain ⟨Q, e⟩ := exec_effect hact hx
    exact replaced Q (by rw [e.ports]; simp) e.a e.cw e.lat
  | illegal q R hq hR _ _ _ ht =>
    obtain ⟨rfl, rfl⟩ := same_port hq hR
    exact replaced (R.ended .illegalCmd .idle R.r) (by rw [ht]; simp) rfl rfl rfl
  | idle _ _ _ ht =>
    rw [ht, s.nextEvent_ports]
    exact ⟨fun _ _ => rfl, P, hp, rfl, rfl, rfl⟩
  | write _ _ _ hq _ | present _ _ hq _ | clock _ hq _ | reset hq _ => rw [he] at hq; cases hq

end Sys2Proof.Machine
end

section
/-! The engine held (R204), and the wire history (R44): a command only ever appends to it. -/

namespace Sys2Proof.Machine

open Sys2Proof Host

/-! ### Waiting for the engine -/

/-- While the engine has an owner, a legal command that uses it leaves its port in `L_WAIT` and does nothing else. -/
theorem linCommand_held {s : State} {P : Port} {q : Nat} (hP : s.acting P) (ho : s.lin.owner = some q)
    (hph : P.phase = .ready ∨ P.phase = .lWait) {legal : Bool} (hlegal : legal = true) (load body : State → State) :
    linCommand legal load body s = .next (s.withPort { P with phase := .lWait }) := by
  unfold linCommand
  rw [hP.me, hlegal, linEnter_held ho, hP.goto]
  obtain hph | hph := hph <;> simp [hph]

theorem lenOk_of_le {len : BitVec 4} (h : len.toNat ≤ 8) : lenOk len = true := decide_eq_true h

/-- Settles O36: all four commands enter the engine by `linEnter`. -/
theorem engineHeld : Obligations.EngineHeld := by
  intro s P q hP ho hph
  refine ⟨fun id len c k r hlen => ?_, fun id len n c k r hlen hn => ?_, ?_, ?_⟩
  · rw [exec_linSend]
    exact linCommand_held hP ho hph (lenOk_of_le hlen) _ _
  · rw [exec_linXchg]
    exact linCommand_held hP ho hph (by rw [lenOk_of_le hlen, lenOk_of_le hn]; rfl) _ _
  · rw [exec_linDiag]
    exact linCommand_held hP ho hph rfl _ _
  · rw [exec_linCycle]
    exact linCommand_held hP ho hph rfl _ _

/-! ### The wire history under the transport's requests (R195) -/

@[simp] theorem State.takeAnswer_lin (s : State) : s.takeAnswer.2.lin = s.lin := by
  obtain ⟨as, n, h⟩ := s.takeAnswer_spec; rw [h]

theorem State.linBreak_wire (s : State) (r : BrkKind) : s.lin.wire <+: (s.linBreak r).2.lin.wire :=
  ⟨[.brk r s.takeAnswer.1.ack], by simp [State.linBreak]⟩

theorem State.linWriteByte_wire (s : State) (b : Byte) : s.lin.wire <+: (s.linWriteByte b).2.lin.wire := by
  unfold State.linWriteByte
  dsimp only
  split
  · exact ⟨[.tx b], by simp⟩
  · rw [s.takeAnswer_lin]

theorem State.linRead_wire (s : State) (n : Nat) : s.lin.wire <+: (s.linRead n).2.lin.wire :=
  ⟨(s.takeAnswer.1.bytes.take n).map .rx, by simp [State.linRead]⟩

/-! ### … under the steps of a transaction -/

theorem afterByte_wire (t : Txn) (j : Nat) (s : State) : (afterByte t j s).state.lin.wire = s.lin.wire := by
  unfold afterByte
  split
  · rfl
  · split <;> rfl

theorem breakStep_wire (t : Txn) (s : State) : s.lin.wire <+: (breakStep t s).state.lin.wire := by
  have hreq := s.linBreak_wire t.brk
  unfold breakStep
  split <;> rename_i u hu <;> rw [hu] at hreq
  · rw [afterByte_wire]; exact hreq
  · exact hreq

theorem writeStep_wire (t : Txn) (s : State) : s.lin.wire <+: (writeStep t s).state.lin.wire := by
  have hreq := s.linWriteByte_wire ((wireBytes t s.lin.lf).getD s.lin.idx 0)
  unfold writeStep
  split <;> rename_i u hu <;> rw [hu] at hreq
  · rw [afterByte_wire]; exact hreq
  · exact hreq

theorem respStep_wire (t : Txn) (s : State) : s.lin.wire <+: (respStep t s).state.lin.wire := by
  have hreq := s.linRead_wire (t.respLen + 1)
  unfold respStep
  split <;> rename_i u hu <;> rw [hu] at hreq <;> exact hreq

theorem validateStep_wire (t : Txn) (s : State) : (validateStep t s).state.lin.wire = s.lin.wire := by
  unfold validateStep
  split <;> rfl

theorem txnStep_wire (t : Txn) (s : State) : s.lin.wire <+: (txnStep t s).state.lin.wire := by
  unfold txnStep
  cases s.lin.phase with
  | idle => exact List.prefix_rfl
  | brk => exact breakStep_wire t s
  | sync | pid | data | cks => exact writeStep_wire t s
  | resp => exact respStep_wire t s
  | validate => rw [validateStep_wire]

theorem diagStep_wire (s : State) : s.lin.wire <+: (diagStep s).state.lin.wire := by
  have htxn := txnStep_wire (diagTxn s.cfg) s
  obtain ⟨u, h, e, _⟩ | ⟨u, ph, h, e, _⟩ | ⟨u, c, ph, _, h, e, _⟩ | ⟨e, _⟩ := diagStep_cases s <;> rw [e]
  · rw [h] at htxn; exact htxn
  · rw [h] at htxn; exact htxn
  · rw [h] at htxn; exact htxn
  · exact List.prefix_rfl

/-! ### … and under a command: its own acts besides the transaction's leave it alone -/

theorem sendStep_wire (t : Txn) (s : State) : s.lin.wire <+: (sendStep t s).lin.wire := by
  have htxn := txnStep_wire t s
  unfold sendStep
  split <;> rename_i h <;> rw [h] at htxn <;> exact htxn

theorem xchgStep_wire (t : Txn) (s : State) : s.lin.wire <+: (xchgStep t s).lin.wire := by
  have htxn := txnStep_wire t s
  unfold xchgStep
  split <;> rename_i h <;> rw [h] at htxn <;> exact htxn

theorem diagCommandStep_wire (s : State) : s.lin.wire <+: (diagCommandStep s).lin.wire := by
  have hdiag := diagStep_wire s
  unfold diagCommandStep
  split <;> rename_i h <;> rw [h] at hdiag <;> exact hdiag

theorem cycleStatusStep_wire (s : State) : s.lin.wire <+: (cycleStatusStep s).lin.wire := by
  have htxn := txnStep_wire (statusTxn s.cfg) s
  unfold cycleStatusStep
  split <;> rename_i h <;> rw [h] at htxn <;> exact htxn

theorem cycleDiagStep_wire (c1 : Status) (p1 : LinPhase) (s : State) :
    s.lin.wire <+: (cycleDiagStep c1 p1 s).lin.wire := by
  have hdiag := diagStep_wire s
  unfold cycleDiagStep
  split <;> rename_i h <;> rw [h] at hdiag <;> exact hdiag

theorem cycleStep_wire (s : State) : s.lin.wire <+: (cycleStep s).lin.wire := by
  by_cases hs : s.lin.stage = .frame
  · rw [cycleStep_frame hs]; exact List.prefix_rfl
  cases hf : s.lin.first with
  | none => rw [cycleStep_status hs hf]; exact cycleStatusStep_wire s
  | some o =>
    by_cases hp : s.lin.phase = .idle
    · rw [cycleStep_pause hs hf hp]; exact List.prefix_rfl
    · rw [cycleStep_diag hs hf hp]; exact cycleDiagStep_wire _ _ s

theorem linCommand_wire {legal : Bool} {load body : State → State} {s t : State}
    (hload : ∀ u, (load u).lin.wire = u.lin.wire) (hbody : s.lin.wire <+: (body s).lin.wire)
    (h : linCommand legal load body s = .next t) : s.lin.wire <+: t.lin.wire := by
  have enters : s.lin.wire <+: (linEnter load s).lin.wire := by
    cases ho : s.lin.owner with
    | none => rw [linEnter_free ho, hload]; exact List.prefix_rfl
    | some q => rw [linEnter_held ho]; exact List.prefix_rfl
  unfold linCommand at h
  split at h <;> cases h
  · split
    · exact enters
    · exact List.prefix_rfl
  · exact enters
  · exact hbody

/-- A micro-step of a command appends to the wire history or leaves it (R44). -/
theorem exec_wire {i : Instr} {s t : State} (h : exec i s = .next t) : s.lin.wire <+: t.lin.wire := by
  obtain hone | heng | ⟨d, rfl⟩ | ⟨d, rfl⟩ := instr_forms i
  · obtain ⟨m, w, hl⟩ := (exec_oneEffect hone h).lin
    rw [hl]
  · cases i <;> simp only [usesEngine, Bool.false_eq_true] at heng
    case linSend id len c k r =>
      exact linCommand_wire (load := loadRequest id len) (fun _ => rfl) (sendStep_wire _ s) h
    case linXchg id len n c k r =>
      exact linCommand_wire (load := loadRequest id len) (fun _ => rfl) (xchgStep_wire _ s) h
    case linDiag => exact linCommand_wire (load := startDiag) (fun _ => rfl) (diagCommandStep_wire s) h
    case linCycle => exact linCommand_wire (load := armCycle) (fun _ => rfl) (cycleStep_wire s) h
  · obtain ⟨_, hl, _⟩ := execMbPost_units h
    rw [hl]
  · obtain ⟨_, hl, _⟩ := execMbFetch_units h
    rw [hl]

/-! ### Over every step -/

/-- Settles O60: a micro-step keeps the configuration and the clock (`ExecEffect`) and only appends to the history (`exec_wire`); of
the other events the clock writes `NOW_MS`, and reset alone empties the history. -/
theorem configurationAndHistoryKept : Obligations.ConfigurationAndHistoryKept := by
  intro s t hstep
  have keeps : ∀ {u : State}, u.cfg = s.nextEvent.2.cfg → u.env.now = s.nextEvent.2.env.now →
      s.nextEvent.2.lin.wire <+: u.lin.wire →
      u.cfg = s.cfg ∧ ((∀ n, s.nextEvent.1 ≠ .clock n) → u.env.now = s.env.now)
      ∧ (s.nextEvent.1 ≠ .reset → ∃ w, u.lin.wire = s.lin.wire ++ w) := by
    intro u hcfg hnow ⟨w, hw⟩
    rw [s.nextEvent_lin] at hw
    exact ⟨hcfg.trans s.nextEvent_cfg, fun _ => hnow.trans s.nextEvent_now, fun _ => ⟨w, hw.symm⟩⟩
  cases step_cases hstep with
  | run p P i _ hp _ _ hx =>
    have hact : State.acting { s.nextEvent.2 with cur := p } P := hp
    obtain ⟨Q, e⟩ := exec_effect hact hx
    have hwire := exec_wire hx
    exact keeps e.cfg e.now hwire
  | illegal _ _ _ _ _ _ _ ht => rw [ht]; exact keeps rfl rfl List.prefix_rfl
  | idle _ _ _ ht => rw [ht]; exact keeps rfl rfl List.prefix_rfl
  | write _ _ _ _ ht => rw [ht]; exact keeps rfl rfl List.prefix_rfl
  | present _ _ _ ht => rw [ht]; exact keeps rfl rfl List.prefix_rfl
  | clock n he ht =>
    rw [ht]
    exact ⟨s.nextEvent_cfg, fun hno => absurd he (hno n), (keeps (u := s.nextEvent.2) rfl rfl List.prefix_rfl).2.2⟩
  | reset he ht =>
    rw [ht]
    exact ⟨s.nextEvent_cfg, fun _ => s.nextEvent_now, fun hno => absurd he hno⟩

end Sys2Proof.Machine
end

section
/-! The CSR map of R40: the fields of its words, its named registers, its arrays, and its unmapped addresses. -/

namespace Sys2Proof.Machine

open Sys2Proof Host

/-! ### The fields of a register word -/

/-- A field put above `n` lower bits counts `2 ^ n` times. -/
theorem toNat_append_eq_add {m n : Nat} (x : BitVec m) (y : BitVec n) :
    (x ++ y).toNat = x.toNat * 2 ^ n + y.toNat := by
  rw [BitVec.toNat_append, ← Nat.shiftLeft_add_eq_or_of_lt y.isLt, Nat.shiftLeft_eq]

theorem toNat_ofBool_eq_ite (b : Bool) : (BitVec.ofBool b).toNat = if b then 1 else 0 := by cases b <;> rfl

theorem flagWord_eq_ite (b : Bool) : flagWord b = if b then 1 else 0 := by cases b <;> rfl

/-- A field as a 32-bit register value is its number. -/
theorem setWidth_eq_ofNat {n : Nat} (x : BitVec n) : x.setWidth 32 = BitVec.ofNat 32 x.toNat :=
  (BitVec.ofNat_toNat 32 x).symm

theorem stWord_eq_ofNat (c : Status) (ph : LinPhase) :
    stWord c ph = BitVec.ofNat 32 (c.code.toNat + 2 ^ 4 * ph.code.toNat) := by
  rw [stWord, setWidth_eq_ofNat, toNat_append_eq_add]
  congr 1
  omega

theorem Lin.telemWord_eq_ofNat (l : Lin) :
    l.telemWord = BitVec.ofNat 32 ((if l.moving then 1 else 0) + 2 ^ 8 * l.position.toNat) := by
  rw [Lin.telemWord, setWidth_eq_ofNat]
  congr 1
  simp only [toNat_append_eq_add, toNat_ofBool_eq_ite, BitVec.ofNat_eq_ofNat, BitVec.toNat_zero]
  omega

theorem State.activeWord_eq_ofNat (s : State) :
    s.activeWord = BitVec.ofNat 32 ((if s.isCanActive then 1 else 0) + 2 * (if s.act.seen then 1 else 0)) := by
  rw [State.activeWord, setWidth_eq_ofNat]
  congr 1
  simp only [toNat_append_eq_add, toNat_ofBool_eq_ite]
  omega

theorem Bank.cfgWord_eq_ofNat (b : Bank) :
    b.cfgWord = BitVec.ofNat 32
      ((if b.active then 1 else 0) + 2 * (if b.mode = .list then 1 else 0) + 4 * (if b.scale = .s32 then 1 else 0)
        + 8 * b.fifo.toNat + 2 ^ 8 * b.index.toNat) := by
  rw [Bank.cfgWord, setWidth_eq_ofNat]
  congr 1
  simp only [toNat_append_eq_add, toNat_ofBool_eq_ite, BitVec.ofNat_eq_ofNat, BitVec.toNat_zero, decide_eq_true_eq]
  omega

/-! ### The named registers -/

/-- The addresses of R40 below the arrays. -/
def namedAddrs : List Nat :=
  [0x10, 0x11, 0x20, 0x21, 0x22, 0x23, 0x24, 0x25, 0x30, 0x31, 0x32, 0x34, 0x35, 0x36, 0x38, 0x39, 0x3A, 0x40, 0x41, 0x42]

/-- A named address is mapped. -/
theorem State.csrRead_named {s : State} {a : CsrAddr} (h : a.toNat ∈ namedAddrs) : (s.csrRead a).isSome = true := by
  unfold State.csrRead
  split
  case h_21 => simp_all [namedAddrs]
  all_goals rfl

/-- Any other address is one of the arrays', or unmapped. -/
theorem State.csrRead_array {s : State} {a : CsrAddr} (h : a.toNat ∉ namedAddrs) : s.csrRead a = s.csrArray a.toNat := by
  unfold State.csrRead
  split
  case h_21 => rfl
  all_goals
    rename_i heq
    exact absurd (by rw [heq]; decide) h

/-! ### The arrays -/

theorem State.csrArray_fltId {s : State} {n : Nat} (h : 0x100 ≤ n ∧ n < 0x100 + 2 * s.cfg.banks) :
    s.csrArray n = some (s.flt.ent (n - 0x100)).id := by
  unfold State.csrArray; rw [if_pos h]

theorem State.csrArray_fltExt {s : State} (hb : s.cfg.banks ≤ 128) {n : Nat}
    (h : 0x200 ≤ n ∧ n < 0x200 + 2 * s.cfg.banks) : s.csrArray n = some (flagWord (s.flt.ent (n - 0x200)).ext) := by
  unfold State.csrArray; rw [if_neg (by omega), if_pos h]

theorem State.csrArray_bank {s : State} (hb : s.cfg.banks ≤ 128) {n : Nat}
    (h : 0x300 ≤ n ∧ n < 0x300 + 4 * s.cfg.banks) :
    s.csrArray n = ((s.flt.banks[(n - 0x300) / 4]?).getD Bank.inactive).csr ((n - 0x300) % 4) := by
  unfold State.csrArray; rw [if_neg (by omega), if_neg (by omega), if_pos h]

/-- Word 3 of a bank is unmapped, the other three are not. -/
theorem Bank.csr_eq_none (b : Bank) {j : Nat} (hj : j < 4) : b.csr j = none ↔ j = 3 := by
  unfold Bank.csr
  split_ifs <;> simp <;> omega

/-- The unmapped addresses of the arrays (R250 (b)). -/
theorem State.csrArray_eq_none {s : State} (hb : s.cfg.banks ≤ 128) (n : Nat) :
    s.csrArray n = none ↔
      ¬ ((0x100 ≤ n ∧ n < 0x100 + 2 * s.cfg.banks) ∨ (0x200 ≤ n ∧ n < 0x200 + 2 * s.cfg.banks)
        ∨ (0x300 ≤ n ∧ n < 0x300 + 4 * s.cfg.banks ∧ n % 4 ≠ 3)) := by
  by_cases h1 : 0x100 ≤ n ∧ n < 0x100 + 2 * s.cfg.banks
  · rw [State.csrArray_fltId h1]; simp [h1]
  by_cases h2 : 0x200 ≤ n ∧ n < 0x200 + 2 * s.cfg.banks
  · rw [State.csrArray_fltExt hb h2]; simp [h2]
  by_cases h3 : 0x300 ≤ n ∧ n < 0x300 + 4 * s.cfg.banks
  · rw [State.csrArray_bank hb h3, Bank.csr_eq_none _ (Nat.mod_lt _ (by omega))]
    omega
  · unfold State.csrArray
    rw [if_neg h1, if_neg h2, if_neg h3]
    exact iff_of_true rfl (by omega)

/-- A read at an address from the arrays on: the address is not truncated, and no named register is there. -/
theorem State.csrRead_ofNat {s : State} {n : Nat} (h : 0x100 ≤ n ∧ n < 2 ^ 16) :
    s.csrRead (BitVec.ofNat 16 n) = s.csrArray n := by
  have hn : (BitVec.ofNat 16 n).toNat = n := by rw [BitVec.toNat_ofNat]; exact Nat.mod_eq_of_lt h.2
  rw [State.csrRead_array, hn]
  rw [hn]
  intro hmem
  have hle : ∀ k ∈ namedAddrs, k < 0x100 := by decide
  exact absurd (hle n hmem) (by omega)

/-- The words of bank `n` (R40). -/
theorem State.csrRead_bankWord {s : State} (hb : s.cfg.banks ≤ 128) {n : Nat} {b : Bank} (hn : s.flt.banks[n]? = some b)
    (hlt : n < s.cfg.banks) {j : Nat} (hj : j < 4) : s.csrRead (BitVec.ofNat 16 (0x300 + j + 4 * n)) = b.csr j := by
  rw [State.csrRead_ofNat (by omega), State.csrArray_bank hb (by omega)]
  have hdiv : (0x300 + j + 4 * n - 0x300) / 4 = n := by omega
  have hmod : (0x300 + j + 4 * n - 0x300) % 4 = j := by omega
  rw [hdiv, hmod, hn]
  rfl

/-- Settles O49: the named registers by evaluation and the lemma of each word's fields, the arrays by index. -/
theorem csrMap : Obligations.CsrMap := by
  intro s hc ⟨_, _, hents, hbanks⟩
  have hb := banks_le_of_wf hc
  refine ⟨⟨?_, ?_, ?_, ?_, ?_, ?_, ?_, ?_⟩, fun d => ?_, ⟨rfl, ?_, rfl⟩, fun i e he => ?_, fun n b hn => ?_, fun a => ?_⟩
  · exact congrArg some (flagWord_eq_ite _)
  · refine congrArg some ((setWidth_eq_ofNat _).trans ?_)
    rw [BitVec.toNat_ofNat]
  · exact congrArg some (setWidth_eq_ofNat _)
  · exact congrArg some (setWidth_eq_ofNat _)
  · exact congrArg some (Lin.telemWord_eq_ofNat _)
  · exact congrArg some (stWord_eq_ofNat _ _)
  · exact congrArg some (flagWord_eq_ite _)
  · exact congrArg some (setWidth_eq_ofNat _)
  · rw [← List.countP_eq_length_filter]
    cases d <;> exact ⟨rfl, rfl, rfl⟩
  · exact congrArg some s.activeWord_eq_ofNat
  · obtain ⟨hlt, _⟩ := List.getElem?_eq_some_iff.mp he
    have hent : s.flt.ent i = e := by simp [Filter.ent, he]
    rw [State.csrRead_ofNat (by omega), State.csrRead_ofNat (by omega), State.csrArray_fltId (by omega),
      State.csrArray_fltExt hb (by omega), Nat.add_sub_cancel_left, Nat.add_sub_cancel_left, hent, flagWord_eq_ite]
    exact ⟨rfl, rfl⟩
  · obtain ⟨hlt, _⟩ := List.getElem?_eq_some_iff.mp hn
    have word : ∀ j < 4, s.csrRead (BitVec.ofNat 16 (0x300 + j + 4 * n)) = b.csr j :=
      fun j hj => State.csrRead_bankWord hb hn (hbanks ▸ hlt) hj
    exact ⟨(word 0 (by omega)).trans (congrArg some b.cfgWord_eq_ofNat), word 1 (by omega), word 2 (by omega)⟩
  · change s.csrRead a = none ↔ ¬ (a.toNat ∈ namedAddrs ∨ _)
    by_cases hnamed : a.toNat ∈ namedAddrs
    · have hsome := State.csrRead_named (s := s) hnamed
      exact iff_of_false (fun hnone => by rw [hnone] at hsome; cases hsome) (fun hno => hno (.inl hnamed))
    · rw [State.csrRead_array hnamed, State.csrArray_eq_none hb]
      simp only [hnamed, false_or]

end Sys2Proof.Machine
end

section
/-! A port other than the acting one, replaced (R38): every operation gives the same answer and commutes with the replacement. -/

namespace Sys2Proof.Machine

open Sys2Proof Host

section

variable (s : State) (q : Nat) (Q : Port)

/-! ### The state -/

@[simp] theorem State.setPort_cfg : (s.setPort q Q).cfg = s.cfg := rfl
@[simp] theorem State.setPort_env : (s.setPort q Q).env = s.env := rfl
@[simp] theorem State.setPort_cur : (s.setPort q Q).cur = s.cur := rfl
@[simp] theorem State.setPort_mb : (s.setPort q Q).mb = s.mb := rfl
@[simp] theorem State.setPort_flt : (s.setPort q Q).flt = s.flt := rfl
@[simp] theorem State.setPort_lin : (s.setPort q Q).lin = s.lin := rfl
@[simp] theorem State.setPort_act : (s.setPort q Q).act = s.act := rfl
@[simp] theorem State.setPort_dir (d : Dir) : (s.setPort q Q).dir d = s.dir d := rfl

theorem State.updLin_setPort (f : Lin → Lin) : (s.setPort q Q).updLin f = (s.updLin f).setPort q Q := rfl
theorem State.updFlt_setPort (g : Filter → Filter) : (s.setPort q Q).updFlt g = (s.updFlt g).setPort q Q := rfl
theorem State.slotWrite_setPort (d : Dir) (k : Nat) (f : Frame) :
    (s.setPort q Q).slotWrite d k f = (s.slotWrite d k f).setPort q Q := rfl
theorem State.release_setPort (d : Dir) (k : Nat) : (s.setPort q Q).release d k = (s.release d k).setPort q Q := rfl
theorem State.countDrop_setPort (d : Dir) : (s.setPort q Q).countDrop d = (s.countDrop d).setPort q Q := rfl
theorem State.record_setPort (es : List WireEvent) : (s.setPort q Q).record es = (s.record es).setPort q Q := rfl
theorem State.finish_setPort (c : Status) (ph : LinPhase) :
    (s.setPort q Q).finish c ph = (s.finish c ph).setPort q Q := rfl
theorem State.releaseEngine_setPort : (s.setPort q Q).releaseEngine = s.releaseEngine.setPort q Q := rfl

theorem State.claim_setPort (d : Dir) :
    (s.setPort q Q).claim d = (s.claim d).map fun x => (x.1, x.2.setPort q Q) := by
  unfold State.claim
  rw [State.setPort_dir]
  cases (s.dir d).freeIdx <;> rfl

theorem State.push_setPort (d : Dir) (k : Nat) :
    (s.setPort q Q).push d k = (s.push d k).map fun t => t.setPort q Q := by
  unfold State.push
  rw [State.setPort_dir, State.setPort_cfg]
  split <;> rfl

theorem State.pop_setPort (d : Dir) : (s.setPort q Q).pop d = (s.pop d).map fun x => (x.1, x.2.setPort q Q) := by
  unfold State.pop
  rw [State.setPort_dir]
  cases (s.dir d).fifo <;> rfl

theorem State.csrRead_setPort (addr : CsrAddr) : (s.setPort q Q).csrRead addr = s.csrRead addr := rfl

theorem State.csrWrite_setPort (addr : CsrAddr) (v : Word) :
    (s.setPort q Q).csrWrite addr v = (s.csrWrite addr v).map fun t => t.setPort q Q := by
  unfold State.csrWrite
  split_ifs <;> rfl

/-! ### The transport and the transaction -/

theorem State.takeAnswer_setPort :
    (s.setPort q Q).takeAnswer = (s.takeAnswer.1, s.takeAnswer.2.setPort q Q) := by
  unfold State.takeAnswer
  rw [State.setPort_env]
  cases s.env.answers <;> rfl

theorem State.linBreak_setPort (r : BrkKind) :
    (s.setPort q Q).linBreak r = ((s.linBreak r).1, (s.linBreak r).2.setPort q Q) := by
  unfold State.linBreak
  rw [State.takeAnswer_setPort]
  rfl

theorem State.linWriteByte_setPort (b : Byte) :
    (s.setPort q Q).linWriteByte b = ((s.linWriteByte b).1, (s.linWriteByte b).2.setPort q Q) := by
  unfold State.linWriteByte
  rw [State.takeAnswer_setPort]
  cases hack : s.takeAnswer.1.ack <;> simp [hack, State.record_setPort]

theorem State.linRead_setPort (n : Nat) :
    (s.setPort q Q).linRead n = ((s.linRead n).1, (s.linRead n).2.setPort q Q) := by
  unfold State.linRead
  rw [State.takeAnswer_setPort]
  rfl

/-- The outcome of a transaction's step, its state changed by `f`. -/
def TxnStep.mapState (f : State → State) : TxnStep → TxnStep
  | .going u => .going (f u)
  | .ended u c ph => .ended (f u) c ph

theorem afterByte_setPort (t : Txn) (j : Nat) :
    afterByte t j (s.setPort q Q) = (afterByte t j s).mapState fun u => u.setPort q Q := by
  unfold afterByte
  rw [State.setPort_lin]
  split
  · rfl
  · cases t.resp <;> rfl

theorem breakStep_setPort (t : Txn) :
    breakStep t (s.setPort q Q) = (breakStep t s).mapState fun u => u.setPort q Q := by
  unfold breakStep
  rw [State.linBreak_setPort]
  cases s.linBreak t.brk with
  | mk ack u =>
    cases ack
    · rfl
    · dsimp only
      rw [State.updLin_setPort]
      exact afterByte_setPort ..

theorem writeStep_setPort (t : Txn) :
    writeStep t (s.setPort q Q) = (writeStep t s).mapState fun u => u.setPort q Q := by
  unfold writeStep
  rw [State.setPort_lin, State.linWriteByte_setPort]
  cases s.linWriteByte ((wireBytes t s.lin.lf).getD s.lin.idx 0) with
  | mk ack u =>
    cases ack
    · rfl
    · exact afterByte_setPort ..

theorem respStep_setPort (t : Txn) :
    respStep t (s.setPort q Q) = (respStep t s).mapState fun u => u.setPort q Q := by
  unfold respStep
  rw [State.linRead_setPort]
  cases s.linRead (t.respLen + 1) with
  | mk w u => cases w <;> rfl

theorem rxCks_setPort (t : Txn) : rxCks t (s.setPort q Q) = rxCks t s := rfl

theorem rxData_setPort (t : Txn) : rxData t (s.setPort q Q) = rxData t s := rfl

theorem validateStep_setPort (t : Txn) :
    validateStep t (s.setPort q Q) = (validateStep t s).mapState fun u => u.setPort q Q := by
  unfold validateStep
  rw [rxCks_setPort, rxData_setPort, State.setPort_lin]
  split <;> rfl

theorem txnStep_setPort (t : Txn) :
    txnStep t (s.setPort q Q) = (txnStep t s).mapState fun u => u.setPort q Q := by
  unfold txnStep
  rw [State.setPort_lin]
  cases s.lin.phase with
  | idle => rfl
  | brk => exact breakStep_setPort ..
  | sync | pid | data | cks => exact writeStep_setPort ..
  | resp => exact respStep_setPort ..
  | validate => exact validateStep_setPort ..

theorem diagStep_setPort : diagStep (s.setPort q Q) = (diagStep s).mapState fun u => u.setPort q Q := by
  unfold diagStep
  rw [State.setPort_lin, State.setPort_cfg, txnStep_setPort]
  cases s.lin.stage with
  | telemDone => rfl
  | frame | xfer =>
    cases txnStep (diagTxn s.cfg) s with
    | going u => rfl
    | ended u c ph => cases c <;> rfl

end

/-! ### The acting port, while another one is replaced -/

section

variable {s : State} {q : Nat} {Q : Port}

theorem State.me_setPort (h : q ≠ s.cur) : (s.setPort q Q).me = s.me := by
  unfold State.me State.setPort
  rw [List.getElem?_set_ne h]

theorem State.updMe_setPort (h : q ≠ s.cur) (f : Port → Port) :
    (s.setPort q Q).updMe f = (s.updMe f).setPort q Q := by
  unfold State.updMe State.setPort
  dsimp only
  congr 1
  apply List.ext_getElem?
  intro j
  simp only [List.getElem?_modify, List.getElem?_set, List.length_modify]
  by_cases hj : q = j
  · subst hj; simp [Ne.symm h]
  · simp [hj]

theorem State.goto_setPort (h : q ≠ s.cur) (ph : MicroPhase) : (s.setPort q Q).goto ph = (s.goto ph).setPort q Q :=
  State.updMe_setPort h _

theorem State.endCmd_setPort (h : q ≠ s.cur) (c : Status) (ph : LinPhase) :
    (s.setPort q Q).endCmd c ph = (s.endCmd c ph).setPort q Q := State.updMe_setPort h _

theorem State.setR0_setPort (h : q ≠ s.cur) (v : Word) : (s.setPort q Q).setR0 v = (s.setR0 v).setPort q Q :=
  State.updMe_setPort h _

theorem State.setR_setPort (h : q ≠ s.cur) (r : Quad) : (s.setPort q Q).setR r = (s.setR r).setPort q Q :=
  State.updMe_setPort h _

theorem State.entered_setPort (h : q ≠ s.cur) : (s.setPort q Q).entered = s.entered.setPort q Q := by
  unfold State.entered
  rw [State.setPort_cur, State.updLin_setPort]
  exact State.goto_setPort (s := s.updLin _) h _

theorem linEnd_setPort (h : q ≠ s.cur) (c : Status) (ph : LinPhase) :
    linEnd c ph (s.setPort q Q) = (linEnd c ph s).setPort q Q := State.endCmd_setPort (s := s.releaseEngine) h c ph

/-! ### The commands -/

/-- The outcome of a micro-step, its next state changed by `f`. -/
def mapNext (f : State → State) : Outcome State Fault Refusal → Outcome State Fault Refusal
  | .next t => .next (f t)
  | .fault r => .fault r
  | .refused r => .refused r

theorem oneStep_setPort (h : q ≠ s.cur) {k : State → State} (hk : k (s.setPort q Q) = (k s).setPort q Q) :
    (s.setPort q Q).oneStep k = mapNext (fun t => t.setPort q Q) (s.oneStep k) := by
  unfold State.oneStep
  rw [State.me_setPort h, hk]
  cases s.me.phase <;> rfl

theorem linCommand_setPort (h : q ≠ s.cur) {load body : State → State} (legal : Bool)
    (hload : load (s.entered.setPort q Q) = (load s.entered).setPort q Q)
    (hbody : body (s.setPort q Q) = (body s).setPort q Q) :
    linCommand legal load body (s.setPort q Q) = mapNext (fun t => t.setPort q Q) (linCommand legal load body s) := by
  have henter : linEnter load (s.setPort q Q) = (linEnter load s).setPort q Q := by
    cases ho : s.lin.owner with
    | none => rw [linEnter_free ho, linEnter_free (s := s.setPort q Q) ho, State.entered_setPort h, hload]
    | some p => rw [linEnter_held ho, linEnter_held (s := s.setPort q Q) ho, State.goto_setPort h]
  unfold linCommand
  rw [State.me_setPort h, henter, hbody, State.endCmd_setPort h]
  cases s.me.phase
  case ready => cases legal <;> rfl
  all_goals rfl

theorem State.claim_cur {t : State} {d : Dir} {k : Nat} (h : s.claim d = some (k, t)) : t.cur = s.cur := by
  obtain ⟨_, rfl⟩ := (State.claim_eq_some ..).mp h
  rfl

theorem State.push_cur {t : State} {d : Dir} {k : Nat} (h : s.push d k = some t) : t.cur = s.cur := by
  obtain ⟨_, rfl⟩ := (State.push_eq_some ..).mp h
  rfl

theorem State.pop_cur {t : State} {d : Dir} {k : Nat} (h : s.pop d = some (k, t)) : t.cur = s.cur := by
  obtain ⟨_, _, rfl⟩ := (State.pop_eq_some ..).mp h
  rfl

theorem State.csrWrite_cur {t : State} {addr : CsrAddr} {v : Word} (h : s.csrWrite addr v = some t) : t.cur = s.cur := by
  unfold State.csrWrite at h
  split_ifs at h <;> cases h <;> rfl

/-! ### The mailbox commands -/

theorem postM1_setPort (h : q ≠ s.cur) : postM1 (s.setPort q Q) = (postM1 s).setPort q Q := by
  unfold postM1
  rw [State.claim_setPort]
  cases hc : s.claim .usb with
  | none => exact State.goto_setPort (s := s.countDrop .usb) h _
  | some x => exact State.goto_setPort (s := x.2) (by rwa [State.claim_cur hc]) _

theorem postM2_setPort (h : q ≠ s.cur) (k : Nat) : postM2 k (s.setPort q Q) = (postM2 k s).setPort q Q := by
  unfold postM2
  rw [State.me_setPort h]
  exact State.goto_setPort (s := s.slotWrite .usb k _) h _

theorem postM3_setPort (h : q ≠ s.cur) (k : Nat) : postM3 k (s.setPort q Q) = (postM3 k s).setPort q Q := by
  unfold postM3
  rw [State.push_setPort]
  cases hc : s.push .usb k with
  | none => exact State.goto_setPort (s := (s.release .usb k).countDrop .usb) h _
  | some t => exact State.goto_setPort (s := t) (by rwa [State.push_cur hc]) _

theorem postP1_setPort (h : q ≠ s.cur) (d : Dir) : postP1 d (s.setPort q Q) = (postP1 d s).setPort q Q := by
  unfold postP1
  rw [State.claim_setPort]
  cases hc : s.claim d with
  | none => exact State.endCmd_setPort (s := s.countDrop d) h _ _
  | some x => exact State.goto_setPort (s := x.2) (by rwa [State.claim_cur hc]) _

theorem postP2_setPort (h : q ≠ s.cur) (d : Dir) (k : Nat) :
    postP2 d k (s.setPort q Q) = (postP2 d k s).setPort q Q := by
  unfold postP2
  rw [State.me_setPort h]
  exact State.goto_setPort (s := s.slotWrite d k _) h _

theorem postP3_setPort (h : q ≠ s.cur) (d : Dir) (k : Nat) :
    postP3 d k (s.setPort q Q) = (postP3 d k s).setPort q Q := by
  unfold postP3
  rw [State.push_setPort]
  cases hc : s.push d k with
  | none => exact State.goto_setPort h _
  | some t => exact State.endCmd_setPort (s := t) (by rwa [State.push_cur hc]) _ _

theorem postP4_setPort (h : q ≠ s.cur) (d : Dir) (k : Nat) :
    postP4 d k (s.setPort q Q) = (postP4 d k s).setPort q Q :=
  State.endCmd_setPort (s := (s.release d k).countDrop d) h _ _

theorem postStart_setPort (h : q ≠ s.cur) (d : Dir) : postStart d (s.setPort q Q) = (postStart d s).setPort q Q := by
  unfold postStart
  rw [State.me_setPort h]
  split
  · cases d with
    | tx => exact postM1_setPort h
    | rx => exact postP1_setPort h .rx
    | usb => exact postP1_setPort h .usb
  · exact State.endCmd_setPort h _ _

theorem execMbPost_setPort (h : q ≠ s.cur) (d : Dir) :
    execMbPost d (s.setPort q Q) = mapNext (fun t => t.setPort q Q) (execMbPost d s) := by
  unfold execMbPost
  rw [State.me_setPort h]
  cases s.me.phase with
  | ready => exact congrArg Outcome.next (postStart_setPort h d)
  | pMirrorClaimed k copied =>
    cases copied with
    | false => exact congrArg Outcome.next (postM2_setPort h k)
    | true => exact congrArg Outcome.next (postM3_setPort h k)
  | pPrimary => exact congrArg Outcome.next (postP1_setPort h d)
  | pClaimed e k pos =>
    cases pos with
    | copy => exact congrArg Outcome.next (postP2_setPort h e k)
    | publish => exact congrArg Outcome.next (postP3_setPort h e k)
    | rollback => exact congrArg Outcome.next (postP4_setPort h e k)
  | fPopped e k out => rfl
  | lWait => rfl
  | lRun => rfl

theorem fetchF1_setPort (h : q ≠ s.cur) (d : Dir) : fetchF1 d (s.setPort q Q) = (fetchF1 d s).setPort q Q := by
  unfold fetchF1
  rw [State.pop_setPort]
  cases hc : s.pop d with
  | none => exact State.endCmd_setPort h _ _
  | some x => exact State.goto_setPort (s := x.2) (by rwa [State.pop_cur hc]) _

theorem fetchF2_setPort (h : q ≠ s.cur) (d : Dir) (k : Nat) :
    fetchF2 d k (s.setPort q Q) = (fetchF2 d k s).setPort q Q := State.goto_setPort h _

theorem fetchF3_setPort (h : q ≠ s.cur) (d : Dir) (k : Nat) (f : Frame) :
    fetchF3 d k f (s.setPort q Q) = (fetchF3 d k f s).setPort q Q := by
  unfold fetchF3
  rw [State.release_setPort, State.setR_setPort (s := s.release d k) h]
  exact State.endCmd_setPort (s := (s.release d k).setR _) h _ _

theorem execMbFetch_setPort (h : q ≠ s.cur) (d : Dir) :
    execMbFetch d (s.setPort q Q) = mapNext (fun t => t.setPort q Q) (execMbFetch d s) := by
  unfold execMbFetch
  rw [State.me_setPort h]
  cases s.me.phase with
  | ready => exact congrArg Outcome.next (fetchF1_setPort h d)
  | fPopped e k out =>
    cases out with
    | none => exact congrArg Outcome.next (fetchF2_setPort h e k)
    | some f => exact congrArg Outcome.next (fetchF3_setPort h e k f)
  | pMirrorClaimed k copied => rfl
  | pPrimary => rfl
  | pClaimed e k pos => rfl
  | lWait => rfl
  | lRun => rfl

/-! ### The commands that use the engine -/

theorem sendStep_setPort (h : q ≠ s.cur) (t : Txn) : sendStep t (s.setPort q Q) = (sendStep t s).setPort q Q := by
  unfold sendStep
  rw [txnStep_setPort]
  cases hstep : txnStep t s with
  | going u => rfl
  | ended u c ph => exact linEnd_setPort (s := u.finish c ph) ((txnStep_ended hstep).cur ▸ h) c ph

/-- The end of a LIN command with a response, in a state with the same acting port. -/
theorem linEnd_setR_setPort {u : State} (h : q ≠ u.cur) (r : Quad) (c : Status) (ph : LinPhase) :
    linEnd c ph (((u.setPort q Q).setR r).finish c ph) = (linEnd c ph ((u.setR r).finish c ph)).setPort q Q := by
  rw [State.setR_setPort h]
  exact linEnd_setPort (s := (u.setR r).finish c ph) h c ph

theorem xchgStep_setPort (h : q ≠ s.cur) (t : Txn) : xchgStep t (s.setPort q Q) = (xchgStep t s).setPort q Q := by
  unfold xchgStep
  rw [txnStep_setPort]
  cases hstep : txnStep t s with
  | going u => rfl
  | ended u c ph =>
    have hu : q ≠ u.cur := (txnStep_ended hstep).cur ▸ h
    cases c with
    | ok => exact linEnd_setR_setPort hu _ .ok ph
    | full | empty | timeout | checksumMismatch | configError | illegalCmd =>
      exact linEnd_setPort (s := u.finish _ ph) hu _ ph

theorem diagStep_cur (s : State) : (diagStep s).state.cur = s.cur := by
  obtain ⟨u, h, e, _⟩ | ⟨u, ph, h, e, _⟩ | ⟨u, c, ph, _, h, e, _⟩ | ⟨e, _⟩ := diagStep_cases s <;> rw [e]
  · exact (txnStep_going h).cur
  · exact (txnStep_ended h).cur
  · exact (txnStep_ended h).cur
  · rfl

theorem diagCommandStep_setPort (h : q ≠ s.cur) :
    diagCommandStep (s.setPort q Q) = (diagCommandStep s).setPort q Q := by
  have hcur := diagStep_cur s
  unfold diagCommandStep
  rw [diagStep_setPort]
  cases hstep : diagStep s with
  | going u => rfl
  | ended u c ph =>
    rw [hstep] at hcur
    have hu : q ≠ u.cur := hcur ▸ h
    cases c with
    | ok => exact linEnd_setR_setPort hu _ .ok ph
    | full | empty | timeout | checksumMismatch | configError | illegalCmd =>
      exact linEnd_setPort (s := u.finish _ ph) hu _ ph

theorem cycleStatusStep_setPort : cycleStatusStep (s.setPort q Q) = (cycleStatusStep s).setPort q Q := by
  unfold cycleStatusStep
  rw [State.setPort_cfg, txnStep_setPort]
  cases txnStep (statusTxn s.cfg) s <;> rfl

theorem cycleDiagStep_setPort (h : q ≠ s.cur) (c1 : Status) (p1 : LinPhase) :
    cycleDiagStep c1 p1 (s.setPort q Q) = (cycleDiagStep c1 p1 s).setPort q Q := by
  have hcur := diagStep_cur s
  unfold cycleDiagStep
  rw [diagStep_setPort]
  cases hstep : diagStep s with
  | going u => rfl
  | ended u c ph =>
    rw [hstep] at hcur
    have hu : q ≠ (u.finish c ph).cur := hcur ▸ h
    change linEnd _ _ (((u.finish c ph).setPort q Q).setR0 _) = _
    rw [State.setR0_setPort hu]
    exact linEnd_setPort (s := (u.finish c ph).setR0 _) hu _ _

theorem cycleStep_setPort (h : q ≠ s.cur) : cycleStep (s.setPort q Q) = (cycleStep s).setPort q Q := by
  by_cases hs : s.lin.stage = .frame
  · rw [cycleStep_frame hs, cycleStep_frame (s := s.setPort q Q) hs]
    rfl
  cases hf : s.lin.first with
  | none =>
    rw [cycleStep_status hs hf, cycleStep_status (s := s.setPort q Q) hs hf]
    exact cycleStatusStep_setPort
  | some o =>
    by_cases hp : s.lin.phase = .idle
    · rw [cycleStep_pause hs hf hp, cycleStep_pause (s := s.setPort q Q) hs hf hp]
      rfl
    · rw [cycleStep_diag hs hf hp, cycleStep_diag (s := s.setPort q Q) hs hf hp]
      exact cycleDiagStep_setPort h _ _

theorem loadRequest_setPort (h : q ≠ s.cur) (id : BitVec 6) (len : BitVec 4) :
    loadRequest id len (s.setPort q Q) = (loadRequest id len s).setPort q Q := by
  unfold loadRequest
  rw [State.me_setPort h]
  rfl

/-! ### Every command -/

theorem setR0_endCmd_setPort (h : q ≠ s.cur) (v : Word) (c : Status) (ph : LinPhase) :
    ((s.setPort q Q).setR0 v).endCmd c ph = ((s.setR0 v).endCmd c ph).setPort q Q := by
  rw [State.setR0_setPort h]
  exact State.endCmd_setPort (s := s.setR0 v) h c ph

theorem updFlt_endCmd_setPort (h : q ≠ s.cur) (g : Filter → Filter) (c : Status) (ph : LinPhase) :
    ((s.setPort q Q).updFlt g).endCmd c ph = ((s.updFlt g).endCmd c ph).setPort q Q :=
  State.endCmd_setPort (s := s.updFlt g) h c ph

/-- A command commutes with the replacement of a port other than the acting one. -/
theorem exec_setPort (h : q ≠ s.cur) (i : Instr) :
    exec i (s.setPort q Q) = mapNext (fun t => t.setPort q Q) (exec i s) := by
  cases i with
  | mbPost d => exact execMbPost_setPort h d
  | mbFetch d => exact execMbFetch_setPort h d
  | mbEmpty d => exact oneStep_setPort h (setR0_endCmd_setPort h _ _ _)
  | fltClear =>
    rw [exec_fltClear, exec_fltClear]
    exact oneStep_setPort h (updFlt_endCmd_setPort h _ _ _)
  | fltSet slot ext =>
    rw [exec_fltSet, exec_fltSet]
    refine oneStep_setPort h ?_
    rw [State.me_setPort h, State.setPort_cfg]
    split
    · exact updFlt_endCmd_setPort h _ _ _
    · exact State.endCmd_setPort h _ _
  | fltEn n =>
    rw [exec_fltEn, exec_fltEn]
    exact oneStep_setPort h (updFlt_endCmd_setPort h _ _ _)
  | fltApply =>
    rw [exec_fltApply, exec_fltApply]
    exact oneStep_setPort h (updFlt_endCmd_setPort h _ _ _)
  | linPid id =>
    rw [exec_linPid, exec_linPid]
    exact oneStep_setPort h (setR0_endCmd_setPort h _ _ _)
  | linCks k len seed =>
    rw [exec_linCks, exec_linCks]
    refine oneStep_setPort h ?_
    rw [State.me_setPort h]
    split
    · exact setR0_endCmd_setPort h _ _ _
    · exact State.endCmd_setPort h _ _
  | linSend id len c k r =>
    exact linCommand_setPort h _ (loadRequest_setPort (s := s.entered) h id len) (sendStep_setPort h _)
  | linXchg id len n c k r =>
    exact linCommand_setPort h _ (loadRequest_setPort (s := s.entered) h id len) (xchgStep_setPort h _)
  | linDiag => exact linCommand_setPort (load := startDiag) h _ rfl (diagCommandStep_setPort h)
  | linCycle => exact linCommand_setPort (load := armCycle) h _ rfl (cycleStep_setPort h)
  | actMark =>
    rw [exec_actMark, exec_actMark]
    exact oneStep_setPort h (State.endCmd_setPort (s := { s with act := ⟨s.env.now, true⟩ }) h _ _)
  | csrRd addr =>
    rw [exec_csrRd, exec_csrRd]
    refine oneStep_setPort h ?_
    rw [State.csrRead_setPort]
    cases s.csrRead addr with
    | none => exact State.endCmd_setPort h _ _
    | some v => exact setR0_endCmd_setPort h v _ _
  | csrWr addr =>
    rw [exec_csrWr, exec_csrWr]
    refine oneStep_setPort h ?_
    rw [State.me_setPort h, State.csrWrite_setPort]
    cases hw : s.csrWrite addr s.me.lat.w0 with
    | none => exact State.endCmd_setPort h _ _
    | some u => exact State.endCmd_setPort (s := u) (by rwa [State.csrWrite_cur hw]) _ _

end

/-- Settles O58: every command commutes with the replacement (`exec_setPort`). -/
theorem otherPortsUnread : Obligations.OtherPortsUnread := by
  intro i s q Q hq _
  rw [exec_setPort hq]
  cases exec i s <;> rfl

end Sys2Proof.Machine
end

section
/-! The frame that MB.FETCH has popped, on its way to the result registers: whoever steps, it stays what it is (R69, R136, R139). -/

namespace Sys2Proof.Machine

open Sys2Proof Host

/-- Port `p` has popped slot `k` of direction `d`, and `f` is the frame it is to deliver: its copy or, before step F2, what the slot
holds. -/
def State.carries (s : State) (p : Nat) (d : Dir) (k : Nat) (f : Frame) : Prop :=
  ∃ P o, s.ports[p]? = some P ∧ P.phase = .fPopped d k o ∧ o.getD ((s.dir d).read k) = f

/-- Port `p` has ended OK, with `f` in its result registers. -/
def State.delivered (s : State) (p : Nat) (f : Frame) : Prop :=
  ∃ P, s.ports[p]? = some P ∧ P.phase = .ready ∧ P.st = 0 ∧ P.r = f.results

/-- A frame on its way depends on the port's micro-phase and on what its slot holds, and on nothing else. -/
theorem State.carries.of_phase {s t : State} {p : Nat} {d : Dir} {k : Nat} {f : Frame} (h : s.carries p d k f)
    (hport : ∀ P, s.ports[p]? = some P → ∃ Q, t.ports[p]? = some Q ∧ Q.phase = P.phase)
    (hread : (t.dir d).read k = (s.dir d).read k) : t.carries p d k f := by
  obtain ⟨P, o, hp, hph, rfl⟩ := h
  obtain ⟨Q, hq, hQ⟩ := hport P hp
  exact ⟨Q, o, hq, hQ.trans hph, by rw [hread]⟩

/-- A change of a port that keeps its micro-phase leaves the frame on its way. -/
theorem State.carries.modifyPort {s : State} {p : Nat} {d : Dir} {k : Nat} {f : Frame} (h : s.carries p d k f) (q : Nat)
    {g : Port → Port} (hg : ∀ P, s.ports[q]? = some P → (g P).phase = P.phase) :
    State.carries { s with ports := s.ports.modify q g } p d k f := by
  refine h.of_phase (fun P hp => ?_) rfl
  rw [List.getElem?_modify, hp]
  by_cases hqp : q = p
  · exact ⟨g P, by simp [hqp], hg P (hqp ▸ hp)⟩
  · exact ⟨P, by simp [hqp], rfl⟩

theorem Port.present_phase (P : Port) (w : Word) : (P.present w).phase = P.phase := by
  unfold Port.present; split <;> rfl

/-- Another port's micro-step leaves the frame on its way: nobody else holds the slot popped (R25), so nobody else writes there. -/
theorem ExecEffect.carries {i : Instr} {s t : State} {R Q : Port} (hR : s.acting R) (e : ExecEffect i s R t Q)
    (hpool : s.poolOk) {p : Nat} (hne : p ≠ s.cur) {d : Dir} {k : Nat} {f : Frame} (h : s.carries p d k f) :
    t.carries p d k f := by
  refine h.of_phase (fun P hp => ⟨P, ?_, rfl⟩) ?_
  · rw [e.ports, List.getElem?_set_ne hne.symm]; exact hp
  · obtain ⟨P, o, hp, hph, _⟩ := h
    have hheld : P.phase.held d = some k := by rw [hph, MicroPhase.fPopped_holds d k o d, if_pos rfl]
    obtain hsame | ⟨hheldR, _, _⟩ := e.mb.read d k
    · exact hsame
    · exact absurd (hpool.holder_unique hp hR hheld hheldR) hne

/-- Only MB.FETCH of its own direction passes through `F_POPPED` (R39). -/
theorem fitsPhase_fPopped {i : Instr} {d : Dir} {k : Nat} {o : Option Frame} :
    fitsPhase i (.fPopped d k o) = true ↔ i = .mbFetch d := by
  cases i <;> simp [fitsPhase, eq_comm]

/-- Step F2 of MB.FETCH (R136): the copy is what the slot holds. -/
theorem execMbFetch_copy {s : State} {P : Port} (hP : s.acting P) {d e : Dir} {k : Nat}
    (hph : P.phase = .fPopped d k none) :
    execMbFetch e s = .next (s.withPort { P with phase := .fPopped d k (some ((s.dir d).read k)) }) := by
  unfold execMbFetch
  simp only [hP.me, hph]
  exact congrArg Outcome.next (hP.goto _)

/-- Step F3 of MB.FETCH (R136): the copy goes to the result registers, and the command ends OK. -/
theorem execMbFetch_deliver {s : State} {P : Port} (hP : s.acting P) {d e : Dir} {k : Nat} {f : Frame}
    (hph : P.phase = .fPopped d k (some f)) :
    execMbFetch e s = .next ((s.release d k).withPort (P.ended .ok .idle f.results)) := by
  have hrel : (s.release d k).acting P := hP
  unfold execMbFetch
  simp only [hP.me, hph]
  refine congrArg Outcome.next ?_
  unfold fetchF3 State.setR
  rw [hrel.updMe, hrel.withPort_endCmd]
  rfl

/-- The port's own micro-step keeps the frame (F2) or delivers it (F3). -/
theorem execMbFetch_carries {s t : State} {d e : Dir} {k : Nat} {f : Frame} (h : s.carries s.cur d k f)
    (hx : execMbFetch e s = .next t) : t.carries s.cur d k f ∨ t.delivered s.cur f := by
  obtain ⟨P, o, hP, hph, rfl⟩ := h
  cases o with
  | none =>
    rw [execMbFetch_copy hP hph] at hx
    cases hx
    exact .inl ⟨_, _, State.acting.withPort hP _, rfl, rfl⟩
  | some f =>
    rw [execMbFetch_deliver hP hph] at hx
    cases hx
    have hrel : (s.release d k).acting P := hP
    exact .inr ⟨_, hrel.withPort _, rfl, rfl, rfl⟩

/-- A micro-step of the command that a port presents, whichever port it is. -/
theorem State.Inv.exec_carries {i : Instr} {s t : State} {R : Port} (hs : s.Inv) (hR : s.acting R)
    (hd : decode R.cw = .ok i) (hx : Machine.exec i s = .next t) {p : Nat} {d : Dir} {k : Nat} {f : Frame}
    (h : s.carries p d k f) : t.carries p d k f ∨ t.delivered p f := by
  by_cases hp : p = s.cur
  · subst hp
    have ⟨P, o, hP, hph, _⟩ := h
    obtain rfl : R = P := Option.some.inj (hR.symm.trans hP)
    have hfit := (hs.ports R (List.mem_of_getElem? hR)).fitsPhase hd
    rw [hph] at hfit
    obtain rfl := fitsPhase_fPopped.mp (hfit.resolve_left (by simp))
    exact execMbFetch_carries h hx
  · obtain ⟨Q, e⟩ := exec_effect hR hx
    exact .inl (e.carries hR hs.pool hp h)

/-- Over every step but reset, the frame on its way stays what it is or is delivered. -/
theorem step_carries {s t : State} (hs : s.Inv) (hstep : step s = .next t) (hreset : s.nextEvent.1 ≠ .reset) {p : Nat}
    {d : Dir} {k : Nat} {f : Frame} (h : s.carries p d k f) : t.carries p d k f ∨ t.delivered p f := by
  have hu : s.nextEvent.2.carries p d k f :=
    h.of_phase (fun P hp => ⟨P, by rw [s.nextEvent_ports]; exact hp, rfl⟩) (by simp [State.dir_def])
  have hinv := hs.nextEvent
  cases step_cases hstep with
  | run q R i _ hR _ hd hx => exact (hinv.schedule q).exec_carries (R := R) hR hd hx hu
  | illegal q R _ hR _ _ hready ht =>
    have hkept := hu.modifyPort q (g := fun _ => R.ended .illegalCmd .idle R.r) fun P hP => by
      rw [← Option.some.inj (hR.symm.trans hP), hready]; rfl
    rw [modify_eq_set hR] at hkept
    exact .inl (ht ▸ hkept)
  | idle _ _ _ ht => exact .inl (ht ▸ hu)
  | write q i v _ ht => exact .inl (ht ▸ hu.modifyPort q fun _ _ => rfl)
  | present q w _ ht => exact .inl (ht ▸ hu.modifyPort q fun P _ => P.present_phase w)
  | clock n _ ht => subst ht; exact .inl hu
  | reset he _ => exact absurd he hreset

/-- Settles O25: the frame the port carries (`State.carries`) is kept by every step, or delivered by the port's own (`step_carries`). -/
theorem poppedFrameIsDelivered : Obligations.PoppedFrameIsDelivered := by
  intro s t p P d k o hs hstep hreset hp hph
  obtain ⟨Q, o', hq, hQ, hf⟩ | ⟨Q, hq, hdone⟩ := step_carries hs hstep hreset ⟨P, o, hp, hph, rfl⟩
  · exact ⟨Q, hq, .inl ⟨o', hQ, hf⟩⟩
  · exact ⟨Q, hq, .inr hdone⟩

end Sys2Proof.Machine
end

section
/-! The registers of operands and results (R61, R92, R93): which byte lies where, and that a posted frame is read back. -/

namespace Sys2Proof.Machine

open Sys2Proof Host

/-! ### Data bytes -/

/-- A byte of a register as a number (R61 (a)). -/
theorem wordByte_eq_ofNat (w : Word) (j : Nat) : wordByte w j = BitVec.ofNat 8 (w.toNat / 2 ^ (8 * j)) := by
  rw [wordByte, BitVec.extractLsb', Nat.shiftRight_eq_div_pow]

/-- A register as a number, from its four bytes (R61 (c)). -/
theorem wordOfBytes_toNat (b0 b1 b2 b3 : Byte) :
    (wordOfBytes b0 b1 b2 b3).toNat = b0.toNat + 2 ^ 8 * b1.toNat + 2 ^ 16 * b2.toNat + 2 ^ 24 * b3.toNat := by
  simp only [wordOfBytes, toNat_append_eq_add]
  omega

/-- The bytes of a register are those it was made of, the one of lowest weight first (R61 (c)). -/
theorem wordByte_wordOfBytes (b0 b1 b2 b3 : Byte) {j : Nat} (hj : j < 4) :
    wordByte (wordOfBytes b0 b1 b2 b3) j = [b0, b1, b2, b3].getD j 0 := by
  apply BitVec.eq_of_toNat_eq
  rw [wordByte_eq_ofNat, BitVec.toNat_ofNat, wordOfBytes_toNat]
  interval_cases j
  · show _ = b0.toNat; omega
  · show _ = b1.toNat; omega
  · show _ = b2.toNat; omega
  · show _ = b3.toNat; omega

/-- Data bytes 0 to 3 lie in register 2, 4 to 7 in register 3 (R92). -/
theorem Quad.allBytes_getD (q : Quad) {k : Nat} (hk : k < 8) :
    q.allBytes.getD k 0 = wordByte (if k < 4 then q.w2 else q.w3) (k % 4) := by
  interval_cases k <;> rfl

/-- Packed bytes are read back, and zero after the last one (R93). -/
theorem allBytes_pack (w0 w1 : Word) (bs : List Byte) {k : Nat} (hk : k < 8) :
    (⟨w0, w1, packLow bs, packHigh bs⟩ : Quad).allBytes.getD k 0 = bs.getD k 0 := by
  rw [Quad.allBytes_getD _ hk]
  split
  · rw [packLow, wordByte_wordOfBytes _ _ _ _ (Nat.mod_lt _ (by decide))]
    interval_cases k <;> rfl
  · rename_i hhigh
    rw [not_lt] at hhigh
    rw [packHigh, wordByte_wordOfBytes _ _ _ _ (Nat.mod_lt _ (by decide))]
    interval_cases k <;> rfl

theorem Quad.allBytes_length (q : Quad) : q.allBytes.length = 8 := rfl

theorem Quad.bytes_length (q : Quad) {n : Nat} (hn : n ≤ 8) : (q.bytes n).length = n := by
  rw [Quad.bytes, List.length_take, q.allBytes_length, Nat.min_eq_left hn]

/-- Bytes from `n` on are ignored (R92). -/
theorem Quad.bytes_getD (q : Quad) (n k : Nat) :
    (q.bytes n).getD k 0 = if k < n then q.allBytes.getD k 0 else 0 := by
  simp only [Quad.bytes, List.getD_eq_getElem?_getD, List.getElem?_take]
  split <;> rfl

/-- Data bytes packed into registers 2 and 3 are the bytes read from them. -/
theorem bytes_pack (w0 w1 : Word) {bs : List Byte} (h : bs.length ≤ 8) :
    (⟨w0, w1, packLow bs, packHigh bs⟩ : Quad).bytes bs.length = bs := by
  apply List.ext_getElem (Quad.bytes_length _ h)
  intro k hk hbs
  rw [← List.getD_eq_getElem _ 0 hk, ← List.getD_eq_getElem _ 0 hbs, Quad.bytes_getD, if_pos hbs,
    allBytes_pack _ _ _ (by omega)]

/-! ### Identifier, flag and length -/

/-- What legal operands satisfy (R142): the reserved bits of both registers are zero, and at most eight bytes are posted. -/
theorem operandsLegal_reserved {q : Quad} (h : operandsLegal q = true) :
    q.w0.extractLsb' 29 2 = 0 ∧ q.w1.extractLsb' 4 28 = 0 ∧ (q.w1.extractLsb' 0 4).toNat ≤ 8 := by
  simp only [operandsLegal, Bool.and_eq_true, decide_eq_true_eq] at h
  obtain ⟨⟨⟨hid, hlen⟩, hmax⟩, _⟩ := h
  exact ⟨hid, hlen, hmax⟩

/-- An identifier word whose reserved bits are zero is its flag and its identifier (R92, R93). -/
theorem idWord_eq {w : Word} (h : w.extractLsb' 29 2 = 0) :
    BitVec.ofBool (w.getLsbD 31) ++ (0 : BitVec 2) ++ w.extractLsb' 0 29 = w := by
  have hflag : BitVec.ofBool (w.getLsbD 31) = w.extractLsb' 31 1 := by
    ext i hi
    obtain rfl : i = 0 := by omega
    simp
  apply BitVec.eq_of_toNat_eq
  have hreserved := congrArg BitVec.toNat h
  rw [hflag, ← h]
  simp only [toNat_append_eq_add, BitVec.extractLsb'_toNat, Nat.shiftRight_eq_div_pow, BitVec.ofNat_eq_ofNat,
    BitVec.toNat_zero] at hreserved ⊢
  omega

/-- A length word whose reserved bits are zero is its length. -/
theorem lenWord_eq {w : Word} (h : w.extractLsb' 4 28 = 0) : BitVec.ofNat 32 (w.extractLsb' 0 4).toNat = w := by
  apply BitVec.eq_of_toNat_eq
  have hhigh := congrArg BitVec.toNat h
  simp only [BitVec.extractLsb'_toNat, Nat.shiftRight_eq_div_pow, BitVec.ofNat_eq_ofNat, BitVec.toNat_ofNat] at hhigh ⊢
  omega

/-- Settles O6: the byte of each index (`allBytes_getD`), what packed bytes read as (`allBytes_pack`), and the reserved bits that
R142 requires to be zero. -/
theorem registerPacking : Obligations.RegisterPacking := by
  refine ⟨fun q k hk => ?_, fun bs w0 w1 h => bytes_pack w0 w1 h, fun q hlegal => ?_⟩
  · rw [q.allBytes_getD hk, wordByte_eq_ofNat]
  · obtain ⟨hid, hlen, hmax⟩ := operandsLegal_reserved hlegal
    refine ⟨idWord_eq hid, ?_, fun k hk => ?_⟩
    · exact (congrArg _ (q.bytes_length hmax)).trans (lenWord_eq hlen)
    · exact (allBytes_pack _ _ _ hk).trans (q.bytes_getD _ k)

end Sys2Proof.Machine
end

section
/-! The command word by its fields (R90, R91): in every format the three bytes below the opcode hold one field each, at their low end,
and the rest of a byte must be zero. So a format is three widths, and its words are those that three fields of these widths make. -/

namespace Sys2Proof.Machine

open Sys2Proof

/-! ### The four bytes of a word -/

theorem cwOf_toNat (op a b c : BitVec 8) :
    (cwOf op a b c).toNat = 2 ^ 24 * op.toNat + 2 ^ 16 * a.toNat + 2 ^ 8 * b.toNat + c.toNat := by
  simp only [cwOf, toNat_append_eq_add]
  omega

theorem cwOf_inj {op a b c op' a' b' c' : BitVec 8} :
    cwOf op a b c = cwOf op' a' b' c' ↔ op = op' ∧ a = a' ∧ b = b' ∧ c = c' := by
  simp only [← BitVec.toNat_inj, cwOf_toNat]
  omega

theorem cwOf_and (op a b c op' a' b' c' : BitVec 8) :
    cwOf op a b c &&& cwOf op' a' b' c' = cwOf (op &&& op') (a &&& a') (b &&& b') (c &&& c') := by
  unfold cwOf
  rw [← BitVec.and_append, ← BitVec.and_append, ← BitVec.and_append]

/-- A byte of a word, as a number. -/
theorem cwField_toNat (w : Word) (lo : Nat) : (cwField w lo 8).toNat = w.toNat / 2 ^ lo % 2 ^ 8 := by
  rw [cwField, BitVec.extractLsb'_toNat, Nat.shiftRight_eq_div_pow]

theorem cwField_cwOf_a (op a b c : BitVec 8) : cwField (cwOf op a b c) 16 8 = a := by
  apply BitVec.eq_of_toNat_eq
  rw [cwField_toNat, cwOf_toNat]
  omega

theorem cwField_cwOf_b (op a b c : BitVec 8) : cwField (cwOf op a b c) 8 8 = b := by
  apply BitVec.eq_of_toNat_eq
  rw [cwField_toNat, cwOf_toNat]
  omega

theorem cwField_cwOf_c (op a b c : BitVec 8) : cwField (cwOf op a b c) 0 8 = c := by
  apply BitVec.eq_of_toNat_eq
  rw [cwField_toNat, cwOf_toNat]
  omega

theorem exists_cwOf (w : Word) : ∃ a b c, cwOf (cwField w 24 8) a b c = w := by
  refine ⟨cwField w 16 8, cwField w 8 8, cwField w 0 8, ?_⟩
  apply BitVec.eq_of_toNat_eq
  simp only [cwOf_toNat, cwField_toNat]
  omega

/-! ### A field at the low end of its byte -/

/-- The bits of a byte above a field of width `n`. -/
def highMask (n : Nat) : BitVec 8 := 0xFF#8 <<< n

/-- The bits above the field are zero exactly when the byte is the field. -/
theorem and_highMask_eq_zero_iff (x : BitVec 8) (n : Nat) : x &&& highMask n = 0 ↔ (x.setWidth n).setWidth 8 = x := by
  have hbit : ∀ j < 8, (0xFF#8).getLsbD j = true := by decide
  simp only [BitVec.eq_of_getLsbD_eq_iff, highMask, BitVec.getLsbD_and, BitVec.getLsbD_shiftLeft, BitVec.getLsbD_setWidth]
  refine forall₂_congr fun j hj => ?_
  have hset := hbit (j - n) (by omega)
  by_cases hn : j < n <;> simp_all

/-- A field that was written in a byte is read from it. -/
theorem setWidth_setWidth_self {n : Nat} (hn : n ≤ 8) (x : BitVec n) : (x.setWidth 8).setWidth n = x := by
  rw [BitVec.setWidth_setWidth_of_le _ hn, BitVec.setWidth_eq]

/-- A field within a field is a field of the word. -/
theorem cwField_extract (w : Word) (lo : Nat) {m k n : Nat} (h : k + n ≤ m) :
    (cwField w lo m).extractLsb' k n = cwField w (lo + k) n := by
  ext j hj
  simp [cwField, show k + j < m by omega, Nat.add_assoc]

/-- A field at the low end of a byte. -/
theorem cwField_eq_of_byte {w : Word} {lo n : Nat} (hn : n ≤ 8) {x : BitVec n} (h : cwField w lo 8 = x.setWidth 8) :
    cwField w lo n = x := by
  rw [← setWidth_setWidth_self hn x, ← h, cwField, cwField, BitVec.setWidth_extractLsb'_of_le hn]

/-! ### The word that three fields make -/

/-- The word of an opcode and three fields, each at the low end of its byte. -/
def fieldWord {na nb nc : Nat} (op : BitVec 8) (x : BitVec na) (y : BitVec nb) (z : BitVec nc) : Word :=
  cwOf op (x.setWidth 8) (y.setWidth 8) (z.setWidth 8)

section
variable {na nb nc : Nat} (op : BitVec 8) (x : BitVec na) (y : BitVec nb) (z : BitVec nc)

@[simp] theorem cwField_fieldWord_op : cwField (fieldWord op x y z) 24 8 = op := cwField_cwOf_op _ _ _ _

@[simp] theorem cwField_fieldWord_a (hn : na ≤ 8 := by decide) : cwField (fieldWord op x y z) 16 na = x :=
  cwField_eq_of_byte hn (cwField_cwOf_a _ _ _ _)

@[simp] theorem cwField_fieldWord_b (hn : nb ≤ 8 := by decide) : cwField (fieldWord op x y z) 8 nb = y :=
  cwField_eq_of_byte hn (cwField_cwOf_b _ _ _ _)

@[simp] theorem cwField_fieldWord_c (hn : nc ≤ 8 := by decide) : cwField (fieldWord op x y z) 0 nc = z :=
  cwField_eq_of_byte hn (cwField_cwOf_c _ _ _ _)

end

/-! ### A format, by its three widths -/

/-- The must-be-zero bits of the format with fields of these widths (R91). -/
def formatMask (na nb nc : Nat) : Word := cwOf 0 (highMask na) (highMask nb) (highMask nc)

theorem cwOf_and_formatMask (op a b c : BitVec 8) (na nb nc : Nat) :
    cwOf op a b c &&& formatMask na nb nc = 0
      ↔ (a.setWidth na).setWidth 8 = a ∧ (b.setWidth nb).setWidth 8 = b ∧ (c.setWidth nc).setWidth 8 = c := by
  rw [formatMask, cwOf_and, show (0 : Word) = cwOf 0 0 0 0 from rfl, cwOf_inj]
  simp only [← and_highMask_eq_zero_iff, BitVec.ofNat_eq_ofNat, BitVec.and_zero, true_and]

theorem fieldWord_and_formatMask {na nb nc : Nat} (op : BitVec 8) (x : BitVec na) (y : BitVec nb) (z : BitVec nc)
    (ha : na ≤ 8 := by decide) (hb : nb ≤ 8 := by decide) (hc : nc ≤ 8 := by decide) :
    fieldWord op x y z &&& formatMask na nb nc = 0 := by
  rw [fieldWord, cwOf_and_formatMask, setWidth_setWidth_self ha, setWidth_setWidth_self hb, setWidth_setWidth_self hc]
  exact ⟨rfl, rfl, rfl⟩

/-- A word whose must-be-zero bits are zero is made of its opcode and its three fields. -/
theorem exists_fieldWord {w : Word} {na nb nc : Nat} (h : w &&& formatMask na nb nc = 0) :
    ∃ (x : BitVec na) (y : BitVec nb) (z : BitVec nc), fieldWord (cwField w 24 8) x y z = w := by
  obtain ⟨a, b, c, hw⟩ := exists_cwOf w
  rw [← hw, cwOf_and_formatMask] at h
  obtain ⟨ha, hb, hc⟩ := h
  exact ⟨a.setWidth na, b.setWidth nb, c.setWidth nc, by rw [fieldWord, ha, hb, hc, hw]⟩

end Sys2Proof.Machine
end

section
/-! Decoding and encoding (R91, R94, R106): what the decoder of each format reads from its fields, and that a command is read from the
fields it is written in. -/

namespace Sys2Proof.Machine

open Sys2Proof

/-! ### The codes of R104 and R105, and the fields they make -/

theorem dirOfCode_eq_some_iff {v : BitVec 2} {d : Dir} : dirOfCode v = some d ↔ dirCode d = v := by
  revert v; cases d <;> decide

theorem dirCode_ne_three (d : Dir) : dirCode d ≠ 3 := by cases d <;> decide

/-- Every direction code but 3 names a direction. -/
theorem exists_dirCode {v : BitVec 2} (h : v ≠ 3) : ∃ d, dirCode d = v := by
  have hsome : ∀ v : BitVec 2, v ≠ 3 → (dirOfCode v).isSome = true := by decide
  obtain ⟨d, hd⟩ := Option.isSome_iff_exists.mp (hsome v h)
  exact ⟨d, dirOfCode_eq_some_iff.mp hd⟩

theorem kindOfBit_kindBit (k : CksKind) : kindOfBit (kindBit k) = k := by cases k <;> rfl

theorem brkOfBit_brkBit (r : BrkKind) : brkOfBit (brkBit r) = r := by cases r <;> rfl

/-- The flags `rkc` of formats T and X as a field of three bits (R105). -/
def rkcField (c : Bool) (k : CksKind) (r : BrkKind) : BitVec 3 :=
  BitVec.ofBool (brkBit r) ++ BitVec.ofBool (kindBit k) ++ BitVec.ofBool c

/-- Every value of a field of one bit is a flag, one of three bits the flags `rkc`, and a wide one is two fields side by side. -/
theorem exists_flag (x : BitVec 1) : ∃ b, BitVec.ofBool b = x := by
  revert x; decide

theorem exists_kindFlag (x : BitVec 1) : ∃ k, BitVec.ofBool (kindBit k) = x :=
  ⟨kindOfBit (x.getLsbD 0), by revert x; decide⟩

theorem exists_rkcField (x : BitVec 3) : ∃ c k r, rkcField c k r = x :=
  ⟨x.getLsbD 0, kindOfBit (x.getLsbD 1), brkOfBit (x.getLsbD 2), by revert x; decide⟩

theorem exists_append {m n : Nat} (x : BitVec (m + n)) : ∃ (hi : BitVec m) (lo : BitVec n), hi ++ lo = x :=
  ⟨x.extractLsb' n m, x.extractLsb' 0 n, BitVec.extractLsb'_append_extractLsb'⟩

/-- An address is its two bytes. -/
theorem addr_bytes (addr : CsrAddr) : addr.extractLsb' 8 8 ++ addr.extractLsb' 0 8 = addr :=
  BitVec.extractLsb'_append_extractLsb' (w := 8) (len := 8)

/-! ### Reading flags and lengths -/

theorem cwBit_eq (w : Word) (lo : Nat) {n j : Nat} (hj : j < n) : cwBit w (lo + j) = (cwField w lo n).getLsbD j := by
  rw [cwField, BitVec.getLsbD_extractLsb', cwBit, decide_eq_true hj, Bool.true_and]

theorem cwBit_of_flag {w : Word} {lo : Nat} {b : Bool} (h : cwField w lo 1 = BitVec.ofBool b) : cwBit w lo = b := by
  have hbit := cwBit_eq w lo (n := 1) Nat.one_pos
  rw [h] at hbit
  simpa using hbit

/-- The flags of formats T and X, each at its own bit. -/
theorem cwBit_of_rkcField {w : Word} {c : Bool} {k : CksKind} {r : BrkKind} (h : cwField w 16 3 = rkcField c k r) :
    cwBit w 16 = c ∧ cwBit w 17 = kindBit k ∧ cwBit w 18 = brkBit r := by
  have hbit := fun j hj => cwBit_eq w 16 (n := 3) (j := j) hj
  rw [h] at hbit
  refine ⟨(hbit 0 (by decide)).trans ?_, (hbit 1 (by decide)).trans ?_, (hbit 2 (by decide)).trans ?_⟩ <;>
    cases c <;> cases k <;> cases r <;> rfl

/-- The length of format X, at the low end of its byte. -/
@[simp] theorem cwField_fieldWord_len {na nc : Nat} (op : BitVec 8) (x : BitVec na) (n len : BitVec 4) (z : BitVec nc) :
    cwField (fieldWord op x (n ++ len) z) 8 4 = len := by
  rw [← Nat.add_zero 8, ← cwField_extract (m := 4 + 4) _ 8 (by decide), cwField_fieldWord_b,
    BitVec.extractLsb'_append_eq_right]

/-- The response length of format X, above it. -/
@[simp] theorem cwField_fieldWord_respLen {na nc : Nat} (op : BitVec 8) (x : BitVec na) (n len : BitVec 4) (z : BitVec nc) :
    cwField (fieldWord op x (n ++ len) z) 12 4 = n := by
  rw [show 12 = 8 + 4 from rfl, ← cwField_extract (m := 4 + 4) _ 8 (by decide), cwField_fieldWord_b,
    BitVec.extractLsb'_append_eq_left]

/-! ### What each decoder reads from the fields of its format -/

/-- The must-be-zero test of a format, on a word of this format. -/
theorem mustBeZero_fieldWord {na nb nc : Nat} {mask : Word} (hm : mask = formatMask na nb nc) (op : BitVec 8) (x : BitVec na)
    (y : BitVec nb) (z : BitVec nc) (k : Except DecodeError Instr) (ha : na ≤ 8 := by decide) (hb : nb ≤ 8 := by decide)
    (hc : nc ≤ 8 := by decide) : mustBeZero (fieldWord op x y z) mask k = k := by
  rw [mustBeZero, hm, if_pos (fieldWord_and_formatMask op x y z ha hb hc)]

/-- A word that passes the must-be-zero test of a format is of this format. -/
theorem exists_fieldWord_of_ok {w mask : Word} {k : Except DecodeError Instr} {i : Instr} (h : mustBeZero w mask k = .ok i)
    {na nb nc : Nat} (hm : mask = formatMask na nb nc) {op : BitVec 8} (hop : cwField w 24 8 = op) :
    ∃ (x : BitVec na) (y : BitVec nb) (z : BitVec nc), fieldWord op x y z = w := by
  unfold mustBeZero at h
  split at h
  · exact hop ▸ exists_fieldWord (hm ▸ ‹_›)
  · cases h

theorem lengthChecked_eq_ok_iff {i j : Instr} : lengthChecked i = .ok j ↔ i.wf = true ∧ i = j := by
  unfold lengthChecked; split <;> simp_all

section
variable (op : BitVec 8)

theorem decodeZ_fieldWord (x y z : BitVec 0) (i : Instr) : decodeZ (fieldWord op x y z) i = .ok i :=
  mustBeZero_fieldWord rfl op x y z _

theorem decodeD_fieldWord (x : BitVec 2) (y z : BitVec 0) (mk : Dir → Instr) (i : Instr) :
    decodeD (fieldWord op x y z) mk = .ok i ↔ ∃ d, dirCode d = x ∧ mk d = i := by
  unfold decodeD
  rw [mustBeZero_fieldWord (by rfl : _ = formatMask 2 0 0)]
  simp only [← dirOfCode_eq_some_iff]
  cases h : dirOfCode x <;> simp [h]

theorem decodeS_fieldWord (slot : BitVec 8) (ext : Bool) (z : BitVec 0) :
    decodeS (fieldWord op slot (BitVec.ofBool ext) z) = .ok (.fltSet slot ext) := by
  have hext := cwBit_of_flag (cwField_fieldWord_b op slot (BitVec.ofBool ext) z)
  refine (mustBeZero_fieldWord rfl op slot (BitVec.ofBool ext) z _).trans ?_
  simp [hext]

theorem decodeE_fieldWord (x y : BitVec 0) (n : Bool) : decodeE (fieldWord op x y (BitVec.ofBool n)) = .ok (.fltEn n) := by
  have hn := cwBit_of_flag (cwField_fieldWord_c op x y (BitVec.ofBool n))
  refine (mustBeZero_fieldWord rfl op x y (BitVec.ofBool n) _).trans ?_
  simp [hn]

theorem decodeP_fieldWord (x y : BitVec 0) (id : BitVec 6) : decodeP (fieldWord op x y id) = .ok (.linPid id) := by
  refine (mustBeZero_fieldWord rfl op x y id _).trans ?_
  simp

theorem decodeK_fieldWord (k : CksKind) (len : BitVec 4) (seed : BitVec 8) :
    decodeK (fieldWord op (BitVec.ofBool (kindBit k)) len seed) = lengthChecked (.linCks k len seed) := by
  have hk := cwBit_of_flag (cwField_fieldWord_a op (BitVec.ofBool (kindBit k)) len seed)
  refine (mustBeZero_fieldWord rfl op (BitVec.ofBool (kindBit k)) len seed _).trans ?_
  simp [hk, kindOfBit_kindBit]

theorem decodeT_fieldWord (id : BitVec 6) (len : BitVec 4) (c : Bool) (k : CksKind) (r : BrkKind) :
    decodeT (fieldWord op (rkcField c k r) len id) = lengthChecked (.linSend id len c k r) := by
  obtain ⟨hc, hk, hr⟩ := cwBit_of_rkcField (cwField_fieldWord_a op (rkcField c k r) len id)
  refine (mustBeZero_fieldWord rfl op (rkcField c k r) len id _).trans ?_
  simp [hc, hk, hr, kindOfBit_kindBit, brkOfBit_brkBit]

theorem decodeX_fieldWord (id : BitVec 6) (len n : BitVec 4) (c : Bool) (k : CksKind) (r : BrkKind) :
    decodeX (fieldWord op (rkcField c k r) (n ++ len) id) = lengthChecked (.linXchg id len n c k r) := by
  obtain ⟨hc, hk, hr⟩ := cwBit_of_rkcField (cwField_fieldWord_a op (rkcField c k r) (n ++ len) id)
  refine (mustBeZero_fieldWord rfl op (rkcField c k r) (n ++ len) id _).trans ?_
  simp [hc, hk, hr, kindOfBit_kindBit, brkOfBit_brkBit]

theorem decodeC_fieldWord (x : BitVec 0) (y z : BitVec 8) (mk : CsrAddr → Instr) :
    decodeC (fieldWord op x y z) mk = .ok (mk (y ++ z)) := by
  have haddr : cwField (fieldWord op x y z) 8 8 ++ cwField (fieldWord op x y z) 0 8 = cwField (fieldWord op x y z) 0 16 :=
    BitVec.extractLsb'_append_extractLsb'_eq_extractLsb' (start₁ := 0) (len₁ := 8) rfl
  rw [cwField_fieldWord_b, cwField_fieldWord_c] at haddr
  refine (mustBeZero_fieldWord rfl op x y z _).trans ?_
  rw [← haddr]

end

/-! ### The word of every command, by its fields -/

@[simp] theorem encode_mbPost (d : Dir) : encode (.mbPost d) = fieldWord 0x10 (dirCode d) 0#0 0#0 := rfl
@[simp] theorem encode_mbFetch (d : Dir) : encode (.mbFetch d) = fieldWord 0x11 (dirCode d) 0#0 0#0 := rfl
@[simp] theorem encode_mbEmpty (d : Dir) : encode (.mbEmpty d) = fieldWord 0x12 (dirCode d) 0#0 0#0 := rfl
@[simp] theorem encode_fltClear : encode .fltClear = fieldWord 0x20 0#0 0#0 0#0 := rfl
@[simp] theorem encode_fltSet (slot : BitVec 8) (ext : Bool) :
    encode (.fltSet slot ext) = fieldWord 0x21 slot (BitVec.ofBool ext) 0#0 := rfl
@[simp] theorem encode_fltEn (n : Bool) : encode (.fltEn n) = fieldWord 0x22 0#0 0#0 (BitVec.ofBool n) := rfl
@[simp] theorem encode_fltApply : encode .fltApply = fieldWord 0x23 0#0 0#0 0#0 := rfl
@[simp] theorem encode_linPid (id : BitVec 6) : encode (.linPid id) = fieldWord 0x30 0#0 0#0 id := rfl
@[simp] theorem encode_linCks (k : CksKind) (len : BitVec 4) (seed : Byte) :
    encode (.linCks k len seed) = fieldWord 0x31 (BitVec.ofBool (kindBit k)) len seed := rfl
@[simp] theorem encode_linSend (id : BitVec 6) (len : BitVec 4) (c : Bool) (k : CksKind) (r : BrkKind) :
    encode (.linSend id len c k r) = fieldWord 0x32 (rkcField c k r) len id := rfl
@[simp] theorem encode_linXchg (id : BitVec 6) (len n : BitVec 4) (c : Bool) (k : CksKind) (r : BrkKind) :
    encode (.linXchg id len n c k r) = fieldWord 0x33 (rkcField c k r) (n ++ len) id := rfl
@[simp] theorem encode_linDiag : encode .linDiag = fieldWord 0x34 0#0 0#0 0#0 := rfl
@[simp] theorem encode_linCycle : encode .linCycle = fieldWord 0x35 0#0 0#0 0#0 := rfl
@[simp] theorem encode_actMark : encode .actMark = fieldWord 0x40 0#0 0#0 0#0 := rfl
@[simp] theorem encode_csrRd (addr : CsrAddr) :
    encode (.csrRd addr) = fieldWord 0x50 0#0 (addr.extractLsb' 8 8) (addr.extractLsb' 0 8) := rfl
@[simp] theorem encode_csrWr (addr : CsrAddr) :
    encode (.csrWr addr) = fieldWord 0x51 0#0 (addr.extractLsb' 8 8) (addr.extractLsb' 0 8) := rfl

/-- Settles O1: by the command; its word is dispatched on its opcode, and its format's decoder reads its fields. -/
theorem decodeOfEncode : Obligations.DecodeOfEncode := by
  intro i hwf
  cases i with
  | mbPost d => simp [decode, decodeD_fieldWord]
  | mbFetch d => simp [decode, decodeD_fieldWord]
  | mbEmpty d => simp [decode, decodeD_fieldWord]
  | fltClear => simp [decode, decodeZ_fieldWord]
  | fltSet slot ext => simp [decode, decodeS_fieldWord]
  | fltEn n => simp [decode, decodeE_fieldWord]
  | fltApply => simp [decode, decodeZ_fieldWord]
  | linPid id => simp [decode, decodeP_fieldWord]
  | linCks k len seed => simp [decode, decodeK_fieldWord, lengthChecked_eq_ok_iff, hwf]
  | linSend id len c k r => simp [decode, decodeT_fieldWord, lengthChecked_eq_ok_iff, hwf]
  | linXchg id len n c k r => simp [decode, decodeX_fieldWord, lengthChecked_eq_ok_iff, hwf]
  | linDiag => simp [decode, decodeZ_fieldWord]
  | linCycle => simp [decode, decodeZ_fieldWord]
  | actMark => simp [decode, decodeZ_fieldWord]
  | csrRd addr => simp [decode, decodeC_fieldWord, addr_bytes]
  | csrWr addr => simp [decode, decodeC_fieldWord, addr_bytes]

/-! ### What decodes is the word of a command -/

section
variable {w : Word} {i : Instr}

theorem encode_of_decodeZ (op : BitVec 8) {j : Instr} (hop : cwField w 24 8 = op) (h : decodeZ w j = .ok i)
    (hwf : j.wf = true) (henc : encode j = fieldWord op 0#0 0#0 0#0) : i.wf = true ∧ encode i = w := by
  obtain ⟨x, y, z, rfl⟩ := exists_fieldWord_of_ok (na := 0) (nb := 0) (nc := 0) h rfl hop
  cases (decodeZ_fieldWord op x y z j).symm.trans h
  rw [henc, x.eq_nil, y.eq_nil, z.eq_nil]
  exact ⟨hwf, rfl⟩

theorem encode_of_decodeD (op : BitVec 8) {mk : Dir → Instr} (hop : cwField w 24 8 = op) (h : decodeD w mk = .ok i)
    (hwf : ∀ d, (mk d).wf = true) (henc : ∀ d, encode (mk d) = fieldWord op (dirCode d) 0#0 0#0) :
    i.wf = true ∧ encode i = w := by
  obtain ⟨x, y, z, rfl⟩ := exists_fieldWord_of_ok (na := 2) (nb := 0) (nc := 0) h rfl hop
  obtain ⟨d, rfl, rfl⟩ := (decodeD_fieldWord op x y z mk i).mp h
  rw [henc, y.eq_nil, z.eq_nil]
  exact ⟨hwf d, rfl⟩

theorem encode_of_decodeS (hop : cwField w 24 8 = 0x21) (h : decodeS w = .ok i) : i.wf = true ∧ encode i = w := by
  obtain ⟨slot, y, z, rfl⟩ := exists_fieldWord_of_ok (na := 8) (nb := 1) (nc := 0) h rfl hop
  obtain ⟨ext, rfl⟩ := exists_flag y
  cases (decodeS_fieldWord _ slot ext z).symm.trans h
  rw [encode_fltSet, z.eq_nil]
  exact ⟨rfl, rfl⟩

theorem encode_of_decodeE (hop : cwField w 24 8 = 0x22) (h : decodeE w = .ok i) : i.wf = true ∧ encode i = w := by
  obtain ⟨x, y, z, rfl⟩ := exists_fieldWord_of_ok (na := 0) (nb := 0) (nc := 1) h rfl hop
  obtain ⟨n, rfl⟩ := exists_flag z
  cases (decodeE_fieldWord _ x y n).symm.trans h
  rw [encode_fltEn, x.eq_nil, y.eq_nil]
  exact ⟨rfl, rfl⟩

theorem encode_of_decodeP (hop : cwField w 24 8 = 0x30) (h : decodeP w = .ok i) : i.wf = true ∧ encode i = w := by
  obtain ⟨x, y, id, rfl⟩ := exists_fieldWord_of_ok (na := 0) (nb := 0) (nc := 6) h rfl hop
  cases (decodeP_fieldWord _ x y id).symm.trans h
  rw [encode_linPid, x.eq_nil, y.eq_nil]
  exact ⟨rfl, rfl⟩

theorem encode_of_decodeK (hop : cwField w 24 8 = 0x31) (h : decodeK w = .ok i) : i.wf = true ∧ encode i = w := by
  obtain ⟨x, len, seed, rfl⟩ := exists_fieldWord_of_ok (na := 1) (nb := 4) (nc := 8) h rfl hop
  obtain ⟨k, rfl⟩ := exists_kindFlag x
  rw [decodeK_fieldWord, lengthChecked_eq_ok_iff] at h
  obtain ⟨hwf, rfl⟩ := h
  exact ⟨hwf, encode_linCks k len seed⟩

theorem encode_of_decodeT (hop : cwField w 24 8 = 0x32) (h : decodeT w = .ok i) : i.wf = true ∧ encode i = w := by
  obtain ⟨x, len, id, rfl⟩ := exists_fieldWord_of_ok (na := 3) (nb := 4) (nc := 6) h rfl hop
  obtain ⟨c, k, r, rfl⟩ := exists_rkcField x
  rw [decodeT_fieldWord, lengthChecked_eq_ok_iff] at h
  obtain ⟨hwf, rfl⟩ := h
  exact ⟨hwf, encode_linSend id len c k r⟩

theorem encode_of_decodeX (hop : cwField w 24 8 = 0x33) (h : decodeX w = .ok i) : i.wf = true ∧ encode i = w := by
  obtain ⟨x, y, id, rfl⟩ := exists_fieldWord_of_ok (na := 3) (nb := 8) (nc := 6) h rfl hop
  obtain ⟨c, k, r, rfl⟩ := exists_rkcField x
  obtain ⟨n, len, rfl⟩ := exists_append (m := 4) (n := 4) y
  rw [decodeX_fieldWord, lengthChecked_eq_ok_iff] at h
  obtain ⟨hwf, rfl⟩ := h
  exact ⟨hwf, encode_linXchg id len n c k r⟩

theorem encode_of_decodeC (op : BitVec 8) {mk : CsrAddr → Instr} (hop : cwField w 24 8 = op) (h : decodeC w mk = .ok i)
    (hwf : ∀ addr, (mk addr).wf = true)
    (henc : ∀ addr, encode (mk addr) = fieldWord op 0#0 (addr.extractLsb' 8 8) (addr.extractLsb' 0 8)) :
    i.wf = true ∧ encode i = w := by
  obtain ⟨x, y, z, rfl⟩ := exists_fieldWord_of_ok (na := 0) (nb := 8) (nc := 8) h rfl hop
  cases (decodeC_fieldWord op x y z mk).symm.trans h
  rw [henc, x.eq_nil, BitVec.extractLsb'_append_eq_left, BitVec.extractLsb'_append_eq_right]
  exact ⟨hwf _, rfl⟩

end

/-- Settles O2: by the opcode; each format's decoder passes only the words of its format (`encode_of_decodeZ` to
`encode_of_decodeC`). -/
theorem encodeOfDecode : Obligations.EncodeOfDecode := by
  intro w i h
  unfold decode at h
  split at h
  next hop => exact encode_of_decodeD 0x10 (BitVec.eq_of_toNat_eq hop) h (fun _ => rfl) encode_mbPost
  next hop => exact encode_of_decodeD 0x11 (BitVec.eq_of_toNat_eq hop) h (fun _ => rfl) encode_mbFetch
  next hop => exact encode_of_decodeD 0x12 (BitVec.eq_of_toNat_eq hop) h (fun _ => rfl) encode_mbEmpty
  next hop => exact encode_of_decodeZ 0x20 (BitVec.eq_of_toNat_eq hop) h rfl encode_fltClear
  next hop => exact encode_of_decodeS (BitVec.eq_of_toNat_eq hop) h
  next hop => exact encode_of_decodeE (BitVec.eq_of_toNat_eq hop) h
  next hop => exact encode_of_decodeZ 0x23 (BitVec.eq_of_toNat_eq hop) h rfl encode_fltApply
  next hop => exact encode_of_decodeP (BitVec.eq_of_toNat_eq hop) h
  next hop => exact encode_of_decodeK (BitVec.eq_of_toNat_eq hop) h
  next hop => exact encode_of_decodeT (BitVec.eq_of_toNat_eq hop) h
  next hop => exact encode_of_decodeX (BitVec.eq_of_toNat_eq hop) h
  next hop => exact encode_of_decodeZ 0x34 (BitVec.eq_of_toNat_eq hop) h rfl encode_linDiag
  next hop => exact encode_of_decodeZ 0x35 (BitVec.eq_of_toNat_eq hop) h rfl encode_linCycle
  next hop => exact encode_of_decodeZ 0x40 (BitVec.eq_of_toNat_eq hop) h rfl encode_actMark
  next hop => exact encode_of_decodeC 0x50 (BitVec.eq_of_toNat_eq hop) h (fun _ => rfl) encode_csrRd
  next hop => exact encode_of_decodeC 0x51 (BitVec.eq_of_toNat_eq hop) h (fun _ => rfl) encode_csrWr
  next => cases h

/-- Settles O4: each word is the encoding of the command it stands for. -/
theorem sampleWordsDecode : Obligations.SampleWordsDecode :=
  ⟨decodeOfEncode .fltApply rfl, decodeOfEncode (.mbPost .tx) rfl, decodeOfEncode (.fltSet 6 true) rfl,
    decodeOfEncode (.fltEn true) rfl, decodeOfEncode (.linPid 0x3F) rfl, decodeOfEncode (.linCks .enhanced 5 0xC1) rfl,
    decodeOfEncode (.linSend 0 8 true .enhanced .brkB) rfl, decodeOfEncode (.linXchg 0x11 0 5 false .enhanced .brkA) rfl,
    decodeOfEncode (.csrWr 0x0020) rfl⟩

end Sys2Proof.Machine
end

section
/-! The opcode map (R94): a row's mask covers the opcode and the must-be-zero bits of its format, so the words that spell the row are
those of its format. -/

namespace Sys2Proof.Machine

open Sys2Proof

/-! ### The words that spell a row -/

/-- The mask of the rows with fields of these widths. -/
def rowMask (na nb nc : Nat) : Word := cwOf 0xFF (highMask na) (highMask nb) (highMask nc)

theorem and_rowMask_iff (w : Word) (op : BitVec 8) (na nb nc : Nat) :
    w &&& rowMask na nb nc = cwOf op 0 0 0 ↔ cwField w 24 8 = op ∧ w &&& formatMask na nb nc = 0 := by
  obtain ⟨a, b, c, hw⟩ := exists_cwOf w
  have hop : cwField w 24 8 &&& 0xFF = cwField w 24 8 := BitVec.and_allOnes (w := 8)
  rw [← hw, rowMask, cwOf_and, cwOf_inj, cwField_cwOf_op, hop, cwOf_and_formatMask]
  simp only [and_highMask_eq_zero_iff]

/-- A word spells a row exactly when it is made of the row's opcode and three fields of the row's widths. -/
theorem spells_iff_fieldWord {row : OpRow} {op : BitVec 8} {na nb nc : Nat} (hp : row.pattern = cwOf op 0 0 0)
    (hm : row.mask = rowMask na nb nc) (w : Word) (ha : na ≤ 8 := by decide) (hb : nb ≤ 8 := by decide)
    (hc : nc ≤ 8 := by decide) :
    row.spells w = true ↔ ∃ (x : BitVec na) (y : BitVec nb) (z : BitVec nc), fieldWord op x y z = w := by
  rw [OpRow.spells, decide_eq_true_iff, hp, hm, and_rowMask_iff]
  constructor
  · rintro ⟨rfl, hzero⟩
    exact exists_fieldWord hzero
  · rintro ⟨x, y, z, rfl⟩
    exact ⟨cwField_fieldWord_op op x y z, fieldWord_and_formatMask op x y z ha hb hc⟩

/-- A word that spells a row has the row's opcode. -/
theorem op_of_spells {row : OpRow} (hrow : row ∈ opcodeTable) {w : Word} (h : row.spells w = true) :
    cwField w 24 8 = cwField row.pattern 24 8 := by
  have hmask : ∀ row ∈ opcodeTable, cwField row.mask 24 8 = 0xFF := by decide
  rw [OpRow.spells, decide_eq_true_iff] at h
  have hand : cwField (w &&& row.mask) 24 8 = cwField w 24 8 &&& cwField row.mask 24 8 := BitVec.extractLsb'_and
  rw [← h, hand, hmask row hrow]
  exact BitVec.and_allOnes.symm

/-- At most one row of the map fits a word: no two rows have the same opcode. -/
theorem row_eq_of_spells {r r' : OpRow} (hr : r ∈ opcodeTable) (hr' : r' ∈ opcodeTable) {w : Word}
    (h : r.spells w = true) (h' : r'.spells w = true) : r = r' := by
  have hdistinct : ∀ r ∈ opcodeTable, ∀ r' ∈ opcodeTable, cwField r.pattern 24 8 = cwField r'.pattern 24 8 → r = r' := by
    decide
  exact hdistinct r hr r' hr' ((op_of_spells hr h).symm.trans (op_of_spells hr' h'))

/-! ### The rows and the commands -/

/-- Row `n` of the map fits the word of a command in the row's format that satisfies the row's constraint. -/
theorem exists_row {i : Instr} {op : BitVec 8} {na nb nc : Nat} {x : BitVec na} {y : BitVec nb} {z : BitVec nc} (n : Nat)
    (hrow : opcodeTable[n]? = some ⟨i.mnemonic, cwOf op 0 0 0, rowMask na nb nc⟩) (henc : encode i = fieldWord op x y z)
    (hfit : OpRow.constraint ⟨i.mnemonic, cwOf op 0 0 0, rowMask na nb nc⟩ (fieldWord op x y z) = true)
    (ha : na ≤ 8 := by decide) (hb : nb ≤ 8 := by decide) (hc : nc ≤ 8 := by decide) :
    ∃ row ∈ opcodeTable, row.mnemonic = i.mnemonic ∧ row.spells (encode i) = true ∧ row.constraint (encode i) = true :=
  ⟨_, List.mem_of_getElem? hrow, rfl, (spells_iff_fieldWord rfl rfl _ ha hb hc).mpr ⟨x, y, z, henc.symm⟩, henc ▸ hfit⟩

/-- A direction satisfies the constraint of its row (R104). -/
theorem dirCode_fits {nb nc : Nat} (op : BitVec 8) (d : Dir) (y : BitVec nb) (z : BitVec nc) :
    decide (cwField (fieldWord op (dirCode d) y z) 16 2 ≠ 3) = true := by
  rw [cwField_fieldWord_a, decide_eq_true (dirCode_ne_three d)]

/-- Format X carries two lengths. -/
theorem lenOk_fieldWord {na nc : Nat} (op : BitVec 8) (x : BitVec na) (n len : BitVec 4) (z : BitVec nc) :
    (lenOk (cwField (fieldWord op x (n ++ len) z) 8 4) && lenOk (cwField (fieldWord op x (n ++ len) z) 12 4))
      = (lenOk len && lenOk n) := by
  rw [cwField_fieldWord_len, cwField_fieldWord_respLen]

/-- The word of a well-formed command fits the command's row. -/
theorem exists_row_of_wf {i : Instr} (hwf : i.wf = true) :
    ∃ row ∈ opcodeTable, row.mnemonic = i.mnemonic ∧ row.spells (encode i) = true ∧ row.constraint (encode i) = true := by
  cases i with
  | mbPost d => exact exists_row 0 rfl (encode_mbPost d) (dirCode_fits 0x10 d 0#0 0#0)
  | mbFetch d => exact exists_row 1 rfl (encode_mbFetch d) (dirCode_fits 0x11 d 0#0 0#0)
  | mbEmpty d => exact exists_row 2 rfl (encode_mbEmpty d) (dirCode_fits 0x12 d 0#0 0#0)
  | fltClear => exact exists_row 3 rfl encode_fltClear rfl
  | fltSet slot ext => exact exists_row 4 rfl (encode_fltSet slot ext) rfl
  | fltEn n => exact exists_row 5 rfl (encode_fltEn n) rfl
  | fltApply => exact exists_row 6 rfl encode_fltApply rfl
  | linPid id => exact exists_row 7 rfl (encode_linPid id) rfl
  | linCks k len seed =>
    exact exists_row 8 rfl (encode_linCks k len seed) ((congrArg lenOk (cwField_fieldWord_b ..)).trans hwf)
  | linSend id len c k r =>
    exact exists_row 9 rfl (encode_linSend id len c k r) ((congrArg lenOk (cwField_fieldWord_b ..)).trans hwf)
  | linXchg id len n c k r =>
    exact exists_row 10 rfl (encode_linXchg id len n c k r) ((lenOk_fieldWord ..).trans hwf)
  | linDiag => exact exists_row 11 rfl encode_linDiag rfl
  | linCycle => exact exists_row 12 rfl encode_linCycle rfl
  | actMark => exact exists_row 13 rfl encode_actMark rfl
  | csrRd addr => exact exists_row 14 rfl (encode_csrRd addr) rfl
  | csrWr addr => exact exists_row 15 rfl (encode_csrWr addr) rfl

/-- A direction field that satisfies the constraint of its row names a direction. -/
theorem exists_dirCode_of_fits {op : BitVec 8} {x : BitVec 2} {y z : BitVec 0}
    (h : decide (cwField (fieldWord op x y z) 16 2 ≠ 3) = true) : ∃ d, dirCode d = x := by
  rw [cwField_fieldWord_a, decide_eq_true_iff] at h
  exact exists_dirCode h

/-- A word that fits a row decodes to a command of the row. -/
theorem exists_decode_of_row {row : OpRow} (hrow : row ∈ opcodeTable) {w : Word} (hs : row.spells w = true)
    (hc : row.constraint w = true) : ∃ i, decode w = .ok i ∧ i.mnemonic = row.mnemonic := by
  simp only [opcodeTable, List.cons_append, List.nil_append, List.mem_cons, List.not_mem_nil, or_false] at hrow
  obtain rfl | rfl | rfl | rfl | rfl | rfl | rfl | rfl | rfl | rfl | rfl | rfl | rfl | rfl | rfl | rfl := hrow
  · obtain ⟨x, y, z, rfl⟩ := (spells_iff_fieldWord (op := 0x10) (na := 2) (nb := 0) (nc := 0) rfl rfl w).mp hs
    obtain ⟨d, rfl⟩ := exists_dirCode_of_fits hc
    exact ⟨.mbPost d, by simp [decode, decodeD_fieldWord], rfl⟩
  · obtain ⟨x, y, z, rfl⟩ := (spells_iff_fieldWord (op := 0x11) (na := 2) (nb := 0) (nc := 0) rfl rfl w).mp hs
    obtain ⟨d, rfl⟩ := exists_dirCode_of_fits hc
    exact ⟨.mbFetch d, by simp [decode, decodeD_fieldWord], rfl⟩
  · obtain ⟨x, y, z, rfl⟩ := (spells_iff_fieldWord (op := 0x12) (na := 2) (nb := 0) (nc := 0) rfl rfl w).mp hs
    obtain ⟨d, rfl⟩ := exists_dirCode_of_fits hc
    exact ⟨.mbEmpty d, by simp [decode, decodeD_fieldWord], rfl⟩
  · obtain ⟨x, y, z, rfl⟩ := (spells_iff_fieldWord (op := 0x20) (na := 0) (nb := 0) (nc := 0) rfl rfl w).mp hs
    exact ⟨.fltClear, by simp [decode, decodeZ_fieldWord], rfl⟩
  · obtain ⟨slot, y, z, rfl⟩ := (spells_iff_fieldWord (op := 0x21) (na := 8) (nb := 1) (nc := 0) rfl rfl w).mp hs
    obtain ⟨ext, rfl⟩ := exists_flag y
    exact ⟨.fltSet slot ext, by simp [decode, decodeS_fieldWord], rfl⟩
  · obtain ⟨x, y, z, rfl⟩ := (spells_iff_fieldWord (op := 0x22) (na := 0) (nb := 0) (nc := 1) rfl rfl w).mp hs
    obtain ⟨n, rfl⟩ := exists_flag z
    exact ⟨.fltEn n, by simp [decode, decodeE_fieldWord], rfl⟩
  · obtain ⟨x, y, z, rfl⟩ := (spells_iff_fieldWord (op := 0x23) (na := 0) (nb := 0) (nc := 0) rfl rfl w).mp hs
    exact ⟨.fltApply, by simp [decode, decodeZ_fieldWord], rfl⟩
  · obtain ⟨x, y, id, rfl⟩ := (spells_iff_fieldWord (op := 0x30) (na := 0) (nb := 0) (nc := 6) rfl rfl w).mp hs
    exact ⟨.linPid id, by simp [decode, decodeP_fieldWord], rfl⟩
  · obtain ⟨x, len, seed, rfl⟩ := (spells_iff_fieldWord (op := 0x31) (na := 1) (nb := 4) (nc := 8) rfl rfl w).mp hs
    obtain ⟨k, rfl⟩ := exists_kindFlag x
    have hwf := (congrArg lenOk (cwField_fieldWord_b ..)).symm.trans hc
    exact ⟨.linCks k len seed, by simp [decode, decodeK_fieldWord, lengthChecked_eq_ok_iff, Instr.wf, hwf], rfl⟩
  · obtain ⟨x, len, id, rfl⟩ := (spells_iff_fieldWord (op := 0x32) (na := 3) (nb := 4) (nc := 6) rfl rfl w).mp hs
    obtain ⟨c, k, r, rfl⟩ := exists_rkcField x
    have hwf := (congrArg lenOk (cwField_fieldWord_b ..)).symm.trans hc
    exact ⟨.linSend id len c k r, by simp [decode, decodeT_fieldWord, lengthChecked_eq_ok_iff, Instr.wf, hwf], rfl⟩
  · obtain ⟨x, y, id, rfl⟩ := (spells_iff_fieldWord (op := 0x33) (na := 3) (nb := 8) (nc := 6) rfl rfl w).mp hs
    obtain ⟨c, k, r, rfl⟩ := exists_rkcField x
    obtain ⟨n, len, rfl⟩ := exists_append (m := 4) (n := 4) y
    have hwf := (lenOk_fieldWord ..).symm.trans hc
    exact ⟨.linXchg id len n c k r, by simp [decode, decodeX_fieldWord, lengthChecked_eq_ok_iff, Instr.wf, hwf], rfl⟩
  · obtain ⟨x, y, z, rfl⟩ := (spells_iff_fieldWord (op := 0x34) (na := 0) (nb := 0) (nc := 0) rfl rfl w).mp hs
    exact ⟨.linDiag, by simp [decode, decodeZ_fieldWord], rfl⟩
  · obtain ⟨x, y, z, rfl⟩ := (spells_iff_fieldWord (op := 0x35) (na := 0) (nb := 0) (nc := 0) rfl rfl w).mp hs
    exact ⟨.linCycle, by simp [decode, decodeZ_fieldWord], rfl⟩
  · obtain ⟨x, y, z, rfl⟩ := (spells_iff_fieldWord (op := 0x40) (na := 0) (nb := 0) (nc := 0) rfl rfl w).mp hs
    exact ⟨.actMark, by simp [decode, decodeZ_fieldWord], rfl⟩
  · obtain ⟨x, y, z, rfl⟩ := (spells_iff_fieldWord (op := 0x50) (na := 0) (nb := 8) (nc := 8) rfl rfl w).mp hs
    exact ⟨.csrRd (y ++ z), by simp [decode, decodeC_fieldWord], rfl⟩
  · obtain ⟨x, y, z, rfl⟩ := (spells_iff_fieldWord (op := 0x51) (na := 0) (nb := 8) (nc := 8) rfl rfl w).mp hs
    exact ⟨.csrWr (y ++ z), by simp [decode, decodeC_fieldWord], rfl⟩

/-- Settles O3: what decodes is the word of a command, which fits the command's row (`exists_row_of_wf`); and a word that fits a row
decodes to a command of the row (`exists_decode_of_row`). -/
theorem decodeIsTheOpcodeMap : Obligations.DecodeIsTheOpcodeMap := by
  refine fun w m => ⟨⟨?_, ?_⟩, fun r hr r' hr' h h' => row_eq_of_spells hr hr' h h'⟩
  · rintro ⟨i, hd, rfl⟩
    obtain ⟨hwf, rfl⟩ := encodeOfDecode w i hd
    exact exists_row_of_wf hwf
  · rintro ⟨row, hrow, rfl, hs, hc⟩
    exact exists_decode_of_row hrow hs hc

end Sys2Proof.Machine
end

section
/-! The assembly lines of R97: a command word is the sum of its fields, each shifted to its place. -/

namespace Sys2Proof.Machine

open Sys2Proof

/-! ### A word as a sum of shifted fields -/

theorem cwOf_eq_or (op a b c : BitVec 8) :
    cwOf op a b c = op.setWidth 32 <<< 24 ||| a.setWidth 32 <<< 16 ||| b.setWidth 32 <<< 8 ||| c.setWidth 32 := by
  rw [← (cwOf op a b c).setWidth_eq, cwOf]
  exact BitVec.setWidth_append_append_append_eq_shiftLeft_setWidth_or

theorem fieldWord_eq_or {na nb nc : Nat} (op : BitVec 8) (x : BitVec na) (y : BitVec nb) (z : BitVec nc)
    (ha : na ≤ 8 := by decide) (hb : nb ≤ 8 := by decide) (hc : nc ≤ 8 := by decide) :
    fieldWord op x y z = op.setWidth 32 <<< 24 ||| x.setWidth 32 <<< 16 ||| y.setWidth 32 <<< 8 ||| z.setWidth 32 := by
  have hwide : ∀ {n : Nat} (v : BitVec n), n ≤ 8 → (v.setWidth 8).setWidth 32 = v.setWidth 32 := fun v hn =>
    BitVec.setWidth_setWidth (by omega)
  rw [fieldWord, cwOf_eq_or, hwide x ha, hwide y hb, hwide z hc]

/-- A flag at its own bit. -/
theorem flag_shifted (b : Bool) (n : Nat) : (BitVec.ofBool b).setWidth 32 <<< n = if b then (1 : Word) <<< n else 0 := by
  cases b
  · exact BitVec.zero_shiftLeft n
  · rfl

/-- The flags of formats T and X, each at its own bit (R105). -/
theorem rkcField_shifted (c : Bool) (k : CksKind) (r : BrkKind) :
    (rkcField c k r).setWidth 32 <<< 16 = flagWord (brkBit r) <<< 18 ||| flagWord (kindBit k) <<< 17 ||| flagWord c <<< 16 := by
  cases c <;> cases k <;> cases r <;> rfl

/-- The flags that `cks=` asks for (R97). -/
theorem cksOpt_shifted (o : CksOpt) :
    flagWord (kindBit o.bits.2) <<< 17 = (if o = .enhanced then 1 <<< 17 else 0)
      ∧ flagWord o.bits.1 <<< 16 = (if o = .none then 0 else 1 <<< 16) := by
  cases o <;> exact ⟨rfl, rfl⟩

/-- The two lengths of format X share a byte. -/
theorem lengths_shifted (n len : BitVec 4) :
    (n ++ len).setWidth 32 <<< 8 = n.setWidth 32 <<< 12 ||| len.setWidth 32 <<< 8 := by
  rw [BitVec.setWidth_append_eq_shiftLeft_setWidth_or, BitVec.shiftLeft_or_distrib, ← BitVec.shiftLeft_add]

/-- The length of at most eight bytes fits its field. -/
theorem lenField_setWidth {bs : List Byte} (h : bs.length ≤ 8) : (lenField bs).setWidth 32 = BitVec.ofNat 32 bs.length := by
  apply BitVec.eq_of_toNat_eq
  simp only [lenField, BitVec.toNat_setWidth, BitVec.toNat_ofNat]
  omega

/-- A CSR address lies in the two low bytes of its word. -/
theorem addr_shifted (addr : CsrAddr) :
    (addr.extractLsb' 8 8).setWidth 32 <<< 8 ||| (addr.extractLsb' 0 8).setWidth 32 = addr.setWidth 32 := by
  rw [← BitVec.setWidth_append_eq_shiftLeft_setWidth_or, addr_bytes]

/-- The identifier register of MB.POST (R92). -/
theorem idWord_eq_or (id : BitVec 29) (x : Bool) :
    (BitVec.ofBool x ++ (0 : BitVec 2) ++ id : Word) = id.setWidth 32 ||| (if x then 1 <<< 31 else 0) := by
  rw [← BitVec.setWidth_eq (BitVec.ofBool x ++ (0 : BitVec 2) ++ id)]
  refine BitVec.setWidth_append_eq_shiftLeft_setWidth_or.trans ?_
  rw [BitVec.or_comm]
  cases x <;> rfl

/-! ### The lines -/

/-- Settles O5: each line's command word is the sum of its shifted fields (`fieldWord_eq_or`). -/
theorem assembledWords : Obligations.AssembledWords := by
  refine ⟨fun d id x bs h => ?_, fun d => ⟨?_, ?_⟩, fun slot id e => ?_, fun on => ?_, fun id => ?_, fun k seed bs h => ?_,
    fun id bs o r h => ?_, fun id bs n tc k r h => ?_, fun addr => ?_, fun addr v => ?_⟩
  · rw [AsmLine.assemble, idWord_eq_or]
    simp [fieldWord_eq_or]
  · simp [AsmLine.assemble, Issue.plain, fieldWord_eq_or]
  · simp [AsmLine.assemble, Issue.plain, fieldWord_eq_or]
  · simp [AsmLine.assemble, Issue.plain, fieldWord_eq_or, flag_shifted]
  · cases on <;> rfl
  · simp [AsmLine.assemble, Issue.plain, fieldWord_eq_or]
  · simp [AsmLine.assemble, Issue.withData, fieldWord_eq_or, flagWord, lenField_setWidth h]
  · simp [AsmLine.assemble, Issue.withData, fieldWord_eq_or, lenField_setWidth h, rkcField_shifted, cksOpt_shifted,
      BitVec.or_assoc]
  · simp [AsmLine.assemble, Issue.withData, fieldWord_eq_or, lenField_setWidth h, rkcField_shifted, lengths_shifted,
      BitVec.or_assoc]
  · simp [AsmLine.assemble, Issue.plain, fieldWord_eq_or, addr_shifted, BitVec.or_assoc]
  · simp [AsmLine.assemble, Issue.plain, fieldWord_eq_or, addr_shifted, BitVec.or_assoc]

end Sys2Proof.Machine
end

section
/-! A command word at its port: an illegal one ends at once (R95), and a command keeps its word and its operands until it has ended
(R90, R92). -/

namespace Sys2Proof.Machine

open Sys2Proof Host

/-! ### An illegal word -/

/-- A word that fits no row of the opcode map spells no command. -/
theorem decode_error_of_no_row {w : Word} (h : ∀ row ∈ opcodeTable, row.spells w = true → row.constraint w = false) :
    ∃ e, decode w = .error e := by
  cases hd : decode w with
  | error e => exact ⟨e, rfl⟩
  | ok i =>
    obtain ⟨row, hrow, _, hs, hc⟩ := ((decodeIsTheOpcodeMap w i.mnemonic).1).mp ⟨i, hd, rfl⟩
    rw [h row hrow hs] at hc
    cases hc

theorem portStep_illegal {s : State} {p : Nat} {P : Port} {e : DecodeError} (hp : s.ports[p]? = some P) (hreq : P.req = true)
    (hd : decode P.cw = .error e) (hready : P.phase = .ready) :
    portStep p s = .next { s with cur := p, ports := s.ports.set p (P.ended .illegalCmd .idle P.r) } := by
  have hact : State.acting { s with cur := p } P := hp
  have hend : State.illegalWord { s with cur := p } = State.withPort { s with cur := p } (P.ended .illegalCmd .idle P.r) :=
    hact.endCmd .illegalCmd .idle
  unfold portStep
  simp only [hp, hreq, hd, hready, hend, if_true]
  rfl

/-- Settles O8: the word spells no command (`decode_error_of_no_row`), so the port's step is the end of an illegal word. -/
theorem illegalWordOnlySt : Obligations.IllegalWordOnlySt := by
  intro s p P he hp hreq hready hno
  obtain ⟨e, hd⟩ := decode_error_of_no_row hno
  have hended : P.ended .illegalCmd .idle P.r = { P with st := 6, req := false } := by
    rw [Port.ended, ← hready]; rfl
  rw [← s.nextEvent_ports] at hp ⊢
  rw [step_of_event he, ← hended]
  exact portStep_illegal hp hreq hd hready

/-! ### The operands of a command in progress -/

/-- A change of some port leaves port `p` its word and its operands, if it does so when `p` is the port changed. -/
theorem exists_modify_command {ports : List Port} {p q : Nat} {P : Port} (hp : ports[p]? = some P) {f : Port → Port}
    (hf : q = p → (f P).lat = P.lat ∧ (f P).cw = P.cw) :
    ∃ Q, (ports.modify q f)[p]? = some Q ∧ Q.lat = P.lat ∧ Q.cw = P.cw := by
  rw [List.getElem?_modify, hp]
  by_cases hq : q = p
  · exact ⟨f P, by simp [hq], hf hq⟩
  · exact ⟨P, by simp [hq], rfl, rfl⟩

/-- The same of a port replaced. -/
theorem exists_set_command {ports : List Port} {p q : Nat} {P R Q : Port} (hp : ports[p]? = some P) (hR : ports[q]? = some R)
    (hlat : Q.lat = R.lat) (hcw : Q.cw = R.cw) : ∃ Q', (ports.set q Q)[p]? = some Q' ∧ Q'.lat = P.lat ∧ Q'.cw = P.cw := by
  rw [← modify_eq_set hR fun _ => Q]
  refine exists_modify_command hp fun hq => ?_
  obtain rfl : R = P := Option.some.inj (hR.symm.trans (hq ▸ hp))
  exact ⟨hlat, hcw⟩

/-- Over every step but reset, a busy port keeps its word and its operands: its own micro-steps do (`ExecEffect`), and it ignores a
word presented to it (`Port.present_busy`). -/
theorem step_keeps_command {s t : State} {p : Nat} {P : Port} (hstep : step s = .next t) (hreset : s.nextEvent.1 ≠ .reset)
    (hp : s.ports[p]? = some P) (hreq : P.req = true) : ∃ Q, t.ports[p]? = some Q ∧ Q.lat = P.lat ∧ Q.cw = P.cw := by
  rw [← s.nextEvent_ports] at hp
  cases step_cases hstep with
  | run q R i _ hR _ _ hx =>
    have hact : State.acting { s.nextEvent.2 with cur := q } R := hR
    obtain ⟨Q, e⟩ := exec_effect hact hx
    rw [e.ports]
    exact exists_set_command hp hR e.lat e.cw
  | illegal q R _ hR _ _ _ ht =>
    rw [ht]
    exact exists_set_command hp hR rfl rfl
  | idle _ _ _ ht => exact ⟨P, ht ▸ hp, rfl, rfl⟩
  | write q i v _ ht => exact ht ▸ exists_modify_command hp fun _ => ⟨rfl, rfl⟩
  | present q w _ ht =>
    have hkept : (P.present w).lat = P.lat ∧ (P.present w).cw = P.cw := by
      rw [Port.present_busy hreq]
      exact ⟨rfl, rfl⟩
    exact ht ▸ exists_modify_command hp fun _ => hkept
  | clock _ _ ht => exact ⟨P, ht ▸ hp, rfl, rfl⟩
  | reset he _ => exact absurd he hreset

/-- Settles O10: an idle port takes its operands with the word (`Port.present_idle`), and keeps them (`step_keeps_command`). -/
theorem operandsTakenAtPresentation : Obligations.OperandsTakenAtPresentation := by
  refine ⟨fun s p w P he hp hidle => ?_, fun s t p P hstep hreset hp hreq => step_keeps_command hstep hreset hp hreq⟩
  rw [← s.nextEvent_ports] at hp
  refine ⟨s.nextEvent.2.userPresent p w, P.present w, step_of_event he, ?_, ?_⟩
  · rw [userPresent_eq_set hp]
    exact List.getElem?_set_self (List.getElem?_eq_some_iff.mp hp).1
  · rw [Port.present_idle hidle]
    exact ⟨rfl, rfl, rfl, rfl⟩

end Sys2Proof.Machine
end

section
/-! The micro-steps of the mailbox commands (R63, R131 to R138), one equation each: what the step leaves in the direction's
store and in the acting port. -/

namespace Sys2Proof.Machine

open Sys2Proof Host

/-! ### The stores of the directions, replaced -/

/-- The saturating count (R26, R141), with its bound written out. -/
theorem satSucc_eq_ite (x : Word) : satSucc x = if x = 0xFFFFFFFF then 0xFFFFFFFF else x + 1 := by
  unfold satSucc
  split <;> simp [*]

theorem Mailbox.set_set (m : Mailbox) (d : Dir) (D E : DirStore) : (m.set d D).set d E = m.set d E := by
  cases d <;> rfl

theorem State.setDir_setDir (s : State) (d : Dir) (D E : DirStore) : (s.setDir d D).setDir d E = s.setDir d E := by
  unfold State.setDir
  rw [Mailbox.set_set]

theorem State.setDir_dir_same (s : State) (d : Dir) (D : DirStore) : (s.setDir d D).dir d = D := by simp

theorem State.acting.setDir {s : State} {P : Port} (h : s.acting P) (d : Dir) (D : DirStore) : (s.setDir d D).acting P := h

/-- Release and drop count of one direction, as one replacement of its store (R134, R135). -/
theorem State.release_countDrop (s : State) (d : Dir) (k : Nat) :
    (s.release d k).countDrop d = s.setDir d { (s.dir d).mark k .free with drops := satSucc (s.dir d).drops } := by
  unfold State.countDrop
  rw [State.release_dir, if_pos rfl]
  exact s.setDir_setDir d _ _

/-- The Free slot of lowest index (R131), from what the slots before it are. -/
theorem DirStore.freeIdx_of_lowest {D : DirStore} {k : Nat} (hk : (D.slots[k]?).map Slot.occ = some .free)
    (hlow : ∀ j < k, (D.slots[j]?).map Slot.occ = some .occupied) : D.freeIdx = some k :=
  (D.freeIdx_eq_some k).mpr ⟨hk, fun j hj => by simp [hlow j hj]⟩

/-! ### Claims (R131, R135) -/

section
variable {s : State} {P : Port} (hP : s.acting P)
include hP

theorem postP1_of_free {d : Dir} {k : Nat} (hk : (s.dir d).freeIdx = some k) :
    postP1 d s = (s.setDir d ((s.dir d).mark k .occupied)).withPort { P with phase := .pClaimed d k .copy } := by
  unfold postP1
  rw [(State.claim_eq_some ..).mpr ⟨hk, rfl⟩]
  exact (hP.setDir d _).goto _

theorem postP1_of_full {d : Dir} (hfull : (s.dir d).freeIdx = none) :
    postP1 d s = (s.setDir d { s.dir d with drops := satSucc (s.dir d).drops }).withPort (P.ended .full .idle P.r) := by
  unfold postP1
  rw [(State.claim_eq_none ..).mpr hfull]
  exact (hP.setDir d _).endCmd _ _

theorem postM1_of_free {k : Nat} (hk : (s.dir .usb).freeIdx = some k) :
    postM1 s = (s.setDir .usb ((s.dir .usb).mark k .occupied)).withPort { P with phase := .pMirrorClaimed k false } := by
  unfold postM1
  rw [(State.claim_eq_some ..).mpr ⟨hk, rfl⟩]
  exact (hP.setDir .usb _).goto _

theorem postM1_of_full (hfull : (s.dir .usb).freeIdx = none) :
    postM1 s = (s.setDir .usb { s.dir .usb with drops := satSucc (s.dir .usb).drops }).withPort
      { P with phase := .pPrimary } := by
  unfold postM1
  rw [(State.claim_eq_none ..).mpr hfull]
  exact (hP.setDir .usb _).goto _

/-! ### MB.POST, by the micro-phase of its port (R130) -/

theorem exec_mbPost_illegal (d : Dir) (hph : P.phase = .ready) (hbad : operandsLegal P.lat = false) :
    exec (.mbPost d) s = .next (s.withPort (P.ended .illegalCmd .idle P.r)) := by
  simp [exec_mbPost, execMbPost, postStart, hP.me, hph, hbad, hP.endCmd]

/-- A post to RX or USB starts with its claim. -/
theorem exec_mbPost_ready {d : Dir} (hd : d ≠ .tx) (hph : P.phase = .ready) (hop : operandsLegal P.lat = true) :
    exec (.mbPost d) s = .next (postP1 d s) := by
  cases d with
  | tx => exact absurd rfl hd
  | rx => simp [exec_mbPost, execMbPost, postStart, hP.me, hph, hop]
  | usb => simp [exec_mbPost, execMbPost, postStart, hP.me, hph, hop]

/-- A post to TX starts with its mirror offer (R135). -/
theorem exec_mbPost_ready_tx (hph : P.phase = .ready) (hop : operandsLegal P.lat = true) :
    exec (.mbPost .tx) s = .next (postM1 s) := by
  simp [exec_mbPost, execMbPost, postStart, hP.me, hph, hop]

theorem exec_mbPost_primary (d : Dir) (hph : P.phase = .pPrimary) : exec (.mbPost d) s = .next (postP1 d s) := by
  simp [exec_mbPost, execMbPost, hP.me, hph]

theorem exec_mbPost_copy {d : Dir} {k : Nat} (hph : P.phase = .pClaimed d k .copy) :
    exec (.mbPost d) s =
      .next ((s.setDir d ((s.dir d).write k P.lat.frame)).withPort { P with phase := .pClaimed d k .publish }) := by
  simp only [exec_mbPost, execMbPost, postP2, hP.me, hph]
  exact congrArg Outcome.next ((hP.setDir d _).goto _)

theorem exec_mbPost_copyMirror {k : Nat} (hph : P.phase = .pMirrorClaimed k false) :
    exec (.mbPost .tx) s =
      .next ((s.setDir .usb ((s.dir .usb).write k P.lat.frame)).withPort { P with phase := .pMirrorClaimed k true }) := by
  simp only [exec_mbPost, execMbPost, postM2, hP.me, hph]
  exact congrArg Outcome.next ((hP.setDir .usb _).goto _)

theorem exec_mbPost_publish {d : Dir} {k : Nat} (hph : P.phase = .pClaimed d k .publish)
    (hroom : (s.dir d).fifo.length < s.cfg.slots d) :
    exec (.mbPost d) s =
      .next ((s.setDir d { s.dir d with fifo := (s.dir d).fifo ++ [k] }).withPort (P.ended .ok .idle P.r)) := by
  simp only [exec_mbPost, execMbPost, postP3, hP.me, hph, (State.push_eq_some s _ d k).mpr ⟨hroom, rfl⟩]
  exact congrArg Outcome.next ((hP.setDir d _).endCmd _ _)

theorem exec_mbPost_publish_fails {d : Dir} {k : Nat} (hph : P.phase = .pClaimed d k .publish)
    (hfull : s.cfg.slots d ≤ (s.dir d).fifo.length) :
    exec (.mbPost d) s = .next (s.withPort { P with phase := .pClaimed d k .rollback }) := by
  simp only [exec_mbPost, execMbPost, postP3, hP.me, hph, (s.push_eq_none d k).mpr hfull]
  exact congrArg Outcome.next (hP.goto _)

theorem exec_mbPost_rollback {d : Dir} {k : Nat} (hph : P.phase = .pClaimed d k .rollback) :
    exec (.mbPost d) s =
      .next ((s.setDir d { (s.dir d).mark k .free with drops := satSucc (s.dir d).drops }).withPort
        (P.ended .full .idle P.r)) := by
  simp only [exec_mbPost, execMbPost, postP4, hP.me, hph, State.release_countDrop]
  exact congrArg Outcome.next ((hP.setDir d _).endCmd _ _)

theorem exec_mbPost_publishMirror {k : Nat} (hph : P.phase = .pMirrorClaimed k true)
    (hroom : (s.dir .usb).fifo.length < s.cfg.slots .usb) :
    exec (.mbPost .tx) s =
      .next ((s.setDir .usb { s.dir .usb with fifo := (s.dir .usb).fifo ++ [k] }).withPort { P with phase := .pPrimary }) := by
  simp only [exec_mbPost, execMbPost, postM3, hP.me, hph, (State.push_eq_some s _ .usb k).mpr ⟨hroom, rfl⟩]
  exact congrArg Outcome.next ((hP.setDir .usb _).goto _)

theorem exec_mbPost_publishMirror_fails {k : Nat} (hph : P.phase = .pMirrorClaimed k true)
    (hfull : s.cfg.slots .usb ≤ (s.dir .usb).fifo.length) :
    exec (.mbPost .tx) s =
      .next ((s.setDir .usb { (s.dir .usb).mark k .free with drops := satSucc (s.dir .usb).drops }).withPort
        { P with phase := .pPrimary }) := by
  simp only [exec_mbPost, execMbPost, postM3, hP.me, hph, (s.push_eq_none .usb k).mpr hfull, State.release_countDrop]
  exact congrArg Outcome.next ((hP.setDir .usb _).goto _)

/-! ### MB.FETCH and MB.EMPTY (R136, R138) -/

theorem exec_mbFetch_empty {d : Dir} (hph : P.phase = .ready) (hnone : (s.dir d).fifo = []) :
    exec (.mbFetch d) s = .next (s.withPort (P.ended .empty .idle P.r)) := by
  simp only [exec_mbFetch, execMbFetch, fetchF1, hP.me, hph, (s.pop_eq_none d).mpr hnone]
  exact congrArg Outcome.next (hP.endCmd _ _)

theorem exec_mbFetch_pop {d : Dir} {k : Nat} {rest : List Nat} (hph : P.phase = .ready) (hfifo : (s.dir d).fifo = k :: rest) :
    exec (.mbFetch d) s =
      .next ((s.setDir d { s.dir d with fifo := rest }).withPort { P with phase := .fPopped d k none }) := by
  simp only [exec_mbFetch, execMbFetch, fetchF1, hP.me, hph, (State.pop_eq_some s _ d k).mpr ⟨rest, hfifo, rfl⟩]
  exact congrArg Outcome.next ((hP.setDir d _).goto _)

theorem exec_mbFetch_copy {d : Dir} {k : Nat} (hph : P.phase = .fPopped d k none) :
    exec (.mbFetch d) s = .next (s.withPort { P with phase := .fPopped d k (some ((s.dir d).read k)) }) :=
  execMbFetch_copy hP hph

theorem exec_mbFetch_deliver {d : Dir} {k : Nat} {f : Frame} (hph : P.phase = .fPopped d k (some f)) :
    exec (.mbFetch d) s = .next ((s.setDir d ((s.dir d).mark k .free)).withPort (P.ended .ok .idle f.results)) :=
  execMbFetch_deliver hP hph

theorem exec_mbEmpty_ready (d : Dir) (hph : P.phase = .ready) :
    exec (.mbEmpty d) s =
      .next (s.withPort (P.ended .ok .idle { P.r with w0 := if (s.dir d).fifo = [] then 1 else 0 })) := by
  rw [exec_mbEmpty, hP.oneStep hph, emptyE1, flagWord_eq_ite]
  simp only [List.isEmpty_iff]
  unfold State.setR0
  rw [hP.updMe, hP.withPort_endCmd]
  rfl

end

/-! ### The obligations about single steps -/

/-- Settles O13: the test of the operands is the conjunction of R142's conditions, and a port that fails it ends at once
(`exec_mbPost_illegal`). -/
theorem postIllegalOperands : Obligations.PostIllegalOperands := by
  refine ⟨fun q => ?_, fun s P d hP hph hbad => exec_mbPost_illegal hP d hph hbad⟩
  have hext : (q.w0.getLsbD 31 = true ∨ q.w0.extractLsb' 11 18 = 0)
      ↔ (q.w0.getLsbD 31 = false → q.w0.extractLsb' 11 18 = 0) := by
    cases q.w0.getLsbD 31 <;> simp
  simp only [operandsLegal, Bool.and_eq_true, Bool.or_eq_true, decide_eq_true_eq, hext, and_assoc]

/-- Settles O14: both places of step P1 run `postP1`, which claims the lowest Free slot or counts the drop. -/
theorem postClaims : Obligations.PostClaims := by
  intro s P d hP hpos
  have hstep : exec (.mbPost d) s = .next (postP1 d s) := by
    obtain ⟨hd, hph, hop⟩ | ⟨_, hph⟩ := hpos
    · exact exec_mbPost_ready hP hd hph hop
    · exact exec_mbPost_primary hP d hph
  refine ⟨fun k hk hlow => ?_, fun hfull => ?_⟩
  · rw [hstep, postP1_of_free hP (DirStore.freeIdx_of_lowest hk hlow)]
    rfl
  · rw [hstep, postP1_of_full hP ((DirStore.freeIdx_eq_none _).mpr hfull), ← satSucc_eq_ite]
    rfl

/-- Settles O15: step M1 is `postM1`, which claims the lowest Free slot of USB or counts the drop. -/
theorem postClaimsMirror : Obligations.PostClaimsMirror := by
  intro s P hP hph hop
  refine ⟨fun k hk hlow => ?_, fun hfull => ?_⟩
  · rw [exec_mbPost_ready_tx hP hph hop, postM1_of_free hP (DirStore.freeIdx_of_lowest hk hlow)]
    rfl
  · rw [exec_mbPost_ready_tx hP hph hop, postM1_of_full hP ((DirStore.freeIdx_eq_none _).mpr hfull), ← satSucc_eq_ite]
    rfl

/-- Settles O16: steps P2 and M2 (`exec_mbPost_copy`, `exec_mbPost_copyMirror`). -/
theorem postCopiesIn : Obligations.PostCopiesIn :=
  fun _ _ _ hP => ⟨fun _ hph => exec_mbPost_copy hP hph, fun hph => exec_mbPost_copyMirror hP hph⟩

/-- Settles O17: steps P3 and M3 with room (`exec_mbPost_publish`, `exec_mbPost_publishMirror`). -/
theorem postPublishes : Obligations.PostPublishes :=
  fun _ _ _ hP => ⟨fun _ hph hroom => exec_mbPost_publish hP hph hroom,
    fun hph hroom => exec_mbPost_publishMirror hP hph hroom⟩

/-- Settles O18: steps P3 and M3 without room, and step P4. -/
theorem postRollsBack : Obligations.PostRollsBack :=
  fun _ _ _ hP => ⟨fun _ hph hfull => exec_mbPost_publish_fails hP hph hfull, fun _ hph => exec_mbPost_rollback hP hph,
    fun hph hfull => exec_mbPost_publishMirror_fails hP hph hfull⟩

/-- The first result register of MB.FETCH, as R93 writes it. -/
theorem Frame.results_w0 (f : Frame) : f.results.w0 = f.id.setWidth 32 ||| (if f.ext then 0x80000000 else 0) :=
  (idWord_eq_or f.id f.ext).trans (by cases f.ext <;> rfl)

/-- Settles O19: F1 by the head of the FIFO, F2 (`exec_mbFetch_copy`) and F3 (`exec_mbFetch_deliver`). -/
theorem fetchSteps : Obligations.FetchSteps := by
  intro s P d hP
  refine ⟨fun hph hnone => exec_mbFetch_empty hP hph hnone, fun k rest hph hfifo => exec_mbFetch_pop hP hph hfifo,
    fun k x hph hx => ?_, fun k f hph => ?_⟩
  · have hread : (s.dir d).read k = x.frm := by simp [DirStore.read, hx]
    rw [exec_mbFetch_copy hP hph, hread]
  · rw [exec_mbFetch_deliver hP hph, ← f.results_w0]
    rfl

/-- Settles O20: the FIFO is empty when its count is zero (`exec_mbEmpty_ready`). -/
theorem emptyReports : Obligations.EmptyReports := by
  intro s P d hP hph
  simp only [exec_mbEmpty_ready hP d hph, List.length_eq_zero_iff]

end Sys2Proof.Machine
end

section
/-! The FIFO law (R139): what a step does to the FIFO of a direction and to the frames its references name. -/

namespace Sys2Proof.Machine

open Sys2Proof Host

/-! ### The FIFO under one micro-step -/

/-- No micro-step of a command but MB.POST and MB.FETCH touches the mailbox. -/
theorem exec_mb_kept {i : Instr} {s t : State} (hx : exec i s = .next t) :
    (∃ d, i = .mbPost d) ∨ (∃ d, i = .mbFetch d) ∨ t.mb = s.mb := by
  obtain hone | heng | hpost | hfetch := instr_forms i
  · refine .inr (.inr ?_)
    cases exec_oneEffect hone hx with
    | none _ _ _ hm _ _ _ | fltClear _ _ hm _ _ _ | fltSet _ _ _ _ _ hm _ _ _ _ | fltEn _ _ _ hm _ _ _
    | fltApply _ _ hm _ _ _ | actMark _ _ hm _ _ _ | mode _ _ _ hm _ _ _ | wake _ _ _ hm _ _ _ => exact hm
  · exact .inr (.inr (exec_linKept heng hx).mb)
  · exact .inl hpost
  · exact .inr (.inl hfetch)

/-- No FIFO changes when a direction's store is replaced by one with the same FIFO. -/
theorem State.setDir_withPort_fifo {s : State} {d : Dir} {D : DirStore} {Q : Port} (e : Dir)
    (hD : D.fifo = (s.dir d).fifo) : (((s.setDir d D).withPort Q).dir e).fifo = (s.dir e).fifo := by
  rw [State.withPort_dir, State.setDir_dir]
  split
  · rename_i hed; rw [hD, hed]
  · rfl

/-- A publish step that has room appends the slot to its own direction's FIFO. -/
theorem State.append_withPort_fifo (s : State) (d e : Dir) (k : Nat) (Q : Port) :
    let t := (s.setDir d { s.dir d with fifo := (s.dir d).fifo ++ [k] }).withPort Q
    (t.dir e).fifo = (s.dir e).fifo ∨ (e = d ∧ (t.dir e).fifo = (s.dir e).fifo ++ [k]) := by
  simp only [State.withPort_dir, State.setDir_dir]
  split
  · rename_i hed; exact .inr ⟨hed, by rw [hed]⟩
  · exact .inl rfl

section
variable {s t : State} {P : Port} (hP : s.acting P)
include hP

theorem postP1_fifo (d e : Dir) : ((postP1 d s).dir e).fifo = (s.dir e).fifo := by
  cases hk : (s.dir d).freeIdx with
  | none => rw [postP1_of_full hP hk]; exact State.setDir_withPort_fifo e (by rfl)
  | some k => rw [postP1_of_free hP hk]; exact State.setDir_withPort_fifo e (by rfl)

theorem postM1_fifo (e : Dir) : ((postM1 s).dir e).fifo = (s.dir e).fifo := by
  cases hk : (s.dir .usb).freeIdx with
  | none => rw [postM1_of_full hP hk]; exact State.setDir_withPort_fifo e (by rfl)
  | some k => rw [postM1_of_free hP hk]; exact State.setDir_withPort_fifo e (by rfl)

/-- The first micro-step of MB.POST touches no FIFO. -/
theorem exec_mbPost_ready_fifo {d : Dir} (hph : P.phase = .ready) (hx : exec (.mbPost d) s = .next t) (e : Dir) :
    (t.dir e).fifo = (s.dir e).fifo := by
  cases hop : operandsLegal P.lat with
  | false => rw [exec_mbPost_illegal hP d hph hop] at hx; cases hx; rfl
  | true =>
    by_cases hd : d = .tx
    · subst hd; rw [exec_mbPost_ready_tx hP hph hop] at hx; cases hx; exact postM1_fifo hP e
    · rw [exec_mbPost_ready hP hd hph hop] at hx; cases hx; exact postP1_fifo hP d e

/-- Of MB.POST's micro-steps only the publish steps P3 and M3 touch a FIFO: the slot that holds the copy is appended (R133). -/
theorem exec_mbPost_fifo {d : Dir} (hfit : P.phase = .ready ∨ fitsPhase (.mbPost d) P.phase = true)
    (hx : exec (.mbPost d) s = .next t) (e : Dir) :
    (t.dir e).fifo = (s.dir e).fifo
    ∨ ∃ k, P.phase.copiedSlot = some (e, k) ∧ (t.dir e).fifo = (s.dir e).fifo ++ [k] := by
  cases hph : P.phase with
  | ready => exact .inl (exec_mbPost_ready_fifo hP hph hx e)
  | pMirrorClaimed k copied =>
    obtain rfl : d = .tx := by simpa [hph, fitsPhase] using hfit
    cases copied with
    | false =>
      rw [exec_mbPost_copyMirror hP hph] at hx; cases hx
      exact .inl (State.setDir_withPort_fifo e (by rfl))
    | true =>
      obtain hroom | hfull := Nat.lt_or_ge (s.dir .usb).fifo.length (s.cfg.slots .usb)
      · rw [exec_mbPost_publishMirror hP hph hroom] at hx; cases hx
        refine (s.append_withPort_fifo .usb e k _).imp_right fun ⟨he, happ⟩ => ⟨k, ?_, happ⟩
        rw [he]; rfl
      · rw [exec_mbPost_publishMirror_fails hP hph hfull] at hx; cases hx
        exact .inl (State.setDir_withPort_fifo e (by rfl))
  | pPrimary =>
    rw [exec_mbPost_primary hP d hph] at hx; cases hx
    exact .inl (postP1_fifo hP d e)
  | pClaimed d' k pos =>
    obtain rfl : d' = d := by simpa [hph, fitsPhase] using hfit
    cases pos with
    | copy =>
      rw [exec_mbPost_copy hP hph] at hx; cases hx
      exact .inl (State.setDir_withPort_fifo e (by rfl))
    | publish =>
      obtain hroom | hfull := Nat.lt_or_ge (s.dir d').fifo.length (s.cfg.slots d')
      · rw [exec_mbPost_publish hP hph hroom] at hx; cases hx
        refine (s.append_withPort_fifo d' e k _).imp_right fun ⟨he, happ⟩ => ⟨k, ?_, happ⟩
        rw [he]; rfl
      · rw [exec_mbPost_publish_fails hP hph hfull] at hx; cases hx
        exact .inl rfl
    | rollback =>
      rw [exec_mbPost_rollback hP hph] at hx; cases hx
      exact .inl (State.setDir_withPort_fifo e (by rfl))
  | fPopped d' k o => simp [hph, fitsPhase] at hfit
  | lWait => simp [hph, fitsPhase] at hfit
  | lRun => simp [hph, fitsPhase] at hfit

/-- Of MB.FETCH's micro-steps only F1 touches a FIFO: it takes the head, whose slot the port then holds (R137). -/
theorem exec_mbFetch_fifo {d : Dir} (hfit : P.phase = .ready ∨ fitsPhase (.mbFetch d) P.phase = true)
    (hx : exec (.mbFetch d) s = .next t) (e : Dir) :
    (t.dir e).fifo = (s.dir e).fifo
    ∨ ∃ k, (s.dir e).fifo = k :: (t.dir e).fifo ∧ ∃ Q, t.acting Q ∧ Q.phase = .fPopped e k none := by
  cases hph : P.phase with
  | ready =>
    cases hfifo : (s.dir d).fifo with
    | nil => rw [exec_mbFetch_empty hP hph hfifo] at hx; cases hx; exact .inl rfl
    | cons k rest =>
      rw [exec_mbFetch_pop hP hph hfifo] at hx; cases hx
      by_cases hed : e = d
      · subst hed
        exact .inr ⟨k, by simp [hfifo], _, (hP.setDir e _).withPort _, rfl⟩
      · exact .inl (by simp [hed])
  | fPopped d' k o =>
    obtain rfl : d' = d := by simpa [hph, fitsPhase] using hfit
    cases o with
    | none => rw [exec_mbFetch_copy hP hph] at hx; cases hx; exact .inl rfl
    | some f =>
      rw [exec_mbFetch_deliver hP hph] at hx; cases hx
      exact .inl (State.setDir_withPort_fifo e (by rfl))
  | pMirrorClaimed k copied => simp [hph, fitsPhase] at hfit
  | pPrimary => simp [hph, fitsPhase] at hfit
  | pClaimed d' k pos => simp [hph, fitsPhase] at hfit
  | lWait => simp [hph, fitsPhase] at hfit
  | lRun => simp [hph, fitsPhase] at hfit

end

/-! ### The frames that the references name -/

/-- A frame in the queue stays what it is: nobody holds its slot (R25), so nobody writes there. -/
theorem ExecEffect.read_of_mem_fifo {i : Instr} {s t : State} {P Q : Port} (hP : s.acting P) (h : ExecEffect i s P t Q)
    (hpool : s.poolOk) {d : Dir} {k : Nat} (hk : k ∈ (s.dir d).fifo) : (t.dir d).read k = (s.dir d).read k := by
  obtain hsame | ⟨hheld, _, _⟩ := h.mb.read d k
  · exact hsame
  · have hports : k ∈ s.ports.filterMap fun P => P.phase.held d :=
      List.mem_filterMap.mpr ⟨P, List.mem_of_getElem? hP, hheld⟩
    exact absurd hports (List.disjoint_of_nodup_append (hpool d).1 hk)

/-- The frames named by references that stay in the FIFO. -/
theorem ExecEffect.map_read {i : Instr} {s t : State} {P Q : Port} (hP : s.acting P) (h : ExecEffect i s P t Q)
    (hpool : s.poolOk) {d : Dir} {ks : List Nat} (hks : ks ⊆ (s.dir d).fifo) :
    ks.map (t.dir d).read = ks.map (s.dir d).read :=
  List.map_congr_left fun _ hk => h.read_of_mem_fifo hP hpool (hks hk)

/-- A frame copied in and published next is in its slot after the publish step too. -/
theorem ExecEffect.read_of_copiedSlot {i : Instr} {s t : State} {P Q : Port} (hP : s.acting P) (h : ExecEffect i s P t Q)
    (hcopied : s.copiedOk) {d : Dir} {k : Nat} (hslot : P.phase.copiedSlot = some (d, k)) :
    (t.dir d).read k = P.lat.frame := by
  obtain hsame | ⟨_, _, hnew⟩ := h.mb.read d k
  · exact hsame.trans ((State.copiedOk_iff s).mp hcopied P (List.mem_of_getElem? hP) d k hslot)
  · exact hnew

theorem MicroPhase.copiedSlot_eq_some {ph : MicroPhase} {d : Dir} {k : Nat} (h : ph.copiedSlot = some (d, k)) :
    ph = .pClaimed d k .publish ∨ (d = .usb ∧ ph = .pMirrorClaimed k true) := by
  unfold MicroPhase.copiedSlot at h
  split at h <;> cases h
  · exact .inr ⟨rfl, rfl⟩
  · exact .inl rfl

/-- A port that publishes next has legal operands (R142). -/
theorem Port.frameOk.legal_of_copiedSlot {P : Port} (h : P.frameOk) {d : Dir} {k : Nat}
    (hslot : P.phase.copiedSlot = some (d, k)) : Machine.operandsLegal P.lat = true := by
  unfold Port.frameOk at h
  obtain hph | ⟨_, hph⟩ := MicroPhase.copiedSlot_eq_some hslot <;> rw [hph] at h <;> exact h

/-! ### The queue -/

theorem State.queue_of_mb {s t : State} (h : t.mb = s.mb) (d : Dir) : t.queue d = s.queue d := by
  unfold State.queue State.dir
  rw [h]

/-- A publish of the acting port `P` on direction `d`, which appends the frame it posts. -/
def State.published (s : State) (P : Port) (d : Dir) (t : State) : Prop :=
  ∃ k, P.phase.copiedSlot = some (d, k) ∧ t.queue d = s.queue d ++ [P.lat.frame]

/-- The acting port has popped the oldest frame of direction `d`, and its slot still holds it. -/
def State.tookOldest (s : State) (d : Dir) (t : State) : Prop :=
  ∃ Q k, t.acting Q ∧ Q.phase = .fPopped d k none ∧ s.queue d = (t.dir d).read k :: t.queue d

/-- The FIFO law over one micro-step of the command that the acting port presents. -/
theorem State.Inv.exec_queue {i : Instr} {s t : State} {P : Port} (hs : s.Inv) (hP : s.acting P)
    (hd : decode P.cw = .ok i) (hx : Machine.exec i s = .next t) (d : Dir) :
    t.queue d = s.queue d ∨ s.published P d t ∨ s.tookOldest d t := by
  obtain ⟨Q, e⟩ := exec_effect hP hx
  have hfit := (hs.ports P (List.mem_of_getElem? hP)).fitsPhase hd
  have kept : (t.dir d).fifo = (s.dir d).fifo → t.queue d = s.queue d := fun hfifo => by
    unfold State.queue
    rw [hfifo, e.map_read hP hs.pool (List.Subset.refl _)]
  obtain ⟨d', rfl⟩ | ⟨d', rfl⟩ | hmb := exec_mb_kept hx
  · obtain hfifo | ⟨k, hslot, hfifo⟩ := exec_mbPost_fifo hP hfit hx d
    · exact .inl (kept hfifo)
    · refine .inr (.inl ⟨k, hslot, ?_⟩)
      unfold State.queue
      rw [hfifo, List.map_append, e.map_read hP hs.pool (List.Subset.refl _), List.map_singleton,
        e.read_of_copiedSlot hP hs.copied hslot]
  · obtain hfifo | ⟨k, hfifo, R, hR, hph⟩ := exec_mbFetch_fifo hP hfit hx d
    · exact .inl (kept hfifo)
    · have hks : k :: (t.dir d).fifo ⊆ (s.dir d).fifo := hfifo ▸ List.Subset.refl _
      refine .inr (.inr ⟨R, k, hR, hph, ?_⟩)
      unfold State.queue
      rw [hfifo, ← e.map_read hP hs.pool hks, List.map_cons]
  · exact .inl (State.queue_of_mb hmb d)

/-- Settles O24: a scheduled port's micro-step obeys the law (`State.Inv.exec_queue`), and no other event but reset touches the
mailbox. -/
theorem fifoLaw : Obligations.FifoLaw := by
  intro s t d hs hstep hreset
  have hu := hs.nextEvent
  have untouched : t.mb = s.nextEvent.2.mb → t.queue d = s.queue d := fun hmb =>
    State.queue_of_mb (hmb.trans s.nextEvent_mb) d
  cases step_cases hstep with
  | run p P i he hp _ hd hx =>
    have hP : State.acting { s.nextEvent.2 with cur := p } P := hp
    obtain ⟨Q, e⟩ := exec_effect hP hx
    have hqueue : State.queue { s.nextEvent.2 with cur := p } d = s.queue d := State.queue_of_mb s.nextEvent_mb d
    have hframe : P.frameOk := hu.frames.2 P (List.mem_of_getElem? hp)
    rw [s.nextEvent_ports] at hp
    obtain hsame | ⟨k, hslot, happ⟩ | ⟨R, k, hR, hph, htook⟩ := (hu.schedule p).exec_queue hP hd hx d
    · exact .inl (hsame.trans hqueue)
    · exact .inr (.inl ⟨p, P, k, he, hp, hframe.legal_of_copiedSlot hslot, MicroPhase.copiedSlot_eq_some hslot,
        hqueue ▸ happ⟩)
    · rw [State.acting_def, e.cur] at hR
      exact .inr (.inr ⟨p, R, k, _, he, hR, hph, rfl, hqueue ▸ htook⟩)
  | illegal _ _ _ _ _ _ _ ht => exact .inl (untouched (ht ▸ rfl))
  | idle _ _ _ ht => exact .inl (untouched (ht ▸ rfl))
  | write _ _ _ _ ht => exact .inl (untouched (ht ▸ rfl))
  | present _ _ _ ht => exact .inl (untouched (ht ▸ rfl))
  | clock _ _ ht => exact .inl (untouched (ht ▸ rfl))
  | reset he _ => exact absurd he hreset

end Sys2Proof.Machine
end

section
/-! A direction that no port holds a slot of (R140, R145, R289): its FIFO refers to all its Occupied slots, and a whole command is
one operation of a bounded queue. -/

namespace Sys2Proof.Machine

open Sys2Proof Host

/-! ### Counting -/

theorem DirStore.occupiedIdx_nodup (D : DirStore) : D.occupiedIdx.Nodup := List.nodup_range.filter _

/-- The references of a direction are as many as its Occupied slots (R25). -/
theorem State.poolOk.refs_length {s : State} (h : s.poolOk) (d : Dir) : (s.refs d).length = (s.dir d).occCount := by
  have hperm : (s.refs d).Perm (s.dir d).occupiedIdx :=
    (List.perm_ext_iff_of_nodup (h d).1 (s.dir d).occupiedIdx_nodup).mpr fun k =>
      ((h d).2 k).trans ((s.dir d).mem_occupiedIdx k).symm
  exact hperm.length_eq.trans (s.dir d).occupiedIdx_length

/-- No port holds a slot of direction `d`. -/
def State.unheld (s : State) (d : Dir) : Prop := ∀ Q ∈ s.ports, Q.phase.held d = none

theorem State.unheld.refs {s : State} {d : Dir} (h : s.unheld d) : s.refs d = (s.dir d).fifo := by
  have hnone : (s.ports.filterMap fun Q => Q.phase.held d) = [] := List.filterMap_eq_nil_iff.mpr h
  unfold State.refs
  rw [hnone, List.append_nil]

/-- Of a direction that no port holds, the FIFO's count is the number of Occupied slots (R140). -/
theorem State.Inv.fifo_length {s : State} (hs : s.Inv) {d : Dir} (h : s.unheld d) :
    (s.dir d).fifo.length = (s.dir d).occCount := by
  rw [← h.refs, hs.pool.refs_length]

/-- No slot is Free exactly when all are counted. -/
theorem DirStore.occCount_eq_length (D : DirStore) : D.occCount = D.slots.length ↔ ∀ x ∈ D.slots, x.occ = .occupied := by
  simp [DirStore.occCount, List.countP_eq_length]

/-- No slot is Free exactly when the FIFO's count is `N[d]` (R140). -/
theorem State.Inv.full_iff {s : State} (hs : s.Inv) {d : Dir} (h : s.unheld d) :
    (∀ x ∈ (s.dir d).slots, x.occ = .occupied) ↔ (s.dir d).fifo.length = s.cfg.slots d := by
  obtain ⟨_, hslots, _⟩ := hs.sizes
  rw [← DirStore.occCount_eq_length, hs.fifo_length h, hslots d]

/-- Settles O22: READY ports hold nothing (`State.Inv.fifo_length`, `State.Inv.full_iff`), and a free engine is IDLE. -/
theorem quiescentCounts : Obligations.QuiescentCounts := by
  intro s d hs ⟨hready, hfree⟩
  have hunheld : s.unheld d := fun Q hQ => by rw [hready Q hQ]; rfl
  obtain ⟨_, _, hidle, _⟩ := hs.engine
  exact ⟨(hs.fifo_length hunheld).symm, hs.full_iff hunheld, hidle hfree⟩

/-! ### A direction as a bounded queue -/

/-- The store of a direction after a frame was offered to it: in the Free slot of lowest index and at the FIFO's tail, or dropped
and counted. -/
def DirStore.offer (D : DirStore) (f : Frame) : DirStore :=
  match D.freeIdx with
  | some k => { (D.mark k .occupied).write k f with fifo := D.fifo ++ [k] }
  | none => { D with drops := satSucc D.drops }

theorem DirStore.offer_of_free {D : DirStore} {k : Nat} (h : D.freeIdx = some k) (f : Frame) :
    D.offer f = { (D.mark k .occupied).write k f with fifo := D.fifo ++ [k] } := by
  unfold DirStore.offer; rw [h]

theorem DirStore.offer_of_full {D : DirStore} (h : D.freeIdx = none) (f : Frame) :
    D.offer f = { D with drops := satSucc D.drops } := by
  unfold DirStore.offer; rw [h]

/-- The new frame is read from the slot claimed, the old ones from the others. -/
theorem DirStore.offer_read {D : DirStore} {k : Nat} (h : D.freeIdx = some k) (f : Frame) (j : Nat) :
    (D.offer f).read j = if j = k then f else D.read j := by
  have hlt : k < D.slots.length := (freeIdx_not_occupied h).2
  rw [DirStore.offer_of_free h]
  calc DirStore.read { (D.mark k .occupied).write k f with fifo := D.fifo ++ [k] } j
      = ((D.mark k .occupied).write k f).read j := rfl
    _ = if j = k then f else D.read j := by rw [DirStore.write_read]; simp [hlt]

theorem State.queue_length (s : State) (d : Dir) : (s.queue d).length = (s.dir d).fifo.length := List.length_map _

theorem State.queue_eq_nil (s : State) (d : Dir) : s.queue d = [] ↔ (s.dir d).fifo = [] := List.map_eq_nil_iff

/-- A direction that no port holds has room exactly when it has a Free slot (R144). -/
theorem State.Inv.room_iff {s : State} (hs : s.Inv) {d : Dir} (h : s.unheld d) :
    (s.queue d).length < s.cfg.slots d ↔ (s.dir d).freeIdx.isSome = true := by
  have hle : (s.dir d).fifo.length ≤ s.cfg.slots d := hs.fifo_length h ▸ hs.occCount_le d
  rw [s.queue_length, ← Option.ne_none_iff_isSome, Ne, DirStore.freeIdx_eq_none, hs.full_iff h]
  omega

/-- What `DirStore.offer` does to the queue and the drop counter (R145). -/
theorem State.Inv.offered {s t : State} (hs : s.Inv) {d : Dir} (h : s.unheld d) {f : Frame}
    (ht : t.dir d = (s.dir d).offer f) : s.offered t d f := by
  unfold State.offered
  cases hk : (s.dir d).freeIdx with
  | none =>
    have hfull : ¬ (s.queue d).length < s.cfg.slots d := by rw [hs.room_iff h, hk]; simp
    rw [if_neg hfull]
    unfold State.queue
    rw [ht, DirStore.offer_of_full hk]
    exact ⟨rfl, rfl⟩
  | some k =>
    rw [if_pos ((hs.room_iff h).mpr (by rw [hk]; rfl))]
    have hold : ∀ j ∈ (s.dir d).fifo, (t.dir d).read j = (s.dir d).read j := fun j hj => by
      have hocc : (s.dir d).occupied j := ((hs.pool d).2 j).mp (h.refs.symm ▸ hj)
      rw [ht, DirStore.offer_read hk, if_neg]
      rintro rfl
      exact (freeIdx_not_occupied hk).1 hocc
    have hnew : (t.dir d).read k = f := by rw [ht, DirStore.offer_read hk, if_pos rfl]
    have hfifo : (t.dir d).fifo = (s.dir d).fifo ++ [k] := by rw [ht, DirStore.offer_of_free hk]
    refine ⟨?_, by rw [ht, DirStore.offer_of_free hk]; rfl⟩
    unfold State.queue
    rw [hfifo, List.map_append, List.map_congr_left hold, List.map_singleton, hnew]

/-! ### A whole command, micro-step by micro-step -/

theorem runCmd_goes {i : Instr} {s t : State} {Q : Port} (hx : exec i s = .next t) (hQ : t.acting Q) (hph : Q.phase ≠ .ready)
    (n : Nat) : runCmd (n + 1) i s = runCmd n i t := by
  simp [runCmd, hx, hQ.me, hph]

theorem runCmd_ends {i : Instr} {s t : State} {Q : Port} (hx : exec i s = .next t) (hQ : t.acting Q) (hph : Q.phase = .ready)
    (n : Nat) : runCmd (n + 1) i s = .next t := by
  simp [runCmd, hx, hQ.me, hph]

/-- Of the acting port's replacements the last one counts. -/
theorem State.withPort_setDir_withPort (s : State) (d : Dir) (D : DirStore) (Q R : Port) :
    ((s.withPort Q).setDir d D).withPort R = (s.setDir d D).withPort R := (s.setDir d D).withPort_withPort Q R

/-- A direction's store and the acting port, replaced twice. -/
theorem State.setDir_withPort_setDir_withPort (s : State) (d : Dir) (D E : DirStore) (Q R : Port) :
    (((s.setDir d D).withPort Q).setDir d E).withPort R = (s.setDir d E).withPort R := by
  rw [State.withPort_setDir_withPort, State.setDir_setDir]

section
variable {s : State} {P : Port} (hP : s.acting P)
include hP

/-- Steps P2 and P3 (R132, R133). -/
theorem runCmd_post_claimed {d : Dir} {k : Nat} (hph : P.phase = .pClaimed d k .copy)
    (hroom : (s.dir d).fifo.length < s.cfg.slots d) (n : Nat) :
    runCmd (n + 2) (.mbPost d) s = .next ((s.setDir d
      { (s.dir d).write k P.lat.frame with fifo := (s.dir d).fifo ++ [k] }).withPort (P.ended .ok .idle P.r)) := by
  have hP2 := (hP.setDir d ((s.dir d).write k P.lat.frame)).withPort { P with phase := .pClaimed d k .publish }
  rw [runCmd_goes (exec_mbPost_copy hP hph) hP2 (by simp),
    runCmd_ends (exec_mbPost_publish hP2 rfl (by simpa using hroom)) ((hP2.setDir d _).withPort _) rfl,
    State.setDir_withPort_setDir_withPort, State.withPort_dir, State.setDir_dir_same]
  rfl

/-- MB.POST from its step P1 on (R131 to R133): the frame is offered to the direction. -/
theorem runCmd_post {d : Dir} (hstep : exec (.mbPost d) s = .next (postP1 d s))
    (hroom : (s.dir d).freeIdx.isSome = true → (s.dir d).fifo.length < s.cfg.slots d) (n : Nat) :
    runCmd (n + 3) (.mbPost d) s = .next ((s.setDir d ((s.dir d).offer P.lat.frame)).withPort
      (P.ended (if (s.dir d).freeIdx.isSome then .ok else .full) .idle P.r)) := by
  cases hk : (s.dir d).freeIdx with
  | none =>
    rw [postP1_of_full hP hk] at hstep
    rw [runCmd_ends hstep ((hP.setDir d _).withPort _) rfl, DirStore.offer_of_full hk]
    rfl
  | some k =>
    have hP1 := (hP.setDir d ((s.dir d).mark k .occupied)).withPort { P with phase := .pClaimed d k .copy }
    rw [postP1_of_free hP hk] at hstep
    rw [runCmd_goes hstep hP1 (by simp), runCmd_post_claimed hP1 rfl (by simpa using hroom (by rw [hk]; rfl)),
      State.setDir_withPort_setDir_withPort, State.withPort_dir, State.setDir_dir_same, DirStore.offer_of_free hk]
    rfl

/-- Steps M2 and M3 of the mirror offer (R135). -/
theorem runCmd_mirror_claimed {k : Nat} (hph : P.phase = .pMirrorClaimed k false)
    (hroom : (s.dir .usb).fifo.length < s.cfg.slots .usb) (n : Nat) :
    runCmd (n + 2) (.mbPost .tx) s = runCmd n (.mbPost .tx) ((s.setDir .usb
      { (s.dir .usb).write k P.lat.frame with fifo := (s.dir .usb).fifo ++ [k] }).withPort { P with phase := .pPrimary }) := by
  have hP2 := (hP.setDir .usb ((s.dir .usb).write k P.lat.frame)).withPort { P with phase := .pMirrorClaimed k true }
  rw [runCmd_goes (exec_mbPost_copyMirror hP hph) hP2 (by simp),
    runCmd_goes (exec_mbPost_publishMirror hP2 rfl (by simpa using hroom)) ((hP2.setDir .usb _).withPort _) (by simp),
    State.setDir_withPort_setDir_withPort, State.withPort_dir, State.setDir_dir_same]
  rfl

/-- The mirror offer of a post to TX (R135): the frame is offered to USB, and the post goes on with its own step P1; of the six
steps at least three are left for it. -/
theorem runCmd_mirror (hph : P.phase = .ready) (hop : operandsLegal P.lat = true)
    (hroom : (s.dir .usb).freeIdx.isSome = true → (s.dir .usb).fifo.length < s.cfg.slots .usb) :
    ∃ n, runCmd 6 (.mbPost .tx) s = runCmd (n + 3) (.mbPost .tx)
      ((s.setDir .usb ((s.dir .usb).offer P.lat.frame)).withPort { P with phase := .pPrimary }) := by
  have hstep := exec_mbPost_ready_tx hP hph hop
  cases hk : (s.dir .usb).freeIdx with
  | none =>
    rw [postM1_of_full hP hk] at hstep
    refine ⟨2, ?_⟩
    rw [runCmd_goes hstep ((hP.setDir .usb _).withPort _) (by simp), DirStore.offer_of_full hk]
  | some k =>
    have hP1 := (hP.setDir .usb ((s.dir .usb).mark k .occupied)).withPort { P with phase := .pMirrorClaimed k false }
    rw [postM1_of_free hP hk] at hstep
    refine ⟨0, ?_⟩
    rw [runCmd_goes hstep hP1 (by simp), runCmd_mirror_claimed hP1 rfl (by simpa using hroom (by rw [hk]; rfl)),
      State.setDir_withPort_setDir_withPort, State.withPort_dir, State.setDir_dir_same, DirStore.offer_of_free hk]
    rfl

/-- MB.POST to TX (R135): the frame is offered to USB, then to TX. -/
theorem runCmd_post_tx (hph : P.phase = .ready) (hop : operandsLegal P.lat = true)
    (hroom : ∀ d, (s.dir d).freeIdx.isSome = true → (s.dir d).fifo.length < s.cfg.slots d) :
    runCmd 6 (.mbPost .tx) s = .next
      (((s.setDir .usb ((s.dir .usb).offer P.lat.frame)).setDir .tx ((s.dir .tx).offer P.lat.frame)).withPort
        (P.ended (if (s.dir .tx).freeIdx.isSome then .ok else .full) .idle P.r)) := by
  obtain ⟨n, hmirror⟩ := runCmd_mirror hP hph hop (hroom .usb)
  have hPm := (hP.setDir .usb ((s.dir .usb).offer P.lat.frame)).withPort { P with phase := .pPrimary }
  rw [hmirror, runCmd_post hPm (exec_mbPost_primary hPm .tx rfl) (hroom .tx) n, State.withPort_setDir_withPort]
  rfl

/-- Steps F2 and F3 (R136, R137). -/
theorem runCmd_fetch_popped {d : Dir} {k : Nat} (hph : P.phase = .fPopped d k none) (n : Nat) :
    runCmd (n + 2) (.mbFetch d) s = .next ((s.setDir d ((s.dir d).mark k .free)).withPort
      (P.ended .ok .idle ((s.dir d).read k).results)) := by
  have hP2 := hP.withPort { P with phase := .fPopped d k (some ((s.dir d).read k)) }
  rw [runCmd_goes (exec_mbFetch_copy hP hph) hP2 (by simp),
    runCmd_ends (exec_mbFetch_deliver hP2 rfl) ((hP2.setDir d _).withPort _) rfl, State.withPort_setDir_withPort]
  rfl

/-- MB.FETCH on a FIFO with a head: the head is removed, its slot is Free, and its frame is delivered (R136, R137). -/
theorem runCmd_fetch {d : Dir} {k : Nat} {rest : List Nat} (hph : P.phase = .ready) (hfifo : (s.dir d).fifo = k :: rest) :
    runCmd 3 (.mbFetch d) s = .next ((s.setDir d { (s.dir d).mark k .free with fifo := rest }).withPort
      (P.ended .ok .idle ((s.dir d).read k).results)) := by
  have hP1 := (hP.setDir d { s.dir d with fifo := rest }).withPort { P with phase := .fPopped d k none }
  rw [runCmd_goes (exec_mbFetch_pop hP hph hfifo) hP1 (by simp), runCmd_fetch_popped hP1 rfl,
    State.setDir_withPort_setDir_withPort, State.withPort_dir, State.setDir_dir_same]
  rfl

end

/-! ### The sequential view (R145) -/

/-- The queue after MB.FETCH: without its oldest frame, which is the one read from the slot popped. -/
theorem State.queue_of_fetch {s t : State} {d : Dir} {k : Nat} {rest : List Nat} (hfifo : (s.dir d).fifo = k :: rest)
    (ht : t.dir d = { (s.dir d).mark k .free with fifo := rest }) : s.queue d = (s.dir d).read k :: t.queue d := by
  have hread : ∀ j, (t.dir d).read j = (s.dir d).read j := fun j => by
    rw [ht]; exact (s.dir d).mark_read k j .free
  unfold State.queue
  rw [hfifo, List.map_cons, funext hread, ht]

/-- A store and the acting port replaced: nothing outside the mailbox and the ports changed. -/
theorem State.onlyMailbox_setDir_withPort (s : State) (d : Dir) (D : DirStore) (Q : Port) :
    s.onlyMailbox ((s.setDir d D).withPort Q) := ⟨rfl, rfl, rfl, rfl, rfl, rfl⟩

theorem State.Inv.room_of_free {s : State} (hs : s.Inv) {d : Dir} (h : s.unheld d) (hfree : (s.dir d).freeIdx.isSome = true) :
    (s.dir d).fifo.length < s.cfg.slots d := s.queue_length d ▸ (hs.room_iff h).mpr hfree

/-- Settles O23: MB.POST offers its frame to the direction (`runCmd_post`), to TX after the same offer to USB (`runCmd_post_tx`);
MB.FETCH takes the oldest one (`runCmd_fetch`); and MB.EMPTY looks at the count. -/
theorem sequentialView : Obligations.SequentialView := by
  intro s P hs hP hph hnone
  have hunheld : ∀ d, s.unheld d := fun d Q hQ => hnone Q hQ d
  have others : ∀ (d : Dir) (D : DirStore) (Q : Port) (e : Dir), e ≠ d → ((s.setDir d D).withPort Q).dir e = s.dir e :=
    fun d D Q e he => by rw [State.withPort_dir, State.setDir_dir, if_neg he]
  refine ⟨fun hop => ⟨fun d hd => ?_, ?_⟩, fun d hempty => ?_, fun d f rest hqueue => ?_, fun d => ?_⟩
  · refine ⟨_, runCmd_post hP (exec_mbPost_ready hP hd hph hop) (hs.room_of_free (hunheld d)) 0,
      hs.offered (hunheld d) (by simp), others d _ _, s.onlyMailbox_setDir_withPort d _ _, ?_⟩
    simp only [hs.room_iff (hunheld d)]
    rfl
  · refine ⟨_, runCmd_post_tx hP hph hop fun d => hs.room_of_free (hunheld d), hs.offered (hunheld .usb) (by simp),
      hs.offered (hunheld .tx) (by simp), by simp, ⟨rfl, rfl, rfl, rfl, rfl, rfl⟩, ?_⟩
    simp only [← hs.room_iff (hunheld .tx)]
    rfl
  · rw [s.queue_eq_nil] at hempty
    exact runCmd_ends (exec_mbFetch_empty hP hph hempty) (hP.withPort _) rfl 2
  · cases hfifo : (s.dir d).fifo with
    | nil => rw [(s.queue_eq_nil d).mpr hfifo] at hqueue; cases hqueue
    | cons k ks =>
      have ht : ((s.setDir d { (s.dir d).mark k .free with fifo := ks }).withPort
          (P.ended .ok .idle ((s.dir d).read k).results)).dir d = { (s.dir d).mark k .free with fifo := ks } :=
        s.setDir_dir_same d _
      obtain ⟨hf, hrest⟩ := List.cons.inj (hqueue.symm.trans (State.queue_of_fetch hfifo ht))
      refine ⟨_, runCmd_fetch hP hph hfifo, hrest.symm, by rw [ht]; rfl, others d _ _,
        s.onlyMailbox_setDir_withPort d _ _, by rw [hf]; rfl⟩
  · simp only [s.queue_eq_nil]
    exact runCmd_ends (exec_mbEmpty_ready hP d hph) (hP.withPort _) rfl 0

end Sys2Proof.Machine
end

section
/-! Which commands change which state (R2, and the "written by" clauses of 10_state.md). -/

namespace Sys2Proof.Machine

open Sys2Proof Host

/-! ### The drop counters (R141) -/

theorem State.release_drops (s : State) (d e : Dir) (k : Nat) : ((s.release d k).dir e).drops = (s.dir e).drops := by
  rw [State.release_dir]
  split
  · rename_i hed; rw [hed]; rfl
  · rfl

/-- MB.FETCH counts no drop. -/
theorem exec_mbFetch_drops {d : Dir} {s t : State} (hx : exec (.mbFetch d) s = .next t) (e : Dir) :
    (t.dir e).drops = (s.dir e).drops := by
  rw [exec_mbFetch] at hx
  unfold execMbFetch at hx
  split at hx
  case h_1 =>
    cases hx
    unfold fetchF1
    split
    · rfl
    · rename_i k u hc
      obtain ⟨rest, _, rfl⟩ := (State.pop_eq_some ..).mp hc
      rw [State.goto_dir, State.setDir_dir]
      split
      · rename_i hed; rw [hed]
      · rfl
  case h_2 => cases hx; rfl
  case h_3 d' k f _ => cases hx; exact s.release_drops d' e k
  all_goals cases hx

/-! ### The LIN counter (R206) -/

/-- A command whose transaction leaves the counter leaves it. -/
theorem linCommand_counter {legal : Bool} {load body : State → State} {s t : State}
    (hload : ∀ u, (load u).lin.counter = u.lin.counter) (hbody : (body s).lin.counter = s.lin.counter)
    (hx : linCommand legal load body s = .next t) : t.lin.counter = s.lin.counter := by
  have henter : (linEnter load s).lin.counter = s.lin.counter := by
    unfold linEnter
    split
    · exact hload _
    · rfl
  unfold linCommand at hx
  split at hx
  case h_1 =>
    cases hx
    split
    · exact henter
    · rfl
  case h_2 => cases hx; exact henter
  case h_3 => cases hx; exact hbody
  all_goals cases hx

theorem sendStep_counter (t : Txn) (s : State) : (sendStep t s).lin.counter = s.lin.counter := by
  unfold sendStep
  split <;> rename_i h
  · exact (txnStep_going h).counter
  · exact (txnStep_ended h).counter

theorem xchgStep_counter (t : Txn) (s : State) : (xchgStep t s).lin.counter = s.lin.counter := by
  unfold xchgStep
  split <;> rename_i h
  · exact (txnStep_going h).counter
  · exact (txnStep_ended h).counter
  · exact (txnStep_ended h).counter

theorem diagCommandStep_counter (s : State) : (diagCommandStep s).lin.counter = s.lin.counter := by
  have hdiag : (diagStep s).state.lin.counter = s.lin.counter := by
    obtain ⟨u, h, e, _⟩ | ⟨u, ph, h, e, _⟩ | ⟨u, c, ph, _, h, e, _⟩ | ⟨e, _⟩ := diagStep_cases s <;> rw [e]
    · exact (txnStep_going h).counter
    · exact (txnStep_ended h).counter
    · exact (txnStep_ended h).counter
    · rfl
  unfold diagCommandStep
  split <;> rename_i h <;> rw [h] at hdiag <;> exact hdiag

/-- Of the commands that use the engine only LIN.CYCLE advances the counter. -/
theorem exec_counter {i : Instr} {s t : State} (heng : usesEngine i = true) (hx : exec i s = .next t) :
    i = .linCycle ∨ t.lin.counter = s.lin.counter := by
  cases i <;> simp only [usesEngine, Bool.false_eq_true] at heng
  case linSend id len c k r =>
    rw [exec_linSend] at hx
    exact .inr (linCommand_counter (load := loadRequest id len) (fun _ => rfl) (sendStep_counter _ s) hx)
  case linXchg id len n c k r =>
    rw [exec_linXchg] at hx
    exact .inr (linCommand_counter (load := loadRequest id len) (fun _ => rfl) (xchgStep_counter _ s) hx)
  case linDiag =>
    rw [exec_linDiag] at hx
    exact .inr (linCommand_counter (load := startDiag) (fun _ => rfl) (diagCommandStep_counter s) hx)
  case linCycle => exact .inl rfl

theorem usesEngine_iff (i : Instr) : usesEngine i = true ↔
    (∃ id len c k r, i = .linSend id len c k r) ∨ (∃ id len n c k r, i = .linXchg id len n c k r)
      ∨ i = .linDiag ∨ i = .linCycle := by
  cases i <;> simp [usesEngine]

/-! ### The writers -/

/-- Settles O59: a one-step command by what it writes (`OneEffect`), a command that uses the engine by what it leaves alone
(`LinKept`, `exec_counter`), and MB.POST and MB.FETCH by what lies outside the mailbox (`onlyMb`). -/
theorem onlyNamedWriters : Obligations.OnlyNamedWriters := by
  intro i s t hx
  obtain hone | heng | ⟨d, rfl⟩ | ⟨d, rfl⟩ := instr_forms i
  · cases exec_oneEffect hone hx with
    | none _ _ _ hm hf hl ha | fltClear _ _ hm hl ha hf | fltSet _ _ _ _ _ hm hl ha _ hf | fltEn _ _ _ hm hl ha hf
    | fltApply _ _ hm hl ha hf | actMark _ _ hm hf hl ha | mode _ _ _ hm hf ha hl | wake _ _ _ hm hf ha hl =>
      simp [State.dir_def, Filter.applied, hm, hf, hl, ha]
  · obtain ⟨hm, hf, ha, hmode, hwake⟩ := exec_linKept heng hx
    exact ⟨by simp [hm], by simp [State.dir_def, hm], by simp [hf], by simp [hf], by simp [hf],
      fun hcounter => (exec_counter heng hx).resolve_right hcounter, by simp [hmode], by simp [hwake],
      fun _ => (usesEngine_iff i).mp heng, by simp [ha]⟩
  · obtain ⟨hf, hl, ha⟩ := execMbPost_units hx
    simp [hf, hl, ha]
  · obtain ⟨hf, hl, ha⟩ := execMbFetch_units hx
    simp [hf, hl, ha, exec_mbFetch_drops hx]

end Sys2Proof.Machine
end

section
/-! The filter register encodings (R160): an identifier and its kind are read back from the register. -/

namespace Sys2Proof.Machine

open Sys2Proof Host

/-! ### The register of an entry -/

/-- R160: an unused entry, one with raw identifier 0, gives `0x00000000`. -/
theorem regOf_of_id_eq_zero (ideBit : Nat) {e : FilterEntry} (h : e.id = 0) : regOf ideBit e = 0 := if_pos h

theorem regOf_of_id_ne_zero (ideBit : Nat) {e : FilterEntry} (h : e.id ≠ 0) : regOf ideBit e = enc ideBit e.id e.ext :=
  if_neg h

/-! ### Reading an encoding back -/

/-- R160: how far `Enc` shifts an identifier to the left. -/
def encShift (ext : Bool) : Nat := if ext then 3 else 21

@[simp] theorem encShift_false : encShift false = 21 := rfl
@[simp] theorem encShift_true : encShift true = 3 := rfl

/-- The identifier is read back above the shift: the IDE marker lies below it (R101). -/
theorem enc_getLsbD_add {b : Nat} (hb : b ≤ 2) (x : Word) (ext : Bool) {i : Nat} (hi : i + encShift ext < 32) :
    (enc b x ext).getLsbD (i + encShift ext) = x.getLsbD i := by
  cases ext with
  | false =>
    rw [encShift_false] at hi
    have hi' : i < 32 := by omega
    simp [enc, hi, hi']
  | true =>
    rw [encShift_true] at hi
    have hi' : i < 32 := by omega
    have hmarker : i + 3 - b ≠ 0 := by omega
    simp [enc, hi, hi', hmarker]

/-- The IDE marker says the kind of the identifier. -/
theorem enc_getLsbD_ideBit {b : Nat} (hb : b ≤ 2) (x : Word) (ext : Bool) : (enc b x ext).getLsbD b = ext := by
  have hlt : b < 32 := by omega
  cases ext with
  | false =>
    have hlow : b < 21 := by omega
    simp [enc, hlow]
  | true => simp [enc, hlt]

/-- An identifier in range has no bit that the shift loses. -/
theorem FilterEntry.legal.getLsbD_eq_false {x : Word} {ext : Bool} (h : FilterEntry.legal ⟨x, ext⟩) {i : Nat}
    (hi : 32 ≤ i + encShift ext) : x.getLsbD i = false := by
  have hx : x.toNat < 2 ^ (32 - encShift ext) := by
    cases ext
    · exact Nat.lt_succ_of_le h
    · exact Nat.lt_succ_of_le h
  exact Nat.testBit_lt_two_pow (hx.trans_le (Nat.pow_le_pow_right (by decide) (by omega)))

/-- R160: no two identifiers in range of one kind share an encoding. -/
theorem enc_injective {b : Nat} (hb : b ≤ 2) {x y : Word} {ext : Bool} (hx : FilterEntry.legal ⟨x, ext⟩)
    (hy : FilterEntry.legal ⟨y, ext⟩) (h : enc b x ext = enc b y ext) : x = y := by
  apply BitVec.eq_of_getLsbD_eq
  intro i _
  by_cases hi : i + encShift ext < 32
  · rw [← enc_getLsbD_add hb x ext hi, h, enc_getLsbD_add hb y ext hi]
  · rw [hx.getLsbD_eq_false (not_lt.mp hi), hy.getLsbD_eq_false (not_lt.mp hi)]

/-- R160: a standard and an extended identifier never share an encoding, for the IDE marker tells them apart. -/
theorem enc_false_ne_enc_true {b : Nat} (hb : b ≤ 2) (x y : Word) : enc b x false ≠ enc b y true := by
  intro h
  have hmarker := enc_getLsbD_ideBit hb x false
  rw [h, enc_getLsbD_ideBit hb y true] at hmarker
  cases hmarker

/-! ### The two formulas -/

theorem shiftLeft_eq_ofNat (x : Word) (n : Nat) : x <<< n = BitVec.ofNat 32 (x.toNat * 2 ^ n) := by
  apply BitVec.eq_of_toNat_eq
  rw [BitVec.toNat_shiftLeft, BitVec.toNat_ofNat, Nat.shiftLeft_eq]

theorem enc_false (b : Nat) (x : Word) : enc b x false = BitVec.ofNat 32 (x.toNat * 2 ^ 21) := shiftLeft_eq_ofNat x 21

theorem enc_true (b : Nat) (x : Word) :
    enc b x true = BitVec.ofNat 32 (x.toNat * 2 ^ 3) ||| BitVec.ofNat 32 (2 ^ b) := by
  rw [← shiftLeft_eq_ofNat, show (2 ^ b : Nat) = (1 : Word).toNat * 2 ^ b by simp, ← shiftLeft_eq_ofNat]
  rfl

/-- Settles O30: the marker bit and the bits above the shift are read back from an encoding. -/
theorem encIsInjective : Obligations.EncIsInjective := by
  intro b hb
  exact ⟨fun _ => regOf_of_id_eq_zero b, fun _ => regOf_of_id_ne_zero b, fun x => ⟨enc_false b x, enc_true b x⟩,
    fun _ _ hx hy => enc_injective hb (ext := false) hx hy, fun _ _ hx hy => enc_injective hb (ext := true) hx hy,
    enc_false_ne_enc_true hb⟩

end Sys2Proof.Machine
end

section
/-! FLT.CLEAR, FLT.SET, FLT.EN and FLT.APPLY from READY (R161 to R164): each as one equation of states. -/

namespace Sys2Proof.Machine

open Sys2Proof Host

/-! ### The commands on the acting port -/

section
variable {s : State} {P : Port} (hP : s.acting P) (hr : P.phase = .ready)
include hP

/-- Ending the command after a change of the filter packer. -/
theorem State.acting.updFlt_endCmd (g : Filter → Filter) (c : Status) (ph : LinPhase) :
    (s.updFlt g).endCmd c ph = { s with flt := g s.flt }.withPort (P.ended c ph P.r) :=
  State.acting.endCmd (s := s.updFlt g) hP c ph

include hr

/-- R161: FLT.CLEAR writes the entries only. -/
theorem exec_fltClear_ready : exec .fltClear s = .next
    ({ s with flt := { s.flt with ents := List.replicate (2 * s.cfg.banks) FilterEntry.unused } }.withPort
      (P.ended .ok .idle P.r)) := by
  rw [exec_fltClear, hP.oneStep hr, hP.updFlt_endCmd]

/-- R163: FLT.EN writes the flag only. -/
theorem exec_fltEn_ready (n : Bool) : exec (.fltEn n) s = .next
    ({ s with flt := { s.flt with enabled := n } }.withPort (P.ended .ok .idle P.r)) := by
  rw [exec_fltEn, hP.oneStep hr, hP.updFlt_endCmd]

/-- R162: FLT.SET stores what passes its tests, and changes nothing otherwise. -/
theorem exec_fltSet_ready (slot : BitVec 8) (ext : Bool) : exec (.fltSet slot ext) s = .next
    (if fltSetLegal s.cfg slot.toNat ext P.lat.w0 then
      { s with flt := { s.flt with ents := s.flt.ents.set slot.toNat ⟨P.lat.w0, ext⟩ } }.withPort (P.ended .ok .idle P.r)
    else s.withPort (P.ended .configError .idle P.r)) := by
  rw [exec_fltSet, hP.oneStep hr, hP.updFlt_endCmd, hP.endCmd, hP.me]

/-- R164: FLT.APPLY writes the bank table only. -/
theorem exec_fltApply_ready : exec .fltApply s = .next
    ({ s with flt := s.flt.applied s.cfg }.withPort (P.ended .ok .idle P.r)) := by
  rw [exec_fltApply, hP.oneStep hr, hP.updFlt_endCmd]

end

/-- Settles O26: the commands' equations from READY. -/
theorem fltClearAndEnable : Obligations.FltClearAndEnable := fun _ _ hP hr =>
  ⟨exec_fltClear_ready hP hr, exec_fltEn_ready hP hr⟩

/-- R162, R275: FLT.SET accepts what passes its three tests. -/
theorem fltSetLegal_iff_not (c : Cfg) (slot : Nat) (ext : Bool) (id : Word) :
    fltSetLegal c slot ext id = true ↔
      ¬ (2 * c.banks ≤ slot ∨ (ext = false ∧ 0x7FF < id.toNat) ∨ (ext = true ∧ 0x1FFFFFFF < id.toNat)) := by
  rw [fltSetLegal_iff, FilterEntry.legal]
  cases ext <;> simp

/-- Settles O27: the refusing tests are where `fltSetLegal` fails. -/
theorem fltSetStores : Obligations.FltSetStores := by
  intro s P slot e hP hr
  simp only [exec_fltSet_ready hP hr, fltSetLegal_iff_not, ite_not]
  exact apply_ite Outcome.next _ _ _

end Sys2Proof.Machine
end

section
/-! The bank table (R164 to R170): what FLT.APPLY derives, case by case, and that its pseudocode derives the same. -/

namespace Sys2Proof.Machine

open Sys2Proof Host

/-! ### The table -/

/-- R168: `n` banks with the given descriptors first, the others inactive. -/
def bankTable (n : Nat) (bs : List Bank) : List Bank := bs ++ List.replicate (n - bs.length) Bank.inactive

theorem Filter.applied_eq (c : Cfg) (f : Filter) :
    f.applied c = { f with banks := bankTable c.banks (f.activeBanks c), nActive := (f.activeBanks c).length } := rfl

theorem bankTable_length {n : Nat} {bs : List Bank} (h : bs.length ≤ n) : (bankTable n bs).length = n := by
  rw [bankTable, List.length_append, List.length_replicate]; omega

theorem bankTable_getElem?_of_lt (n : Nat) {bs : List Bank} {j : Nat} (h : j < bs.length) : (bankTable n bs)[j]? = bs[j]? :=
  List.getElem?_append_left h

theorem bankTable_getElem?_of_le {n : Nat} {bs : List Bank} {j : Nat} (h : bs.length ≤ j) (hj : j < n) :
    (bankTable n bs)[j]? = some Bank.inactive := by
  rw [bankTable, List.getElem?_append_right h, List.getElem?_replicate, if_pos (by omega)]

/-- Writing the first inactive bank. -/
theorem bankTable_set {n : Nat} {bs : List Bank} (h : bs.length < n) (b : Bank) :
    (bankTable n bs).set bs.length b = bankTable n (bs ++ [b]) := by
  obtain ⟨m, hm⟩ : ∃ m, n - bs.length = m + 1 := ⟨n - bs.length - 1, by omega⟩
  have hm' : n - (bs ++ [b]).length = m := by rw [List.length_append, List.length_singleton]; omega
  rw [bankTable, bankTable, hm, hm', List.set_append_right _ _ le_rfl, Nat.sub_self, List.replicate_succ, List.set_cons_zero,
    List.append_assoc, List.singleton_append]

/-! ### The active descriptors, case by case -/

/-- R165: filtering disabled. -/
theorem Filter.activeBanks_of_disabled (c : Cfg) {f : Filter} (h : f.enabled = false) : f.activeBanks c = [passAllBank] := by
  rw [Filter.activeBanks, h]; rfl

/-- R167: fail closed. -/
theorem Filter.activeBanks_of_populatedPairs_eq_nil {c : Cfg} {f : Filter} (h : f.enabled = true)
    (hnil : f.populatedPairs c.banks = []) : f.activeBanks c = [listBank c.ideBit 0 (f.pair 0)] := by
  rw [Filter.activeBanks, if_pos h, hnil]

/-- R166: dense assignment. -/
theorem Filter.activeBanks_of_populatedPairs_ne_nil {c : Cfg} {f : Filter} (h : f.enabled = true)
    (hne : f.populatedPairs c.banks ≠ []) : f.activeBanks c = (f.populatedPairs c.banks).mapIdx (listBank c.ideBit) := by
  rw [Filter.activeBanks, if_pos h]
  split <;> rename_i hpairs
  · exact absurd hpairs hne
  · rw [hpairs]

/-- R164: at least one bank is active. -/
theorem Filter.one_le_activeBanks_length (c : Cfg) (f : Filter) : 1 ≤ (f.activeBanks c).length := by
  cases hen : f.enabled with
  | false => rw [Filter.activeBanks_of_disabled c hen]; rfl
  | true =>
    by_cases hnil : f.populatedPairs c.banks = []
    · rw [Filter.activeBanks_of_populatedPairs_eq_nil hen hnil]; rfl
    · rw [Filter.activeBanks_of_populatedPairs_ne_nil hen hnil, List.length_mapIdx]
      exact List.length_pos_iff.mpr hnil

/-! ### The populated pairs, by their indices -/

/-- R166: the indices of the populated pairs, in order. -/
def Filter.populatedIndices (f : Filter) (b : Nat) : List Nat := (List.range b).filter fun i => populated (f.pair i)

theorem Filter.populatedPairs_eq_map (f : Filter) (b : Nat) : f.populatedPairs b = (f.populatedIndices b).map f.pair :=
  List.filter_map

theorem Filter.populatedPairs_succ (f : Filter) (b : Nat) :
    f.populatedPairs (b + 1) = f.populatedPairs b ++ if populated (f.pair b) then [f.pair b] else [] := by
  simp only [Filter.populatedPairs, List.range_succ, List.map_append, List.filter_append, List.map_singleton,
    List.filter_singleton, Bool.cond_eq_ite]

theorem populated_iff (p : FilterEntry × FilterEntry) : populated p = true ↔ p.1.id ≠ 0 ∨ p.2.id ≠ 0 := by
  rw [populated, Bool.or_eq_true, decide_eq_true_eq, decide_eq_true_eq]

/-- R167, R170: a pair that is not populated has zero registers. -/
theorem listBank_of_not_populated (ideBit k : Nat) {p : FilterEntry × FilterEntry} (h : populated p = false) :
    listBank ideBit k p = ⟨true, BitVec.ofNat 8 k, 0, .list, .s32, 0, 0⟩ := by
  obtain ⟨h1, h2⟩ : p.1.id = 0 ∧ p.2.id = 0 := by rwa [← Bool.not_eq_true, populated_iff, not_or, not_not, not_not] at h
  rw [listBank, regOf_of_id_eq_zero ideBit h1, regOf_of_id_eq_zero ideBit h2]

/-- With no populated pair, pair 0 is not populated (R167); there is one, for there is a bank. -/
theorem Filter.pair_zero_not_populated {f : Filter} {b : Nat} (hb : 1 ≤ b) (h : f.populatedIndices b = []) :
    populated (f.pair 0) = false := by
  have hnone := List.filter_eq_nil_iff.mp h 0 (List.mem_range.mpr hb)
  exact Bool.eq_false_iff.mpr hnone

/-- Settles O29: the three cases of `activeBanks`, read through the table. -/
theorem fltApplyTable : Obligations.FltApplyTable := by
  intro c f hb g ps
  have hlen := f.activeBanks_length_le hb
  have hps : f.populatedPairs c.banks = ps.map f.pair := f.populatedPairs_eq_map c.banks
  have hread : ∀ j, j < (f.activeBanks c).length → g.banks[j]? = (f.activeBanks c)[j]? := fun j =>
    bankTable_getElem?_of_lt c.banks
  refine ⟨rfl, rfl, bankTable_length hlen, fun hen => ?disabled, fun hen hnil => ?failClosed, fun hen hne => ?dense,
    fun n hn hlt => bankTable_getElem?_of_le hn hlt⟩
  case disabled =>
    have hact := Filter.activeBanks_of_disabled c hen
    exact ⟨congrArg List.length hact, by rw [hread 0 (f.one_le_activeBanks_length c), hact]; rfl⟩
  case failClosed =>
    have hact := Filter.activeBanks_of_populatedPairs_eq_nil hen (by rw [hps, hnil, List.map_nil])
    rw [listBank_of_not_populated _ _ (Filter.pair_zero_not_populated hb hnil)] at hact
    exact ⟨congrArg List.length hact, by rw [hread 0 (f.one_le_activeBanks_length c), hact]; rfl⟩
  case dense =>
    have hact := Filter.activeBanks_of_populatedPairs_ne_nil hen (by rwa [hps, ne_eq, List.map_eq_nil_iff])
    rw [hps] at hact
    have hcount : (f.activeBanks c).length = ps.length := by rw [hact, List.length_mapIdx, List.length_map]
    refine ⟨hcount, fun j i hij => ?_⟩
    have hj : j < ps.length := (List.getElem?_eq_some_iff.mp hij).1
    rw [hread j (hj.trans_eq hcount.symm), hact, List.getElem?_mapIdx, List.getElem?_map, hij]
    rfl

/-! ### FLT.APPLY's pseudocode -/

/-- One turn of the loop over the pairs appends the descriptor of a populated pair (R166). -/
theorem applyTurn_bankTable {c : Cfg} (f : Filter) {bs : List Bank} (h : bs.length < c.banks) (i : Nat) :
    applyTurn c f (bankTable c.banks bs, bs.length) i =
      if populated (f.pair i) then (bankTable c.banks (bs ++ [listBank c.ideBit bs.length (f.pair i)]), bs.length + 1)
      else (bankTable c.banks bs, bs.length) := by
  simp only [applyTurn, populated_iff, Filter.pair, bankTable_set h, listBank]

/-- The loop over the first `n` pairs leaves the descriptors of the populated ones, and their number. -/
theorem foldl_applyTurn {c : Cfg} (f : Filter) {n : Nat} (hn : n ≤ c.banks) :
    (List.range n).foldl (applyTurn c f) (bankTable c.banks [], 0) =
      (bankTable c.banks ((f.populatedPairs n).mapIdx (listBank c.ideBit)), (f.populatedPairs n).length) := by
  induction n with
  | zero => rfl
  | succ n ih =>
    have hroom : ((f.populatedPairs n).mapIdx (listBank c.ideBit)).length < c.banks := by
      rw [List.length_mapIdx]
      exact (f.populatedPairs_length_le n).trans_lt hn
    have hturn := applyTurn_bankTable f hroom n
    rw [List.length_mapIdx] at hturn
    rw [List.range_succ, List.foldl_append, ih (Nat.le_of_succ_le hn), List.foldl_cons, List.foldl_nil, hturn,
      f.populatedPairs_succ]
    split
    · rw [List.mapIdx_concat, List.length_append, List.length_singleton]
    · rw [List.append_nil]

/-- R164: the pseudocode leaves the derived table. -/
theorem applyPseudocode_eq_applied {c : Cfg} (f : Filter) (hb : 1 ≤ c.banks) : applyPseudocode c f = f.applied c := by
  have hfirst : ∀ b, (bankTable c.banks []).set 0 b = bankTable c.banks [b] := bankTable_set hb
  have hloop := foldl_applyTurn f (le_refl c.banks)
  have hclear : List.replicate c.banks (⟨false, 0, 0, .mask, .s0, 0, 0⟩ : Bank) = bankTable c.banks [] := rfl
  by_cases hdis : f.enabled = false
  · simp only [applyPseudocode, f.applied_eq, if_pos hdis, hclear, hfirst, Filter.activeBanks_of_disabled c hdis,
      passAllBank, List.length_singleton]
  · have hen : f.enabled = true := Bool.not_eq_false _ |>.mp hdis
    simp only [applyPseudocode, f.applied_eq, if_neg hdis, hclear, hloop]
    by_cases hnil : f.populatedPairs c.banks = []
    · simp only [hnil, List.mapIdx_nil, List.length_nil, if_pos, hfirst, List.length_singleton,
        Filter.activeBanks_of_populatedPairs_eq_nil hen hnil]
      rfl
    · have hcount : (f.populatedPairs c.banks).length ≠ 0 := mt List.length_eq_zero_iff.mp hnil
      simp only [if_neg hcount, Filter.activeBanks_of_populatedPairs_ne_nil hen hnil, List.length_mapIdx]

/-- Settles O28: the pseudocode derives the model's table, whose active descriptors are at least one and fit the banks. -/
theorem fltApplyIsPseudocode : Obligations.FltApplyIsPseudocode := by
  intro s P hP hr hb
  rw [applyPseudocode_eq_applied s.flt hb]
  exact ⟨exec_fltApply_ready hP hr, s.flt.one_le_activeBanks_length s.cfg, s.flt.activeBanks_length_le hb⟩

end Sys2Proof.Machine
end

section
/-! The arithmetic of the LIN engine (R190 to R193): the fold is determined by its argument modulo 255, which gives the laws of
checksums; the protected identifier carries its identifier. -/

namespace Sys2Proof.Machine

open Sys2Proof

/-! ### One pass of the fold (R191) -/

theorem foldPass_eq (a : BitVec 16) : foldPass a = BitVec.ofNat 16 (a.toNat % 2 ^ 8 + a.toNat / 2 ^ 8) := by
  unfold foldPass
  rw [BitVec.ofNat_add]
  congr 1
  · apply BitVec.eq_of_toNat_eq
    have hmask : a.toNat &&& 255 = a.toNat % 2 ^ 8 := Nat.and_two_pow_sub_one_eq_mod a.toNat 8
    rw [BitVec.toNat_and, BitVec.toNat_ofNat]
    exact hmask.trans (by omega)
  · apply BitVec.eq_of_toNat_eq
    simp only [BitVec.toNat_ushiftRight, BitVec.toNat_ofNat, Nat.shiftRight_eq_div_pow]
    omega

theorem foldPass_toNat (a : BitVec 16) : (foldPass a).toNat = a.toNat % 2 ^ 8 + a.toNat / 2 ^ 8 := by
  rw [foldPass_eq, BitVec.toNat_ofNat]
  omega

theorem foldPass_toNat_le (a : BitVec 16) : (foldPass a).toNat ≤ 0x1FE := by
  rw [foldPass_toNat]
  omega

/-! ### The loop -/

theorem foldLoop_succ (n : Nat) (a : BitVec 16) :
    foldLoop (n + 1) a = if 0xFF < a.toNat then foldLoop n (foldPass a) else a := by
  simp only [foldLoop, BitVec.lt_def]
  rfl

/-- A value that fits a byte is left alone. -/
theorem foldLoop_of_le {a : BitVec 16} (h : a.toNat ≤ 0xFF) (n : Nat) : foldLoop n a = a := by
  cases n with
  | zero => rfl
  | succ n => rw [foldLoop_succ, if_neg (by omega)]

theorem foldLoop_one_toNat_le (a : BitVec 16) : (foldLoop 1 a).toNat ≤ 0x1FE := by
  rw [foldLoop_succ]
  split
  · exact foldPass_toNat_le a
  · omega

/-- What the first pass leaves, the second brings down to a byte. -/
theorem foldLoop_one_toNat_le_of_le {a : BitVec 16} (h : a.toNat ≤ 0x1FE) : (foldLoop 1 a).toNat ≤ 0xFF := by
  rw [foldLoop_succ]
  split
  · change (foldPass a).toNat ≤ 0xFF
    rw [foldPass_toNat]
    omega
  · omega

theorem foldLoop_two_toNat_le (a : BitVec 16) : (foldLoop 2 a).toNat ≤ 0xFF := by
  rw [foldLoop_succ]
  split
  · exact foldLoop_one_toNat_le_of_le (foldPass_toNat_le a)
  · omega

/-- Passes made one after the other. -/
theorem foldLoop_add (m n : Nat) (a : BitVec 16) : foldLoop (m + n) a = foldLoop n (foldLoop m a) := by
  induction m generalizing a with
  | zero => rw [Nat.zero_add]; rfl
  | succ m ih =>
    rw [Nat.succ_add, foldLoop_succ, foldLoop_succ]
    split
    · exact ih _
    · rw [foldLoop_of_le (by omega)]

/-- Two passes suffice (R191). -/
theorem foldLoop_of_two_le {n : Nat} (h : 2 ≤ n) (a : BitVec 16) : foldLoop n a = foldLoop 2 a := by
  obtain ⟨m, rfl⟩ := Nat.exists_eq_add_of_le h
  rw [foldLoop_add, foldLoop_of_le (foldLoop_two_toNat_le a)]

/-- The loop keeps the value modulo 255, and it keeps zero apart from the rest. -/
theorem foldLoop_toNat_congr (n : Nat) (a : BitVec 16) :
    (foldLoop n a).toNat % 255 = a.toNat % 255 ∧ ((foldLoop n a).toNat = 0 ↔ a.toNat = 0) := by
  induction n generalizing a with
  | zero => exact ⟨rfl, Iff.rfl⟩
  | succ n ih =>
    rw [foldLoop_succ]
    split
    · have hpass := foldPass_toNat a
      obtain ⟨hmod, hzero⟩ := ih (foldPass a)
      exact ⟨by omega, by omega⟩
    · exact ⟨rfl, Iff.rfl⟩

/-! ### The fold -/

theorem fold_toNat (a : BitVec 16) : (fold a).toNat = (foldLoop 2 a).toNat := by
  have hle := foldLoop_two_toNat_le a
  simp only [fold, BitVec.toNat_setWidth]
  omega

theorem fold_toNat_mod (a : BitVec 16) : (fold a).toNat % 255 = a.toNat % 255 := by
  rw [fold_toNat]; exact (foldLoop_toNat_congr 2 a).1

theorem fold_toNat_eq_zero (a : BitVec 16) : (fold a).toNat = 0 ↔ a.toNat = 0 := by
  rw [fold_toNat]; exact (foldLoop_toNat_congr 2 a).2

/-- Settles O32: the pass (`foldPass_eq`), that two suffice (`foldLoop_of_two_le`), and what the loop keeps
(`foldLoop_toNat_congr`). -/
theorem foldLaw : Obligations.FoldLaw := by
  intro a
  refine ⟨fun n => ?_, foldLoop_one_toNat_le a, fun n hn => ?_, fold_toNat_mod a, ?_⟩
  · rw [foldLoop_succ, foldPass_eq]
  · rw [foldLoop_of_two_le hn]
    exact ⟨rfl, foldLoop_two_toNat_le a⟩
  · have hzero := fold_toNat_eq_zero a
    simpa [BitVec.toNat_eq] using hzero

/-! ### Checksums (R192) -/

theorem foldl_add_toNat (data : List Byte) (x : BitVec 16) :
    (data.foldl (fun acc b => acc + b.setWidth 16) x).toNat = (x.toNat + (data.map BitVec.toNat).sum) % 2 ^ 16 := by
  induction data generalizing x with
  | nil => simp [Nat.mod_eq_of_lt x.isLt]
  | cons b bs ih =>
    rw [List.foldl_cons, ih]
    simp only [BitVec.toNat_add, BitVec.toNat_setWidth, List.map_cons, List.sum_cons]
    omega

theorem sum_toNat_le (data : List Byte) : (data.map BitVec.toNat).sum ≤ 255 * data.length := by
  induction data with
  | nil => simp
  | cons b bs ih =>
    simp only [List.map_cons, List.sum_cons, List.length_cons]
    omega

/-- The seed and at most eight bytes do not overflow the accumulator. -/
theorem cksAcc_toNat (k : CksKind) (p : Byte) {data : List Byte} (h : data.length ≤ 8) :
    (cksAcc k p data).toNat = (if k = .enhanced then p.toNat else 0) + (data.map BitVec.toNat).sum := by
  have hsum := sum_toNat_le data
  unfold cksAcc
  rw [foldl_add_toNat]
  cases k with
  | classic => simp; omega
  | enhanced => simp; omega

theorem cksAcc_toNat_le (k : CksKind) (p : Byte) {data : List Byte} (h : data.length ≤ 8) :
    (cksAcc k p data).toNat ≤ 255 * 9 := by
  have hsum := sum_toNat_le data
  rw [cksAcc_toNat k p h]
  split <;> omega

theorem cks_toNat (k : CksKind) (p : Byte) (data : List Byte) :
    (cks k p data).toNat = 255 - (fold (cksAcc k p data)).toNat := by
  unfold cks
  rw [BitVec.toNat_not]

/-- The Classic checksum does not read the protected identifier. -/
theorem cks_classic (p : Byte) (data : List Byte) : cks .classic p data = cks .classic 0 data := rfl

/-- R193 (c): with its checksum added, the accumulator is a multiple of 255 and not zero. -/
theorem fold_cksAcc_add_cks (k : CksKind) (p : Byte) {data : List Byte} (h : data.length ≤ 8) :
    fold (cksAcc k p data + (cks k p data).setWidth 16) = 0xFF := by
  have hacc := cksAcc_toNat_le k p h
  have hsum : (cksAcc k p data + (cks k p data).setWidth 16).toNat
      = (cksAcc k p data).toNat + (255 - (fold (cksAcc k p data)).toNat) := by
    rw [BitVec.toNat_add, BitVec.toNat_setWidth, cks_toNat]
    omega
  have hmod := fold_toNat_mod (cksAcc k p data)
  have hzero := fold_toNat_eq_zero (cksAcc k p data)
  have hmod' := fold_toNat_mod (cksAcc k p data + (cks k p data).setWidth 16)
  have hzero' := fold_toNat_eq_zero (cksAcc k p data + (cks k p data).setWidth 16)
  apply BitVec.eq_of_toNat_eq
  rw [hsum] at hmod' hzero'
  have hff : (0xFF : Byte).toNat = 255 := rfl
  omega

/-! ### Protected identifiers (R190) -/

theorem pid_low (id : BitVec 6) : (pid id).extractLsb' 0 6 = id := by
  unfold pid
  rw [BitVec.extractLsb'_append_eq_of_add_le (by decide)]
  exact BitVec.extractLsb'_eq_self

theorem pid_injective {id id' : BitVec 6} (h : pid id = pid id') : id = id' := by
  rw [← pid_low id, h, pid_low]

/-- R193 (b): the identifier of such a byte would be 0 or 63, and those two have other parity bits. -/
theorem pid_ne_zero_and_ne_ff (id : BitVec 6) : pid id ≠ 0x00 ∧ pid id ≠ 0xFF := by
  have low := pid_low id
  constructor <;> intro h <;> rw [h] at low <;> subst low <;> revert h <;> decide

/-- R193 (d): the two accumulators differ by the protected identifier, which is no multiple of 255. -/
theorem cks_classic_ne_enhanced (id : BitVec 6) {data : List Byte} (h : data.length ≤ 8) :
    cks .classic (pid id) data ≠ cks .enhanced (pid id) data := by
  intro heq
  obtain ⟨hne0, hneFF⟩ := pid_ne_zero_and_ne_ff id
  have hcks := congrArg BitVec.toNat heq
  have hc := fold_toNat_mod (cksAcc .classic (pid id) data)
  have he := fold_toNat_mod (cksAcc .enhanced (pid id) data)
  rw [cks_toNat, cks_toNat] at hcks
  rw [cksAcc_toNat _ _ h, if_neg (by decide)] at hc
  rw [cksAcc_toNat _ _ h, if_pos rfl] at he
  have hne0 : (pid id).toNat ≠ 0 := fun h => hne0 (BitVec.eq_of_toNat_eq h)
  have hneFF : (pid id).toNat ≠ 255 := fun h => hneFF (BitVec.eq_of_toNat_eq h)
  omega

/-- Settles O31: the sum (`cksAcc_toNat`), the checksum (`cks_toNat`), and the laws of R193 in their order; the source's payload
by evaluation. -/
theorem arithmeticLaws : Obligations.ArithmeticLaws :=
  ⟨fun k p data h => ⟨cksAcc_toNat k p h, cks_toNat k p data⟩, pid_low, fun _ _ => pid_injective, pid_ne_zero_and_ne_ff,
    fun k p _ h => fold_cksAcc_add_cks k p h, fun id _ h => cks_classic_ne_enhanced id h, rfl,
    fun p => (cks_classic p _).trans (by decide), rfl, rfl, by decide⟩

end Sys2Proof.Machine
end

section
/-! The status frame (R207, R209): a function of the counter and the mode, in reference layout or by its table, from which both
can be read back. -/

namespace Sys2Proof.Machine

open Sys2Proof

/-! ### Counter and mode as one number -/

/-- The row of a table of the status frame that holds a counter and a mode. -/
def statusRow (cnt : BitVec 4) (mode : Byte) : Nat := cnt.toNat + 16 * mode.toNat

theorem statusRow_lt (cnt : BitVec 4) (mode : Byte) : statusRow cnt mode < 4096 := by unfold statusRow; omega

theorem ofNat_statusRow_mod (cnt : BitVec 4) (mode : Byte) : BitVec.ofNat 4 (statusRow cnt mode % 16) = cnt := by
  apply BitVec.eq_of_toNat_eq
  unfold statusRow
  rw [BitVec.toNat_ofNat]
  omega

theorem ofNat_statusRow_div (cnt : BitVec 4) (mode : Byte) : BitVec.ofNat 8 (statusRow cnt mode / 16) = mode := by
  apply BitVec.eq_of_toNat_eq
  unfold statusRow
  rw [BitVec.toNat_ofNat]
  omega

theorem statusRow_injective {cnt cnt' : BitVec 4} {mode mode' : Byte} (h : statusRow cnt mode = statusRow cnt' mode') :
    cnt = cnt' ∧ mode = mode' :=
  ⟨by rw [← ofNat_statusRow_mod cnt mode, h, ofNat_statusRow_mod],
    by rw [← ofNat_statusRow_div cnt mode, h, ofNat_statusRow_div]⟩

/-- Every row of a table is the row of a counter and a mode. -/
theorem exists_statusRow {n : Nat} (h : n < 4096) : ∃ cnt mode, statusRow cnt mode = n := by
  refine ⟨BitVec.ofNat 4 (n % 16), BitVec.ofNat 8 (n / 16), ?_⟩
  unfold statusRow
  rw [BitVec.toNat_ofNat, BitVec.toNat_ofNat]
  omega

/-! ### The data of a table -/

theorem map_range_getD {xs : List Byte} {n : Nat} (h : xs.length = n) : (List.range n).map (fun j => xs.getD j 0) = xs := by
  subst h
  apply List.ext_getElem
  · simp
  · intro j _ hj
    simp [hj]

/-- A configured table's data are its rows. -/
theorem statusBytes_of_table {c : Cfg} {rows : List (List Byte)} (hd : c.statusData = .table rows) {cnt : BitVec 4}
    {mode : Byte} {xs : List Byte} (hrow : rows[statusRow cnt mode]? = some xs) (hlen : xs.length = c.statusLen) :
    statusBytes c cnt mode = xs := by
  have hget : rows.getD (cnt.toNat + 16 * mode.toNat) [] = xs := by
    change (rows[statusRow cnt mode]?).getD [] = xs
    rw [hrow]; rfl
  unfold statusBytes
  rw [hd]
  simp only [statusByte, hget]
  exact map_range_getD hlen

theorem embeds_table_iff (len : Nat) (rows : List (List Byte)) :
    (StatusData.table rows).embeds len = true ↔ rows.length = 4096 ∧ (∀ xs ∈ rows, xs.length = len) ∧ rows.Nodup := by
  simp only [StatusData.embeds, Bool.and_eq_true, decide_eq_true_eq, List.all_eq_true, and_assoc]

/-! ### The table of a function -/

/-- The rows of a function of the counter and the mode. -/
def statusRows (f : BitVec 4 → Byte → List Byte) : List (List Byte) :=
  (List.range 4096).map fun n => f (BitVec.ofNat 4 (n % 16)) (BitVec.ofNat 8 (n / 16))

theorem ofFun_eq (f : BitVec 4 → Byte → List Byte) : StatusData.ofFun f = .table (statusRows f) := rfl

theorem statusRows_length (f : BitVec 4 → Byte → List Byte) : (statusRows f).length = 4096 := by simp [statusRows]

theorem statusRows_getElem? (f : BitVec 4 → Byte → List Byte) (cnt : BitVec 4) (mode : Byte) :
    (statusRows f)[statusRow cnt mode]? = some (f cnt mode) := by
  rw [statusRows, List.getElem?_map, List.getElem?_range (statusRow_lt cnt mode), Option.map_some, ofNat_statusRow_mod,
    ofNat_statusRow_div]

/-- No two rows are equal when both arguments can be read back from a value, and only then. -/
theorem statusRows_nodup_iff (f : BitVec 4 → Byte → List Byte) :
    (statusRows f).Nodup ↔ ∀ cnt cnt' mode mode', f cnt mode = f cnt' mode' → cnt = cnt' ∧ mode = mode' := by
  rw [statusRows, List.nodup_map_iff_inj_on List.nodup_range]
  simp only [List.mem_range]
  constructor
  · intro h cnt cnt' mode mode' heq
    refine statusRow_injective (h _ (statusRow_lt cnt mode) _ (statusRow_lt cnt' mode') ?_)
    simpa only [ofNat_statusRow_mod, ofNat_statusRow_div] using heq
  · intro h n hn m hm heq
    obtain ⟨cnt, mode, rfl⟩ := exists_statusRow hn
    obtain ⟨cnt', mode', rfl⟩ := exists_statusRow hm
    simp only [ofNat_statusRow_mod, ofNat_statusRow_div] at heq
    obtain ⟨rfl, rfl⟩ := h _ _ _ _ heq
    rfl

/-! ### The reference layout (R209) -/

theorem statusBytes_reference {c : Cfg} (hd : c.statusData = .reference) (hlen : c.statusLen = 2) (cnt : BitVec 4)
    (mode : Byte) :
    statusBytes c cnt mode = [mode.extractLsb' 4 4 ++ cnt, (mode.extractLsb' 0 4).setWidth 8] := by
  unfold statusBytes
  rw [hd, hlen]
  rfl

theorem reference_byte0_toNat (cnt : BitVec 4) (mode : Byte) :
    (mode.extractLsb' 4 4 ++ cnt).toNat = mode.toNat / 2 ^ 4 * 2 ^ 4 + cnt.toNat := by
  rw [toNat_append_eq_add, BitVec.extractLsb'_toNat, Nat.shiftRight_eq_div_pow]
  omega

theorem reference_byte1_toNat (mode : Byte) : ((mode.extractLsb' 0 4).setWidth 8).toNat = mode.toNat % 2 ^ 4 := by
  rw [BitVec.toNat_setWidth, BitVec.extractLsb'_toNat, Nat.shiftRight_zero]
  omega

theorem statusBytes_reference_injective {c : Cfg} (hd : c.statusData = .reference) (hlen : c.statusLen = 2)
    {cnt cnt' : BitVec 4} {mode mode' : Byte} (h : statusBytes c cnt mode = statusBytes c cnt' mode') :
    cnt = cnt' ∧ mode = mode' := by
  rw [statusBytes_reference hd hlen, statusBytes_reference hd hlen] at h
  injection h with h0 h1
  injection h1 with h1
  have low := congrArg BitVec.toNat h0
  have high := congrArg BitVec.toNat h1
  rw [reference_byte0_toNat, reference_byte0_toNat] at low
  rw [reference_byte1_toNat, reference_byte1_toNat] at high
  exact ⟨BitVec.eq_of_toNat_eq (by omega), BitVec.eq_of_toNat_eq (by omega)⟩

/-- Settles O38: the two bytes by their numbers, the reference configuration by evaluation. -/
theorem referenceStatusFrame : Obligations.ReferenceStatusFrame := by
  refine ⟨fun c cnt mode hd hlen => ?_, rfl, rfl, rfl, rfl, by decide⟩
  rw [statusBytes_reference hd hlen, ← reference_byte0_toNat, ← reference_byte1_toNat, BitVec.ofNat_toNat,
    BitVec.ofNat_toNat, BitVec.setWidth_eq, BitVec.setWidth_eq]

/-! ### A legal configuration (R207) -/

theorem embeds_of_wf {c : Cfg} (h : c.wf = true) : c.statusData.embeds c.statusLen = true := by
  simp only [Cfg.wf, Bool.and_eq_true] at h
  exact h.2

/-- The counter and the mode can be read back from the data of a legal configuration. -/
theorem statusBytes_injective {c : Cfg} (hwf : c.wf = true) {cnt cnt' : BitVec 4} {mode mode' : Byte}
    (h : statusBytes c cnt mode = statusBytes c cnt' mode') : cnt = cnt' ∧ mode = mode' := by
  have hemb := embeds_of_wf hwf
  cases hd : c.statusData with
  | reference =>
    rw [hd] at hemb
    exact statusBytes_reference_injective hd (of_decide_eq_true hemb) h
  | table rows =>
    rw [hd, embeds_table_iff] at hemb
    obtain ⟨hrows, hlen, hnodup⟩ := hemb
    have hlt : ∀ cnt mode, statusRow cnt mode < rows.length := fun cnt mode => hrows ▸ statusRow_lt cnt mode
    have hread : ∀ cnt mode, statusBytes c cnt mode = rows[statusRow cnt mode]'(hlt cnt mode) := fun cnt mode =>
      statusBytes_of_table hd (List.getElem?_eq_getElem _) (hlen _ (List.getElem_mem _))
    rw [hread, hread] at h
    exact statusRow_injective (hnodup.getElem_inj_iff.mp h)

/-- Settles O39: a function's table is read back row by row, and its embedding is that no two rows are equal
(`statusRows_nodup_iff`); in a legal configuration both arguments can be read back (`statusBytes_injective`). -/
theorem statusFrameEmbeds : Obligations.StatusFrameEmbeds := by
  refine ⟨fun f n hlen => ⟨fun c cnt mode hn hd => ?_, ?_⟩, fun c cnt cnt' mode mode' hwf => ?_⟩
  · exact statusBytes_of_table hd (statusRows_getElem? f cnt mode) (by rw [hlen, hn])
  · rw [ofFun_eq, embeds_table_iff, statusRows_nodup_iff]
    have hall : ∀ xs ∈ statusRows f, xs.length = n := by
      intro xs hxs
      obtain ⟨k, _, rfl⟩ := List.mem_map.mp hxs
      exact hlen _ _
    simp only [statusRows_length, true_and]
    exact and_iff_right hall
  · exact ⟨statusBytes_length c cnt mode, statusBytes_injective hwf⟩

end Sys2Proof.Machine
end

section
/-! The LIN commands outside a transaction: the pure ones (R194, R196), illegal lengths (R198, R200), taking the free engine
(R204), and LIN.CYCLE's counter step (R206). -/

namespace Sys2Proof.Machine

open Sys2Proof Host

theorem lenOk_of_lt {len : BitVec 4} (h : 8 < len.toNat) : lenOk len = false := decide_eq_false (by omega)

section
variable {s : State} {P : Port} (hP : s.acting P)
include hP

/-! ### The pure commands and the illegal lengths -/

theorem State.acting.setR0_endCmd (v : Word) (c : Status) (ph : LinPhase) :
    (s.setR0 v).endCmd c ph = s.withPort (P.ended c ph { P.r with w0 := v }) := by
  unfold State.setR0
  rw [hP.updMe, hP.withPort_endCmd]
  rfl

theorem exec_linPid_ready (hr : P.phase = .ready) (id : BitVec 6) :
    exec (.linPid id) s = .next (s.withPort (P.ended .ok .idle { P.r with w0 := (pid id).setWidth 32 })) := by
  rw [exec_linPid, hP.oneStep hr, hP.setR0_endCmd]

theorem exec_linCks_ready (hr : P.phase = .ready) (k : CksKind) {len : BitVec 4} (hlen : len.toNat ≤ 8) (seed : Byte) :
    exec (.linCks k len seed) s = .next
      (s.withPort (P.ended .ok .idle { P.r with w0 := (cks k seed (P.lat.bytes len.toNat)).setWidth 32 })) := by
  rw [exec_linCks, hP.oneStep hr, if_pos (lenOk_of_le hlen), hP.me, hP.setR0_endCmd]

theorem exec_linCks_illegal (hr : P.phase = .ready) (k : CksKind) {len : BitVec 4} (hlen : 8 < len.toNat) (seed : Byte) :
    exec (.linCks k len seed) s = .next (s.withPort (P.ended .illegalCmd .idle P.r)) := by
  rw [exec_linCks, hP.oneStep hr, lenOk_of_lt hlen, if_neg (by simp), hP.endCmd]

/-- An illegal command that would use the engine ends before it reaches it (R198, R200). -/
theorem linCommand_illegal (hr : P.phase = .ready) {legal : Bool} (hlegal : legal = false) (load body : State → State) :
    linCommand legal load body s = .next (s.withPort (P.ended .illegalCmd .idle P.r)) := by
  unfold linCommand
  rw [hP.me, hr, hlegal, ← hP.endCmd]
  rfl

/-! ### Taking the engine (R204) -/

/-- The engine taken, written out: its owner and phase, and the port's micro-phase. -/
theorem State.acting.entered : s.entered =
    { s with lin := { s.lin with owner := some s.cur, phase := .brk, first := none } }.withPort { P with phase := .lRun } :=
  State.acting.goto (s := s.updLin fun l => { l with owner := some s.cur, phase := .brk, first := none }) hP .lRun

theorem State.acting.entered_acting : s.entered.acting { P with phase := .lRun } := by
  rw [hP.entered]
  exact State.acting.withPort (s := { s with lin := _ }) hP _

/-- A legal command takes the free engine and loads. -/
theorem linCommand_free (ho : s.lin.owner = none) (hph : P.phase = .ready ∨ P.phase = .lWait) {legal : Bool}
    (hlegal : legal = true) (load body : State → State) :
    linCommand legal load body s = .next (load s.entered) := by
  unfold linCommand
  rw [hP.me, hlegal, linEnter_free ho]
  obtain hph | hph := hph <;> simp [hph]

/-- A transaction loaded on the engine just taken. -/
theorem State.acting.startTxn_entered (id : BitVec 6) (data : List Byte) : startTxn id data s.entered =
    { s with lin := { s.lin with owner := some s.cur, phase := .brk, first := none, idx := 0, rx := [], stage := .xfer,
                                 lf := ⟨id, data.length, data, pid id, s.lin.lf.cks⟩ } }.withPort
      { P with phase := .lRun } := by
  rw [hP.entered]; rfl

theorem State.acting.loadRequest_entered (id : BitVec 6) (len : BitVec 4) :
    loadRequest id len s.entered = startTxn id (P.lat.bytes len.toNat) s.entered := by
  unfold loadRequest
  rw [hP.entered_acting.me]

/-! ### Owning the engine -/

/-- A command that owns the engine takes a micro-step of its body. -/
theorem linCommand_run (hrun : P.phase = .lRun) (legal : Bool) (load body : State → State) :
    linCommand legal load body s = .next (body s) := by
  unfold linCommand
  rw [hP.me, hrun]

end

/-! ### The obligations -/

/-- Settles O33: the commands' equations from READY. -/
theorem linPureCommands : Obligations.LinPureCommands := fun _ _ hP hr =>
  ⟨exec_linPid_ready hP hr, fun k _ seed hlen => exec_linCks_ready hP hr k hlen seed,
    fun k _ seed hlen => exec_linCks_illegal hP hr k hlen seed⟩

/-- Settles O34: such a command is not legal (`linCommand_illegal`). -/
theorem linIllegalLengths : Obligations.LinIllegalLengths := by
  intro s P hP hr
  refine ⟨fun id len c k r hlen => ?_, fun id len n c k r hlen => ?_⟩
  · rw [exec_linSend]
    exact linCommand_illegal hP hr (lenOk_of_lt hlen) _ _
  · rw [exec_linXchg]
    refine linCommand_illegal hP hr ?_ _ _
    obtain hlen | hn := hlen
    · rw [lenOk_of_lt hlen, Bool.false_and]
    · rw [lenOk_of_lt hn, Bool.and_false]

/-- Settles O35: all four commands enter by `linCommand_free`; three load a transaction, LIN.CYCLE its counter step. -/
theorem engineTaken : Obligations.EngineTaken := by
  intro s P hP ho hph
  refine ⟨fun id len c k r hlen => ?_, fun id len n c k r hlen hn => ?_, ?_, ?_⟩
  · rw [exec_linSend, linCommand_free hP ho hph (lenOk_of_le hlen), hP.loadRequest_entered, hP.startTxn_entered]
  · rw [exec_linXchg, linCommand_free hP ho hph (by rw [lenOk_of_le hlen, lenOk_of_le hn]; rfl), hP.loadRequest_entered,
      hP.startTxn_entered]
  · rw [exec_linDiag, linCommand_free hP ho hph rfl, startDiag, State.entered_cfg, hP.startTxn_entered]
  · rw [exec_linCycle, linCommand_free hP ho hph rfl, hP.entered]
    rfl

theorem counter_succ (cnt : BitVec 4) : cnt + 1 = BitVec.ofNat 4 ((cnt.toNat + 1) % 16) := by
  apply BitVec.eq_of_toNat_eq
  rw [BitVec.toNat_add, BitVec.toNat_ofNat]
  simp

/-- The counter step, written out: the frame of the new counter. -/
theorem startStatus_eq (s : State) : startStatus s = { s with lin := { s.lin with
    counter := BitVec.ofNat 4 ((s.lin.counter.toNat + 1) % 16), phase := .brk, idx := 0, rx := [], stage := .xfer,
    lf := ⟨s.cfg.statusId, s.cfg.statusLen, statusBytes s.cfg (s.lin.counter + 1) s.lin.mode, pid s.cfg.statusId,
      s.lin.lf.cks⟩ } } := by
  rw [← counter_succ, ← statusBytes_length s.cfg (s.lin.counter + 1) s.lin.mode]
  rfl

/-- Settles O37: in its first stage LIN.CYCLE takes the counter step (`startStatus_eq`). -/
theorem cycleCounterStep : Obligations.CycleCounterStep := by
  intro s P hP hrun hstage
  rw [exec_linCycle, linCommand_run hP hrun, cycleStep_frame hstage, startStatus_eq]

end Sys2Proof.Machine
end

section
/-! One step of a LIN transaction as an equation (R195 to R201), and what the four commands make of its end. A transaction
changes the answers left, the wire history and its own place in the engine, and nothing else; so a state inside it is written as
the state it started from, moved on (`State.onWire`). -/

namespace Sys2Proof.Machine

open Sys2Proof Host

/-! ### The transport's answers, used one by one (R195) -/

/-- The environment after `n` of the transport's answers are used (log entry 6). -/
def Env.after (e : Env) (n : Nat) : Env :=
  { e with answers := e.answers.drop n, drawn := e.drawn + (n - e.answers.length) }

@[simp] theorem Env.after_zero (e : Env) : e.after 0 = e := by simp [Env.after]

theorem Env.after_after (e : Env) (m n : Nat) : (e.after m).after n = e.after (m + n) := by
  simp only [Env.after, List.drop_drop, List.length_drop]
  congr 1
  omega

theorem Env.after_one_of_cons {e : Env} {a : LinAnswer} {rest : List LinAnswer} (h : e.answers = a :: rest) :
    e.after 1 = { e with answers := rest } := by simp [Env.after, h]

theorem State.takeAnswer_eq (s : State) : s.takeAnswer = (s.answerAt 0, { s with env := s.env.after 1 }) := by
  refine Prod.ext s.takeAnswer_answer ?_
  unfold State.takeAnswer
  cases h : s.env.answers with
  | nil => simp [Env.after, h]
  | cons a rest => simp [Env.after_one_of_cons h]

theorem State.answerAt_of_after {s u : State} {m : Nat} (h : u.env = s.env.after m) (n : Nat) :
    u.answerAt n = s.answerAt (m + n) := by
  unfold State.answerAt
  rw [h]
  simp only [Env.after, List.getElem?_drop, List.length_drop]
  congr 2
  omega

/-! ### A place inside a transaction -/

/-- What a transaction's steps write in the engine besides the wire history. -/
structure TxnPlace where
  lf : LinFrame
  phase : LinPhase
  idx : Nat
  rx : List Byte

/-- Where the engine is. -/
def Lin.place (l : Lin) : TxnPlace := ⟨l.lf, l.phase, l.idx, l.rx⟩

/-- The engine at another place, the wire history longer by `w`. -/
def Lin.moved (l : Lin) (w : List WireEvent) (x : TxnPlace) : Lin :=
  { l with wire := l.wire ++ w, lf := x.lf, phase := x.phase, idx := x.idx, rx := x.rx }

/-- The state `s` moved on inside a transaction: `n` answers are used, the wire history has gained `w`, the engine is at `x`. -/
def State.onWire (s : State) (n : Nat) (w : List WireEvent) (x : TxnPlace) : State :=
  { s with env := s.env.after n, lin := s.lin.moved w x }

theorem State.onWire_zero (s : State) : s.onWire 0 [] s.lin.place = s := by
  simp [State.onWire, Lin.moved, Lin.place]

@[simp] theorem State.onWire_lf (s : State) (n : Nat) (w : List WireEvent) (x : TxnPlace) :
    (s.onWire n w x).lin.lf = x.lf := rfl
@[simp] theorem State.onWire_phase (s : State) (n : Nat) (w : List WireEvent) (x : TxnPlace) :
    (s.onWire n w x).lin.phase = x.phase := rfl

section
variable (s : State) (n : Nat) (w : List WireEvent) (x : TxnPlace) (t : Txn)

/-! ### The requests (R195) -/

theorem State.onWire_takeAnswer : (s.onWire n w x).takeAnswer = (s.answerAt n, s.onWire (n + 1) w x) := by
  have henv : (s.onWire n w x).env = s.env.after n := rfl
  rw [State.takeAnswer_eq, State.answerAt_of_after henv, henv, Env.after_after]
  rfl

theorem State.onWire_record (es : List WireEvent) : (s.onWire n w x).record es = s.onWire n (w ++ es) x := by
  simp [State.onWire, Lin.moved, State.record, State.updLin, List.append_assoc]

theorem State.onWire_linBreak (r : BrkKind) : (s.onWire n w x).linBreak r =
    ((s.answerAt n).ack, s.onWire (n + 1) (w ++ [.brk r (s.answerAt n).ack]) x) := by
  unfold State.linBreak
  rw [State.onWire_takeAnswer]
  simp only [State.onWire_record]

theorem State.onWire_linWriteByte (b : Byte) : (s.onWire n w x).linWriteByte b =
    ((s.answerAt n).ack, s.onWire (n + 1) (if (s.answerAt n).ack then w ++ [.tx b] else w) x) := by
  unfold State.linWriteByte
  rw [State.onWire_takeAnswer]
  cases h : (s.answerAt n).ack <;> simp [h, State.onWire_record]

theorem State.onWire_linRead (m : Nat) : (s.onWire n w x).linRead m =
    (if ((s.answerAt n).bytes.take m).length = m then some ((s.answerAt n).bytes.take m) else none,
      s.onWire (n + 1) (w ++ ((s.answerAt n).bytes.take m).map .rx) x) := by
  unfold State.linRead
  rw [State.onWire_takeAnswer]
  simp only [State.onWire_record]

/-! ### The steps (R197, R199) -/

/-- The frame once the break is confirmed: its checksum byte is computed when the transaction sends one. -/
def LinFrame.withCks (t : Txn) (lf : LinFrame) : LinFrame :=
  { lf with cks := if t.cksEn then Machine.cks t.kind lf.pid lf.data else lf.cks }

theorem afterByte_onWire_byte {j : Nat} (h : j < (wireBytes t x.lf).length) : afterByte t j (s.onWire n w x) =
    .going (s.onWire n w { x with idx := j, phase := phaseOf x.lf.data.length j }) := if_pos h

theorem afterByte_onWire_resp {j : Nat} (h : (wireBytes t x.lf).length ≤ j) (hresp : t.resp.isSome = true) :
    afterByte t j (s.onWire n w x) = .going (s.onWire n w { x with idx := j, phase := .resp }) := by
  obtain ⟨m, hm⟩ := Option.isSome_iff_exists.mp hresp
  unfold afterByte
  rw [if_neg (by simpa using h), hm]
  rfl

theorem afterByte_onWire_end {j : Nat} (h : (wireBytes t x.lf).length ≤ j) (hresp : t.resp = none) :
    afterByte t j (s.onWire n w x) = .ended (s.onWire n w x) .ok .idle := by
  unfold afterByte
  rw [if_neg (by simpa using h), hresp]

variable {n x}

theorem txnStep_brk_refused (hp : x.phase = .brk) (ha : (s.answerAt n).ack = false) : txnStep t (s.onWire n w x) =
    .ended (s.onWire (n + 1) (w ++ [.brk t.brk false]) x) .timeout .brk := by
  unfold txnStep
  rw [State.onWire_phase, hp]
  simp only [breakStep, State.onWire_linBreak, ha]

theorem txnStep_brk_done (hp : x.phase = .brk) (ha : (s.answerAt n).ack = true) : txnStep t (s.onWire n w x) =
    .going (s.onWire (n + 1) (w ++ [.brk t.brk true]) ⟨x.lf.withCks t, .sync, 0, x.rx⟩) := by
  unfold txnStep
  rw [State.onWire_phase, hp]
  simp only [breakStep, State.onWire_linBreak, ha]
  exact afterByte_onWire_byte s (n + 1) _ { x with lf := x.lf.withCks t } t (j := 0) (by rw [wireBytes_length]; omega)

/-- SYNC, PID, DATA and CKS write. -/
theorem txnStep_eq_writeStep {u : State}
    (hp : u.lin.phase = .sync ∨ u.lin.phase = .pid ∨ u.lin.phase = .data ∨ u.lin.phase = .cks) :
    txnStep t u = writeStep t u := by
  unfold txnStep
  obtain hp | hp | hp | hp := hp <;> rw [hp]

section
variable (hp : x.phase = .sync ∨ x.phase = .pid ∨ x.phase = .data ∨ x.phase = .cks)
include hp

theorem txnStep_write_refused (ha : (s.answerAt n).ack = false) : txnStep t (s.onWire n w x) =
    .ended (s.onWire (n + 1) w x) .timeout (phaseOf x.lf.data.length x.idx) := by
  rw [txnStep_eq_writeStep t hp, writeStep, State.onWire_linWriteByte, ha]
  rfl

theorem txnStep_write_accepted (ha : (s.answerAt n).ack = true) : txnStep t (s.onWire n w x) =
    afterByte t (x.idx + 1) (s.onWire (n + 1) (w ++ [.tx ((wireBytes t x.lf).getD x.idx 0)]) x) := by
  rw [txnStep_eq_writeStep t hp, writeStep, State.onWire_linWriteByte, ha]
  rfl

end

theorem txnStep_resp_short (hp : x.phase = .resp) (hlen : ((s.answerAt n).bytes.take (t.respLen + 1)).length < t.respLen + 1) :
    txnStep t (s.onWire n w x) = .ended
      (s.onWire (n + 1) (w ++ ((s.answerAt n).bytes.take (t.respLen + 1)).map .rx) x) .timeout .resp := by
  unfold txnStep
  rw [State.onWire_phase, hp]
  simp only [respStep, State.onWire_linRead, if_neg (Nat.ne_of_lt hlen)]

theorem txnStep_resp_complete (hp : x.phase = .resp)
    (hlen : ((s.answerAt n).bytes.take (t.respLen + 1)).length = t.respLen + 1) :
    txnStep t (s.onWire n w x) = .going
      (s.onWire (n + 1) (w ++ ((s.answerAt n).bytes.take (t.respLen + 1)).map .rx)
        { x with rx := (s.answerAt n).bytes.take (t.respLen + 1), phase := .validate }) := by
  unfold txnStep
  rw [State.onWire_phase, hp]
  simp only [respStep, State.onWire_linRead, if_pos hlen]
  rfl

end

/-- VALIDATE compares the last byte received with the checksum of the others. -/
theorem txnStep_validate (t : Txn) {s : State} (hp : s.lin.phase = .validate) : txnStep t s =
    if s.lin.rx.getD t.respLen 0 = cks t.kind s.lin.lf.pid (s.lin.rx.take t.respLen) then .ended s .ok .idle
    else .ended s .checksumMismatch .validate := by
  unfold txnStep
  rw [hp]
  rfl

/-! ### The end of a command and its engine -/

/-- The engine of a command that has ended: `Finish(c, ph)` and the release (R201, R204). -/
def Lin.done (l : Lin) (c : Status) (ph : LinPhase) : Lin :=
  { l with stCode := c, stPhase := ph, phase := .idle, idx := 0, rx := [], stage := .xfer, owner := none, first := none }

section
variable {u : State} {P : Port} (hu : u.acting P) (c : Status) (ph : LinPhase) (c' : Status) (ph' : LinPhase)
include hu

theorem State.acting.linEnd_finish :
    linEnd c ph (u.finish c' ph') = { u with lin := u.lin.done c' ph' }.withPort (P.ended c ph P.r) :=
  State.acting.endCmd (s := (u.finish c' ph').releaseEngine) hu c ph

theorem State.acting.linEnd_finish_setR0 (v : Word) : linEnd c ph ((u.finish c' ph').setR0 v) =
    { u with lin := u.lin.done c' ph' }.withPort (P.ended c ph { P.r with w0 := v }) :=
  State.acting.setR0_endCmd (s := (u.finish c' ph').releaseEngine) hu v c ph

theorem State.acting.linEnd_finish_setR (q : Quad) : linEnd c ph ((u.setR q).finish c' ph') =
    { u with lin := u.lin.done c' ph' }.withPort (P.ended c ph q) := by
  have hset : u.setR q = u.withPort { P with r := q } := hu.updMe _
  rw [hset, (hu.withPort _).linEnd_finish]
  exact State.withPort_withPort (s := { u with lin := u.lin.done c' ph' }) _ _

end

/-! ### What each command makes of its transaction's step -/

theorem sendStep_of_going {t : Txn} {s u : State} (h : txnStep t s = .going u) : sendStep t s = u := by
  unfold sendStep; rw [h]

theorem sendStep_of_ended {t : Txn} {s u : State} {c : Status} {ph : LinPhase} (h : txnStep t s = .ended u c ph) :
    sendStep t s = linEnd c ph (u.finish c ph) := by
  unfold sendStep; rw [h]

theorem xchgStep_of_going {t : Txn} {s u : State} (h : txnStep t s = .going u) : xchgStep t s = u := by
  unfold xchgStep; rw [h]

theorem xchgStep_of_ok {t : Txn} {s u : State} {ph : LinPhase} (h : txnStep t s = .ended u .ok ph) :
    xchgStep t s = linEnd .ok ph ((u.setR (responseResults (rxCks t u) t.respLen (rxData t u))).finish .ok ph) := by
  unfold xchgStep; rw [h]

theorem xchgStep_of_failed {t : Txn} {s u : State} {c : Status} {ph : LinPhase} (h : txnStep t s = .ended u c ph)
    (hc : c ≠ .ok) : xchgStep t s = linEnd c ph (u.finish c ph) := by
  unfold xchgStep; simp only [h]

theorem diagStep_of_telemDone {s : State} (hs : s.lin.stage = .telemDone) : diagStep s = .ended s .ok .idle := by
  unfold diagStep; rw [hs]

theorem diagStep_of_going {s u : State} (hs : s.lin.stage = .xfer) (h : txnStep (diagTxn s.cfg) s = .going u) :
    diagStep s = .going u := by
  unfold diagStep; rw [hs]; simp only [h]

theorem diagStep_of_ok {s u : State} {ph : LinPhase} (hs : s.lin.stage = .xfer)
    (h : txnStep (diagTxn s.cfg) s = .ended u .ok ph) : diagStep s = .going (telemUpdate u) := by
  unfold diagStep; rw [hs]; simp only [h]

theorem diagStep_of_failed {s u : State} {c : Status} {ph : LinPhase} (hs : s.lin.stage = .xfer)
    (h : txnStep (diagTxn s.cfg) s = .ended u c ph) (hc : c ≠ .ok) : diagStep s = .ended u c ph := by
  unfold diagStep; rw [hs]; simp only [h]

theorem diagCommandStep_of_going {s u : State} (h : diagStep s = .going u) : diagCommandStep s = u := by
  unfold diagCommandStep; rw [h]

theorem diagCommandStep_of_ok {s u : State} {ph : LinPhase} (h : diagStep s = .ended u .ok ph) : diagCommandStep s =
    linEnd .ok ph ((u.setR (responseResults (rxCks (diagTxn u.cfg) u) u.cfg.diagRespLen (rxData (diagTxn u.cfg) u))).finish
      .ok ph) := by
  unfold diagCommandStep; rw [h]

theorem diagCommandStep_of_failed {s u : State} {c : Status} {ph : LinPhase} (h : diagStep s = .ended u c ph)
    (hc : c ≠ .ok) : diagCommandStep s = linEnd c ph (u.finish c ph) := by
  unfold diagCommandStep; simp only [h]

theorem cycleStatusStep_of_going {s u : State} (h : txnStep (statusTxn s.cfg) s = .going u) : cycleStatusStep s = u := by
  unfold cycleStatusStep; rw [h]

theorem cycleStatusStep_of_ended {s u : State} {c : Status} {ph : LinPhase} (h : txnStep (statusTxn s.cfg) s = .ended u c ph) :
    cycleStatusStep s = (u.finish c ph).updLin fun l => { l with first := some (c, ph) } := by
  unfold cycleStatusStep; rw [h]

theorem cycleDiagStep_of_going {c1 : Status} {p1 : LinPhase} {s u : State} (h : diagStep s = .going u) :
    cycleDiagStep c1 p1 s = u := by
  unfold cycleDiagStep; rw [h]

theorem cycleDiagStep_of_ended {c1 : Status} {p1 : LinPhase} {s u : State} {c2 : Status} {p2 : LinPhase}
    (h : diagStep s = .ended u c2 p2) : cycleDiagStep c1 p1 s =
      linEnd (cycleStatus c1 p1 c2 p2).1 (cycleStatus c1 p1 c2 p2).2 ((u.finish c2 p2).setR0 (cycleWord c1 p1 c2 p2)) := by
  unfold cycleDiagStep; rw [h]

end Sys2Proof.Machine
end

section
/-! The last steps of the commands that use the engine (R201, R288), and the telemetry update before them (R208, R211). -/

namespace Sys2Proof.Machine

open Sys2Proof Host

/-! ### One step from a state that is written out -/

/-- Of a transaction without a response part, the last byte accepted. -/
theorem txnStep_last_accepted {t : Txn} {s : State} {a : LinAnswer} {rest : List LinAnswer}
    (hp : s.lin.phase = .sync ∨ s.lin.phase = .pid ∨ s.lin.phase = .data ∨ s.lin.phase = .cks)
    (henv : s.env.answers = a :: rest) (ha : a.ack = true) (hresp : t.resp = none)
    (hidx : s.lin.idx + 1 = (wireBytes t s.lin.lf).length) :
    txnStep t s = .ended { s with
      env := { s.env with answers := rest }
      lin := { s.lin with wire := s.lin.wire ++ [.tx ((wireBytes t s.lin.lf).getD s.lin.idx 0)] } } .ok .idle := by
  have hans : s.answerAt 0 = a := by simp [State.answerAt, henv]
  have h := txnStep_write_accepted s (n := 0) [] (x := s.lin.place) t hp (by rw [hans]; exact ha)
  rw [State.onWire_zero, afterByte_onWire_end (h := ge_of_eq hidx) (hresp := hresp)] at h
  rw [h, State.onWire, Env.after_one_of_cons henv]
  rfl

/-- A byte refused. -/
theorem txnStep_byte_refused {t : Txn} {s : State} {a : LinAnswer} {rest : List LinAnswer}
    (hp : s.lin.phase = .sync ∨ s.lin.phase = .pid ∨ s.lin.phase = .data ∨ s.lin.phase = .cks)
    (henv : s.env.answers = a :: rest) (ha : a.ack = false) :
    txnStep t s = .ended { s with env := { s.env with answers := rest } } .timeout
      (phaseOf s.lin.lf.data.length s.lin.idx) := by
  have hans : s.answerAt 0 = a := by simp [State.answerAt, henv]
  have h := txnStep_write_refused s (n := 0) [] (x := s.lin.place) t hp (by rw [hans]; exact ha)
  rw [State.onWire_zero] at h
  rw [h, State.onWire, Env.after_one_of_cons henv]
  simp [Lin.moved, Lin.place]

/-- A break not confirmed. -/
theorem txnStep_break_refused {t : Txn} {s : State} {a : LinAnswer} {rest : List LinAnswer} (hp : s.lin.phase = .brk)
    (henv : s.env.answers = a :: rest) (ha : a.ack = false) :
    txnStep t s = .ended { s with
      env := { s.env with answers := rest }
      lin := { s.lin with wire := s.lin.wire ++ [.brk t.brk false] } } .timeout .brk := by
  have hans : s.answerAt 0 = a := by simp [State.answerAt, henv]
  have h := txnStep_brk_refused s (n := 0) [] (x := s.lin.place) t hp (by rw [hans]; exact ha)
  rw [State.onWire_zero] at h
  rw [h, State.onWire, Env.after_one_of_cons henv]
  rfl

/-! ### The commands from there -/

section
variable {s : State} {P : Port} (hP : s.acting P) (hrun : P.phase = .lRun)
include hP hrun

theorem exec_linSend_run (id : BitVec 6) (len : BitVec 4) (c : Bool) (k : CksKind) (r : BrkKind) :
    exec (.linSend id len c k r) s = .next (sendStep (sendTxn c k r) s) := linCommand_run hP hrun _ _ _

theorem exec_linXchg_run (id : BitVec 6) (len n : BitVec 4) (c : Bool) (k : CksKind) (r : BrkKind) :
    exec (.linXchg id len n c k r) s = .next (xchgStep (xchgTxn n c k r) s) := linCommand_run hP hrun _ _ _

theorem exec_linDiag_run : exec .linDiag s = .next (diagCommandStep s) := linCommand_run hP hrun _ _ _

theorem exec_linCycle_run : exec .linCycle s = .next (cycleStep s) := linCommand_run hP hrun _ _ _

/-- LIN.SEND's last byte accepted (R198). -/
theorem exec_linSend_last (id : BitVec 6) (len : BitVec 4) (c : Bool) (k : CksKind) (r : BrkKind) {a : LinAnswer}
    {rest : List LinAnswer} (hp : s.lin.phase = .sync ∨ s.lin.phase = .pid ∨ s.lin.phase = .data ∨ s.lin.phase = .cks)
    (henv : s.env.answers = a :: rest) (ha : a.ack = true)
    (hidx : s.lin.idx + 1 = (wireBytes (sendTxn c k r) s.lin.lf).length) :
    exec (.linSend id len c k r) s = .next ({ s with
      env := { s.env with answers := rest }
      lin := { s.lin with wire :=
        s.lin.wire ++ [WireEvent.tx ((wireBytes (sendTxn c k r) s.lin.lf).getD s.lin.idx 0)] }.done .ok .idle }.withPort
      (P.ended .ok .idle P.r)) := by
  rw [exec_linSend_run hP hrun, sendStep_of_ended (txnStep_last_accepted hp henv ha rfl hidx), State.acting.linEnd_finish]
  exact hP

/-- LIN.XCHG's validation (R199, R200). -/
theorem exec_linXchg_validate (id : BitVec 6) (len n : BitVec 4) (c : Bool) (k : CksKind) (r : BrkKind)
    (hp : s.lin.phase = .validate) : exec (.linXchg id len n c k r) s = .next
      (if s.lin.rx.getD n.toNat 0 = cks k s.lin.lf.pid (s.lin.rx.take n.toNat) then
        { s with lin := s.lin.done .ok .idle }.withPort (P.ended .ok .idle
          (responseResults (s.lin.rx.getD n.toNat 0) n.toNat (s.lin.rx.take n.toNat)))
      else
        { s with lin := s.lin.done .checksumMismatch .validate }.withPort (P.ended .checksumMismatch .validate P.r)) := by
  have hstep := txnStep_validate (xchgTxn n c k r) hp
  rw [exec_linXchg_run hP hrun]
  by_cases hcks : s.lin.rx.getD n.toNat 0 = cks k s.lin.lf.pid (s.lin.rx.take n.toNat)
  · rw [xchgStep_of_ok (hstep.trans (if_pos hcks)), hP.linEnd_finish_setR, if_pos hcks]
    rfl
  · rw [xchgStep_of_failed (hstep.trans (if_neg hcks)) (by simp), hP.linEnd_finish, if_neg hcks]

/-- LIN.DIAG's end after its telemetry update (R208). -/
theorem exec_linDiag_telemDone (hs : s.lin.stage = .telemDone) : exec .linDiag s = .next
    ({ s with lin := s.lin.done .ok .idle }.withPort (P.ended .ok .idle
      (responseResults (s.lin.rx.getD s.cfg.diagRespLen 0) s.cfg.diagRespLen (s.lin.rx.take s.cfg.diagRespLen)))) := by
  rw [exec_linDiag_run hP hrun, diagCommandStep_of_ok (diagStep_of_telemDone hs), hP.linEnd_finish_setR]
  rfl

/-- LIN.CYCLE's end after its telemetry update (R210). -/
theorem exec_linCycle_telemDone (hs : s.lin.stage = .telemDone) (hp : s.lin.phase ≠ .idle) {c1 : Status} {p1 : LinPhase}
    (hf : s.lin.first = some (c1, p1)) : exec .linCycle s = .next
      ({ s with lin := s.lin.done .ok .idle }.withPort
        (P.ended (cycleStatus c1 p1 .ok .idle).1 (cycleStatus c1 p1 .ok .idle).2
          { P.r with w0 := cycleWord c1 p1 .ok .idle })) := by
  rw [exec_linCycle_run hP hrun, cycleStep_diag (by simp [hs]) hf hp, cycleDiagStep_of_ended (diagStep_of_telemDone hs),
    hP.linEnd_finish_setR0]

/-- The end of LIN.CYCLE's status frame: `Finish(c1, p1)`, the engine still owned (R210, R213). -/
theorem exec_linCycle_status_ended (hs : s.lin.stage ≠ .frame) (hf : s.lin.first = none) {u : State} {c : Status}
    {ph : LinPhase} (h : txnStep (statusTxn s.cfg) s = .ended u c ph) :
    exec .linCycle s = .next ((u.finish c ph).updLin fun l => { l with first := some (c, ph) }) := by
  rw [exec_linCycle_run hP hrun, cycleStep_status hs hf, cycleStatusStep_of_ended h]

/-- The telemetry update of LIN.DIAG and of LIN.CYCLE's exchange. -/
theorem exec_telemUpdate (hs : s.lin.stage = .xfer) (hp : s.lin.phase ≠ .idle) {u : State} {ph : LinPhase}
    (h : txnStep (diagTxn s.cfg) s = .ended u .ok ph) :
    exec .linDiag s = .next (telemUpdate u)
      ∧ (s.lin.first.isSome = true → exec .linCycle s = .next (telemUpdate u)) := by
  refine ⟨?_, fun hf => ?_⟩
  · rw [exec_linDiag_run hP hrun, diagCommandStep_of_going (diagStep_of_ok hs h)]
  · obtain ⟨⟨c1, p1⟩, hf⟩ := Option.isSome_iff_exists.mp hf
    rw [exec_linCycle_run hP hrun, cycleStep_diag (by simp [hs]) hf hp, cycleDiagStep_of_going (diagStep_of_ok hs h)]

end

/-! ### The obligations -/

theorem cycleStatus_ok_idle (c : Status) (ph : LinPhase) :
    cycleStatus c ph .ok .idle = (if c = .ok then .ok else c, if c = .ok then .idle else ph) := by
  unfold cycleStatus
  by_cases h : c = .ok <;> simp [h]

/-- Settles O40: each command's last step by its equation; LIN.CYCLE's status frame by the three ways its transaction ends. -/
theorem linCommandsEnd : Obligations.LinCommandsEnd := by
  intro s P hP hrun
  refine ⟨fun id len c k r a rest hp henv ha hidx => exec_linSend_last hP hrun id len c k r hp henv ha hidx,
    fun id len n c k r hp => ?_, fun hs hp => ⟨?_, fun c1 p1 hf => ?_⟩,
    fun a rest hs hf henv => ⟨fun hp ha => ?_, fun hp => ?_⟩⟩
  · rw [exec_linXchg_validate hP hrun id len n c k r hp, setWidth_eq_ofNat n]
    rfl
  · exact exec_linDiag_telemDone hP hrun hs
  · rw [exec_linCycle_telemDone hP hrun hs (by simp [hp]) hf, cycleStatus_ok_idle]
    rfl
  · exact exec_linCycle_status_ended hP hrun (by simp [hs]) hf (txnStep_break_refused hp henv ha)
  · refine ⟨fun ha => ?_, fun ha hidx => ?_⟩
    · rw [exec_linCycle_status_ended hP hrun (by simp [hs]) hf (txnStep_byte_refused hp henv ha)]
      simp [State.finish, State.updLin]
    · exact exec_linCycle_status_ended hP hrun (by simp [hs]) hf (txnStep_last_accepted hp henv ha rfl hidx)

theorem getD_take_of_lt {xs : List Byte} {j n : Nat} (h : j < n) : (xs.take n).getD j 0 = xs.getD j 0 := by
  rw [List.getD_eq_getElem?_getD, List.getD_eq_getElem?_getD, List.getElem?_take_of_lt h]

/-- Settles O41: a valid response updates the telemetry in the step that finds it valid (`exec_telemUpdate`). -/
theorem telemetryUpdate : Obligations.TelemetryUpdate := by
  intro s P hP hrun hp hs hmov hpos hcks
  have hstep : txnStep (diagTxn s.cfg) s = .ended s .ok .idle := (txnStep_validate _ hp).trans (if_pos hcks)
  rw [← getD_take_of_lt hmov, ← getD_take_of_lt hpos]
  exact exec_telemUpdate hP hrun hs (by simp [hp]) hstep

end Sys2Proof.Machine
end

section
/-! What the engine's steps do to the telemetry (R211) and to `LIN_PHASE` (R213). -/

namespace Sys2Proof.Machine

open Sys2Proof Host

/-! ### A command that uses the engine, by where its port is -/

/-- Such a command takes a micro-step of its body, or takes the free engine and loads, or leaves the engine alone. -/
theorem linCommand_cases {legal : Bool} {load body : State → State} {s t : State} {P : Port} (hP : s.acting P)
    (h : linCommand legal load body s = .next t) :
    (P.phase = .lRun ∧ t = body s) ∨ t.lin = s.lin ∨ t = load s.entered := by
  by_cases hrun : P.phase = .lRun
  · rw [linCommand_run hP hrun] at h
    exact .inl ⟨hrun, (Host.Outcome.next.inj h).symm⟩
  · obtain hl | ⟨_, ht⟩ := linCommand_outside hP hrun h
    · exact .inr (.inl hl)
    · exact .inr (.inr ht)

/-! ### The telemetry -/

/-- Both telemetry fields are as before. -/
def Lin.telemKept (l l' : Lin) : Prop := l'.moving = l.moving ∧ l'.position = l.position

/-- A valid response is before the engine, and both telemetry fields of `l'` come from it (R208, R211). -/
def Lin.telemTaken (c : Cfg) (l l' : Lin) : Prop :=
  l.phase = .validate ∧ l.rx.getD c.diagRespLen 0 = cks c.diagCksKind l.lf.pid (l.rx.take c.diagRespLen)
    ∧ l'.moving = ((l.rx.take c.diagRespLen).getD c.movByte 0).getLsbD c.movBit
    ∧ l'.position = (l.rx.take c.diagRespLen).getD c.posByte 0

theorem TxnKept.telemKept {s u : State} (k : TxnKept s u) : s.lin.telemKept u.lin := ⟨k.moving, k.position⟩

theorem afterByte_of_resp {t : Txn} (hresp : t.resp.isSome = true) (j : Nat) (s : State) : ∃ u, afterByte t j s = .going u := by
  obtain ⟨m, hm⟩ := Option.isSome_iff_exists.mp hresp
  unfold afterByte
  rw [hm]
  split <;> exact ⟨_, rfl⟩

/-- A transaction with a response part ends OK at its validation only, and the validation changes nothing. -/
theorem txnStep_ended_ok {t : Txn} {s u : State} {ph : LinPhase} (hresp : t.resp.isSome = true)
    (h : txnStep t s = .ended u .ok ph) : s.lin.phase = .validate ∧ u = s
      ∧ s.lin.rx.getD t.respLen 0 = cks t.kind s.lin.lf.pid (s.lin.rx.take t.respLen) := by
  have after_ne : ∀ {j v}, afterByte t j v ≠ .ended u .ok ph := by
    intro j v hafter
    obtain ⟨x, hx⟩ := afterByte_of_resp hresp j v
    rw [hx] at hafter
    cases hafter
  have write_ne : writeStep t s ≠ .ended u .ok ph := by
    intro hwrite
    unfold writeStep at hwrite
    split at hwrite
    · exact after_ne hwrite
    · cases hwrite
  cases hp : s.lin.phase with
  | validate =>
    rw [txnStep_validate t hp] at h
    split at h <;> cases h
    exact ⟨rfl, rfl, ‹_›⟩
  | sync | pid | data | cks => exact absurd ((txnStep_eq_writeStep t (by simp [hp])).symm.trans h) write_ne
  | idle => simp only [txnStep, hp] at h; cases h
  | brk =>
    simp only [txnStep, hp, breakStep] at h
    split at h
    · exact absurd h after_ne
    · cases h
  | resp =>
    simp only [txnStep, hp, respStep] at h
    split at h <;> cases h

/-- A step of the diagnostic exchange keeps the telemetry, or takes it from a valid response. -/
theorem diagStep_telem (s : State) :
    s.lin.telemKept (diagStep s).state.lin ∨ s.lin.telemTaken s.cfg (diagStep s).state.lin := by
  obtain ⟨u, h, e, _⟩ | ⟨u, ph, h, e, _⟩ | ⟨u, c, ph, _, h, e, _⟩ | ⟨e, _⟩ := diagStep_cases s <;> rw [e]
  · exact .inl (txnStep_going h).telemKept
  · obtain ⟨hp, rfl, hcks⟩ := txnStep_ended_ok rfl h
    exact .inr ⟨hp, hcks, rfl, rfl⟩
  · exact .inl (txnStep_ended h).telemKept
  · exact .inl ⟨rfl, rfl⟩

theorem diagCommandStep_telem (s : State) : (diagStep s).state.lin.telemKept (diagCommandStep s).lin := by
  unfold diagCommandStep
  split <;> rename_i h <;> rw [h] <;> exact ⟨rfl, rfl⟩

theorem cycleDiagStep_telem (c1 : Status) (p1 : LinPhase) (s : State) :
    (diagStep s).state.lin.telemKept (cycleDiagStep c1 p1 s).lin := by
  unfold cycleDiagStep
  split <;> rename_i h <;> rw [h] <;> exact ⟨rfl, rfl⟩

theorem Lin.telemKept.of_diagStep {s : State} {l : Lin} (h : (diagStep s).state.lin.telemKept l) :
    s.lin.telemKept l ∨ s.lin.telemTaken s.cfg l := by
  obtain ⟨hm, hpos⟩ := h
  obtain ⟨km, kpos⟩ | ⟨hp, hcks, tm, tpos⟩ := diagStep_telem s
  · exact .inl ⟨hm.trans km, hpos.trans kpos⟩
  · exact .inr ⟨hp, hcks, hm.trans tm, hpos.trans tpos⟩

theorem cycleStep_telem (s : State) :
    s.lin.telemKept (cycleStep s).lin ∨ s.lin.telemTaken s.cfg (cycleStep s).lin := by
  by_cases hs : s.lin.stage = .frame
  · rw [cycleStep_frame hs]; exact .inl ⟨rfl, rfl⟩
  cases hf : s.lin.first with
  | none =>
    rw [cycleStep_status hs hf]
    unfold cycleStatusStep
    split <;> rename_i h
    · exact .inl (txnStep_going h).telemKept
    · exact .inl (txnStep_ended h).telemKept
  | some o =>
    by_cases hp : s.lin.phase = .idle
    · rw [cycleStep_pause hs hf hp]; exact .inl ⟨rfl, rfl⟩
    · rw [cycleStep_diag hs hf hp]; exact (cycleDiagStep_telem _ _ s).of_diagStep

theorem sendStep_telem (t : Txn) (s : State) : s.lin.telemKept (sendStep t s).lin := by
  unfold sendStep
  split <;> rename_i h
  · exact (txnStep_going h).telemKept
  · exact (txnStep_ended h).telemKept

theorem xchgStep_telem (t : Txn) (s : State) : s.lin.telemKept (xchgStep t s).lin := by
  unfold xchgStep
  split <;> rename_i h
  · exact (txnStep_going h).telemKept
  · exact (txnStep_ended h).telemKept
  · exact (txnStep_ended h).telemKept

/-- Settles O47: no load, no request and no other command writes the telemetry, and the exchange takes it from a valid response
(`diagStep_telem`). -/
theorem telemetryOnlyOnSuccess : Obligations.TelemetryOnlyOnSuccess := by
  intro i s t P hP hx
  have of_body : ∀ {legal load body}, linCommand legal load body s = .next t →
      (∀ u : State, u.lin.telemKept (load u).lin) →
      s.lin.telemKept t.lin ∨ (P.phase = .lRun ∧ t = body s) := by
    intro legal load body hcmd hload
    obtain hrun | hl | ht := linCommand_cases hP hcmd
    · exact .inr hrun
    · rw [hl]; exact .inl ⟨rfl, rfl⟩
    · rw [ht]; exact .inl (hload s.entered)
  obtain hone | heng | ⟨d, rfl⟩ | ⟨d, rfl⟩ := instr_forms i
  · obtain ⟨m, w, hl⟩ := (exec_oneEffect hone hx).lin
    rw [hl]; exact .inl ⟨rfl, rfl⟩
  · cases i <;> simp only [usesEngine, Bool.false_eq_true] at heng
    case linSend id len c k r =>
      obtain hkept | ⟨_, rfl⟩ := of_body (load := loadRequest id len) hx (fun _ => ⟨rfl, rfl⟩)
      · exact .inl hkept
      · exact .inl (sendStep_telem _ s)
    case linXchg id len n c k r =>
      obtain hkept | ⟨_, rfl⟩ := of_body (load := loadRequest id len) hx (fun _ => ⟨rfl, rfl⟩)
      · exact .inl hkept
      · exact .inl (xchgStep_telem _ s)
    case linDiag =>
      obtain hkept | ⟨hrun, rfl⟩ := of_body (load := startDiag) hx (fun _ => ⟨rfl, rfl⟩)
      · exact .inl hkept
      · exact (diagCommandStep_telem s).of_diagStep.imp_right fun htaken => ⟨.inl rfl, hrun, htaken⟩
    case linCycle =>
      obtain hkept | ⟨hrun, rfl⟩ := of_body (load := armCycle) hx (fun _ => ⟨rfl, rfl⟩)
      · exact .inl hkept
      · exact (cycleStep_telem s).imp_right fun htaken => ⟨.inr rfl, hrun, htaken⟩
  · obtain ⟨_, hl, _⟩ := execMbPost_units hx
    rw [hl]; exact .inl ⟨rfl, rfl⟩
  · obtain ⟨_, hl, _⟩ := execMbFetch_units hx
    rw [hl]; exact .inl ⟨rfl, rfl⟩

/-! ### The phases -/

/-- The transitions of R213. -/
def phaseEdges : List (LinPhase × LinPhase) :=
  ([(.idle, .brk), (.brk, .sync), (.brk, .idle), (.sync, .pid), (.sync, .idle), (.pid, .data), (.pid, .cks), (.pid, .resp),
    (.pid, .idle)] : List (LinPhase × LinPhase)) ++
  [(.data, .cks), (.data, .resp), (.data, .idle), (.cks, .resp), (.cks, .idle), (.resp, .validate), (.resp, .idle),
    (.validate, .idle)]

theorem brk_sync_mem : (LinPhase.brk, LinPhase.sync) ∈ phaseEdges := by decide
theorem resp_validate_mem : (LinPhase.resp, LinPhase.validate) ∈ phaseEdges := by decide

/-- From one phase to the same, or along a transition of R213. -/
def PhaseStep (p q : LinPhase) : Prop := q = p ∨ (p, q) ∈ phaseEdges

theorem PhaseStep.to_idle (p : LinPhase) : PhaseStep p .idle := by
  cases p
  case idle => exact .inl rfl
  all_goals exact .inr (by decide)

/-- From byte `j` of `W` to the next one. -/
theorem PhaseStep.next_byte {len j : Nat} (h : j + 1 < 3 + len) : PhaseStep (phaseOf len j) (phaseOf len (j + 1)) := by
  obtain rfl | rfl | ⟨hlo, hhi⟩ : j = 0 ∨ j = 1 ∨ (2 ≤ j ∧ j < 2 + len) := by omega
  · exact .inr (by simp [phaseOf, phaseEdges])
  · by_cases hlen : len = 0 <;> exact .inr (by simp [phaseOf, phaseEdges, hlen, Nat.pos_iff_ne_zero])
  · have hne : j ≠ 0 ∧ j ≠ 1 := by omega
    have hdata : phaseOf len j = .data := by simp [phaseOf, hne, hhi]
    rw [hdata]
    by_cases hlast : j + 1 < 2 + len
    · exact .inl (by simp [phaseOf, hne, hlast])
    · exact .inr (by simp [phaseOf, phaseEdges, hne, hlast])

/-- From the last byte, which is not the sync, to the response. -/
theorem PhaseStep.to_resp {len j : Nat} (h : 1 ≤ j) : PhaseStep (phaseOf len j) .resp := by
  have hne : phaseOf len j ≠ .sync := by unfold phaseOf; split_ifs <;> simp; omega
  obtain hp | hp | hp | hp := phaseOf_cases len j
  · exact absurd hp hne
  all_goals rw [hp]; exact .inr (by decide)

theorem afterByte_phaseStep {t : Txn} {j : Nat} {s u : State} (hj : j < (wireBytes t s.lin.lf).length)
    (h : afterByte t (j + 1) s = .going u) : PhaseStep (phaseOf s.lin.lf.data.length j) u.lin.phase := by
  have hW := wireBytes_length t s.lin.lf
  have hck : (if t.cksEn then 1 else 0) ≤ 1 := by split <;> omega
  unfold afterByte at h
  split at h
  · cases h
    exact PhaseStep.next_byte (by omega)
  · split at h <;> cases h
    exact PhaseStep.to_resp (by omega)

/-- A transaction that goes on stays in its phase or takes a transition of R213. -/
theorem txnStep_going_phaseStep {t : Txn} {s u : State} (h : s.lin.inTxn t) (hgo : txnStep t s = .going u) :
    PhaseStep s.lin.phase u.lin.phase := by
  have write : (s.lin.phase = .sync ∨ s.lin.phase = .pid ∨ s.lin.phase = .data ∨ s.lin.phase = .cks) →
      PhaseStep s.lin.phase u.lin.phase := by
    intro hp
    obtain ⟨_, hidx, hphase⟩ := h.write hp
    obtain ⟨w, hl⟩ := s.linWriteByte_lin ((wireBytes t s.lin.lf).getD s.lin.idx 0)
    rw [txnStep_eq_writeStep t hp, writeStep] at hgo
    split at hgo <;> rename_i v hv <;> rw [hv] at hl <;> dsimp only at hl
    · have hlf : v.lin.lf = s.lin.lf := by rw [hl]
      rw [hphase, ← hlf]
      exact afterByte_phaseStep (by rw [hlf]; exact hidx) hgo
    · cases hgo
  cases hp : s.lin.phase with
  | idle => exact absurd hp h.phase_ne_idle
  | brk =>
    rw [← s.onWire_zero] at hgo
    cases ha : (s.answerAt 0).ack with
    | false => rw [txnStep_brk_refused s [] t hp ha] at hgo; cases hgo
    | true => rw [txnStep_brk_done s [] t hp ha] at hgo; cases hgo; exact .inr brk_sync_mem
  | sync | pid | data | cks => rw [← hp]; exact write (by simp [hp])
  | resp =>
    simp only [txnStep, hp, respStep] at hgo
    split at hgo <;> cases hgo
    exact .inr resp_validate_mem
  | validate =>
    rw [txnStep_validate t hp] at hgo
    split at hgo <;> cases hgo

/-! ### … under each command that owns the engine -/

/-- A command whose transaction is under way. -/
theorem Lin.runs.inTxn {c : Cfg} {i : Instr} {l : Lin} {t : Txn} (h : l.runs c i) (hs : l.stage = .xfer)
    (hp : l.phase ≠ .idle) (ht : commandTxn c l.first i = some t) : l.inTxn t :=
  (Lin.at_iff_inTxn hs hp ht).mp h.1

theorem sendStep_phaseStep {t : Txn} {s : State} (h : s.lin.inTxn t) : PhaseStep s.lin.phase (sendStep t s).lin.phase := by
  unfold sendStep
  split <;> rename_i hstep
  · exact txnStep_going_phaseStep h hstep
  · exact PhaseStep.to_idle _

theorem xchgStep_phaseStep {t : Txn} {s : State} (h : s.lin.inTxn t) : PhaseStep s.lin.phase (xchgStep t s).lin.phase := by
  unfold xchgStep
  split <;> rename_i hstep
  · exact txnStep_going_phaseStep h hstep
  · exact PhaseStep.to_idle _
  · exact PhaseStep.to_idle _

/-- The diagnostic exchange that goes on; the telemetry update changes no phase. -/
theorem diagStep_going_phaseStep {s u : State} (h : s.lin.stage ≠ .telemDone → s.lin.inTxn (diagTxn s.cfg))
    (hgo : diagStep s = .going u) : PhaseStep s.lin.phase u.lin.phase := by
  obtain ⟨v, hstep, he, hs⟩ | ⟨v, ph, hstep, he, _⟩ | ⟨v, c, ph, _, _, he, _⟩ | ⟨he, _⟩ := diagStep_cases s
    <;> rw [hgo] at he <;> cases he
  · exact txnStep_going_phaseStep (h hs) hstep
  · exact .inl (txnStep_ended_phase hstep).2

theorem diagCommandStep_phaseStep {s : State} (h : s.lin.runs s.cfg .linDiag) :
    PhaseStep s.lin.phase (diagCommandStep s).lin.phase := by
  unfold diagCommandStep
  split <;> rename_i hstep
  · refine diagStep_going_phaseStep (fun hs => ?_) hstep
    have hx : s.lin.stage = .xfer ∧ s.lin.phase ≠ .idle := by simpa [hs] using h.1.stages
    exact h.inTxn hx.1 hx.2 rfl
  · exact PhaseStep.to_idle _
  · exact PhaseStep.to_idle _

theorem cycleStep_phaseStep {s : State} (h : s.lin.runs s.cfg .linCycle) :
    PhaseStep s.lin.phase (cycleStep s).lin.phase := by
  by_cases hs : s.lin.stage = .frame
  · rw [cycleStep_frame hs]
    have hp : s.lin.phase = .brk ∧ s.lin.first = none := by simpa [hs] using h.1.stages
    exact .inl hp.1.symm
  cases hf : s.lin.first with
  | none =>
    have hx : s.lin.stage = .xfer ∧ s.lin.phase ≠ .idle := by simpa [hs, hf] using h.1.stages
    rw [cycleStep_status hs hf]
    unfold cycleStatusStep
    split <;> rename_i hstep
    · exact txnStep_going_phaseStep (h.inTxn hx.1 hx.2 (by simp [commandTxn, hf])) hstep
    · exact PhaseStep.to_idle _
  | some o =>
    by_cases hp : s.lin.phase = .idle
    · rw [cycleStep_pause hs hf hp, hp]
      exact .inr (by simp [startDiag, startTxn, phaseEdges])
    · rw [cycleStep_diag hs hf hp]
      unfold cycleDiagStep
      split <;> rename_i hstep
      · refine diagStep_going_phaseStep (fun htel => ?_) hstep
        have hx : s.lin.stage = .xfer := by simpa [hs, hf, htel, hp] using h.1.stages
        exact h.inTxn hx hp (by simp [commandTxn, hf])
      · exact PhaseStep.to_idle _

/-- The owner's micro-step. -/
theorem exec_run_phaseStep {i : Instr} {s t : State} {P : Port} (hP : s.acting P) (hrun : P.phase = .lRun)
    (heng : usesEngine i = true) (h : s.lin.runs s.cfg i) (hx : exec i s = .next t) :
    PhaseStep s.lin.phase t.lin.phase := by
  cases i <;> simp only [usesEngine, Bool.false_eq_true] at heng
  case linSend id len c k r =>
    have hplace := h.stage_xfer (by simp) (by simp)
    rw [exec_linSend_run hP hrun] at hx; cases hx
    exact sendStep_phaseStep (h.inTxn hplace.1 hplace.2 rfl)
  case linXchg id len n c k r =>
    have hplace := h.stage_xfer (by simp) (by simp)
    rw [exec_linXchg_run hP hrun] at hx; cases hx
    exact xchgStep_phaseStep (h.inTxn hplace.1 hplace.2 rfl)
  case linDiag =>
    rw [exec_linDiag_run hP hrun] at hx; cases hx
    exact diagCommandStep_phaseStep h
  case linCycle =>
    rw [exec_linCycle_run hP hrun] at hx; cases hx
    exact cycleStep_phaseStep h

/-- A micro-step of the command that the acting port presents. -/
theorem State.Inv.exec_phaseStep {i : Instr} {s t : State} {P : Port} (h : s.Inv) (hP : s.acting P)
    (hd : decode P.cw = .ok i) (hx : Machine.exec i s = .next t) : PhaseStep s.lin.phase t.lin.phase := by
  obtain ⟨hruns, _, hfree, _⟩ := h.engine
  by_cases hrun : P.phase = .lRun
  · have hfit : P.phase = .ready ∨ fitsPhase i P.phase = true := (h.ports P (List.mem_of_getElem? hP)).fitsPhase hd
    have heng := usesEngine_of_fitsPhase (by simpa [hrun] using hfit)
    have hown : s.lin.owner = some s.cur := (hruns s.cur P hP).mp hrun
    exact exec_run_phaseStep hP hrun heng (h.progress s.cur P i hown hP hd) hx
  · obtain ⟨Q, e⟩ := exec_effect hP hx
    cases e.lin with
    | outside _ _ _ hp _ => exact .inl hp
    | enter ho _ _ hp => rw [hfree ho, hp]; exact .inr (by decide)
    | run hPrun _ _ _ | ended hPrun _ _ _ => exact absurd hPrun hrun

/-- Settles O46: a micro-step stays in its phase or takes a transition (`State.Inv.exec_phaseStep`), and no other event but reset
touches the engine. -/
theorem phaseTransitions : Obligations.PhaseTransitions := by
  intro s t hs hstep hreset hne
  have unchanged : t.lin = s.nextEvent.2.lin → (s.lin.phase, t.lin.phase) ∈ phaseEdges := by
    intro hl
    exact absurd (by rw [hl, s.nextEvent_lin]) hne
  cases step_cases hstep with
  | run p P i _ hp _ hd hx =>
    have hact : State.acting { s.nextEvent.2 with cur := p } P := hp
    have hphase := (hs.nextEvent.schedule p).exec_phaseStep hact hd hx
    rw [show State.lin { s.nextEvent.2 with cur := p } = s.lin from s.nextEvent_lin] at hphase
    exact hphase.resolve_left hne
  | illegal _ _ _ _ _ _ _ ht => exact unchanged (by rw [ht]; rfl)
  | idle _ _ _ ht => exact unchanged (by rw [ht])
  | write _ _ _ _ ht => exact unchanged (by rw [ht]; rfl)
  | present _ _ _ ht => exact unchanged (by rw [ht]; rfl)
  | clock _ _ ht => exact unchanged (by rw [ht]; rfl)
  | reset he _ => exact absurd he hreset

end Sys2Proof.Machine
end

section
/-! A whole transaction, for every way the transport answers (R197, R199): its steps from the break to its end, and that they
follow `requestRun` and `exchangeRun`. -/

namespace Sys2Proof.Machine

open Sys2Proof Host

/-! ### Steps that go on, and the step that ends -/

/-- The transaction `t` goes on for `k` steps, from `s` to `v`. -/
inductive TxnSteps (t : Txn) : Nat → State → State → Prop
  | refl (s : State) : TxnSteps t 0 s s
  | step {k : Nat} {s u v : State} (h : txnStep t s = .going u) (hs : TxnSteps t k u v) : TxnSteps t (k + 1) s v

theorem TxnSteps.snoc {t : Txn} {k : Nat} {s u v : State} (hs : TxnSteps t k s u) (h : txnStep t u = .going v) :
    TxnSteps t (k + 1) s v := by
  induction hs with
  | refl s => exact .step h (.refl v)
  | step hgo _ ih => exact .step hgo (ih h)

/-- The transaction `t` goes on for `k` steps from `s`, and the next one ends it in `v`. -/
def TxnEnds (t : Txn) (k : Nat) (s v : State) (c : Status) (ph : LinPhase) : Prop :=
  ∃ x, TxnSteps t k s x ∧ txnStep t x = .ended v c ph

/-! ### The request (R197) -/

/-- From `x`, at most `b` steps bring the transaction `t`, begun in `s` with the frame `lf`, to the end of its request: to the
response part when the request was accepted and there is one, else to the transaction's end. -/
def RequestOver (t : Txn) (s : State) (lf : LinFrame) (b : Nat) (x : State) : Prop :=
  ∃ k c ph w n y, k ≤ b ∧ s.requestRun 0 t.brk lf.data.length (wireBytes t lf) c ph w n ∧
    if c = .ok ∧ t.resp.isSome = true then y.phase = .resp ∧ y.lf = lf ∧ TxnSteps t k x (s.onWire n w y)
    else TxnEnds t k x (s.onWire n w y) c ph

section
variable {t : Txn} {s x : State} {lf : LinFrame} {b n : Nat} {w : List WireEvent} {y : TxnPlace}

/-- The transaction's next step ends it with its request. -/
theorem RequestOver.of_ended {c : Status} {ph : LinPhase}
    (hrun : s.requestRun 0 t.brk lf.data.length (wireBytes t lf) c ph w n) (hno : ¬ (c = .ok ∧ t.resp.isSome = true))
    (h : txnStep t x = .ended (s.onWire n w y) c ph) : RequestOver t s lf b x :=
  ⟨0, c, ph, w, n, y, Nat.zero_le b, hrun, by rw [if_neg hno]; exact ⟨x, .refl x, h⟩⟩

/-- The transaction's next step brings it to its response part. -/
theorem RequestOver.of_resp (hrun : s.requestRun 0 t.brk lf.data.length (wireBytes t lf) .ok .idle w n)
    (hresp : t.resp.isSome = true) (hp : y.phase = .resp) (hlf : y.lf = lf)
    (h : txnStep t x = .going (s.onWire n w y)) : RequestOver t s lf (b + 1) x :=
  ⟨1, .ok, .idle, w, n, y, by omega, hrun, by rw [if_pos ⟨rfl, hresp⟩]; exact ⟨hp, hlf, .step h (.refl _)⟩⟩

end

theorem RequestOver.step {t : Txn} {s : State} {lf : LinFrame} {b : Nat} {x v : State} (h : txnStep t x = .going v)
    (hv : RequestOver t s lf b v) : RequestOver t s lf (b + 1) x := by
  obtain ⟨k, c, ph, w, n, y, hk, hrun, hover⟩ := hv
  refine ⟨k + 1, c, ph, w, n, y, by omega, hrun, ?_⟩
  split at hover <;> rename_i hcase
  · obtain ⟨hp, hlf, hsteps⟩ := hover
    rw [if_pos hcase]
    exact ⟨hp, hlf, .step h hsteps⟩
  · obtain ⟨z, hsteps, hend⟩ := hover
    rw [if_neg hcase]
    exact ⟨z, .step h hsteps, hend⟩

/-- The wire's gain when the break and `m` bytes of `W` are accepted. -/
def sentEvents (r : BrkKind) (W : List Byte) (m : Nat) : List WireEvent := .brk r true :: (W.take m).map .tx

theorem sentEvents_succ (r : BrkKind) {W : List Byte} {m : Nat} (h : m < W.length) :
    sentEvents r W m ++ [.tx (W.getD m 0)] = sentEvents r W (m + 1) := by
  rw [sentEvents, sentEvents, List.take_add_one, List.getElem?_eq_getElem h, List.getD_eq_getElem _ _ h, List.map_append]
  rfl

/-- The bytes of `W` from number `m` on, `d` of them, after the break and the bytes before were accepted. -/
theorem requestOver_of_byte (t : Txn) (s : State) (lf : LinFrame) (rx : List Byte) (hbrk : (s.answerAt 0).ack = true) (d : Nat) :
    ∀ m, m + d = (wireBytes t lf).length → 0 < d → (∀ j < m, (s.answerAt (0 + 1 + j)).ack = true) →
      RequestOver t s lf d
        (s.onWire (0 + 1 + m) (sentEvents t.brk (wireBytes t lf) m) ⟨lf, phaseOf lf.data.length m, m, rx⟩) := by
  induction d with
  | zero => intro m _ hd; exact absurd hd (by omega)
  | succ d ih =>
    intro m hm _ hacks
    have hlt : m < (wireBytes t lf).length := by omega
    cases ha : (s.answerAt (0 + 1 + m)).ack with
    | false =>
      have hend := txnStep_write_refused s (sentEvents t.brk (wireBytes t lf) m)
        (x := ⟨lf, phaseOf lf.data.length m, m, rx⟩) t (phaseOf_cases _ _) ha
      rw [show 0 + 1 + m + 1 = 0 + m + 2 by omega] at hend
      refine .of_ended (.inr ⟨hbrk, m, hlt.le, hacks, rfl, ?_⟩) (by simp) hend
      rw [if_pos hlt]; exact ⟨ha, rfl, rfl, rfl⟩
    | true =>
      have hstep := txnStep_write_accepted s (sentEvents t.brk (wireBytes t lf) m)
        (x := ⟨lf, phaseOf lf.data.length m, m, rx⟩) t (phaseOf_cases _ _) ha
      rw [sentEvents_succ t.brk hlt] at hstep
      have hacks' : ∀ j < m + 1, (s.answerAt (0 + 1 + j)).ack = true := by
        intro j hj
        obtain hj | rfl := Nat.lt_succ_iff_lt_or_eq.mp hj
        · exact hacks j hj
        · exact ha
      by_cases hlast : m + 1 < (wireBytes t lf).length
      · exact .step (hstep.trans (afterByte_onWire_byte s _ _ _ t hlast)) (ih (m + 1) (by omega) (by omega) hacks')
      · have hrun : s.requestRun 0 t.brk lf.data.length (wireBytes t lf) .ok .idle
            (sentEvents t.brk (wireBytes t lf) (m + 1)) (0 + (m + 1) + 1) :=
          .inr ⟨hbrk, m + 1, hlt, hacks', rfl, by rw [if_neg hlast]; exact ⟨rfl, rfl, rfl⟩⟩
        rw [show 0 + (m + 1) + 1 = 0 + 1 + m + 1 by omega] at hrun
        cases hresp : t.resp with
        | none =>
          exact .of_ended hrun (by simp [hresp])
            (hstep.trans (afterByte_onWire_end s _ _ _ t (not_lt.mp hlast) hresp))
        | some n =>
          have hsome : t.resp.isSome = true := by simp [hresp]
          exact .of_resp hrun hsome rfl rfl (hstep.trans (afterByte_onWire_resp s _ _ _ t (not_lt.mp hlast) hsome))

/-- The request of a transaction that is at its break. -/
theorem requestOver_of_brk (t : Txn) {s : State} (hp : s.lin.phase = .brk) :
    RequestOver t s (s.lin.lf.withCks t) ((wireBytes t (s.lin.lf.withCks t)).length + 1) s := by
  have hW := wireBytes_length t (s.lin.lf.withCks t)
  cases ha : (s.answerAt 0).ack with
  | false =>
    have hend := txnStep_brk_refused s [] (x := s.lin.place) t hp ha
    rw [State.onWire_zero] at hend
    exact .of_ended (.inl ⟨ha, rfl, rfl, rfl, rfl⟩) (by simp) hend
  | true =>
    have hstep := txnStep_brk_done s [] (x := s.lin.place) t hp ha
    rw [State.onWire_zero] at hstep
    exact .step hstep (requestOver_of_byte t s _ _ ha _ 0 (Nat.zero_add _) (by omega) (by simp))

/-- A request without a response part is the whole transaction. -/
theorem exists_txnEnds_of_brk {t : Txn} (hresp : t.resp = none) {s : State} (hp : s.lin.phase = .brk) :
    ∃ k c ph w n y, k ≤ (wireBytes t (s.lin.lf.withCks t)).length + 1
      ∧ s.requestRun 0 t.brk s.lin.lf.data.length (wireBytes t (s.lin.lf.withCks t)) c ph w n
      ∧ TxnEnds t k s (s.onWire n w y) c ph := by
  obtain ⟨k, c, ph, w, n, y, hk, hrun, hover⟩ := requestOver_of_brk t hp
  rw [if_neg (by simp [hresp])] at hover
  exact ⟨k, c, ph, w, n, y, hk, hrun, hover⟩

/-! ### The response (R199) -/

/-- A request and its response are the whole transaction; what it received is in the engine when it ends OK. -/
theorem exists_txnEnds_of_brk_resp {t : Txn} (hresp : t.resp.isSome = true) {s : State} (hp : s.lin.phase = .brk) :
    ∃ k c ph w rx n y, k ≤ (wireBytes t (s.lin.lf.withCks t)).length + 2
      ∧ s.exchangeRun 0 t.brk s.lin.lf.data.length (wireBytes t (s.lin.lf.withCks t)) t.kind s.lin.lf.pid t.respLen c ph w rx n
      ∧ TxnEnds t k s (s.onWire n w y) c ph ∧ (c = .ok → ph = .idle ∧ y.rx = rx) := by
  obtain ⟨k, c, ph, w, n, y, hk, hrun, hover⟩ := requestOver_of_brk t hp
  by_cases hc : c = .ok
  · subst hc
    obtain rfl : ph = .idle := by
      obtain ⟨_, hc, _⟩ | ⟨_, m, _, _, _, hlast⟩ := hrun
      · cases hc
      · split at hlast
        · cases hlast.2.1
        · exact hlast.2.1
    rw [if_pos ⟨rfl, hresp⟩] at hover
    obtain ⟨hresp_phase, hlf, hsteps⟩ := hover
    obtain ⟨lf, phase, idx, rx⟩ := y
    dsimp only at hresp_phase hlf
    subst hresp_phase hlf
    have hle : ((s.answerAt n).bytes.take (t.respLen + 1)).length ≤ t.respLen + 1 := List.length_take_le _ _
    by_cases hlen : ((s.answerAt n).bytes.take (t.respLen + 1)).length < t.respLen + 1
    · refine ⟨k, .timeout, .resp, _, _, n + 1, _, by omega, .inr ⟨w, n, hrun, rfl, rfl, rfl, ?_⟩,
        ⟨_, hsteps, txnStep_resp_short s w t rfl hlen⟩, by simp⟩
      rw [if_pos hlen]; exact ⟨rfl, rfl⟩
    · have hread := hsteps.snoc (txnStep_resp_complete s w t rfl (by omega))
      have hvalid := txnStep_validate t (s := s.onWire (n + 1)
        (w ++ ((s.answerAt n).bytes.take (t.respLen + 1)).map .rx)
        ⟨s.lin.lf.withCks t, .validate, idx, (s.answerAt n).bytes.take (t.respLen + 1)⟩) rfl
      by_cases hcks : ((s.answerAt n).bytes.take (t.respLen + 1)).getD t.respLen 0
          = cks t.kind s.lin.lf.pid (((s.answerAt n).bytes.take (t.respLen + 1)).take t.respLen)
      · refine ⟨k + 1, .ok, .idle, _, _, n + 1, _, by omega, .inr ⟨w, n, hrun, rfl, rfl, rfl, ?_⟩,
          ⟨_, hread, hvalid.trans (if_pos hcks)⟩, fun _ => ⟨rfl, rfl⟩⟩
        rw [if_neg hlen, if_pos hcks]; exact ⟨rfl, rfl⟩
      · refine ⟨k + 1, .checksumMismatch, .validate, _, _, n + 1, _, by omega, .inr ⟨w, n, hrun, rfl, rfl, rfl, ?_⟩,
          ⟨_, hread, hvalid.trans (if_neg hcks)⟩, by simp⟩
        rw [if_neg hlen, if_neg hcks]; exact ⟨rfl, rfl⟩
  · rw [if_neg (by simp [hc])] at hover
    exact ⟨k, c, ph, w, [], n, y, by omega, .inl ⟨hc, rfl, hrun⟩, hover, fun h => absurd h hc⟩

/-! ### The same runs, seen from an earlier state -/

section
variable {s u : State} {m : Nat} (h : u.env = s.env.after m)
include h

theorem State.requestRun_of_after {i : Nat} {r : BrkKind} {len : Nat} {W : List Byte} {c : Status} {ph : LinPhase}
    {w : List WireEvent} {n : Nat} (hrun : u.requestRun i r len W c ph w n) :
    s.requestRun (m + i) r len W c ph w (m + n) := by
  have hans := State.answerAt_of_after h
  unfold State.requestRun at hrun ⊢
  simp only [hans] at hrun
  obtain ⟨ha, hc, hph, hw, hn⟩ | ⟨ha, j, hj, hacks, hw, hlast⟩ := hrun
  · exact .inl ⟨ha, hc, hph, hw, by omega⟩
  · refine .inr ⟨ha, j, hj, fun l hl => ?_, hw, ?_⟩
    · rw [show m + i + 1 + l = m + (i + 1 + l) by omega]; exact hacks l hl
    · rw [show m + i + 1 + j = m + (i + 1 + j) by omega]
      split at hlast <;> rename_i hlt
      · obtain ⟨hna, hc, hph, hn⟩ := hlast
        rw [if_pos hlt]; exact ⟨hna, hc, hph, by omega⟩
      · obtain ⟨hc, hph, hn⟩ := hlast
        rw [if_neg hlt]; exact ⟨hc, hph, by omega⟩

theorem State.exchangeRun_of_after {i : Nat} {r : BrkKind} {len : Nat} {W : List Byte} {k : CksKind} {p : Byte} {l : Nat}
    {c : Status} {ph : LinPhase} {w : List WireEvent} {rx : List Byte} {n : Nat}
    (hrun : u.exchangeRun i r len W k p l c ph w rx n) : s.exchangeRun (m + i) r len W k p l c ph w rx (m + n) := by
  obtain ⟨hc, hrx, hreq⟩ | ⟨w', n', hreq, hrx, hn, hw, hend⟩ := hrun
  · exact .inl ⟨hc, hrx, State.requestRun_of_after h hreq⟩
  · rw [State.answerAt_of_after h] at hrx
    exact .inr ⟨w', m + n', State.requestRun_of_after h hreq, hrx, by omega, hw, hend⟩

end

/-- The bytes of `W` of a frame that was loaded for a request. -/
theorem wireBytes_withCks (t : Txn) {lf : LinFrame} (hpid : lf.pid = pid lf.id) :
    wireBytes t (lf.withCks t) = requestBytes lf.id lf.data t.cksEn t.kind := by
  unfold wireBytes requestBytes LinFrame.withCks
  rw [← hpid]
  cases t.cksEn <;> rfl

/-- A request whose break and bytes are all accepted ends OK. -/
theorem State.requestRun.ok_of_acks {s : State} {r : BrkKind} {len : Nat} {W : List Byte} {c : Status} {ph : LinPhase}
    {w : List WireEvent} {n : Nat} (h : s.requestRun 0 r len W c ph w n)
    (hacks : ∀ j ≤ W.length, (s.answerAt j).ack = true) : c = .ok ∧ ph = .idle := by
  obtain ⟨hna, _⟩ | ⟨_, m, _, _, _, hlast⟩ := h
  · rw [hacks 0 (Nat.zero_le _)] at hna; cases hna
  · split at hlast
    · rename_i hlt
      have hna := hlast.1
      rw [hacks (0 + 1 + m) (by omega)] at hna
      cases hna
    · exact ⟨hlast.1, hlast.2.1⟩

end Sys2Proof.Machine
end

section
/-! The whole LIN commands on the free engine (R197 to R201, R206 to R211): each runs its transactions to their ends. -/

namespace Sys2Proof.Machine

open Sys2Proof Host

/-! ### A command that goes on, and a command that ends -/

/-- The command `i` goes on for `k` micro-steps, from `s` to `t`. -/
def CmdGoes (i : Instr) (k : Nat) (s t : State) : Prop := ∀ n, runCmd (n + k) i s = runCmd n i t

/-- The command `i` goes on for `k` micro-steps from `s`, and the next one leaves `t`. -/
def CmdEnds (i : Instr) (k : Nat) (s t : State) : Prop := ∃ x, CmdGoes i k s x ∧ exec i x = .next t

theorem CmdGoes.refl (i : Instr) (s : State) : CmdGoes i 0 s s := fun _ => rfl

theorem CmdGoes.trans {i : Instr} {k l : Nat} {s t u : State} (h : CmdGoes i k s t) (h' : CmdGoes i l t u) :
    CmdGoes i (l + k) s u := fun n => by rw [← Nat.add_assoc, h, h']

theorem CmdGoes.of_exec {i : Instr} {s t : State} {Q : Port} (hx : exec i s = .next t) (hQ : t.acting Q)
    (hph : Q.phase ≠ .ready) : CmdGoes i 1 s t := runCmd_goes hx hQ hph

theorem CmdGoes.ends {i : Instr} {k l : Nat} {s t u : State} (h : CmdGoes i k s t) (h' : CmdEnds i l t u) :
    CmdEnds i (l + k) s u := by
  obtain ⟨x, hgoes, hx⟩ := h'
  exact ⟨x, h.trans hgoes, hx⟩

/-- A micro-step that leaves its port outside READY does not end the command. -/
theorem CmdEnds.goes {i : Instr} {k : Nat} {s t : State} {Q : Port} (h : CmdEnds i k s t) (hQ : t.acting Q)
    (hph : Q.phase ≠ .ready) : CmdGoes i (1 + k) s t := by
  obtain ⟨x, hgoes, hx⟩ := h
  exact hgoes.trans (.of_exec hx hQ hph)

/-- A command that ends in time has run as a whole. -/
theorem CmdEnds.runCmd {i : Instr} {k : Nat} {s t : State} {Q : Port} (h : CmdEnds i k s t) (hQ : t.acting Q)
    (hph : Q.phase = .ready) {n : Nat} (hn : k < n) : runCmd n i s = .next t := by
  obtain ⟨x, hgoes, hx⟩ := h
  obtain ⟨m, rfl⟩ : ∃ m, n = m + 1 + k := ⟨n - k - 1, by omega⟩
  rw [hgoes, runCmd_ends hx hQ hph]

/-! ### A command that runs a transaction -/

/-- The acting port `P` runs a transaction on the engine: the configuration is `c`, LIN.CYCLE's first outcome `o`. -/
structure Running (c : Cfg) (P : Port) (o : Option (Status × LinPhase)) (s : State) : Prop where
  acting : s.acting P
  cfg : s.cfg = c
  stage : s.lin.stage = .xfer
  first : s.lin.first = o
  phase : s.lin.phase ≠ .idle

/-- Each micro-step of the command `i` is one step of the transaction `t`, and `fin` is what the command makes of its end. -/
structure Drives (i : Instr) (c : Cfg) (P : Port) (o : Option (Status × LinPhase)) (t : Txn)
    (fin : State → Status → LinPhase → State) : Prop where
  going : ∀ {s u}, Running c P o s → txnStep t s = .going u → exec i s = .next u
  ended : ∀ {s u k ph}, Running c P o s → txnStep t s = .ended u k ph → exec i s = .next (fin u k ph)

section
variable {i : Instr} {c : Cfg} {P : Port} {o : Option (Status × LinPhase)} {t : Txn}

theorem Running.of_kept {s u : State} (h : Running c P o s) (k : TxnKept s u) (hp : u.lin.phase ≠ .idle) : Running c P o u where
  acting := by rw [State.acting_def, k.ports, k.cur]; exact h.acting
  cfg := k.cfg.trans h.cfg
  stage := k.stage.trans h.stage
  first := k.first.trans h.first
  phase := hp

theorem Running.of_going {s u : State} (h : Running c P o s) (hgo : txnStep t s = .going u) : Running c P o u :=
  h.of_kept (txnStep_going hgo) (txnStep_going_phase hgo h.phase)

theorem Running.of_ended {s u : State} {k : Status} {ph : LinPhase} (h : Running c P o s)
    (hend : txnStep t s = .ended u k ph) : Running c P o u :=
  h.of_kept (txnStep_ended hend) (by
    obtain ⟨hne, hp⟩ := txnStep_ended_phase hend
    rw [hp]; exact hne)

theorem Running.of_steps {s u : State} {k : Nat} (h : Running c P o s) (hs : TxnSteps t k s u) : Running c P o u := by
  induction hs with
  | refl s => exact h
  | step hgo _ ih => exact ih (h.of_going hgo)

theorem Running.of_ends {s v : State} {k : Nat} {st : Status} {ph : LinPhase} (h : Running c P o s)
    (hs : TxnEnds t k s v st ph) : Running c P o v := by
  obtain ⟨x, hsteps, hend⟩ := hs
  exact (h.of_steps hsteps).of_ended hend

/-- Steps of the transaction are micro-steps of a command whose every going step is one of them. -/
theorem CmdGoes.of_steps (hrun : P.phase = .lRun)
    (hgoing : ∀ {s u}, Running c P o s → txnStep t s = .going u → exec i s = .next u) {s u : State} {k : Nat}
    (h : Running c P o s) (hs : TxnSteps t k s u) : CmdGoes i k s u := by
  induction hs with
  | refl s => exact .refl i s
  | step hgo _ ih =>
    exact (CmdGoes.of_exec (hgoing h hgo) (h.of_going hgo).acting (by simp [hrun])).trans (ih (h.of_going hgo))

/-- A command that drives a transaction runs it to its end. -/
theorem Drives.ends {fin : State → Status → LinPhase → State} (hd : Drives i c P o t fin) (hrun : P.phase = .lRun)
    {s v : State} {k : Nat} {st : Status} {ph : LinPhase} (h : Running c P o s) (hs : TxnEnds t k s v st ph) :
    CmdEnds i k s (fin v st ph) := by
  obtain ⟨x, hsteps, hend⟩ := hs
  exact ⟨x, .of_steps hrun hd.going h hsteps, hd.ended (h.of_steps hsteps) hend⟩

end

/-! ### The states of a whole command -/

/-- The state `s` with `n` answers used, the engine `l` and the acting port `Q`. -/
def State.ranTo (s : State) (n : Nat) (l : Lin) (Q : Port) : State :=
  { s with env := s.env.after n, lin := l }.withPort Q

theorem State.acting.ranTo {s : State} {P : Port} (hP : s.acting P) (n : Nat) (l : Lin) (Q : Port) : (s.ranTo n l Q).acting Q :=
  State.acting.withPort (s := { s with env := s.env.after n, lin := l }) hP Q

theorem State.ranTo_onWire (s : State) (n : Nat) (l : Lin) (Q : Port) (m : Nat) (w : List WireEvent) (y : TxnPlace) :
    (s.ranTo n l Q).onWire m w y = s.ranTo (n + m) (l.moved w y) Q := by
  unfold State.ranTo
  rw [← Env.after_after]
  rfl

theorem State.ranTo_withPort (s : State) (n : Nat) (l l' : Lin) (Q R : Port) :
    { s.ranTo n l Q with lin := l' }.withPort R = s.ranTo n l' R :=
  State.withPort_withPort (s := { s with env := s.env.after n, lin := l' }) Q R

/-- What the end of a transaction leaves of the engine it ran on: its status, and the longer wire history. -/
theorem State.linEnded_ranTo (s : State) (P : Port) (c : Status) (ph : LinPhase) (r : Quad) (w : List WireEvent) (n : Nat)
    (y : TxnPlace) : s.linEnded P c ph r w (s.env.answers.drop n) (s.ranTo n ((s.lin.moved w y).done c ph) (P.ended c ph r)) := by
  refine ⟨rfl, rfl, rfl, rfl, rfl, rfl, rfl, rfl, rfl, rfl, rfl, rfl, rfl, rfl, rfl, rfl, rfl, rfl, rfl, fun q hq => ?_⟩
  exact List.getElem?_set_ne (Ne.symm hq)

/-- The engine just taken by port `p` (R204). -/
def Lin.taken (l : Lin) (p : Nat) : Lin := { l with owner := some p, phase := .brk, first := none }

/-- The engine with a transaction loaded (R197). -/
def Lin.load (l : Lin) (id : BitVec 6) (data : List Byte) : Lin :=
  { l with lf := ⟨id, data.length, data, pid id, l.lf.cks⟩, phase := .brk, idx := 0, rx := [], stage := .xfer }

theorem startTxn_ranTo (id : BitVec 6) (data : List Byte) (s : State) (n : Nat) (l : Lin) (Q : Port) :
    startTxn id data (s.ranTo n l Q) = s.ranTo n (l.load id data) Q := rfl

/-! ### A request loaded on the engine just taken -/

section
variable {s : State} {P : Port} (hP : s.acting P) (id : BitVec 6) (data : List Byte)
include hP

theorem State.acting.entered_eq_ranTo : s.entered = s.ranTo 0 (s.lin.taken s.cur) { P with phase := .lRun } := by
  rw [hP.entered, State.ranTo, Env.after_zero]
  rfl

theorem State.acting.startTxn_eq_ranTo : startTxn id data s.entered =
    s.ranTo 0 ((s.lin.taken s.cur).load id data) { P with phase := .lRun } := by
  rw [hP.entered_eq_ranTo, startTxn_ranTo]

theorem State.acting.startTxn_running : Running s.cfg { P with phase := .lRun } none (startTxn id data s.entered) :=
  ⟨hP.entered_acting, rfl, rfl, rfl, by simp [startTxn]⟩

/-- From READY the command takes the engine and loads its request. -/
theorem CmdGoes.enter {i : Instr} {legal : Bool} {load body : State → State} (hx : exec i s = linCommand legal load body s)
    (hr : P.phase = .ready) (ho : s.lin.owner = none) (hlegal : legal = true)
    (hload : (load s.entered).acting { P with phase := .lRun }) : CmdGoes i 1 s (load s.entered) :=
  .of_exec (hx.trans (linCommand_free hP ho (.inl hr) hlegal load body)) hload (by simp)

end

theorem startTxn_wireBytes (t : Txn) (id : BitVec 6) (data : List Byte) (u : State) :
    wireBytes t ((startTxn id data u).lin.lf.withCks t) = requestBytes id data t.cksEn t.kind := wireBytes_withCks t rfl

theorem requestBytes_length_le {data : List Byte} (h : data.length ≤ 8) (id : BitVec 6) (c : Bool) (k : CksKind) :
    (requestBytes id data c k).length ≤ 11 := by
  unfold requestBytes
  cases c <;> simp <;> omega

/-- A request just loaded, run to its end. -/
theorem exists_request {t : Txn} (hresp : t.resp = none) {id : BitVec 6} {data : List Byte} (hdata : data.length ≤ 8)
    (u : State) : ∃ k c ph w n y, k ≤ 12 ∧ u.requestRun 0 t.brk data.length (requestBytes id data t.cksEn t.kind) c ph w n
      ∧ TxnEnds t k (startTxn id data u) ((startTxn id data u).onWire n w y) c ph := by
  have hlen := requestBytes_length_le hdata id t.cksEn t.kind
  obtain ⟨k, c, ph, w, n, y, hk, hrun, hends⟩ := exists_txnEnds_of_brk hresp (s := startTxn id data u) rfl
  rw [startTxn_wireBytes] at hk hrun
  exact ⟨k, c, ph, w, n, y, by omega, hrun, hends⟩

/-- A request just loaded and its response, run to their end. -/
theorem exists_exchange {t : Txn} (hresp : t.resp.isSome = true) {id : BitVec 6} {data : List Byte} (hdata : data.length ≤ 8)
    (u : State) : ∃ k c ph w rx n y, k ≤ 13
      ∧ u.exchangeRun 0 t.brk data.length (requestBytes id data t.cksEn t.kind) t.kind (pid id) t.respLen c ph w rx n
      ∧ TxnEnds t k (startTxn id data u) ((startTxn id data u).onWire n w y) c ph
      ∧ (c = .ok → ph = .idle ∧ y.rx = rx) := by
  have hlen := requestBytes_length_le hdata id t.cksEn t.kind
  obtain ⟨k, c, ph, w, rx, n, y, hk, hrun, hends, hok⟩ := exists_txnEnds_of_brk_resp hresp (s := startTxn id data u) rfl
  rw [startTxn_wireBytes] at hk hrun
  exact ⟨k, c, ph, w, rx, n, y, by omega, hrun, hends, hok⟩

/-! ### LIN.SEND (R198) -/

theorem drives_linSend {c : Cfg} {P : Port} {o : Option (Status × LinPhase)} (hrun : P.phase = .lRun) (id : BitVec 6)
    (len : BitVec 4) (ck : Bool) (k : CksKind) (r : BrkKind) :
    Drives (.linSend id len ck k r) c P o (sendTxn ck k r) fun u st ph => linEnd st ph (u.finish st ph) where
  going h hgo := by rw [exec_linSend_run h.acting hrun, sendStep_of_going hgo]
  ended h hend := by rw [exec_linSend_run h.acting hrun, sendStep_of_ended hend]

theorem phaseOf_data {len m : Nat} (h : 2 ≤ m) (h' : m < 2 + len) : phaseOf len m = .data := by
  have hne : m ≠ 0 ∧ m ≠ 1 := by omega
  simp [phaseOf, hne, h']

theorem phaseOf_cks (len : Nat) : phaseOf len (2 + len) = .cks := by
  have hne : 2 + len ≠ 0 ∧ 2 + len ≠ 1 := by omega
  simp [phaseOf, hne]

/-- Settles O42: `PhaseOf` by its cases; a LIN.SEND enters, and its micro-steps are those of its request (`exists_request`). -/
theorem sendWhole : Obligations.SendWhole := by
  refine ⟨fun len => ⟨rfl, rfl, fun m => phaseOf_data, phaseOf_cks len⟩, fun s P id len c k r hP hr ho hlen => ?_⟩
  have hdata := P.lat.bytes_length hlen
  obtain ⟨j, code, ph, w, n, y, hj, hreq, hends⟩ :=
    exists_request (t := sendTxn c k r) rfl (id := id) (data := P.lat.bytes len.toNat) (by omega) s.entered
  rw [hdata] at hreq
  have henter : CmdGoes (.linSend id len c k r) 1 s (startTxn id (P.lat.bytes len.toNat) s.entered) := by
    rw [← hP.loadRequest_entered]
    exact .enter hP (exec_linSend ..) hr ho (lenOk_of_le hlen) hP.entered_acting
  have hrunning := hP.startTxn_running id (P.lat.bytes len.toNat)
  have hcmd := henter.ends ((drives_linSend rfl id len c k r).ends rfl hrunning hends)
  rw [(hrunning.of_ends hends).acting.linEnd_finish, hP.startTxn_eq_ranTo, State.ranTo_onWire, Nat.zero_add,
    State.ranTo_withPort] at hcmd
  exact ⟨_, code, ph, w, n, hcmd.runCmd (hP.ranTo _ _ _) rfl (by omega), hreq, s.linEnded_ranTo P code ph P.r w n y⟩

/-! ### LIN.XCHG (R200) -/

/-- The end of LIN.XCHG and LIN.DIAG: on `OK` the response goes to the result registers. -/
def deliver (t : Txn) (u : State) (c : Status) (ph : LinPhase) : State :=
  if c = .ok then linEnd c ph ((u.setR (responseResults (rxCks t u) t.respLen (rxData t u))).finish c ph)
  else linEnd c ph (u.finish c ph)

/-- The results of a command that has ended with status `c`, after a transaction that received `rx`. -/
def deliveredResults (c : Status) (n : Nat) (rx : List Byte) (r : Quad) : Quad :=
  if c = .ok then responseResults (rx.getD n 0) n (rx.take n) else r

theorem State.acting.deliver {u : State} {P : Port} (hu : u.acting P) (t : Txn) (c : Status) (ph : LinPhase) :
    deliver t u c ph = { u with lin := u.lin.done c ph }.withPort
      (P.ended c ph (deliveredResults c t.respLen u.lin.rx P.r)) := by
  unfold Machine.deliver deliveredResults
  by_cases hc : c = .ok
  · rw [if_pos hc, if_pos hc, hu.linEnd_finish_setR]
    rfl
  · rw [if_neg hc, if_neg hc, hu.linEnd_finish]

theorem deliveredResults_congr {c : Status} {rx rx' : List Byte} (h : c = .ok → rx = rx') (n : Nat) (r : Quad) :
    deliveredResults c n rx r = deliveredResults c n rx' r := by
  unfold deliveredResults
  by_cases hc : c = .ok
  · rw [h hc]
  · rw [if_neg hc, if_neg hc]

theorem drives_linXchg {c : Cfg} {P : Port} {o : Option (Status × LinPhase)} (hrun : P.phase = .lRun) (id : BitVec 6)
    (len n : BitVec 4) (ck : Bool) (k : CksKind) (r : BrkKind) :
    Drives (.linXchg id len n ck k r) c P o (xchgTxn n ck k r) (deliver (xchgTxn n ck k r)) where
  going h hgo := by rw [exec_linXchg_run h.acting hrun, xchgStep_of_going hgo]
  ended {s u st ph} h hend := by
    rw [exec_linXchg_run h.acting hrun, deliver]
    by_cases hst : st = .ok
    · subst hst; rw [xchgStep_of_ok hend, if_pos rfl]
    · rw [xchgStep_of_failed hend hst, if_neg hst]

/-- Settles O43: a LIN.XCHG enters, and its micro-steps are those of its exchange (`exists_exchange`). -/
theorem xchgWhole : Obligations.XchgWhole := by
  intro s P id len n c k r hP hr ho hlen hn
  have hdata := P.lat.bytes_length hlen
  obtain ⟨j, code, ph, w, rx, m, y, hj, hexch, hends, hok⟩ :=
    exists_exchange (t := xchgTxn n c k r) rfl (id := id) (data := P.lat.bytes len.toNat) (by omega) s.entered
  rw [hdata] at hexch
  have henter : CmdGoes (.linXchg id len n c k r) 1 s (startTxn id (P.lat.bytes len.toNat) s.entered) := by
    rw [← hP.loadRequest_entered]
    exact .enter hP (exec_linXchg ..) hr ho (by rw [lenOk_of_le hlen, lenOk_of_le hn]; rfl) hP.entered_acting
  have hrunning := hP.startTxn_running id (P.lat.bytes len.toNat)
  have hcmd := henter.ends ((drives_linXchg rfl id len n c k r).ends rfl hrunning hends)
  rw [(hrunning.of_ends hends).acting.deliver, hP.startTxn_eq_ranTo, State.ranTo_onWire, Nat.zero_add,
    State.ranTo_withPort] at hcmd
  refine ⟨_, code, ph, w, rx, m, hcmd.runCmd (hP.ranTo _ _ _) rfl (by omega), hexch, ?_⟩
  have hresults : deliveredResults code n.toNat y.rx P.r = if code = .ok then
      ⟨(rx.getD n.toNat 0).setWidth 32, n.setWidth 32, packLow (rx.take n.toNat), packHigh (rx.take n.toNat)⟩ else P.r := by
    rw [deliveredResults_congr fun h => (hok h).2, setWidth_eq_ofNat n]
    rfl
  rw [← hresults]
  exact s.linEnded_ranTo P code ph _ w m y

/-! ### The diagnostic exchange (R208) -/

/-- Each micro-step of the command `i` is one step of the diagnostic exchange, and `fin` is what the command makes of its end. -/
structure DrivesDiag (i : Instr) (P : Port) (o : Option (Status × LinPhase)) (fin : State → Status → LinPhase → State) :
    Prop where
  going : ∀ {s u}, s.acting P → s.lin.first = o → s.lin.stage ≠ .frame → s.lin.phase ≠ .idle →
    diagStep s = .going u → exec i s = .next u
  ended : ∀ {s u k ph}, s.acting P → s.lin.first = o → s.lin.stage ≠ .frame → s.lin.phase ≠ .idle →
    diagStep s = .ended u k ph → exec i s = .next (fin u k ph)

/-- The state an exchange leaves: with the telemetry from its response when it ended OK. -/
def State.exchanged (u : State) (c : Status) : State := if c = .ok then telemUpdate u else u

/-- A command that drives the diagnostic exchange runs it to its end, one micro-step longer when the telemetry is updated. -/
theorem DrivesDiag.ends {i : Instr} {c : Cfg} {P : Port} {o : Option (Status × LinPhase)}
    {fin : State → Status → LinPhase → State} (hd : DrivesDiag i P o fin) (hrun : P.phase = .lRun) {s v : State} {k : Nat}
    {st : Status} {ph : LinPhase} (h : Running c P o s) (hs : TxnEnds (diagTxn c) k s v st ph) (hph : st = .ok → ph = .idle) :
    ∃ l ≤ k + 1, CmdEnds i l s (fin (v.exchanged st) st ph) := by
  have hgoing : ∀ {s u}, Running c P o s → txnStep (diagTxn c) s = .going u → exec i s = .next u := by
    intro s u h hgo
    rw [← h.cfg] at hgo
    exact hd.going h.acting h.first (by simp [h.stage]) h.phase (diagStep_of_going h.stage hgo)
  have hv := h.of_ends hs
  obtain ⟨x, hsteps, hend⟩ := hs
  have hx := h.of_steps hsteps
  have hgoes : CmdGoes i k s x := .of_steps hrun hgoing h hsteps
  rw [← hx.cfg] at hend
  unfold State.exchanged
  by_cases hst : st = .ok
  · subst hst
    obtain rfl := hph rfl
    have hupdate : exec i x = .next (telemUpdate v) :=
      hd.going hx.acting hx.first (by simp [hx.stage]) hx.phase (diagStep_of_ok hx.stage hend)
    have hlast : exec i (telemUpdate v) = .next (fin (telemUpdate v) .ok .idle) :=
      hd.ended hv.acting hv.first (by simp [telemUpdate]) hv.phase (diagStep_of_telemDone rfl)
    rw [if_pos rfl]
    exact ⟨k + 1, le_refl _, telemUpdate v,
      Nat.add_comm k 1 ▸ hgoes.trans (.of_exec hupdate (Q := P) hv.acting (by simp [hrun])), hlast⟩
  · rw [if_neg hst]
    exact ⟨k, Nat.le_succ k, x, hgoes,
      hd.ended hx.acting hx.first (by simp [hx.stage]) hx.phase (diagStep_of_failed hx.stage hend hst)⟩

/-! ### The bounds of Cfg on the response (R6) -/

theorem movByte_lt_of_wf {c : Cfg} (h : c.wf = true) : c.movByte < c.diagRespLen := by
  simp only [Cfg.wf, Bool.and_eq_true, decide_eq_true_eq] at h; omega

theorem posByte_lt_of_wf {c : Cfg} (h : c.wf = true) : c.posByte < c.diagRespLen := by
  simp only [Cfg.wf, Bool.and_eq_true, decide_eq_true_eq] at h; omega

/-- The engine after the telemetry update of a legal configuration. -/
def Lin.withTelemOf (c : Cfg) (l : Lin) : Lin :=
  { l with moving := (l.rx.getD c.movByte 0).getLsbD c.movBit, position := l.rx.getD c.posByte 0, stage := .telemDone }

theorem telemUpdate_ranTo {s : State} (hc : s.cfg.wf = true) (n : Nat) (l : Lin) (Q : Port) :
    telemUpdate (s.ranTo n l Q) = s.ranTo n (l.withTelemOf s.cfg) Q := by
  unfold Lin.withTelemOf
  rw [← getD_take_of_lt (movByte_lt_of_wf hc), ← getD_take_of_lt (posByte_lt_of_wf hc)]
  rfl

/-- The engine an exchange leaves. -/
def Lin.exchanged (c : Cfg) (l : Lin) (st : Status) : Lin := if st = .ok then l.withTelemOf c else l

/-- Of the engine at the command's end the exchange decides the telemetry alone. -/
theorem Lin.exchanged_done (c : Cfg) (l : Lin) (st : Status) (ph : LinPhase) : (l.exchanged c st).done st ph =
    { l.done st ph with
      moving := if st = .ok then (l.rx.getD c.movByte 0).getLsbD c.movBit else l.moving
      position := if st = .ok then l.rx.getD c.posByte 0 else l.position } := by
  unfold Lin.exchanged
  by_cases hst : st = .ok
  · rw [if_pos hst, if_pos hst, if_pos hst]; rfl
  · rw [if_neg hst, if_neg hst, if_neg hst]; rfl

theorem State.ranTo_exchanged {s : State} (hc : s.cfg.wf = true) (n : Nat) (l : Lin) (Q : Port) (st : Status) :
    (s.ranTo n l Q).exchanged st = s.ranTo n (l.exchanged s.cfg st) Q := by
  unfold State.exchanged Lin.exchanged
  by_cases hst : st = .ok
  · rw [if_pos hst, if_pos hst, telemUpdate_ranTo hc]
  · rw [if_neg hst, if_neg hst]

/-! ### LIN.DIAG (R208) -/

theorem drives_linDiag {P : Port} {o : Option (Status × LinPhase)} (hrun : P.phase = .lRun) :
    DrivesDiag .linDiag P o fun u => deliver (diagTxn u.cfg) u where
  going hP _ _ _ hgo := by rw [exec_linDiag_run hP hrun, diagCommandStep_of_going hgo]
  ended {s u st ph} hP _ _ _ hend := by
    rw [exec_linDiag_run hP hrun, deliver]
    by_cases hst : st = .ok
    · subst hst; rw [diagCommandStep_of_ok hend, if_pos rfl]; rfl
    · rw [diagCommandStep_of_failed hend hst, if_neg hst]

/-- Settles O44: a LIN.DIAG enters and runs the exchange of Cfg (`DrivesDiag.ends`); the telemetry is what `State.exchanged` makes
of it. -/
theorem diagWhole : Obligations.DiagWhole := by
  intro s P hP hr ho hc n
  obtain ⟨j, code, ph, w, rx, m, y, hj, hexch, hends, hok⟩ :=
    exists_exchange (t := diagTxn s.cfg) rfl (id := s.cfg.diagId) (diagReqData_length_le_of_wf hc) s.entered
  have henter : CmdGoes .linDiag 1 s (startTxn s.cfg.diagId s.cfg.diagReqData s.entered) :=
    .enter hP (exec_linDiag s) hr ho rfl (load := startDiag) hP.entered_acting
  have hrunning := hP.startTxn_running s.cfg.diagId s.cfg.diagReqData
  obtain ⟨l, hl, hcmd⟩ := (drives_linDiag rfl).ends rfl hrunning hends fun h => (hok h).1
  replace hcmd := henter.ends hcmd
  rw [hP.startTxn_eq_ranTo, State.ranTo_onWire, Nat.zero_add, State.ranTo_exchanged hc, (hP.ranTo _ _ _).deliver,
    State.ranTo_withPort] at hcmd
  refine ⟨_, code, ph, w, rx, m, hcmd.runCmd (hP.ranTo _ _ _) rfl (by omega), hexch, fun hcode => ?_, fun hcode => ?_⟩
  · simp only [Lin.exchanged, deliveredResults, if_neg hcode]
    exact s.linEnded_ranTo P code ph P.r w m y
  · obtain ⟨rfl, rfl⟩ := hok hcode
    subst hcode
    exact ⟨s.linEnded_ranTo P .ok .idle _ w m y, rfl, rfl⟩

/-! ### LIN.CYCLE (R210) -/

theorem drives_linCycle_status {c : Cfg} {P : Port} (hrun : P.phase = .lRun) :
    Drives .linCycle c P none (statusTxn c) fun u st ph =>
      (u.finish st ph).updLin fun l => { l with first := some (st, ph) } where
  going h hgo := by
    rw [exec_linCycle_run h.acting hrun, cycleStep_status (by simp [h.stage]) h.first]
    rw [← h.cfg] at hgo
    rw [cycleStatusStep_of_going hgo]
  ended h hend := by
    rw [← h.cfg] at hend
    exact exec_linCycle_status_ended h.acting hrun (by simp [h.stage]) h.first hend

theorem drives_linCycle_diag {P : Port} (hrun : P.phase = .lRun) (c1 : Status) (p1 : LinPhase) :
    DrivesDiag .linCycle P (some (c1, p1)) fun u c2 p2 =>
      linEnd (cycleStatus c1 p1 c2 p2).1 (cycleStatus c1 p1 c2 p2).2 ((u.finish c2 p2).setR0 (cycleWord c1 p1 c2 p2)) where
  going hP hf hs hp hgo := by rw [exec_linCycle_run hP hrun, cycleStep_diag hs hf hp, cycleDiagStep_of_going hgo]
  ended hP hf hs hp hend := by rw [exec_linCycle_run hP hrun, cycleStep_diag hs hf hp, cycleDiagStep_of_ended hend]

/-- The engine at LIN.CYCLE's status frame, of the new counter (R206, R207). -/
def Lin.cycling (l : Lin) (c : Cfg) (p : Nat) : Lin :=
  { l.taken p with counter := l.counter + 1 }.load c.statusId (statusBytes c (l.counter + 1) l.mode)

/-- The engine between LIN.CYCLE's two transactions (R210). -/
def Lin.paused (l : Lin) (c1 : Status) (p1 : LinPhase) : Lin :=
  { l with stCode := c1, stPhase := p1, phase := .idle, idx := 0, rx := [], stage := .xfer, first := some (c1, p1) }

theorem cycleStatus_eq (c1 : Status) (p1 : LinPhase) (c2 : Status) (p2 : LinPhase) :
    cycleStatus c1 p1 c2 p2 = (if c1 ≠ .ok then c1 else c2, if c1 ≠ .ok then p1 else p2) := by
  unfold cycleStatus
  split <;> rfl

theorem cycleWord_eq_ofNat (c1 : Status) (p1 : LinPhase) (c2 : Status) (p2 : LinPhase) :
    cycleWord c1 p1 c2 p2 = BitVec.ofNat 32 (c1.code.toNat + 2 ^ 4 * p1.code.toNat + 2 ^ 8 * c2.code.toNat
      + 2 ^ 12 * p2.code.toNat) := by
  rw [cycleWord, setWidth_eq_ofNat, toNat_append_eq_add, toNat_append_eq_add, toNat_append_eq_add]
  congr 1
  omega

/-- From READY to the start of the status frame: the engine is taken, and the counter advances. -/
theorem linCycle_goes_to_status {s : State} {P : Port} (hP : s.acting P) (hr : P.phase = .ready) (ho : s.lin.owner = none) :
    CmdGoes .linCycle 2 s (s.ranTo 0 (s.lin.cycling s.cfg s.cur) { P with phase := .lRun }) := by
  have harm : armCycle s.entered =
      s.ranTo 0 { s.lin.taken s.cur with stage := .frame } { P with phase := .lRun } := by
    rw [hP.entered_eq_ranTo]; rfl
  have henter : CmdGoes .linCycle 1 s (armCycle s.entered) :=
    .enter hP (exec_linCycle s) hr ho rfl (load := armCycle) hP.entered_acting
  rw [harm] at henter
  have hact := hP.ranTo 0 { s.lin.taken s.cur with stage := .frame } { P with phase := .lRun }
  have hstatus := exec_linCycle_run hact rfl
  rw [cycleStep_frame rfl] at hstatus
  exact henter.trans (.of_exec hstatus (hP.ranTo _ _ _) (by simp))

/-- From the end of the status frame to the start of the exchange. -/
theorem linCycle_goes_to_diag {s : State} {P : Port} (hP : s.acting P) (n : Nat) (l : Lin) (c1 : Status) (p1 : LinPhase) :
    CmdGoes .linCycle 1 (s.ranTo n (l.paused c1 p1) { P with phase := .lRun })
      (s.ranTo n ((l.paused c1 p1).load s.cfg.diagId s.cfg.diagReqData) { P with phase := .lRun }) := by
  have hact := hP.ranTo n (l.paused c1 p1) { P with phase := .lRun }
  have hdiag := exec_linCycle_run hact rfl
  rw [cycleStep_pause (by simp [State.ranTo, Lin.paused]) rfl rfl] at hdiag
  exact .of_exec hdiag (hP.ranTo _ _ _) (by simp)

/-- The status frame, run to its end as a LIN.SEND. -/
theorem linCycle_status {s : State} {P : Port} (hP : s.acting P) (hc : s.cfg.wf = true) :
    ∃ k c1 p1 w n y, k ≤ 12
      ∧ s.requestRun 0 s.cfg.statusBrk s.cfg.statusLen (requestBytes s.cfg.statusId
          (statusBytes s.cfg (s.lin.counter + 1) s.lin.mode) s.cfg.statusCksEn s.cfg.statusCksKind) c1 p1 w n
      ∧ CmdGoes .linCycle (1 + k) (s.ranTo 0 (s.lin.cycling s.cfg s.cur) { P with phase := .lRun })
          (s.ranTo n (((s.lin.cycling s.cfg s.cur).moved w y).paused c1 p1) { P with phase := .lRun }) := by
  have hlen := statusBytes_length s.cfg (s.lin.counter + 1) s.lin.mode
  obtain ⟨k, c1, p1, w, n, y, hk, hreq, hends⟩ := exists_request (t := statusTxn s.cfg) rfl (id := s.cfg.statusId)
    (hlen.trans_le (statusLen_le_of_wf hc))
    (s.ranTo 0 { s.lin.taken s.cur with counter := s.lin.counter + 1 } { P with phase := .lRun })
  have hrunning : Running s.cfg { P with phase := .lRun } none
      (s.ranTo 0 (s.lin.cycling s.cfg s.cur) { P with phase := .lRun }) :=
    ⟨hP.ranTo _ _ _, rfl, rfl, rfl, by simp [State.ranTo, Lin.cycling, Lin.load]⟩
  replace hreq := State.requestRun_of_after (s := s) (m := 0) rfl hreq
  rw [hlen, Nat.zero_add, Nat.zero_add] at hreq
  have hcmd := (drives_linCycle_status rfl).ends rfl hrunning hends
  rw [startTxn_ranTo, State.ranTo_onWire, Nat.zero_add] at hcmd
  exact ⟨k, c1, p1, w, n, y, hk, hreq, hcmd.goes (hP.ranTo _ _ _) (by simp)⟩

/-- The exchange after the status frame, run to the command's end. -/
theorem linCycle_diag {s : State} {P : Port} (hP : s.acting P) (hc : s.cfg.wf = true) (n : Nat) {l : Lin} {c1 : Status}
    {p1 : LinPhase} (hf : l.first = some (c1, p1)) :
    ∃ k c2 p2 w rx m y, k ≤ 14 ∧ s.diagRun n c2 p2 w rx (n + m) ∧ (c2 = .ok → y.rx = rx)
      ∧ CmdEnds .linCycle k (s.ranTo n (l.load s.cfg.diagId s.cfg.diagReqData) { P with phase := .lRun })
          (s.ranTo (n + m) ((((l.load s.cfg.diagId s.cfg.diagReqData).moved w y).exchanged s.cfg c2).done c2 p2)
            (P.ended (cycleStatus c1 p1 c2 p2).1 (cycleStatus c1 p1 c2 p2).2
              { P.r with w0 := cycleWord c1 p1 c2 p2 })) := by
  obtain ⟨k, c2, p2, w, rx, m, y, hk, hexch, hends, hok⟩ := exists_exchange (t := diagTxn s.cfg) rfl (id := s.cfg.diagId)
    (diagReqData_length_le_of_wf hc) (s.ranTo n l { P with phase := .lRun })
  have hrunning : Running s.cfg { P with phase := .lRun } (some (c1, p1))
      (s.ranTo n (l.load s.cfg.diagId s.cfg.diagReqData) { P with phase := .lRun }) :=
    ⟨hP.ranTo _ _ _, rfl, rfl, hf, by simp [State.ranTo, Lin.load]⟩
  obtain ⟨j, hj, hcmd⟩ := (drives_linCycle_diag rfl c1 p1).ends rfl hrunning hends fun h => (hok h).1
  rw [startTxn_ranTo, State.ranTo_onWire, State.ranTo_exchanged hc, (hP.ranTo _ _ _).linEnd_finish_setR0,
    State.ranTo_withPort] at hcmd
  exact ⟨j, c2, p2, w, rx, m, y, by omega, State.exchangeRun_of_after (s := s) (m := n) rfl hexch, fun h => (hok h).2, hcmd⟩

/-- Settles O45: the counter step, the status frame (`linCycle_status`) and the exchange (`linCycle_diag`), one after the
other. -/
theorem cycleWhole : Obligations.CycleWhole := by
  intro s P hP hr ho hc W
  obtain ⟨j, c1, p1, w1, n, y1, hj, hreq, hstatus⟩ := linCycle_status hP hc
  obtain ⟨k, c2, p2, w2, rx, m, y2, hk, hexch, hrx, hends⟩ := linCycle_diag hP hc n
    (l := ((s.lin.cycling s.cfg s.cur).moved w1 y1).paused c1 p1) rfl
  have hcmd := (((linCycle_goes_to_status hP hr ho).trans hstatus).trans (linCycle_goes_to_diag hP n _ c1 p1)).ends hends
  rw [cycleStatus_eq, cycleWord_eq_ofNat, Lin.exchanged_done] at hcmd
  refine ⟨_, c1, p1, w1, n, c2, p2, w2, rx, n + m, hcmd.runCmd (hP.ranTo _ _ _) rfl (by omega), hreq,
    fun hacks => hreq.ok_of_acks hacks, hexch, rfl, rfl, rfl, counter_succ _, rfl, rfl, rfl, rfl, rfl, rfl, ?_, rfl, rfl, rfl,
    rfl, rfl, rfl, rfl⟩
  by_cases hok : c2 = .ok
  · obtain rfl := hrx hok
    rw [if_pos hok]
    exact ⟨if_pos hok, if_pos hok⟩
  · rw [if_neg hok]
    exact ⟨if_neg hok, if_neg hok⟩

end Sys2Proof.Machine
end

section
/-! The system commands from READY (R250 to R252), each as one equation of states, and the liveness predicate over time (R253). -/

namespace Sys2Proof.Machine

open Sys2Proof Host

/-! ### The two writable registers (R251) -/

theorem extractLsb'_zero_eq_ofNat (v : Word) : v.extractLsb' 0 8 = BitVec.ofNat 8 v.toNat := rfl

theorem getLsbD_zero_eq_decide (v : Word) : v.getLsbD 0 = decide (v.toNat % 2 = 1) := by
  rw [BitVec.getLsbD, Nat.testBit_zero]

theorem State.csrWrite_linMode (s : State) (v : Word) : s.csrWrite 0x0020 v =
    some (s.updLin fun l => { l with mode := BitVec.ofNat 8 v.toNat }) := by
  rw [State.csrWrite, if_pos rfl, extractLsb'_zero_eq_ofNat]

theorem State.csrWrite_linCtrl (s : State) (v : Word) : s.csrWrite 0x0024 v =
    some (s.updLin fun l => { l with wake := decide (v.toNat % 2 = 1) }) := by
  rw [State.csrWrite, if_neg (by decide), if_pos rfl, getLsbD_zero_eq_decide]

/-- Every other address is unmapped or read-only. -/
theorem State.csrWrite_other (s : State) {addr : CsrAddr} (hmode : addr ≠ 0x0020) (hctrl : addr ≠ 0x0024) (v : Word) :
    s.csrWrite addr v = none := by
  rw [State.csrWrite, if_neg hmode, if_neg hctrl]

/-! ### The commands on the acting port -/

section
variable {s : State} {P : Port} (hP : s.acting P) (hr : P.phase = .ready)
include hP

/-- Ending the command after a change of the LIN part. -/
theorem State.acting.updLin_endCmd (f : Lin → Lin) (c : Status) (ph : LinPhase) :
    (s.updLin f).endCmd c ph = { s with lin := f s.lin }.withPort (P.ended c ph P.r) :=
  State.acting.endCmd (s := s.updLin f) hP c ph

include hr

/-- R250: a mapped address is read into `R0`. -/
theorem exec_csrRd_mapped {addr : CsrAddr} {v : Word} (hv : s.csrRead addr = some v) :
    exec (.csrRd addr) s = .next (s.withPort (P.ended .ok .idle { P.r with w0 := v })) := by
  simp only [exec_csrRd, hP.oneStep hr, hv, hP.setR0_endCmd]

theorem exec_csrRd_unmapped {addr : CsrAddr} (hv : s.csrRead addr = none) :
    exec (.csrRd addr) s = .next (s.withPort (P.ended .illegalCmd .idle P.r)) := by
  simp only [exec_csrRd, hP.oneStep hr, hv, hP.endCmd]

/-- R251: a writable address takes `A0`. -/
theorem exec_csrWr_writable {addr : CsrAddr} {f : Lin → Lin} (hw : s.csrWrite addr P.lat.w0 = some (s.updLin f)) :
    exec (.csrWr addr) s = .next ({ s with lin := f s.lin }.withPort (P.ended .ok .idle P.r)) := by
  simp only [exec_csrWr, hP.oneStep hr, hP.me, hw, hP.updLin_endCmd]

theorem exec_csrWr_illegal {addr : CsrAddr} (hw : s.csrWrite addr P.lat.w0 = none) :
    exec (.csrWr addr) s = .next (s.withPort (P.ended .illegalCmd .idle P.r)) := by
  simp only [exec_csrWr, hP.oneStep hr, hP.me, hw, hP.endCmd]

/-- R252: ACT.MARK writes the mark only. -/
theorem exec_actMark_ready :
    exec .actMark s = .next ({ s with act := ⟨s.env.now, true⟩ }.withPort (P.ended .ok .idle P.r)) := by
  rw [exec_actMark, hP.oneStep hr]
  exact congrArg Outcome.next (State.acting.endCmd (s := { s with act := ⟨s.env.now, true⟩ }) hP .ok .idle)

end

/-! ### Liveness (R253) -/

/-- The predicate, with the difference modulo `2 ^ 32` on numbers. -/
theorem State.isCanActive_iff (s : State) : s.isCanActive = true ↔
    (s.act.seen = true ∧ (s.env.now.toNat + 2 ^ 32 - s.act.last.toNat) % 2 ^ 32 ≤ s.cfg.canActiveTimeoutMs) := by
  have hdiff : (s.env.now - s.act.last).toNat = (s.env.now.toNat + 2 ^ 32 - s.act.last.toNat) % 2 ^ 32 := by
    rw [BitVec.toNat_sub]
    have := s.act.last.isLt
    congr 1
    omega
  rw [State.isCanActive, Bool.and_eq_true, decide_eq_true_eq, hdiff]

/-- `ACT_ACTIVE[0]` (R40). -/
theorem State.activeWord_getLsbD_zero (s : State) : s.activeWord.getLsbD 0 = s.isCanActive := by
  rw [State.activeWord, BitVec.getLsbD_setWidth, BitVec.getLsbD_append]
  simp

/-- The clock, advanced by less than its period, has advanced by that much modulo the period. -/
theorem advance_sub_mod {now n : Nat} (hnow : now < 2 ^ 32) (hn : n < 2 ^ 32) :
    ((now + n) % 2 ^ 32 + 2 ^ 32 - now) % 2 ^ 32 = n := by
  omega

/-- Just marked, the block is live for as long as the clock has not advanced past the window. -/
theorem State.isCanActive_advance_iff {t : State} (hmark : t.act = ⟨t.env.now, true⟩) {n : Nat} (hn : n < 2 ^ 32) :
    (t.advance n).isCanActive = true ↔ n ≤ t.cfg.canActiveTimeoutMs := by
  rw [State.advance_eq, State.isCanActive_iff]
  simp only [hmark, BitVec.toNat_ofNat, advance_sub_mod t.env.now.isLt hn, true_and]

/-- What ACT.MARK leaves, also where no port is acting: the mark is the present time, under the same configuration. -/
theorem exec_actMark_marks {s t : State} (h : exec .actMark s = .next t) :
    t.act = ⟨t.env.now, true⟩ ∧ t.cfg = s.cfg := by
  rw [exec_actMark, State.oneStep_eq_next] at h
  obtain ⟨_, rfl⟩ := h
  exact ⟨rfl, rfl⟩

/-! ### The obligations -/

/-- Settles O48: the address is mapped or it is not. -/
theorem csrRdReads : Obligations.CsrRdReads := by
  intro s P addr hP hr
  cases hv : s.csrRead addr with
  | some v => exact exec_csrRd_mapped hP hr hv
  | none => exact exec_csrRd_unmapped hP hr hv

/-- Settles O50: the address is `LIN_MODE`'s, `LIN_CTRL`'s, or not writable. -/
theorem csrWrWrites : Obligations.CsrWrWrites := by
  intro s P addr hP hr
  split_ifs with hmode hctrl
  · subst hmode
    exact exec_csrWr_writable hP hr (s.csrWrite_linMode _)
  · subst hctrl
    exact exec_csrWr_writable hP hr (s.csrWrite_linCtrl _)
  · exact exec_csrWr_illegal hP hr (s.csrWrite_other hmode hctrl _)

/-- Settles O51: ACT.MARK from READY, the predicate on numbers and in its register, and the window after a mark
(`State.isCanActive_advance_iff`). -/
theorem actMarkAndLiveness : Obligations.ActMarkAndLiveness := by
  refine ⟨fun _ _ hP hr => exec_actMark_ready hP hr, State.isCanActive_iff,
    fun s => ⟨s.activeWord, rfl, s.activeWord_getLsbD_zero⟩, fun s t n hx hn => ?_⟩
  obtain ⟨hmark, hcfg⟩ := exec_actMark_marks hx
  rw [← hcfg]
  exact State.isCanActive_advance_iff hmark hn

end Sys2Proof.Machine
end

section
/-! The end of a command (R271): what `ST` holds when the acting port is READY again after a micro-step, for each command. -/

namespace Sys2Proof.Machine

open Sys2Proof Host

/-! ### The acting port at the end of its command -/

/-- If the acting port is READY in this state, its `ST` holds a status and a phase of the table `A`. -/
def State.endsWithin (A : Status → LinPhase → Prop) (t : State) : Prop :=
  ∀ Q, t.acting Q → Q.phase = .ready → ∃ c ph, A c ph ∧ Q.st = stWord c ph

theorem State.acting_of_updMe {s : State} {f : Port → Port} {Q : Port} (h : (s.updMe f).acting Q) : ∃ P, f P = Q := by
  rw [State.acting_def, State.updMe_ports, State.updMe_cur, List.getElem?_modify_eq, Option.map_eq_map,
    Option.map_eq_some_iff] at h
  obtain ⟨P, _, hQ⟩ := h
  exact ⟨P, hQ⟩

theorem State.acting.of_eq {s u : State} {P : Port} (hP : s.acting P) (hports : u.ports = s.ports) (hcur : u.cur = s.cur) :
    u.acting P := by
  rw [State.acting_def, hports, hcur]; exact hP

theorem TxnKept.acting {s u : State} {P : Port} (k : TxnKept s u) (hP : s.acting P) : u.acting P := hP.of_eq k.ports k.cur

section
variable {A : Status → LinPhase → Prop}

/-- A command that ends ends with the status it writes. -/
theorem State.endsWithin_endCmd {c : Status} {ph : LinPhase} (h : A c ph) (s : State) : (s.endCmd c ph).endsWithin A := by
  intro Q hQ _
  obtain ⟨P, rfl⟩ := State.acting_of_updMe hQ
  exact ⟨c, ph, h, rfl⟩

theorem linEnd_endsWithin {c : Status} {ph : LinPhase} (h : A c ph) (s : State) : (linEnd c ph s).endsWithin A :=
  State.endsWithin_endCmd h _

/-- A command that goes on to another micro-phase has not ended. -/
theorem State.endsWithin_goto {ph : MicroPhase} (h : ph ≠ .ready) (s : State) : (s.goto ph).endsWithin A := by
  intro Q hQ hready
  obtain ⟨P, rfl⟩ := State.acting_of_updMe hQ
  exact absurd hready h

/-- Nor has one that keeps the engine. -/
theorem State.acting.endsWithin {s : State} {P : Port} (hP : s.acting P) (hrun : P.phase = .lRun) : s.endsWithin A := by
  intro Q hQ hready
  obtain rfl : P = Q := Option.some.inj (hP.symm.trans hQ)
  rw [hrun] at hready
  cases hready

/-! ### The two shared forms of a command -/

theorem oneStep_endsWithin {k : State → State} {s t : State} (h : s.oneStep k = .next t) (hk : (k s).endsWithin A) :
    t.endsWithin A := by
  obtain ⟨_, rfl⟩ := (State.oneStep_eq_next ..).mp h
  exact hk

theorem linEnter_endsWithin {load : State → State} (hload : ∀ u : State, u.lin.phase = .brk → LoadKept u (load u))
    {s : State} {P : Port} (hP : s.acting P) : (linEnter load s).endsWithin A := by
  cases ho : s.lin.owner with
  | none =>
    have k := hload s.entered rfl
    rw [linEnter_free ho]
    exact (hP.entered_acting.of_eq k.ports k.cur).endsWithin rfl
  | some q =>
    rw [linEnter_held ho]
    exact State.endsWithin_goto (by simp) s

/-- A legal command that uses the engine ends in a micro-step of its body only. -/
theorem linCommand_endsWithin {load body : State → State}
    (hload : ∀ u : State, u.lin.phase = .brk → LoadKept u (load u)) {legal : Bool} (hlegal : legal = true) {s t : State}
    {P : Port} (hP : s.acting P) (hbody : P.phase = .lRun → (body s).endsWithin A)
    (h : linCommand legal load body s = .next t) : t.endsWithin A := by
  unfold linCommand at h
  rw [hP.me] at h
  cases hph : P.phase <;> simp only [hph, hlegal, if_true, reduceCtorEq, Outcome.next.injEq] at h <;> subst h
  case ready => exact linEnter_endsWithin hload hP
  case lWait => exact linEnter_endsWithin hload hP
  case lRun => exact hbody hph

end

/-! ### The mailbox -/

theorem postP1_endsWithin (d e : Dir) (s : State) : (postP1 d s).endsWithin (statusAllowed (.mbPost e)) := by
  unfold postP1
  split
  · exact State.endsWithin_endCmd ⟨rfl, .inr (.inl rfl)⟩ _
  · exact State.endsWithin_goto (by simp) _

theorem postStart_endsWithin (d : Dir) (s : State) : (postStart d s).endsWithin (statusAllowed (.mbPost d)) := by
  unfold postStart
  split
  · cases d with
    | tx =>
      show (postM1 s).endsWithin _
      unfold postM1
      split <;> exact State.endsWithin_goto (by simp) _
    | rx => exact postP1_endsWithin .rx .rx s
    | usb => exact postP1_endsWithin .usb .usb s
  · exact State.endsWithin_endCmd ⟨rfl, .inr (.inr rfl)⟩ _

/-- By the micro-step: the start, M2, M3, P1 after the mirror offer, P2, P3 and P4. -/
theorem execMbPost_endsWithin {d : Dir} {s t : State} (h : execMbPost d s = .next t) :
    t.endsWithin (statusAllowed (.mbPost d)) := by
  unfold execMbPost at h
  split at h <;> cases h
  · exact postStart_endsWithin d s
  · exact State.endsWithin_goto (by simp) _
  · unfold postM3
    split <;> exact State.endsWithin_goto (by simp) _
  · exact postP1_endsWithin d d s
  · exact State.endsWithin_goto (by simp) _
  · unfold postP3
    split
    · exact State.endsWithin_endCmd ⟨rfl, .inl rfl⟩ _
    · exact State.endsWithin_goto (by simp) _
  · exact State.endsWithin_endCmd ⟨rfl, .inr (.inl rfl)⟩ _

/-- By the micro-step: F1, F2 and F3. -/
theorem execMbFetch_endsWithin {d : Dir} {s t : State} (h : execMbFetch d s = .next t) :
    t.endsWithin (statusAllowed (.mbFetch d)) := by
  unfold execMbFetch at h
  split at h <;> cases h
  · unfold fetchF1
    split
    · exact State.endsWithin_endCmd ⟨rfl, .inr rfl⟩ _
    · exact State.endsWithin_goto (by simp) _
  · exact State.endsWithin_goto (by simp) _
  · exact State.endsWithin_endCmd ⟨rfl, .inl rfl⟩ _

/-! ### The one-step commands -/

theorem exec_oneStep_endsWithin {i : Instr} {s t : State} (hi : isOneStep i = true) (hwf : i.wf = true)
    (h : exec i s = .next t) : t.endsWithin (statusAllowed i) := by
  cases i <;> simp only [isOneStep, usesEngine, Bool.not_true, Bool.false_eq_true] at hi
  case mbEmpty d => rw [exec_mbEmpty] at h; exact oneStep_endsWithin h (State.endsWithin_endCmd ⟨rfl, rfl⟩ _)
  case fltClear => rw [exec_fltClear] at h; exact oneStep_endsWithin h (State.endsWithin_endCmd ⟨rfl, rfl⟩ _)
  case fltEn n => rw [exec_fltEn] at h; exact oneStep_endsWithin h (State.endsWithin_endCmd ⟨rfl, rfl⟩ _)
  case fltApply => rw [exec_fltApply] at h; exact oneStep_endsWithin h (State.endsWithin_endCmd ⟨rfl, rfl⟩ _)
  case linPid id => rw [exec_linPid] at h; exact oneStep_endsWithin h (State.endsWithin_endCmd ⟨rfl, rfl⟩ _)
  case actMark => rw [exec_actMark] at h; exact oneStep_endsWithin h (State.endsWithin_endCmd ⟨rfl, rfl⟩ _)
  case linCks k len seed =>
    have hlen : lenOk len = true := hwf
    rw [exec_linCks, hlen] at h
    exact oneStep_endsWithin h (State.endsWithin_endCmd ⟨rfl, rfl⟩ _)
  case fltSet slot ext =>
    rw [exec_fltSet] at h
    refine oneStep_endsWithin h ?_
    split <;> exact State.endsWithin_endCmd (by simp [statusAllowed]) _
  case csrRd addr =>
    rw [exec_csrRd] at h
    refine oneStep_endsWithin h ?_
    split <;> exact State.endsWithin_endCmd (by simp [statusAllowed]) _
  case csrWr addr =>
    rw [exec_csrWr] at h
    refine oneStep_endsWithin h ?_
    split <;> exact State.endsWithin_endCmd (by simp [statusAllowed]) _

/-! ### The commands that use the engine -/

/-- The outcomes of a transaction are among those of an exchange. -/
theorem txnOutcome.exchange {t : Txn} {c : Status} {ph : LinPhase} (h : txnOutcome t c ph) : statusAllowed .linDiag c ph :=
  h.imp_right And.right

/-- Without a response part, they are those of a request. -/
theorem txnOutcome.request {t : Txn} {c : Status} {ph : LinPhase} (h : txnOutcome t c ph) (hresp : t.resp = none) :
    sendOutcome c ph := h.resolve_right fun hx => by simp [hresp] at hx

theorem diagStep_acting {s : State} {P : Port} (hP : s.acting P) : (diagStep s).state.acting P := by
  obtain ⟨u, h, e, _⟩ | ⟨u, ph, h, e, _⟩ | ⟨u, c, ph, _, h, e, _⟩ | ⟨e, _⟩ := diagStep_cases s <;> rw [e]
  · exact (txnStep_going h).acting hP
  · exact (txnStep_ended h).acting hP
  · exact (txnStep_ended h).acting hP
  · exact hP

/-- The diagnostic exchange ends as its transaction does, or OK after the telemetry update (R208). -/
theorem diagStep_ended_allowed {s u : State} {c : Status} {ph : LinPhase}
    (h : s.lin.stage ≠ .telemDone → s.lin.inTxn (diagTxn s.cfg)) (hend : diagStep s = .ended u c ph) :
    statusAllowed .linDiag c ph := by
  obtain ⟨v, _, he, _⟩ | ⟨v, p, _, he, _⟩ | ⟨v, k, p, _, hstep, he, hs⟩ | ⟨he, _⟩ := diagStep_cases s
    <;> rw [hend] at he <;> cases he
  · exact (txnStep_ended_outcome (h hs) hstep).1.exchange
  · exact .inl (.inl ⟨rfl, rfl⟩)

/-- R210, R275: LIN.CYCLE reports the first of its two outcomes that is not OK. -/
theorem cycleStatus_allowed {c1 c2 : Status} {p1 p2 : LinPhase} (h1 : sendOutcome c1 p1) (h2 : statusAllowed .linDiag c2 p2) :
    statusAllowed .linCycle (cycleStatus c1 p1 c2 p2).1 (cycleStatus c1 p1 c2 p2).2 := by
  unfold cycleStatus
  split
  · exact .inl h1
  · exact h2

section
variable {s : State} {P : Port} (hP : s.acting P) (hrun : P.phase = .lRun)
include hP hrun

theorem sendStep_endsWithin {t : Txn} (hresp : t.resp = none) (h : s.lin.inTxn t) : (sendStep t s).endsWithin sendOutcome := by
  unfold sendStep
  split <;> rename_i hstep
  · exact ((txnStep_going hstep).acting hP).endsWithin hrun
  · exact linEnd_endsWithin ((txnStep_ended_outcome h hstep).1.request hresp) _

theorem xchgStep_endsWithin {t : Txn} (h : s.lin.inTxn t) : (xchgStep t s).endsWithin (statusAllowed .linDiag) := by
  unfold xchgStep
  split <;> rename_i hstep
  · exact ((txnStep_going hstep).acting hP).endsWithin hrun
  · exact linEnd_endsWithin (txnStep_ended_outcome h hstep).1.exchange _
  · exact linEnd_endsWithin (txnStep_ended_outcome h hstep).1.exchange _

theorem diagCommandStep_endsWithin (h : s.lin.stage ≠ .telemDone → s.lin.inTxn (diagTxn s.cfg)) :
    (diagCommandStep s).endsWithin (statusAllowed .linDiag) := by
  have hu := diagStep_acting hP
  unfold diagCommandStep
  split <;> rename_i hstep
  · rw [hstep] at hu
    exact hu.endsWithin hrun
  · exact linEnd_endsWithin (diagStep_ended_allowed h hstep) _
  · exact linEnd_endsWithin (diagStep_ended_allowed h hstep) _

theorem cycleStatusStep_endsWithin {A : Status → LinPhase → Prop} : (cycleStatusStep s).endsWithin A := by
  unfold cycleStatusStep
  split <;> rename_i hstep
  · exact ((txnStep_going hstep).acting hP).endsWithin hrun
  · exact State.acting.endsWithin ((txnStep_ended hstep).acting hP) hrun

theorem cycleDiagStep_endsWithin {c1 : Status} {p1 : LinPhase} (h1 : sendOutcome c1 p1)
    (h : s.lin.stage ≠ .telemDone → s.lin.inTxn (diagTxn s.cfg)) :
    (cycleDiagStep c1 p1 s).endsWithin (statusAllowed .linCycle) := by
  have hu := diagStep_acting hP
  unfold cycleDiagStep
  split <;> rename_i hstep
  · rw [hstep] at hu
    exact hu.endsWithin hrun
  · exact linEnd_endsWithin (cycleStatus_allowed h1 (diagStep_ended_allowed h hstep)) _

/-- LIN.CYCLE ends with its exchange only; its first outcome is then that of its status frame (`Lin.runs`). -/
theorem cycleStep_endsWithin (h : s.lin.runs s.cfg .linCycle) : (cycleStep s).endsWithin (statusAllowed .linCycle) := by
  by_cases hs : s.lin.stage = .frame
  · rw [cycleStep_frame hs]
    exact State.acting.endsWithin hP hrun
  cases hf : s.lin.first with
  | none =>
    rw [cycleStep_status hs hf]
    exact cycleStatusStep_endsWithin hP hrun
  | some o =>
    by_cases hp : s.lin.phase = .idle
    · rw [cycleStep_pause hs hf hp]
      exact State.acting.endsWithin hP hrun
    · rw [cycleStep_diag hs hf hp]
      refine cycleDiagStep_endsWithin hP hrun (h.2 _ _ hf).2 fun htel => ?_
      have hx : s.lin.stage = .xfer := by simpa [hs, hf, htel, hp] using h.1.stages
      exact h.inTxn hx hp (by simp [commandTxn, hf])

end

theorem exec_usesEngine_endsWithin {i : Instr} {s t : State} {P : Port} (hP : s.acting P) (hi : usesEngine i = true)
    (hwf : i.wf = true) (hruns : P.phase = .lRun → s.lin.runs s.cfg i) (h : exec i s = .next t) :
    t.endsWithin (statusAllowed i) := by
  cases i <;> simp only [usesEngine, Bool.false_eq_true] at hi
  case linSend id len c k r =>
    refine linCommand_endsWithin (load := loadRequest id len) (fun u _ => startTxn_loadKept id _ u) hwf hP (fun hrun => ?_) h
    have hplace := (hruns hrun).stage_xfer (by simp) (by simp)
    exact sendStep_endsWithin hP hrun rfl ((hruns hrun).inTxn hplace.1 hplace.2 rfl)
  case linXchg id len n c k r =>
    refine linCommand_endsWithin (load := loadRequest id len) (fun u _ => startTxn_loadKept id _ u) hwf hP (fun hrun => ?_) h
    have hplace := (hruns hrun).stage_xfer (by simp) (by simp)
    exact xchgStep_endsWithin hP hrun ((hruns hrun).inTxn hplace.1 hplace.2 rfl)
  case linDiag =>
    refine linCommand_endsWithin (fun u _ => startTxn_loadKept _ _ u) rfl hP (fun hrun => ?_) h
    refine diagCommandStep_endsWithin hP hrun fun htel => ?_
    have hx : s.lin.stage = .xfer ∧ s.lin.phase ≠ .idle := by simpa [htel] using (hruns hrun).1.stages
    exact (hruns hrun).inTxn hx.1 hx.2 rfl
  case linCycle =>
    exact linCommand_endsWithin (load := armCycle) (fun u hu => ⟨rfl, rfl, rfl, rfl, rfl, rfl, hu⟩) rfl hP
      (fun hrun => cycleStep_endsWithin hP hrun (hruns hrun)) h

/-! ### Every command -/

/-- R271: a micro-step of the command that the acting port presents ends it within the command's own row of the table. -/
theorem State.Inv.exec_endsWithin {i : Instr} {s t : State} {P : Port} (h : s.Inv) (hP : s.acting P)
    (hd : decode P.cw = .ok i) (hx : Machine.exec i s = .next t) : t.endsWithin (statusAllowed i) := by
  have hwf : i.wf = true := (encodeOfDecode P.cw i hd).1
  obtain hone | heng | ⟨d, rfl⟩ | ⟨d, rfl⟩ := instr_forms i
  · exact exec_oneStep_endsWithin hone hwf hx
  · obtain ⟨howner, _⟩ := h.engine
    exact exec_usesEngine_endsWithin hP heng hwf
      (fun hrun => h.progress s.cur P i ((howner s.cur P hP).mp hrun) hP hd) hx
  · exact execMbPost_endsWithin hx
  · exact execMbFetch_endsWithin hx

/-- A port whose command a micro-step ends is READY (R39). -/
theorem ExecEffect.ready_of_ended {i : Instr} {s t : State} {P Q : Port} (h : ExecEffect i s P t Q) (hreq : P.req = true)
    (hfit : P.phase = .ready ∨ fitsPhase i P.phase = true) (hQ : Q.req = false) : Q.phase = .ready := by
  obtain hready | ⟨hsame, _⟩ := h.stays hfit
  · exact hready
  · rw [hQ, hreq] at hsame; cases hsame

/-- Settles O55: the numbers are those of the definitions; the scheduled port's micro-step ends its command READY
(`ExecEffect.ready_of_ended`) and within the table (`State.Inv.exec_endsWithin`). -/
theorem statusTable : Obligations.StatusTable := by
  refine ⟨by decide, by decide, fun s t p P Q i hs hstep he hp hreq hd hQ hend => ?_⟩
  have hact : State.acting { s.nextEvent.2 with cur := p } P := by rw [← s.nextEvent_ports] at hp; exact hp
  rw [step_of_event he] at hstep
  have hx : exec i { s.nextEvent.2 with cur := p } = .next t :=
    (portStep_decoded (s := s.nextEvent.2) hact hreq hd).symm.trans hstep
  have hinv := hs.nextEvent.schedule p
  obtain ⟨R, e⟩ := exec_effect hact hx
  have hQact : t.acting Q := by rw [State.acting_def, e.cur]; exact hQ
  obtain rfl : R = Q := Option.some.inj ((e.acting hact).symm.trans hQact)
  have hready := e.ready_of_ended hreq ((hs.ports P (List.mem_of_getElem? hp)).fitsPhase hd) hend
  obtain ⟨c, ph, hallowed, hst⟩ := hinv.exec_endsWithin hact hd hx R hQact hready
  exact ⟨hready, c, ph, hallowed, hst.trans (stWord_eq_ofNat c ph)⟩

end Sys2Proof.Machine
end

section
/-! The reset event (R310). -/

namespace Sys2Proof.Machine

open Sys2Proof Host

/-- Settles O11: the event resets with the configuration and the inputs of the state, and taking it from the script keeps the
configuration. -/
theorem resetIsTotal : Obligations.ResetIsTotal := by
  intro s he
  rw [step_of_event he, ← s.nextEvent_cfg]
  rfl

end Sys2Proof.Machine
end

section
/-! The bounded number of its own micro-steps that a command takes (R325): the model's bound `Port.remaining` is at most 34, falls
with the port's own micro-steps, and is left alone by every other agent but reset. -/

namespace Sys2Proof.Machine

open Sys2Proof Host

/-! ### What the bound reads -/

theorem Port.remaining_congr {P Q : Port} (h : Q.phase = P.phase) (c : Cfg) (l : Lin) (i : Instr) :
    Q.remaining c l i = P.remaining c l i := by
  unfold Port.remaining; rw [h]

theorem Port.remaining_lRun {P : Port} (h : P.phase = .lRun) (c : Cfg) (l : Lin) (i : Instr) :
    P.remaining c l i = linRemaining c i l := by
  unfold Port.remaining; rw [h]

theorem Port.remaining_lWait {P : Port} (h : P.phase = .lWait) (c : Cfg) (l : Lin) (i : Instr) : P.remaining c l i = 33 := by
  unfold Port.remaining; rw [h]

theorem Port.remaining_ready_usesEngine {P : Port} (h : P.phase = .ready) {i : Instr} (hi : usesEngine i = true) (c : Cfg)
    (l : Lin) : P.remaining c l i = 34 := by
  unfold Port.remaining; rw [h]
  cases i <;> simp only [usesEngine, Bool.false_eq_true] at hi
  all_goals rfl

/-- Outside `L_RUN` the bound is the micro-phase's own: it does not see the engine, and is at most 34. -/
theorem Port.remaining_outside {P : Port} (h : P.phase ≠ .lRun) (c : Cfg) (l l' : Lin) (i : Instr) :
    P.remaining c l i = P.remaining c l' i ∧ P.remaining c l i ≤ 34 := by
  unfold Port.remaining
  cases hph : P.phase with
  | ready => cases i <;> simp
  | pMirrorClaimed k copied => cases copied <;> simp
  | pPrimary => simp
  | pClaimed d k pos => cases pos <;> simp
  | fPopped d k out => cases out <;> simp
  | lWait => simp
  | lRun => exact absurd hph h

/-- The mode and the wake line are no part of a transaction's progress. -/
theorem linRemaining_mode_wake (c : Cfg) (i : Instr) (l : Lin) (m : Byte) (w : Bool) :
    linRemaining c i { l with mode := m, wake := w } = linRemaining c i l := rfl

/-! ### The bound of a transaction (R197, R199) -/

/-- A break, 11 bytes at most, the response and its validation. -/
theorem txnRemaining_le (t : Txn) {l : Lin} (h : l.lf.ok) : txnRemaining t l ≤ 14 := by
  obtain ⟨_, hlen, _⟩ := h
  have hW : (wireBytes t l.lf).length ≤ 11 := by rw [wireBytes_length]; split <;> omega
  unfold txnRemaining
  split <;> omega

theorem txnRemaining_startTxn_le (t : Txn) (id : BitVec 6) {data : List Byte} (hlen : data.length ≤ 8) (u : State) :
    txnRemaining t (startTxn id data u).lin ≤ 14 := txnRemaining_le t ⟨rfl, hlen, rfl⟩

/-- R202: a transaction that goes on is nearer its end. -/
theorem txnStep_going_remaining {t : Txn} {s u : State} (h : s.lin.inTxn t) (hgo : txnStep t s = .going u) :
    txnRemaining t u.lin < txnRemaining t s.lin := by
  obtain ⟨v, hv, _, hlt⟩ | ⟨v, c, ph, hv, _⟩ := txnStep_progress h <;> rw [hgo] at hv <;> cases hv
  exact hlt

theorem Lin.at.txnRemaining_le {c : Cfg} {i : Instr} {l : Lin} (h : l.at c i) (hs : l.stage = .xfer) (t : Txn) :
    txnRemaining t l ≤ 14 := by
  by_cases hp : l.phase = .idle
  · simp [txnRemaining, hp]
  · refine Machine.txnRemaining_le t ?_
    unfold Lin.at at h
    rw [hs] at h
    cases hph : l.phase <;> simp only [hph] at h
    case idle => exact absurd hph hp
    case brk => exact h
    all_goals exact h.1

/-! ### The bound of a command that owns the engine -/

/-- The bound of a diagnostic exchange (R208): its transaction, and one micro-step more after the telemetry update. -/
def diagRemaining (c : Cfg) (l : Lin) : Nat := if l.stage = .telemDone then 1 else txnRemaining (diagTxn c) l + 1

theorem linRemaining_linDiag (c : Cfg) (l : Lin) : linRemaining c .linDiag l = diagRemaining c l := rfl

theorem linRemaining_linCycle_frame (c : Cfg) {l : Lin} (hs : l.stage = .frame) : linRemaining c .linCycle l = 32 := by
  simp [linRemaining, hs]

theorem linRemaining_linCycle_status (c : Cfg) {l : Lin} (hs : l.stage = .xfer) (hf : l.first = none) :
    linRemaining c .linCycle l = txnRemaining (statusTxn c) l + 17 := by
  simp [linRemaining, hs, hf]

theorem linRemaining_linCycle_pause (c : Cfg) {l : Lin} (hs : l.stage = .xfer) (hf : l.first.isSome = true)
    (hp : l.phase = .idle) : linRemaining c .linCycle l = 16 := by
  obtain ⟨o, hf⟩ := Option.isSome_iff_exists.mp hf
  simp [linRemaining, hs, hf, hp]

theorem linRemaining_linCycle_diag (c : Cfg) {l : Lin} (hs : l.stage ≠ .frame) (hf : l.first.isSome = true)
    (hp : l.phase ≠ .idle) : linRemaining c .linCycle l = diagRemaining c l := by
  obtain ⟨o, hf⟩ := Option.isSome_iff_exists.mp hf
  cases hst : l.stage with
  | frame => exact absurd hst hs
  | xfer => simp [linRemaining, diagRemaining, hst, hf, hp]
  | telemDone => simp [linRemaining, diagRemaining, hst]

theorem Lin.at.diagRemaining_le {c : Cfg} {i : Instr} {l : Lin} (h : l.at c i) (hs : l.stage ≠ .frame) :
    diagRemaining c l ≤ 15 := by
  unfold diagRemaining
  split_ifs with htel
  · omega
  · have hx : l.stage = .xfer := by
      cases hst : l.stage with
      | frame => exact absurd hst hs
      | xfer => rfl
      | telemDone => exact absurd hst htel
    have := h.txnRemaining_le hx (diagTxn c)
    omega

/-- Wherever a command that owns the engine is, its bound is met: LIN.CYCLE at its counter step is farthest from its end. -/
theorem Lin.runs.remaining_le {c : Cfg} {i : Instr} {l : Lin} (h : l.runs c i) (hi : usesEngine i = true) :
    linRemaining c i l ≤ 32 := by
  cases i <;> simp only [usesEngine, Bool.false_eq_true] at hi
  case linSend id len ck k r =>
    have := h.1.txnRemaining_le (h.stage_xfer (by simp) (by simp)).1 (sendTxn ck k r)
    exact this.trans (by omega)
  case linXchg id len n ck k r =>
    have := h.1.txnRemaining_le (h.stage_xfer (by simp) (by simp)).1 (xchgTxn n ck k r)
    exact this.trans (by omega)
  case linDiag =>
    have hs : l.stage ≠ .frame := fun hs => by simpa [hs] using h.1.stages
    exact (h.1.diagRemaining_le hs).trans (by omega)
  case linCycle =>
    by_cases hs : l.stage = .frame
    · exact (linRemaining_linCycle_frame c hs).le
    cases hf : l.first with
    | none =>
      have hx : l.stage = .xfer ∧ l.phase ≠ .idle := by simpa [hs, hf] using h.1.stages
      have := h.1.txnRemaining_le hx.1 (statusTxn c)
      rw [linRemaining_linCycle_status c hx.1 hf]
      omega
    | some o =>
      by_cases hp : l.phase = .idle
      · have hx : l.stage = .xfer := by simpa [hs, hp, hf] using h.1.stages
        rw [linRemaining_linCycle_pause c hx (by simp [hf]) hp]
        omega
      · rw [linRemaining_linCycle_diag c hs (by simp [hf]) hp]
        exact (h.1.diagRemaining_le hs).trans (by omega)

/-! ### A micro-step that brings the command nearer its end -/

/-- In this state the acting port's command `i` has ended, or has fewer than `n` of its own micro-steps before it. -/
def State.nears (i : Instr) (n : Nat) (t : State) : Prop :=
  ∀ Q, t.acting Q → (Q.req = false ∧ Q.phase = .ready) ∨ Q.remaining t.cfg t.lin i < n

section
variable {i : Instr} {n : Nat}

theorem State.nears_endCmd (c : Status) (ph : LinPhase) (s : State) : (s.endCmd c ph).nears i n := by
  intro Q hQ
  obtain ⟨P, rfl⟩ := State.acting_of_updMe hQ
  exact .inl ⟨rfl, rfl⟩

/-- To a micro-phase with the bound `k`. -/
theorem State.nears_goto {ph : MicroPhase} {k : Nat}
    (h : ∀ (c : Cfg) (l : Lin) (P : Port), Port.remaining c l i { P with phase := ph } = k) (hk : k < n) (s : State) :
    (s.goto ph).nears i n := by
  intro Q hQ
  obtain ⟨P, rfl⟩ := State.acting_of_updMe hQ
  exact .inr ((h _ _ P).trans_lt hk)

/-- The port goes on with the engine. -/
theorem State.acting.nears {s : State} {P : Port} (hP : s.acting P) (hrun : P.phase = .lRun)
    (h : linRemaining s.cfg i s.lin < n) : s.nears i n := by
  intro Q hQ
  obtain rfl : P = Q := Option.some.inj (hP.symm.trans hQ)
  exact .inr (by rwa [Port.remaining_lRun hrun])

end

/-! ### The one-step commands and the mailbox (R325) -/

/-- A one-step command ends in its micro-step. -/
theorem exec_oneStep_ends {i : Instr} {s t : State} (hi : isOneStep i = true) (h : exec i s = .next t) :
    ∃ u c ph, t = State.endCmd u c ph := by
  cases i <;> simp only [isOneStep, usesEngine, Bool.not_true, Bool.false_eq_true] at hi
  all_goals
    simp only [exec_mbEmpty, exec_fltClear, exec_fltSet, exec_fltEn, exec_fltApply, exec_linPid, exec_linCks, exec_actMark,
      exec_csrRd, exec_csrWr, State.oneStep_eq_next] at h
    obtain ⟨_, rfl⟩ := h
  case fltSet | linCks | csrRd | csrWr => split <;> exact ⟨_, _, _, rfl⟩
  all_goals exact ⟨_, _, _, rfl⟩

theorem postP1_nears {d e : Dir} {n : Nat} (hn : 3 < n) (s : State) : (postP1 d s).nears (.mbPost e) n := by
  unfold postP1
  split
  · exact State.nears_endCmd _ _ _
  · exact State.nears_goto (fun _ _ _ => rfl) hn _

/-- From READY: to the mirror offer for TX, else to the claim. -/
theorem postStart_nears (d : Dir) (s : State) : (postStart d s).nears (.mbPost d) 7 := by
  unfold postStart
  split
  · cases d with
    | tx =>
      show (postM1 s).nears _ _
      unfold postM1
      split
      · exact State.nears_goto (fun _ _ _ => rfl) (by decide) _
      · exact State.nears_goto (fun _ _ _ => rfl) (by decide) _
    | rx => exact postP1_nears (by omega) s
    | usb => exact postP1_nears (by omega) s
  · exact State.nears_endCmd _ _ _

theorem execMbPost_nears {d : Dir} {s t : State} (h : execMbPost d s = .next t) :
    t.nears (.mbPost d) (s.me.remaining s.cfg s.lin (.mbPost d)) := by
  unfold execMbPost at h
  unfold Port.remaining
  split at h <;> rename_i hph <;> cases h <;> simp only [hph]
  · exact postStart_nears d s
  · exact State.nears_goto (fun _ _ _ => rfl) (by decide) _
  · unfold postM3
    split <;> exact State.nears_goto (fun _ _ _ => rfl) (by decide) _
  · exact postP1_nears (by omega) s
  · exact State.nears_goto (fun _ _ _ => rfl) (by decide) _
  · unfold postP3
    split
    · exact State.nears_endCmd _ _ _
    · exact State.nears_goto (fun _ _ _ => rfl) (by decide) _
  · exact State.nears_endCmd _ _ _

theorem execMbFetch_nears {d : Dir} {s t : State} (h : execMbFetch d s = .next t) :
    t.nears (.mbFetch d) (s.me.remaining s.cfg s.lin (.mbFetch d)) := by
  unfold execMbFetch at h
  unfold Port.remaining
  split at h <;> rename_i hph <;> cases h <;> simp only [hph]
  · unfold fetchF1
    split
    · exact State.nears_endCmd _ _ _
    · exact State.nears_goto (fun _ _ _ => rfl) (by decide) _
  · exact State.nears_goto (fun _ _ _ => rfl) (by decide) _
  · exact State.nears_endCmd _ _ _

/-! ### The owner of the engine -/

/-- Where the diagnostic exchange is when it goes on: in a phase of its own, under the same first outcome. -/
theorem diagStep_going_place {s u : State} (hs : s.lin.stage ≠ .frame) (hp : s.lin.phase ≠ .idle) (hgo : diagStep s = .going u) :
    u.cfg = s.cfg ∧ u.lin.stage ≠ .frame ∧ u.lin.phase ≠ .idle ∧ u.lin.first = s.lin.first := by
  obtain ⟨v, hstep, he, _⟩ | ⟨v, ph, hstep, he, _⟩ | ⟨v, c, ph, _, _, he, _⟩ | ⟨he, _⟩ := diagStep_cases s
    <;> rw [hgo] at he <;> cases he
  · have k := txnStep_going hstep
    exact ⟨k.cfg, k.stage ▸ hs, txnStep_going_phase hstep hp, k.first⟩
  · have k := txnStep_ended hstep
    refine ⟨k.cfg, ?_, ?_, k.first⟩
    · show LinStage.telemDone ≠ .frame
      simp
    · show v.lin.phase ≠ .idle
      rw [(txnStep_ended_phase hstep).2]
      exact hp

/-- A diagnostic exchange that goes on is nearer its end; the telemetry update is the micro-step after the validation. -/
theorem diagStep_going_remaining {s u : State} (h : s.lin.stage ≠ .telemDone → s.lin.inTxn (diagTxn s.cfg))
    (hgo : diagStep s = .going u) : diagRemaining u.cfg u.lin < diagRemaining s.cfg s.lin := by
  obtain ⟨v, hstep, he, hs⟩ | ⟨v, ph, hstep, he, hs⟩ | ⟨v, c, ph, _, _, he, _⟩ | ⟨he, _⟩ := diagStep_cases s
    <;> rw [hgo] at he <;> cases he
  · have k := txnStep_going hstep
    have hlt := txnStep_going_remaining (h hs) hstep
    simpa [diagRemaining, k.stage, k.cfg, hs] using hlt
  · have hval : s.lin.phase = .validate := ((txnStep_ended_outcome (h hs) hstep).2 rfl rfl).1
    simp [diagRemaining, hs, telemUpdate, txnRemaining, hval]

section
variable {s : State} {P : Port} (hP : s.acting P) (hrun : P.phase = .lRun)
include hP hrun

/-- A command that is its transaction and nothing more comes nearer its end as the transaction goes on. -/
theorem txnStep_going_nears {i : Instr} {t : Txn} (h : s.lin.inTxn t) (hi : ∀ c l, linRemaining c i l = txnRemaining t l)
    {u : State} (hgo : txnStep t s = .going u) : u.nears i (linRemaining s.cfg i s.lin) := by
  refine ((txnStep_going hgo).acting hP).nears hrun ?_
  rw [hi, hi]
  exact txnStep_going_remaining h hgo

theorem sendStep_nears {i : Instr} {t : Txn} (h : s.lin.inTxn t) (hi : ∀ c l, linRemaining c i l = txnRemaining t l) :
    (sendStep t s).nears i (linRemaining s.cfg i s.lin) := by
  unfold sendStep
  split <;> rename_i hstep
  · exact txnStep_going_nears hP hrun h hi hstep
  · exact State.nears_endCmd _ _ _

theorem xchgStep_nears {i : Instr} {t : Txn} (h : s.lin.inTxn t) (hi : ∀ c l, linRemaining c i l = txnRemaining t l) :
    (xchgStep t s).nears i (linRemaining s.cfg i s.lin) := by
  unfold xchgStep
  split <;> rename_i hstep
  · exact txnStep_going_nears hP hrun h hi hstep
  · exact State.nears_endCmd _ _ _
  · exact State.nears_endCmd _ _ _

theorem diagCommandStep_nears (h : s.lin.stage ≠ .telemDone → s.lin.inTxn (diagTxn s.cfg)) :
    (diagCommandStep s).nears .linDiag (linRemaining s.cfg .linDiag s.lin) := by
  have hu := diagStep_acting hP
  unfold diagCommandStep
  split <;> rename_i hstep
  · rw [hstep] at hu
    exact hu.nears hrun (diagStep_going_remaining h hstep)
  · exact State.nears_endCmd _ _ _
  · exact State.nears_endCmd _ _ _

/-- LIN.CYCLE's status frame: it goes on, or leaves the engine to the exchange (R210). -/
theorem cycleStatusStep_nears (hs : s.lin.stage = .xfer) (hf : s.lin.first = none) (h : s.lin.inTxn (statusTxn s.cfg)) :
    (cycleStatusStep s).nears .linCycle (linRemaining s.cfg .linCycle s.lin) := by
  rw [linRemaining_linCycle_status _ hs hf]
  unfold cycleStatusStep
  split <;> rename_i hstep
  · have k := txnStep_going hstep
    have hlt := txnStep_going_remaining h hstep
    refine (k.acting hP).nears hrun ?_
    rw [linRemaining_linCycle_status _ (k.stage.trans hs) (k.first.trans hf), k.cfg]
    omega
  · refine State.acting.nears ((txnStep_ended hstep).acting hP) hrun ?_
    rw [linRemaining_linCycle_pause _ rfl rfl rfl]
    omega

theorem cycleDiagStep_nears {c1 : Status} {p1 : LinPhase} (hs : s.lin.stage ≠ .frame) (hf : s.lin.first.isSome = true)
    (hp : s.lin.phase ≠ .idle) (h : s.lin.stage ≠ .telemDone → s.lin.inTxn (diagTxn s.cfg)) :
    (cycleDiagStep c1 p1 s).nears .linCycle (linRemaining s.cfg .linCycle s.lin) := by
  have hu := diagStep_acting hP
  rw [linRemaining_linCycle_diag _ hs hf hp]
  unfold cycleDiagStep
  split <;> rename_i hstep
  · rw [hstep] at hu
    obtain ⟨_, hs', hp', hf'⟩ := diagStep_going_place hs hp hstep
    refine hu.nears hrun ?_
    rw [TxnStep.state, linRemaining_linCycle_diag _ hs' (hf' ▸ hf) hp']
    exact diagStep_going_remaining h hstep
  · exact State.nears_endCmd _ _ _

/-- LIN.CYCLE in the order of R210: the counter step, the status frame, the pause, the exchange. -/
theorem cycleStep_nears (hc : s.cfg.wf = true) (h : s.lin.runs s.cfg .linCycle) :
    (cycleStep s).nears .linCycle (linRemaining s.cfg .linCycle s.lin) := by
  by_cases hs : s.lin.stage = .frame
  · have hf : s.lin.phase = .brk ∧ s.lin.first = none := by simpa [hs] using h.1.stages
    have hlen : (statusBytes s.cfg (s.lin.counter + 1) s.lin.mode).length ≤ 8 := by simpa using statusLen_le_of_wf hc
    rw [cycleStep_frame hs, linRemaining_linCycle_frame _ hs]
    refine State.acting.nears (s := startStatus s) hP hrun ?_
    rw [linRemaining_linCycle_status (l := (startStatus s).lin) _ rfl hf.2]
    have := txnRemaining_startTxn_le (statusTxn s.cfg) s.cfg.statusId hlen (s.updLin fun l => { l with counter := l.counter + 1 })
    exact Nat.lt_of_le_of_lt (Nat.add_le_add_right this 17) (by omega)
  cases hf : s.lin.first with
  | none =>
    have hx : s.lin.stage = .xfer ∧ s.lin.phase ≠ .idle := by simpa [hs, hf] using h.1.stages
    rw [cycleStep_status hs hf]
    exact cycleStatusStep_nears hP hrun hx.1 hf (h.inTxn hx.1 hx.2 (by simp [commandTxn, hf]))
  | some o =>
    by_cases hp : s.lin.phase = .idle
    · have hx : s.lin.stage = .xfer := by simpa [hs, hp, hf] using h.1.stages
      rw [cycleStep_pause hs hf hp, linRemaining_linCycle_pause _ hx (by simp [hf]) hp]
      refine State.acting.nears (s := startDiag s) hP hrun ?_
      rw [linRemaining_linCycle_diag _ (by simp [startDiag, startTxn]) (by simp [startDiag, startTxn, hf])
        (by simp [startDiag, startTxn])]
      have := txnRemaining_startTxn_le (diagTxn s.cfg) s.cfg.diagId (diagReqData_length_le_of_wf hc) s
      exact Nat.lt_of_le_of_lt (Nat.add_le_add_right this 1) (by omega)
    · rw [cycleStep_diag hs hf hp]
      refine cycleDiagStep_nears hP hrun hs (by simp [hf]) hp fun htel => ?_
      have hx : s.lin.stage = .xfer := by simpa [hs, hf, htel, hp] using h.1.stages
      exact h.inTxn hx hp (by simp [commandTxn, hf])

theorem exec_run_nears {i : Instr} {t : State} (hi : usesEngine i = true) (hc : s.cfg.wf = true) (h : s.lin.runs s.cfg i)
    (hx : exec i s = .next t) : t.nears i (linRemaining s.cfg i s.lin) := by
  cases i <;> simp only [usesEngine, Bool.false_eq_true] at hi
  case linSend id len ck k r =>
    have hplace := h.stage_xfer (by simp) (by simp)
    rw [exec_linSend_run hP hrun] at hx; cases hx
    exact sendStep_nears hP hrun (h.inTxn hplace.1 hplace.2 rfl) fun _ _ => rfl
  case linXchg id len n ck k r =>
    have hplace := h.stage_xfer (by simp) (by simp)
    rw [exec_linXchg_run hP hrun] at hx; cases hx
    exact xchgStep_nears hP hrun (h.inTxn hplace.1 hplace.2 rfl) fun _ _ => rfl
  case linDiag =>
    rw [exec_linDiag_run hP hrun] at hx; cases hx
    refine diagCommandStep_nears hP hrun fun htel => ?_
    have hx : s.lin.stage = .xfer ∧ s.lin.phase ≠ .idle := by simpa [htel] using h.1.stages
    exact h.inTxn hx.1 hx.2 rfl
  case linCycle =>
    rw [exec_linCycle_run hP hrun] at hx; cases hx
    exact cycleStep_nears hP hrun hc h

end

/-! ### A command that does not own the engine yet (R204) -/

section
variable {s t : State} {P : Port} (hP : s.acting P) (hph : P.phase ≠ .lRun)
include hP hph

/-- From outside `L_RUN` the command ends, waits for the owner, or takes the free engine. -/
theorem linCommand_entry {load body : State → State} (hload : ∀ u : State, u.lin.phase = .brk → LoadKept u (load u))
    {legal : Bool} (h : linCommand legal load body s = .next t) :
    (∃ c ph, t = s.endCmd c ph) ∨ (t = s.goto .lWait ∧ ∃ q, s.lin.owner = some q) ∨ t.acting { P with phase := .lRun } := by
  have enters : (linEnter load s = s.goto .lWait ∧ ∃ q, s.lin.owner = some q)
      ∨ (linEnter load s).acting { P with phase := .lRun } := by
    cases ho : s.lin.owner with
    | none =>
      have k := hload s.entered rfl
      rw [linEnter_free ho]
      exact .inr (hP.entered_acting.of_eq k.ports k.cur)
    | some q => exact .inl ⟨linEnter_held ho load, q, rfl⟩
  unfold linCommand at h
  rw [hP.me] at h
  split at h
  case h_1 =>
    cases h
    split
    · exact .inr enters
    · exact .inl ⟨_, _, rfl⟩
  case h_2 => cases h; exact .inr enters
  case h_3 hrun => exact absurd hrun hph
  all_goals cases h

theorem exec_entry {i : Instr} (hi : usesEngine i = true) (hx : exec i s = .next t) :
    (∃ c ph, t = s.endCmd c ph) ∨ (t = s.goto .lWait ∧ ∃ q, s.lin.owner = some q) ∨ t.acting { P with phase := .lRun } := by
  cases i <;> simp only [usesEngine, Bool.false_eq_true] at hi
  case linSend id len ck k r => exact linCommand_entry hP hph (load := loadRequest id len) (fun u _ => startTxn_loadKept id _ u) hx
  case linXchg id len n ck k r =>
    exact linCommand_entry hP hph (load := loadRequest id len) (fun u _ => startTxn_loadKept id _ u) hx
  case linDiag => exact linCommand_entry hP hph (load := startDiag) (fun u _ => startTxn_loadKept _ _ u) hx
  case linCycle =>
    exact linCommand_entry hP hph (load := armCycle) (fun u hu => ⟨rfl, rfl, rfl, rfl, rfl, rfl, hu⟩) hx

end

/-- A port in `L_RUN` owns the engine, and its command is where it can be (R39, R46). -/
theorem State.Inv.runs {s : State} (h : s.Inv) {p : Nat} {P : Port} (hp : s.ports[p]? = some P) (hrun : P.phase = .lRun)
    {i : Instr} (hd : decode P.cw = .ok i) : s.lin.owner = some p ∧ s.lin.runs s.cfg i ∧ usesEngine i = true := by
  obtain ⟨howner, _⟩ := h.engine
  have hown : s.lin.owner = some p := (howner p P hp).mp hrun
  have hfit := (h.ports P (List.mem_of_getElem? hp)).fitsPhase hd
  exact ⟨hown, h.progress p P i hown hp hd, usesEngine_of_fitsPhase (by simpa [hrun] using hfit)⟩

/-- R325: no command is ever farther from its end than LIN's 34 micro-steps from READY. -/
theorem State.Inv.remaining_le {s : State} (h : s.Inv) {p : Nat} {P : Port} (hp : s.ports[p]? = some P) {i : Instr}
    (hd : decode P.cw = .ok i) : P.remaining s.cfg s.lin i ≤ 34 := by
  by_cases hrun : P.phase = .lRun
  · obtain ⟨_, hruns, hi⟩ := h.runs hp hrun hd
    rw [Port.remaining_lRun hrun]
    exact (hruns.remaining_le hi).trans (by omega)
  · exact (Port.remaining_outside hrun s.cfg s.lin s.lin i).2

/-! ### The port's own micro-step -/

/-- A command that uses the engine and is outside `L_RUN`: a port that is READY comes nearer the end of its command also by
waiting; one that already waits may find the engine taken. -/
theorem State.Inv.exec_entry_nears {i : Instr} {s t : State} {P : Port} (h : s.Inv) (hP : s.acting P) (hreq : P.req = true)
    (hd : decode P.cw = .ok i) (hi : usesEngine i = true) (hph : P.phase ≠ .lRun) (hx : Machine.exec i s = .next t) :
    t.nears i (P.remaining s.cfg s.lin i) ∨ (P.phase = .lWait ∧ t = s.goto .lWait ∧ ∃ q, s.lin.owner = some q) := by
  have hfit : P.phase = .ready ∨ P.phase = .lWait := by
    obtain hready | hfit := (h.ports P (List.mem_of_getElem? hP)).fitsPhase hd
    · exact .inl hready
    · exact .inr ((fitsPhase_of_usesEngine hi hfit).resolve_right hph)
  have hge : 33 ≤ P.remaining s.cfg s.lin i := by
    obtain hready | hwait := hfit
    · rw [Port.remaining_ready_usesEngine hready hi]; omega
    · rw [Port.remaining_lWait hwait]
  obtain ⟨c, ph, rfl⟩ | ⟨ht, howned⟩ | hQ := exec_entry hP hph hi hx
  · exact .inl (State.nears_endCmd _ _ _)
  · obtain hready | hwait := hfit
    · rw [ht, Port.remaining_ready_usesEngine hready hi]
      exact .inl (State.nears_goto (fun _ _ _ => rfl) (by decide) s)
    · exact .inr ⟨hwait, ht, howned⟩
  · obtain ⟨_, hruns, _⟩ := (h.exec hP hreq hd hx).runs hQ rfl hd
    exact .inl (hQ.nears rfl (Nat.lt_of_le_of_lt (hruns.remaining_le hi) hge))

/-- R325: a micro-step of the command that the acting port presents ends it or brings it nearer its end, but for a port held in
`L_WAIT`. -/
theorem State.Inv.exec_nears {i : Instr} {s t : State} {P : Port} (h : s.Inv) (hP : s.acting P) (hreq : P.req = true)
    (hd : decode P.cw = .ok i) (hx : Machine.exec i s = .next t) :
    t.nears i (P.remaining s.cfg s.lin i) ∨ (P.phase = .lWait ∧ t = s.goto .lWait ∧ ∃ q, s.lin.owner = some q) := by
  obtain hone | heng | ⟨d, rfl⟩ | ⟨d, rfl⟩ := instr_forms i
  · obtain ⟨u, c, ph, rfl⟩ := exec_oneStep_ends hone hx
    exact .inl (State.nears_endCmd _ _ _)
  · by_cases hrun : P.phase = .lRun
    · obtain ⟨_, hruns, _⟩ := h.runs hP hrun hd
      rw [Port.remaining_lRun hrun]
      exact .inl (exec_run_nears hP hrun heng h.cfgOk hruns hx)
    · exact h.exec_entry_nears hP hreq hd heng hrun hx
  · exact .inl (hP.me ▸ execMbPost_nears hx)
  · exact .inl (hP.me ▸ execMbFetch_nears hx)

/-- The same, said of the port after its micro-step; the engine it waits for is another port's (R46). -/
theorem State.Inv.exec_own {i : Instr} {s t : State} {P : Port} (h : s.Inv) (hP : s.acting P) (hreq : P.req = true)
    (hd : decode P.cw = .ok i) (hx : Machine.exec i s = .next t) :
    ∃ Q, t.ports[s.cur]? = some Q ∧ ((Q.req = false ∧ Q.phase = .ready)
      ∨ Q.remaining t.cfg t.lin i < P.remaining s.cfg s.lin i
      ∨ (Q.phase = .lWait ∧ ∃ q, q ≠ s.cur ∧ s.lin.owner = some q)) := by
  obtain ⟨Q, e⟩ := exec_effect hP hx
  have hQ : t.acting Q := e.acting hP
  refine ⟨Q, by rw [← e.cur]; exact hQ, ?_⟩
  obtain hnears | ⟨hwait, rfl, q, hq⟩ := h.exec_nears hP hreq hd hx
  · exact (hnears Q hQ).imp_right .inl
  · obtain ⟨howner, _⟩ := h.engine
    refine .inr (.inr ⟨hP.goto_phase hQ, q, fun hqp => ?_, hq⟩)
    have hrun := (howner s.cur P hP).mpr (hqp ▸ hq)
    rw [hwait] at hrun; cases hrun

/-! ### The steps of the other agents -/

/-- The command in progress on a port, and how far it has come: its word and its micro-phase. -/
structure Port.SameCommand (P Q : Port) : Prop where
  req : Q.req = P.req
  cw : Q.cw = P.cw
  phase : Q.phase = P.phase

theorem Port.SameCommand.refl (P : Port) : P.SameCommand P := ⟨rfl, rfl, rfl⟩

/-- A change of some port that leaves the command of port `p` alone when `p` is the port changed. -/
theorem exists_modify_sameCommand {ports : List Port} {p : Nat} {P : Port} (hp : ports[p]? = some P) (q : Nat) {f : Port → Port}
    (hf : P.SameCommand (f P)) : ∃ Q, (ports.modify q f)[p]? = some Q ∧ P.SameCommand Q := by
  rw [List.getElem?_modify, hp]
  by_cases hq : q = p
  · exact ⟨f P, by simp [hq], hf⟩
  · exact ⟨P, by simp [hq], Port.SameCommand.refl P⟩

/-- Another port's micro-step leaves the bound alone: a port in `L_RUN` owns the engine, and nobody else touches its progress. -/
theorem State.Inv.exec_other_remaining {j : Instr} {s t : State} {R : Port} (h : s.Inv) (hR : s.acting R)
    (hx : Machine.exec j s = .next t) {p : Nat} (hne : p ≠ s.cur) {P : Port} (hp : s.ports[p]? = some P) (i : Instr) :
    P.remaining t.cfg t.lin i = P.remaining s.cfg s.lin i := by
  obtain ⟨Q, e⟩ := exec_effect hR hx
  rw [e.cfg]
  by_cases hrun : P.phase = .lRun
  · obtain ⟨howner, _⟩ := h.engine
    have hown : s.lin.owner = some p := (howner p P hp).mp hrun
    have hRrun : R.phase ≠ .lRun := fun hr => hne (Option.some.inj (hown.symm.trans ((howner s.cur R hR).mp hr)))
    obtain ⟨m, w, hl⟩ | ⟨hfree, _⟩ := exec_outside hR h.cfgOk hRrun hx
    · rw [Port.remaining_lRun hrun, Port.remaining_lRun hrun, hl, linRemaining_mode_wake]
    · rw [hown] at hfree; cases hfree
  · exact (Port.remaining_outside hrun s.cfg t.lin s.lin i).1

/-- R325: a step of another agent but reset leaves a command in progress and its bound alone. -/
theorem step_other_remaining {s t : State} (hs : s.Inv) (hstep : step s = .next t) (hreset : s.nextEvent.1 ≠ .reset) {p : Nat}
    (hother : s.nextEvent.1 ≠ .port p) {P : Port} (hp : s.ports[p]? = some P) (hreq : P.req = true) (i : Instr) :
    ∃ Q, t.ports[p]? = some Q ∧ P.SameCommand Q ∧ Q.remaining t.cfg t.lin i = P.remaining s.cfg s.lin i := by
  have hu : s.nextEvent.2.ports[p]? = some P := by rw [s.nextEvent_ports]; exact hp
  have unchanged : t.cfg = s.nextEvent.2.cfg → t.lin = s.nextEvent.2.lin →
      (∃ Q, t.ports[p]? = some Q ∧ P.SameCommand Q) →
      ∃ Q, t.ports[p]? = some Q ∧ P.SameCommand Q ∧ Q.remaining t.cfg t.lin i = P.remaining s.cfg s.lin i := by
    intro hcfg hlin ⟨Q, hq, hsame⟩
    refine ⟨Q, hq, hsame, ?_⟩
    rw [hcfg, hlin, s.nextEvent_cfg, s.nextEvent_lin]
    exact Port.remaining_congr hsame.phase _ _ _
  cases step_cases hstep with
  | run q R j he hR _ _ hx =>
    have hne : p ≠ q := fun hpq => hother (hpq ▸ he)
    have hact : State.acting { s.nextEvent.2 with cur := q } R := hR
    obtain ⟨Q, e⟩ := exec_effect hact hx
    have hkept := (hs.nextEvent.schedule q).exec_other_remaining hact hx hne hu i
    refine ⟨P, ?_, Port.SameCommand.refl P, ?_⟩
    · rw [e.ports]
      exact (List.getElem?_set_ne hne.symm).trans hu
    · rw [← s.nextEvent_cfg, ← s.nextEvent_lin]
      exact hkept
  | illegal q R he _ _ _ _ ht =>
    have hne : p ≠ q := fun hpq => hother (hpq ▸ he)
    subst ht
    exact unchanged rfl rfl ⟨P, (List.getElem?_set_ne hne.symm).trans hu, Port.SameCommand.refl P⟩
  | idle _ _ _ ht => subst ht; exact unchanged rfl rfl ⟨P, hu, Port.SameCommand.refl P⟩
  | write q k v _ ht => subst ht; exact unchanged rfl rfl (exists_modify_sameCommand hu q ⟨rfl, rfl, rfl⟩)
  | present q w _ ht =>
    subst ht
    refine unchanged rfl rfl (exists_modify_sameCommand hu q ?_)
    rw [Port.present_busy hreq]
    exact Port.SameCommand.refl P
  | clock _ _ ht => subst ht; exact unchanged rfl rfl ⟨P, hu, Port.SameCommand.refl P⟩
  | reset he _ => exact absurd he hreset

/-- Settles O56: the bound is at most 34 (`State.Inv.remaining_le`); the port's own micro-step ends the command, lowers the bound or
finds the engine taken (`State.Inv.exec_own`); and no other agent's step raises it (`step_other_remaining`). -/
theorem commandsTerminate : Obligations.CommandsTerminate := by
  intro s t p P i hs hstep hreset hp hreq hd
  refine ⟨hs.remaining_le hp hd, ?_⟩
  by_cases he : s.nextEvent.1 = .port p
  · rw [step_of_event he] at hstep
    have hact : State.acting { s.nextEvent.2 with cur := p } P := by rw [← s.nextEvent_ports] at hp; exact hp
    have hx : exec i { s.nextEvent.2 with cur := p } = .next t :=
      (portStep_decoded (s := s.nextEvent.2) hact hreq hd).symm.trans hstep
    obtain ⟨Q, hq, hown⟩ := (hs.nextEvent.schedule p).exec_own hact hreq hd hx
    rw [← s.nextEvent_cfg, ← s.nextEvent_lin]
    exact ⟨Q, hq, fun _ => hown, fun hne => absurd he hne⟩
  · obtain ⟨Q, hq, hsame, hkept⟩ := step_other_remaining hs hstep hreset he hp hreq i
    exact ⟨Q, hq, fun h => absurd h he, fun _ => ⟨hsame.req.trans hreq, hsame.cw, hkept⟩⟩

end Sys2Proof.Machine
end
